-- ==== Sys2Proof/Word.lean ====
section
/-! DEFINITION. The word types of the GLN-6400 and the finite index types that name its parts. -/

namespace Sys2Proof

/-- A byte of any memory (R2). -/
abbrev Byte := BitVec 8
/-- A 64-bit register, pointer or token value. -/
abbrev Word := BitVec 64
/-- A 32-bit instruction word or a matrix element pattern. -/
abbrev W32 := BitVec 32
/-- The contents of one 512-byte register: v0–v31, e0–e3, or one chunk of the epilogue pipe (R54). -/
abbrev VReg := BitVec 4096
/-- The contents of one 1,024-bit predicate or tile mask (R54). -/
abbrev PReg := BitVec 1024
/-- A 5-bit register field. -/
abbrev Reg := BitVec 5
/-- A tile id (R9). -/
abbrev Tile := Fin 64
/-- A partition id (R305: 0–39). -/
abbrev PartId := Fin 40
/-- A virtual function: index i stands for VF i + 1 (R363). -/
abbrev VfId := Fin 256
/-- A launch queue of one VF (R364). -/
abbrev QueueId := Fin 64
/-- A controller of the update scheme (R351). -/
abbrev CtrlId := Fin 27
/-- A Granary core (R344). -/
abbrev CoreId := Fin 8

/-- The four sequencers of a tile (R12). -/
inductive Sq where
  | c | l | m | s
  deriving DecidableEq, Repr

end Sys2Proof
end

