-- ==== Sys2Proof/Syntax.lean ====
section
/-! DEFINITION. The instructions and events of the GLN-6400: one constructor of `Instr` per row of the opcode table,
its arguments the row's fields as the word formats R43, R45, R250 and R348 cut them, and the small types its rows use. -/

namespace Sys2Proof

/-- A host register that has no row of its own: a `REGISTER_WRITE` names it (R4, R366, R371, R377, R388). -/
inductive HostReg where
  /-- QBASE of a queue page (R366). -/
  | qbase (f : VfId) (q : QueueId)
  /-- CBASE of a queue page (R366). -/
  | cbase (f : VfId) (q : QueueId)
  /-- MBARG0–3 (R377). -/
  | mbarg (k : Fin 4)
  /-- MBCMD (R377). -/
  | mbcmd
  /-- HBMSR (R388, R392). -/
  | hbmsr
  /-- Message address of an MSI-X table entry; function 0 is the PF (R371). -/
  | msixAddr (f : Fin 257) (k : Fin 4)
  /-- Message data of an MSI-X table entry. -/
  | msixData (f : Fin 257) (k : Fin 4)
  /-- Vector control of an MSI-X table entry, written with the mask bit set (clearing it is VECTOR_UNMASK). -/
  | msixMask (f : Fin 257) (k : Fin 4)
  /-- A register or offset that ignores writes: every RO field and every unused offset (R4, R366). -/
  | readOnly
  deriving DecidableEq, Repr

/-- The memory word that a patrol-scrub read meets (R394). -/
inductive ScrubTarget where
  | slice (t : Tile) (block : Nat)
  | hbm (block : Nat)
  | granary (block : Nat)
  /-- A word of tile logic (register file, control store, weight buffer, queue): parity (R394). -/
  | logic (t : Tile)
  deriving DecidableEq, Repr

/-- What the check bits of the word say (R394). -/
inductive ScrubOutcome where
  | clean
  | corrected
  | uncorrectable
  deriving DecidableEq, Repr

/-- The 64-bit atomics of the AMO group (R120). -/
inductive AmoOp where
  | add | swp | cas | max | min | or | and
  deriving DecidableEq, Repr

/-- The flag operations that do not wait (R78). -/
inductive FlagFn where
  | set | clr | test | tas
  deriving DecidableEq, Repr

/-- What a Drambizo request asks of the target device (R380): a load; a store, whose data may be poisoned; an atomic; an operation on the
flag of a bit number in a tile's sync space; the part of a collective, `bytes` that a member's operand holds. -/
inductive FabricOp where
  | load (bytes : Nat)
  | store (data : List Byte) (poison : Bool)
  | amo (op : AmoOp) (operand : Word) (expect : Word)
  | flag (fn : FlagFn) (home : Tile) (bit : Nat)
  | coll (bytes : Nat)
  deriving DecidableEq, Repr

/-- An incoming Drambizo request: source device, tag, the partition it names here, the 48-bit offset (R381, R383). -/
structure FabricRequest where
  source : Nat
  tag : Nat
  part : PartId
  offset : Nat
  op : FabricOp
  deriving DecidableEq, Repr

/-- Branch conditions of RV64I. -/
inductive RvCond where
  | eq | ne | lt | ge | ltu | geu
  deriving DecidableEq, Repr

/-- The two-operand integer operations of RV64I and RV64M; the `w` forms act on 32 bits. -/
inductive RvOp where
  | add | sub | sll | slt | sltu | xor | srl | sra | or | and
  | mul | mulh | mulhsu | mulhu | div | divu | rem | remu
  | addw | subw | sllw | srlw | sraw | mulw | divw | divuw | remw | remuw
  deriving DecidableEq, Repr

/-- The CSR access operations. -/
inductive RvCsrOp where
  | rw | rs | rc
  deriving DecidableEq, Repr

/-- A standard RV64IMC instruction of a Granary core (R344); a compressed word decodes to the same form. -/
inductive RvInstr where
  | lui (rd : Reg) (imm : BitVec 20)
  | auipc (rd : Reg) (imm : BitVec 20)
  | jal (rd : Reg) (off : BitVec 21)
  | jalr (rd rs1 : Reg) (off : BitVec 12)
  | branch (c : RvCond) (rs1 rs2 : Reg) (off : BitVec 13)
  | load (funct3 : BitVec 3) (rd rs1 : Reg) (off : BitVec 12)
  | store (funct3 : BitVec 3) (rs1 rs2 : Reg) (off : BitVec 12)
  | opImm (o : RvOp) (rd rs1 : Reg) (imm : BitVec 12)
  | op (o : RvOp) (rd rs1 rs2 : Reg)
  | fence
  | ecall
  | ebreak
  | mret
  | wfi
  | csr (o : RvCsrOp) (rd : Reg) (src : Reg) (isImm : Bool) (num : BitVec 12)
  deriving DecidableEq, Repr

/-- The instructions, micro-orders, micro-ops, warrant instructions and events of the part (R48, R50, R51, R250, R349;
the rows of the opcode table without an encoding are the part's own transitions and the host's accesses). -/
inductive Instr where
  -- C words (R48)
  | add (d : Reg) (a : Reg) (b : Reg)
  | sub (d : Reg) (a : Reg) (b : Reg)
  | and (d : Reg) (a : Reg) (b : Reg)
  | or (d : Reg) (a : Reg) (b : Reg)
  | xor (d : Reg) (a : Reg) (b : Reg)
  | shl (d : Reg) (a : Reg) (b : Reg)
  | shr (d : Reg) (a : Reg) (b : Reg)
  | sar (d : Reg) (a : Reg) (b : Reg)
  | min (d : Reg) (a : Reg) (b : Reg)
  | max (d : Reg) (a : Reg) (b : Reg)
  | minu (d : Reg) (a : Reg) (b : Reg)
  | maxu (d : Reg) (a : Reg) (b : Reg)
  | slt (d : Reg) (a : Reg) (b : Reg)
  | sltu (d : Reg) (a : Reg) (b : Reg)
  | seq (d : Reg) (a : Reg) (b : Reg)
  | mul (d : Reg) (a : Reg) (b : Reg)
  | mulh (d : Reg) (a : Reg) (b : Reg)
  | div (d : Reg) (a : Reg) (b : Reg)
  | divu (d : Reg) (a : Reg) (b : Reg)
  | rem (d : Reg) (a : Reg) (b : Reg)
  | remu (d : Reg) (a : Reg) (b : Reg)
  | clz (d : Reg) (a : Reg)
  | ctz (d : Reg) (a : Reg)
  | popc (d : Reg) (a : Reg)
  | fshl (d : Reg) (a : Reg) (b : Reg)
  | fshr (d : Reg) (a : Reg) (b : Reg)
  | sextb (d : Reg) (a : Reg)
  | sexth (d : Reg) (a : Reg)
  | sextw (d : Reg) (a : Reg)
  | addi (d : Reg) (a : Reg) (i : BitVec 16)
  | andi (d : Reg) (a : Reg) (i : BitVec 16)
  | ori (d : Reg) (a : Reg) (i : BitVec 16)
  | xori (d : Reg) (a : Reg) (i : BitVec 16)
  | shli (d : Reg) (a : Reg) (i : BitVec 16)
  | shri (d : Reg) (a : Reg) (i : BitVec 16)
  | sari (d : Reg) (a : Reg) (i : BitVec 16)
  | slti (d : Reg) (a : Reg) (i : BitVec 16)
  | li (d : Reg) (i : BitVec 21)
  | liw (d : Reg) (i : BitVec 32)
  | lihw (d : Reg) (i : BitVec 32)
  | bext (d : Reg) (a : Reg) (p : BitVec 6) (l : BitVec 6)
  | bins (d : Reg) (a : Reg) (p : BitVec 6) (l : BitVec 6)
  | bextv (d : Reg) (a : Reg) (b : Reg)
  | beq (a : Reg) (b : Reg) (o : BitVec 16)
  | bne (a : Reg) (b : Reg) (o : BitVec 16)
  | blt (a : Reg) (b : Reg) (o : BitVec 16)
  | bge (a : Reg) (b : Reg) (o : BitVec 16)
  | bltu (a : Reg) (b : Reg) (o : BitVec 16)
  | bgeu (a : Reg) (b : Reg) (o : BitVec 16)
  | j (o : BitVec 26)
  | jal (o : BitVec 26)
  | jr (d : Reg) (a : Reg)
  | loop (a : Reg) (o : BitVec 16)
  | sldb (d : Reg) (a : Reg) (i : BitVec 16)
  | sldh (d : Reg) (a : Reg) (i : BitVec 16)
  | sldw (d : Reg) (a : Reg) (i : BitVec 16)
  | sldd (d : Reg) (a : Reg) (i : BitVec 16)
  | sstb (d : Reg) (a : Reg) (i : BitVec 16)
  | ssth (d : Reg) (a : Reg) (i : BitVec 16)
  | sstw (d : Reg) (a : Reg) (i : BitVec 16)
  | sstd (d : Reg) (a : Reg) (i : BitVec 16)
  | amoadd (d : Reg) (a : Reg) (b : Reg) (sc : BitVec 3) (o : BitVec 2)
  | amoswp (d : Reg) (a : Reg) (b : Reg) (sc : BitVec 3) (o : BitVec 2)
  | amocas (d : Reg) (a : Reg) (b : Reg) (sc : BitVec 3) (o : BitVec 2)
  | amomax (d : Reg) (a : Reg) (b : Reg) (sc : BitVec 3) (o : BitVec 2)
  | amomin (d : Reg) (a : Reg) (b : Reg) (sc : BitVec 3) (o : BitVec 2)
  | amoor (d : Reg) (a : Reg) (b : Reg) (sc : BitVec 3) (o : BitVec 2)
  | amoand (d : Reg) (a : Reg) (b : Reg) (sc : BitVec 3) (o : BitVec 2)
  | fset (a : Reg) (b : Reg) (sc : BitVec 3) (o : BitVec 2)
  | fclr (a : Reg) (b : Reg) (sc : BitVec 3) (o : BitVec 2)
  | ftest (d : Reg) (a : Reg) (b : Reg) (sc : BitVec 3) (o : BitVec 2)
  | ftas (d : Reg) (a : Reg) (b : Reg) (sc : BitVec 3) (o : BitVec 2)
  | fwait (a : Reg) (b : Reg) (sc : BitVec 3) (o : BitVec 2)
  | fwaitc (a : Reg) (b : Reg) (sc : BitVec 3) (o : BitVec 2)
  | waita (d : Reg) (a : Reg) (b : Reg) (sc : BitVec 3) (o : BitVec 2)
  | trun (d : Reg) (a : Reg) (b : Reg)
  | tbase (d : Reg) (a : Reg) (b : Reg)
  | tstop (d : Reg)
  | twait (d : Reg)
  | tcut (d : Reg) (a : Reg)
  | tstat (d : Reg) (a : Reg)
  | tkput (a : Reg) (b : Reg)
  | tkget (d : Reg) (b : Reg)
  | tkcnt (d : Reg) (b : Reg)
  | tkreset (d : Reg) (a : Reg) (b : Reg)
  | setn (d : Reg) (a : Reg)
  | xcopy (d : Reg) (a : Reg) (b : Reg) (sc : BitVec 3) (o : BitVec 2) (n : BitVec 1)
  | xgath (d : Reg) (a : Reg) (sc : BitVec 3) (o : BitVec 2) (n : BitVec 1)
  | xscat (d : Reg) (a : Reg) (sc : BitVec 3) (o : BitVec 2) (n : BitVec 1)
  | xcoll (d : Reg) (a : Reg) (sc : BitVec 3) (o : BitVec 2) (n : BitVec 1)
  | xpref (d : Reg) (a : Reg) (sc : BitVec 3) (o : BitVec 2) (n : BitVec 1)
  | xlayer (d : Reg) (sc : BitVec 3) (o : BitVec 2) (n : BitVec 1)
  | xpin (d : Reg) (a : Reg) (sc : BitVec 3) (o : BitVec 2) (n : BitVec 1)
  | xunpin (d : Reg) (a : Reg) (sc : BitVec 3) (o : BitVec 2) (n : BitVec 1)
  | xgen (d : Reg) (a : Reg)
  | xwaitc (d : Reg) (a : Reg) (sc : BitVec 3) (o : BitVec 2)
  | xqstat (d : Reg) (a : Reg)
  | egsub (d : Reg) (a : Reg) (sc : BitVec 3) (o : BitVec 2) (n : BitVec 1)
  | kvalloc (d : Reg) (a : Reg) (b : Reg) (n : BitVec 1)
  | kvfree (d : Reg) (a : Reg)
  | kvref (d : Reg) (a : Reg)
  | kvlook (d : Reg) (a : Reg) (b : Reg)
  | kvmap (d : Reg) (a : Reg) (b : Reg)
  | taskpost (d : Reg) (a : Reg)
  | taskyld (d : Reg)
  | glaunch (d : Reg) (a : Reg)
  | slack (d : Reg)
  | rung (d : Reg) (a : Reg) (b : Reg)
  | frmacq (d : Reg) (a : Reg)
  | frmcommit (d : Reg) (a : Reg) (b : Reg)
  | phase (d : Reg) (sc : BitVec 3) (o : BitVec 2)
  | pharr (d : Reg) (a : Reg) (sc : BitVec 3) (o : BitVec 2)
  | phwait (a : Reg) (b : Reg) (sc : BitVec 3) (o : BitVec 2)
  | fence (sc : BitVec 3) (o : BitVec 2)
  | rels (a : Reg) (b : Reg) (sc : BitVec 3)
  | acqs (d : Reg) (a : Reg) (sc : BitVec 3)
  | atgo (d : Reg) (a : Reg)
  | atwait (d : Reg) (a : Reg)
  | atload (a : Reg) (b : Reg)
  | atstat (d : Reg)
  | svc (d : Reg) (a : Reg) (b : Reg)
  | trapret (d : Reg) (a : Reg) (b : Reg)
  | yrd (d : Reg) (a : Reg) (b : Reg)
  | ywr (d : Reg) (a : Reg) (b : Reg)
  | idle (d : Reg) (a : Reg)
  | tqpop (d : Reg) (a : Reg)
  | freeze (d : Reg) (a : Reg)
  | husksave (d : Reg) (a : Reg) (b : Reg)
  | huskload (d : Reg) (a : Reg) (b : Reg)
  | evpost (d : Reg) (a : Reg)
  -- L and S micro-orders (R50)
  | vld (p : BitVec 3) (q : BitVec 3) (v : Reg) (a : BitVec 4) (n : BitVec 1) (o : BitVec 10)
  | vlds (p : BitVec 3) (q : BitVec 3) (d : Reg) (a : Reg) (b : Reg)
  | vldg (p : BitVec 3) (q : BitVec 3) (d : Reg) (a : Reg) (b : Reg)
  | vldb (p : BitVec 3) (q : BitVec 3) (v : Reg) (a : BitVec 4) (n : BitVec 1) (o : BitVec 10)
  | pld (p : BitVec 3) (q : BitVec 3) (v : Reg) (a : BitVec 4) (n : BitVec 1) (o : BitVec 10)
  | mald (p : BitVec 3) (q : BitVec 3) (sc : BitVec 1) (a : BitVec 4) (r : BitVec 7)
  | wld (p : BitVec 3) (q : BitVec 3) (d : BitVec 4) (a : BitVec 4) (i : BitVec 12)
  | zld (p : BitVec 3) (q : BitVec 3) (k : BitVec 2) (a : BitVec 4) (r : BitVec 7)
  | vst (p : BitVec 3) (q : BitVec 3) (v : Reg) (a : BitVec 4) (n : BitVec 1) (o : BitVec 10)
  | vsts (p : BitVec 3) (q : BitVec 3) (d : Reg) (a : Reg) (b : Reg)
  | vstg (p : BitVec 3) (q : BitVec 3) (d : Reg) (a : Reg) (b : Reg)
  | vstm (p : BitVec 3) (q : BitVec 3) (d : Reg) (a : Reg) (k : BitVec 3)
  | est (p : BitVec 3) (q : BitVec 3) (d : BitVec 4) (a : BitVec 4) (i : BitVec 12)
  | pst (p : BitVec 3) (q : BitVec 3) (v : Reg) (a : BitVec 4) (n : BitVec 1) (o : BitVec 10)
  | aadd (p : BitVec 3) (q : BitVec 3) (d : Reg) (a : Reg) (b : Reg)
  | aaddi (p : BitVec 3) (q : BitVec 3) (d : BitVec 4) (a : BitVec 4) (i : BitVec 12)
  | aset (p : BitVec 3) (q : BitVec 3) (d : BitVec 4) (a : BitVec 4) (i : BitVec 12) (j : BitVec 32)
  | amov (p : BitVec 3) (q : BitVec 3) (d : BitVec 4) (a : BitVec 4)
  | amovTok (p : BitVec 3) (q : BitVec 3) (d : BitVec 4)
  | awrap (p : BitVec 3) (q : BitVec 3) (d : BitVec 4) (a : BitVec 4) (k : Reg)
  | astep (p : BitVec 3) (q : BitVec 3) (d : BitVec 4) (i : BitVec 12)
  | astepReg (p : BitVec 3) (q : BitVec 3) (d : BitVec 4) (a : BitVec 4)
  | bfull (p : BitVec 3) (q : BitVec 3) (a : BitVec 4) (i : BitVec 12)
  | bempty (p : BitVec 3) (q : BitVec 3) (a : BitVec 4) (i : BitVec 12)
  | bwait (p : BitVec 3) (q : BitVec 3) (a : BitVec 4) (i : BitVec 12)
  | btest (p : BitVec 3) (q : BitVec 3) (a : BitVec 4) (i : BitVec 12)
  | qbind (p : BitVec 3) (q : BitVec 3) (sc : BitVec 3) (a : BitVec 4) (i : BitVec 12)
  | qfree (p : BitVec 3) (q : BitVec 3) (sc : BitVec 3)
  | pfb (p : BitVec 3) (q : BitVec 3) (a : BitVec 4) (i : BitVec 12)
  | lnop (p : BitVec 3) (q : BitVec 3)
  -- M micro-orders (R51)
  | vcfg (p : BitVec 3) (q : BitVec 3) (i : BitVec 8)
  | vadd (p : BitVec 3) (q : BitVec 3) (d : Reg) (a : Reg) (b : Reg) (k : BitVec 3) (m : BitVec 2)
  | vsub (p : BitVec 3) (q : BitVec 3) (d : Reg) (a : Reg) (b : Reg) (k : BitVec 3) (m : BitVec 2)
  | vmul (p : BitVec 3) (q : BitVec 3) (d : Reg) (a : Reg) (b : Reg) (k : BitVec 3) (m : BitVec 2)
  | vfma (p : BitVec 3) (q : BitVec 3) (d : Reg) (a : Reg) (b : Reg) (k : BitVec 3) (m : BitVec 2)
  | vfms (p : BitVec 3) (q : BitVec 3) (d : Reg) (a : Reg) (b : Reg) (k : BitVec 3) (m : BitVec 2)
  | vmin (p : BitVec 3) (q : BitVec 3) (d : Reg) (a : Reg) (b : Reg) (k : BitVec 3) (m : BitVec 2)
  | vmax (p : BitVec 3) (q : BitVec 3) (d : Reg) (a : Reg) (b : Reg) (k : BitVec 3) (m : BitVec 2)
  | vand (p : BitVec 3) (q : BitVec 3) (d : Reg) (a : Reg) (b : Reg) (k : BitVec 3) (m : BitVec 2)
  | vor (p : BitVec 3) (q : BitVec 3) (d : Reg) (a : Reg) (b : Reg) (k : BitVec 3) (m : BitVec 2)
  | vxor (p : BitVec 3) (q : BitVec 3) (d : Reg) (a : Reg) (b : Reg) (k : BitVec 3) (m : BitVec 2)
  | vshl (p : BitVec 3) (q : BitVec 3) (d : Reg) (a : Reg) (b : Reg) (k : BitVec 3) (m : BitVec 2)
  | vshr (p : BitVec 3) (q : BitVec 3) (d : Reg) (a : Reg) (b : Reg) (k : BitVec 3) (m : BitVec 2)
  | vsar (p : BitVec 3) (q : BitVec 3) (d : Reg) (a : Reg) (b : Reg) (k : BitVec 3) (m : BitVec 2)
  | vabs (p : BitVec 3) (q : BitVec 3) (d : Reg) (a : Reg) (k : BitVec 3) (m : BitVec 1)
  | vneg (p : BitVec 3) (q : BitVec 3) (d : Reg) (a : Reg) (k : BitVec 3) (m : BitVec 1)
  | vcmp (p : BitVec 3) (q : BitVec 3) (d : Reg) (a : Reg) (b : Reg) (c : BitVec 3) (m : BitVec 2)
  | vsel (p : BitVec 3) (q : BitVec 3) (d : Reg) (a : Reg) (b : Reg) (k : BitVec 3) (m : BitVec 2)
  | vmov (p : BitVec 3) (q : BitVec 3) (d : Reg) (a : Reg) (k : BitVec 3) (m : BitVec 1)
  | vbci (p : BitVec 3) (q : BitVec 3) (d : Reg) (i : BitVec 15)
  | vsfu (p : BitVec 3) (q : BitVec 3) (d : Reg) (a : Reg) (f : Reg) (k : BitVec 3) (m : BitVec 1)
  | vred (p : BitVec 3) (q : BitVec 3) (d : Reg) (a : Reg) (f : Reg) (k : BitVec 3) (m : BitVec 1)
  | vscan (p : BitVec 3) (q : BitVec 3) (d : Reg) (a : Reg) (f : Reg) (k : BitVec 3) (m : BitVec 1)
  | vperm (p : BitVec 3) (q : BitVec 3) (d : Reg) (a : Reg) (b : Reg) (k : BitVec 3) (m : BitVec 2)
  | vzip (p : BitVec 3) (q : BitVec 3) (d : Reg) (a : Reg) (b : Reg) (k : BitVec 3) (m : BitVec 2)
  | vunzip (p : BitVec 3) (q : BitVec 3) (d : Reg) (a : Reg) (b : Reg) (k : BitVec 3) (m : BitVec 2)
  | vcvt (p : BitVec 3) (q : BitVec 3) (d : Reg) (a : Reg) (t : Reg) (k : BitVec 3) (m : BitVec 1)
  | vwmul (p : BitVec 3) (q : BitVec 3) (d : Reg) (a : Reg) (b : Reg) (k : BitVec 3) (m : BitVec 2)
  | vwadd (p : BitVec 3) (q : BitVec 3) (d : Reg) (a : Reg) (b : Reg) (k : BitVec 3) (m : BitVec 2)
  | vnarr (p : BitVec 3) (q : BitVec 3) (d : Reg) (a : Reg) (b : Reg) (k : BitVec 3) (m : BitVec 2)
  | vmxq (p : BitVec 3) (q : BitVec 3) (d : Reg) (a : Reg) (b : Reg) (k : BitVec 3) (m : BitVec 1)
  | vmxd (p : BitVec 3) (q : BitVec 3) (d : Reg) (a : Reg) (b : Reg) (k : BitVec 3) (m : BitVec 2)
  | vidx (p : BitVec 3) (q : BitVec 3) (d : Reg) (k : BitVec 3)
  | vslide (p : BitVec 3) (q : BitVec 3) (d : Reg) (a : Reg) (b : Reg) (k : BitVec 3) (m : BitVec 2)
  | vqpop (p : BitVec 3) (q : BitVec 3) (d : Reg) (a : Reg) (c : Reg) (k : BitVec 3)
  | plog (p : BitVec 3) (q : BitVec 3) (d : Reg) (a : Reg) (b : Reg) (f : BitVec 3)
  | pcnt (p : BitVec 3) (q : BitVec 3) (a : Reg)
  | vtos (p : BitVec 3) (q : BitVec 3) (a : Reg) (k : BitVec 3) (m : BitVec 1)
  | vfrs (p : BitVec 3) (q : BitVec 3) (d : Reg) (k : BitVec 3)
  | mcfg (p : BitVec 3) (q : BitVec 3) (d : Reg) (i : BitVec 15)
  | mma (p : BitVec 3) (q : BitVec 3) (z : BitVec 2) (k : BitVec 2) (u : BitVec 1) (n : BitVec 3) (g : BitVec 12)
  | mzero (p : BitVec 3) (q : BitVec 3) (z : BitVec 2) (n : BitVec 3)
  | mdrain (p : BitVec 3) (q : BitVec 3) (d : Reg) (a : Reg) (b : Reg) (j : BitVec 3)
  | scout (p : BitVec 3) (q : BitVec 3) (z : BitVec 2) (n : BitVec 3) (g : BitVec 12)
  | kmaskKmax (p : BitVec 3) (q : BitVec 3) (d : Reg) (a : Reg)
  | kmaskKkeep (p : BitVec 3) (q : BitVec 3) (d : Reg) (a : Reg) (b : Reg)
  | kmaskKrange (p : BitVec 3) (q : BitVec 3) (d : Reg)
  | kmaskKclr (p : BitVec 3) (q : BitVec 3) (d : Reg)
  | kmaskKor (p : BitVec 3) (q : BitVec 3) (d : Reg) (a : Reg)
  | kmaskKtop (p : BitVec 3) (q : BitVec 3) (d : Reg) (a : Reg)
  | kmaskKfromp (p : BitVec 3) (q : BitVec 3) (d : Reg) (a : Reg)
  | epset (p : BitVec 3) (q : BitVec 3) (d : Reg) (a : Reg) (m : BitVec 1)
  | wsel (p : BitVec 3) (q : BitVec 3) (i : BitVec 15)
  | wselTok (p : BitVec 3) (q : BitVec 3)
  | mnop (p : BitVec 3) (q : BitVec 3)
  -- Rachis micro-ops (R250)
  | hset (a : BitVec 4) (i : BitVec 18)
  | hsetTile (a : BitVec 4)
  | hadd (a : BitVec 4) (b : BitVec 4) (i : BitVec 18)
  | hloop (a : BitVec 4) (o : BitVec 18)
  | hbr (a : BitVec 4) (b : BitVec 4) (o : BitVec 18)
  | hflag (a : BitVec 4) (b : BitVec 4) (sc : BitVec 3) (f : BitVec 2)
  | hkv (a : BitVec 4) (b : BitVec 4) (k : BitVec 1) (w : BitVec 2)
  | hscout (a : BitVec 4) (b : BitVec 4)
  | hwin (a : BitVec 4)
  | hqk (a : BitVec 4)
  -- Granary warrant instructions (R349, R350)
  | cgetb (a : Reg) (d : Reg)
  | cgetl (a : Reg) (d : Reg)
  | cgetp (a : Reg) (d : Reg)
  | ctag (a : Reg) (d : Reg)
  | candp (b : Reg) (a : Reg) (d : Reg)
  | cseal (b : Reg) (a : Reg) (d : Reg)
  | cunseal (b : Reg) (a : Reg) (d : Reg)
  | cmove (a : Reg) (d : Reg)
  | cjalr (b : Reg) (a : Reg) (d : Reg)
  | csetb (c : Reg) (b : Reg) (a : Reg) (d : Reg)
  | cld (w : Reg) (i : BitVec 7) (a : Reg) (n : BitVec 2) (d : Reg)
  | cldc (w : Reg) (i : BitVec 7) (a : Reg) (d : Reg)
  | cst (w : Reg) (i : BitVec 2) (b : Reg) (a : Reg) (n : BitVec 2) (i2 : Reg)
  | cstc (w : Reg) (i : BitVec 2) (b : Reg) (a : Reg) (i2 : Reg)
  -- a standard RV64 word, and a word outside the maps
  | illegal (w : W32)
  | rv64 (short : Bool) (i : RvInstr)
  -- words without fields, then the events and host accesses: their tile, unit and other particulars stand in State.ev
  | taskend
  | halt
  | brkpt
  | hwait
  | htree
  | hmax
  | hexp
  | hsum
  | hresc
  | hpv
  | hdrain
  | hnop
  | hend
  | runStart
  | startQueueWrite
  | deferredPush
  | tokenTimeout
  | storePerform
  | loadResponse
  | fwaitWake
  | waitaWake
  | waitaTimeout
  | idleWake
  | matrixOperationFinish
  | mdrainChunk
  | rescan
  | ytlbinv
  | commandStart
  | commandAcquire
  | segment
  | commandComplete
  | completionTokenPush
  | budgetWindow
  | grainMove
  | scrub
  | encoderAccept
  | frameEncoded
  | placement
  | exchangeLanding
  | phaseRecordLoad
  | preload
  | dispatch
  | tillerFreeze
  | huskSave
  | huskRestore
  | taskWatchdog
  | firing
  | streamWatchdog
  | thresherDecision
  | checkpointDone
  | escalation
  | worldSwitch
  | notify
  | queueEnable
  | queueDisable
  | queueDisableDone
  | registerWrite
  | streamCreate
  | streamDestroy
  | graphLaunch
  | memMapAlloc
  | memMapFree
  | memMapHwin
  | memMapHunmap
  | memMapProtect
  | evict
  | migrateStart
  | migrateRound
  | migrateStop
  | migrateResume
  | migrateCancel
  | unknownOp
  | recordComplete
  | bar2Read
  | bar2Write
  | vectorUnmask
  | flr
  | flrDone
  | image
  | switch
  | abort
  | attest
  | part
  | bind
  | unbind
  | domain
  | unknownCmd
  | mailboxDone
  | ucmdVerify
  | verificationDone
  | ucmdSwitch
  | ucmdHandoverAccept
  | ucmdHeartbeat
  | ucmdAbort
  | handoverTimeout
  | trialHeartbeatGap
  | controllerResetInTrial
  | heartbeatGap
  | reset
  | thermalTrip
  | tripclr
  | level
  | effChange
  | tilepwr
  | tileWake
  | pwrerrRead
  | d3hotEntry
  | d0Return
  | d3cold
  | patrolScrub
  | errorCounterRead
  | fabricRequestServe
  | fabricReissue
  | portLost
  | fabricNoPlane
  | atomicResultExpiry
  deriving DecidableEq, Repr

end Sys2Proof
end

