-- ==== Sys2Proof/WellFormed.lean ====
section
/-! DEFINITION. Well-formed instructions: the checks of R52 that an encoding makes beyond its fixed bits
(orders and scopes a function accepts, registers beyond their file, token queues of the issuing sequencer, shift
immediates), and the map of each instruction. -/

namespace Sys2Proof

/-- The instruction maps of R48, R50, R51, R250 and R348; `e` marks the rows that have no encoding. -/
inductive IMap where
  | c | l | s | m | h | g | e
  deriving DecidableEq, Repr

namespace WellFormed

/-- A scope field below 6 (R13). -/
def scopeOk (sc : BitVec 3) : Bool := decide (sc.toNat ≤ 5)
/-- The order field names an acquire (R44: 0b01, 0b11). -/
def ordAcq (o : BitVec 2) : Bool := o.getLsbD 0
/-- The order field names a release (R44: 0b10, 0b11). -/
def ordRel (o : BitVec 2) : Bool := o.getLsbD 1
/-- With order none the scope is 0, and with any other order it is 0–5 (R78, R120, R219). -/
def orderScope (o : BitVec 2) (sc : BitVec 3) : Bool := scopeOk sc && (o != 0 || sc == 0)
/-- A TSEQ target: 1 L, 2 M, 3 S (R88). -/
def target (d : Reg) : Bool := d == 1 || d == 2 || d == 3
/-- A 5-bit field that names a0–a15 (R46). -/
def addrReg (a : Reg) : Bool := decide (a.toNat ≤ 15)
/-- A 5-bit field that names p0–p7 or q0–q7 (R54). -/
def predReg (a : Reg) : Bool := decide (a.toNat ≤ 7)
/-- A stream bit on field a: with the bit set, a[4:3] is zero (R46). -/
def stream1 (m : BitVec 1) (a : Reg) : Bool := m == 0 || predReg a
/-- The stream bits on fields a and b (R46). -/
def streams (m : BitVec 2) (a b : Reg) : Bool := (!m.getLsbD 0 || predReg a) && (!m.getLsbD 1 || predReg b)
/-- An even register, or one that is a multiple of four (R159). -/
def multipleOf (k : Nat) (d : Reg) : Bool := d.toNat % k == 0
/-- MCFG's field and value (R186): no reserved bit, AFMT not 6 or 7, BSRC not 3. -/
def mcfgOk (d : Reg) (i : BitVec 15) : Bool :=
  if d == 0 then i.extractLsb' 0 5 == 0 && decide ((i.extractLsb' 10 3).toNat ≤ 5) && decide ((i.extractLsb' 8 2).toNat ≤ 2)
  else if d == 1 then i.extractLsb' 10 5 == 0
  else if d == 2 then true
  else if d == 3 then i.extractLsb' 7 8 == 0
  else if d == 4 then i.extractLsb' 5 10 == 0
  else false
/-- The pop and push values that name a queue of L, S or M (R47). -/
def popPushL (p q : BitVec 3) : Bool := decide (p.toNat ≤ 4) && decide (q.toNat ≤ 2)
def popPushS (p q : BitVec 3) : Bool := decide (p.toNat ≤ 2) && decide (q.toNat ≤ 2)
def popPushM (p q : BitVec 3) : Bool := decide (p.toNat ≤ 2) && decide (q.toNat ≤ 3)

end WellFormed

open WellFormed

/-- `i` may issue from the given map: its fields meet R52 and, for a micro-order, its queues are the sequencer's (R47)
and its entry is legal there (R50). -/
def Instr.wfIn (mp : IMap) (i : Instr) : Bool :=
  match i with
  | .add _ _ _ => mp == .c
  | .sub _ _ _ => mp == .c
  | .and _ _ _ => mp == .c
  | .or _ _ _ => mp == .c
  | .xor _ _ _ => mp == .c
  | .shl _ _ _ => mp == .c
  | .shr _ _ _ => mp == .c
  | .sar _ _ _ => mp == .c
  | .min _ _ _ => mp == .c
  | .max _ _ _ => mp == .c
  | .minu _ _ _ => mp == .c
  | .maxu _ _ _ => mp == .c
  | .slt _ _ _ => mp == .c
  | .sltu _ _ _ => mp == .c
  | .seq _ _ _ => mp == .c
  | .mul _ _ _ => mp == .c
  | .mulh _ _ _ => mp == .c
  | .div _ _ _ => mp == .c
  | .divu _ _ _ => mp == .c
  | .rem _ _ _ => mp == .c
  | .remu _ _ _ => mp == .c
  | .clz _ _ => mp == .c
  | .ctz _ _ => mp == .c
  | .popc _ _ => mp == .c
  | .fshl _ _ _ => mp == .c
  | .fshr _ _ _ => mp == .c
  | .sextb _ _ => mp == .c
  | .sexth _ _ => mp == .c
  | .sextw _ _ => mp == .c
  | .addi _ _ _ => mp == .c
  | .andi _ _ _ => mp == .c
  | .ori _ _ _ => mp == .c
  | .xori _ _ _ => mp == .c
  | .shli _ _ i => mp == .c && decide (i.toNat ≤ 63)
  | .shri _ _ i => mp == .c && decide (i.toNat ≤ 63)
  | .sari _ _ i => mp == .c && decide (i.toNat ≤ 63)
  | .slti _ _ _ => mp == .c
  | .li _ _ => mp == .c
  | .liw _ _ => mp == .c
  | .lihw _ _ => mp == .c
  | .bext _ _ p l => mp == .c && decide (p.toNat + l.toNat + 1 ≤ 64)
  | .bins _ _ p l => mp == .c && decide (p.toNat + l.toNat + 1 ≤ 64)
  | .bextv _ _ _ => mp == .c
  | .beq _ _ _ => mp == .c
  | .bne _ _ _ => mp == .c
  | .blt _ _ _ => mp == .c
  | .bge _ _ _ => mp == .c
  | .bltu _ _ _ => mp == .c
  | .bgeu _ _ _ => mp == .c
  | .j _ => mp == .c
  | .jal _ => mp == .c
  | .jr _ _ => mp == .c
  | .loop _ _ => mp == .c
  | .sldb _ _ _ => mp == .c
  | .sldh _ _ _ => mp == .c
  | .sldw _ _ _ => mp == .c
  | .sldd _ _ _ => mp == .c
  | .sstb _ _ _ => mp == .c
  | .ssth _ _ _ => mp == .c
  | .sstw _ _ _ => mp == .c
  | .sstd _ _ _ => mp == .c
  | .amoadd _ _ _ sc o => mp == .c && orderScope o sc
  | .amoswp _ _ _ sc o => mp == .c && orderScope o sc
  | .amocas _ _ _ sc o => mp == .c && orderScope o sc
  | .amomax _ _ _ sc o => mp == .c && orderScope o sc
  | .amomin _ _ _ sc o => mp == .c && orderScope o sc
  | .amoor _ _ _ sc o => mp == .c && orderScope o sc
  | .amoand _ _ _ sc o => mp == .c && orderScope o sc
  | .fset _ _ sc o => mp == .c && orderScope o sc && !ordAcq o
  | .fclr _ _ sc o => mp == .c && orderScope o sc && !ordAcq o
  | .ftest _ _ _ sc o => mp == .c && orderScope o sc && !ordRel o
  | .ftas _ _ _ sc o => mp == .c && orderScope o sc
  | .fwait _ _ sc o => mp == .c && orderScope o sc && !ordRel o
  | .fwaitc _ _ sc o => mp == .c && orderScope o sc && !ordRel o
  | .waita _ _ _ sc o => mp == .c && orderScope o sc && !ordRel o
  | .trun d _ _ => mp == .c && target d
  | .tbase d _ b => mp == .c && ((d == 1 || d == 3) && decide (b.toNat ≤ 15))
  | .tstop d => mp == .c && target d
  | .twait d => mp == .c && target d
  | .tcut _ a => mp == .c && target a
  | .tstat _ a => mp == .c && target a
  | .tkput _ b => mp == .c && decide (b.toNat ≤ 2)
  | .tkget _ b => mp == .c && (b == 7 || b == 8 || b == 9 || b == 11)
  | .tkcnt _ b => mp == .c && decide (b.toNat ≤ 11)
  | .tkreset _ _ b => mp == .c && decide (b.toNat ≤ 11)
  | .setn d _ => mp == .c && decide (d.toNat ≤ 7)
  | .xcopy _ _ _ sc o _ => mp == .c && orderScope o sc
  | .xgath _ _ sc o _ => mp == .c && orderScope o sc
  | .xscat _ _ sc o _ => mp == .c && orderScope o sc
  | .xcoll _ _ sc o _ => mp == .c && orderScope o sc
  | .xpref _ _ sc o _ => mp == .c && orderScope o sc
  | .xlayer _ sc o _ => mp == .c && orderScope o sc
  | .xpin _ _ sc o _ => mp == .c && orderScope o sc
  | .xunpin _ _ sc o _ => mp == .c && orderScope o sc
  | .xgen _ _ => mp == .c
  | .xwaitc _ _ sc o => mp == .c && orderScope o sc && !ordRel o
  | .xqstat _ _ => mp == .c
  | .egsub _ _ sc o _ => mp == .c && orderScope o sc
  | .kvalloc _ _ _ _ => mp == .c
  | .kvfree _ _ => mp == .c
  | .kvref _ _ => mp == .c
  | .kvlook _ _ _ => mp == .c
  | .kvmap _ _ _ => mp == .c
  | .taskpost _ _ => mp == .c
  | .taskend => mp == .c
  | .taskyld _ => mp == .c
  | .glaunch _ _ => mp == .c
  | .slack _ => mp == .c
  | .rung _ _ _ => mp == .c
  | .frmacq _ _ => mp == .c
  | .frmcommit _ _ _ => mp == .c
  | .phase _ sc o => mp == .c && o == 0 && sc == 0
  | .pharr _ _ sc o => mp == .c && (orderScope o sc && !ordAcq o && (o == 0 || sc != 0))
  | .phwait _ _ sc o => mp == .c && (orderScope o sc && !ordRel o && (o == 0 || sc != 0))
  | .fence sc o => mp == .c && orderScope o sc && o != 0
  | .rels _ _ sc => mp == .c && scopeOk sc
  | .acqs _ _ sc => mp == .c && scopeOk sc
  | .atgo _ _ => mp == .c
  | .atwait _ _ => mp == .c
  | .atload _ _ => mp == .c
  | .atstat _ => mp == .c
  | .svc _ _ _ => mp == .c
  | .trapret _ _ _ => mp == .c
  | .yrd _ _ _ => mp == .c
  | .ywr _ _ _ => mp == .c
  | .idle _ _ => mp == .c
  | .halt => mp == .c
  | .tqpop _ _ => mp == .c
  | .freeze _ _ => mp == .c
  | .husksave _ _ _ => mp == .c
  | .huskload _ _ _ => mp == .c
  | .evpost _ _ => mp == .c
  | .brkpt => mp == .c
  | .vld p q _ _ _ _ => mp == .l && popPushL p q
  | .vlds p q _ a b => mp == .l && popPushL p q && addrReg a && addrReg b
  | .vldg p q _ a b => mp == .l && popPushL p q && addrReg a && addrReg b
  | .vldb p q _ _ _ _ => mp == .l && popPushL p q
  | .pld p q v _ _ _ => mp == .l && popPushL p q && predReg v
  | .mald p q _ _ _ => mp == .l && popPushL p q
  | .wld p q _ _ _ => mp == .l && popPushL p q
  | .zld p q _ _ _ => mp == .l && popPushL p q
  | .vst p q _ _ _ _ => mp == .s && popPushS p q
  | .vsts p q _ a b => mp == .s && popPushS p q && addrReg a && addrReg b
  | .vstg p q _ a b => mp == .s && popPushS p q && addrReg a && addrReg b
  | .vstm p q _ a _ => mp == .s && popPushS p q && addrReg a
  | .est p q _ _ _ => mp == .s && popPushS p q
  | .pst p q v _ _ _ => mp == .s && popPushS p q && predReg v
  | .aadd p q d a b => ((mp == .l && popPushL p q) || (mp == .s && popPushS p q)) && addrReg d && addrReg a && addrReg b
  | .aaddi p q _ _ _ => ((mp == .l && popPushL p q) || (mp == .s && popPushS p q))
  | .aset p q _ _ _ _ => ((mp == .l && popPushL p q) || (mp == .s && popPushS p q))
  | .amov p q _ _ => ((mp == .l && popPushL p q) || (mp == .s && popPushS p q))
  | .amovTok p q _ => ((mp == .l && popPushL p q) || (mp == .s && popPushS p q))
  | .awrap p q _ _ _ => ((mp == .l && popPushL p q) || (mp == .s && popPushS p q))
  | .astep p q _ i => ((mp == .l && popPushL p q) || (mp == .s && popPushS p q)) && i != 0
  | .astepReg p q _ _ => ((mp == .l && popPushL p q) || (mp == .s && popPushS p q))
  | .bfull p q _ _ => ((mp == .l && popPushL p q) || (mp == .s && popPushS p q))
  | .bempty p q _ _ => ((mp == .l && popPushL p q) || (mp == .s && popPushS p q))
  | .bwait p q _ _ => ((mp == .l && popPushL p q) || (mp == .s && popPushS p q))
  | .btest p q _ _ => ((mp == .l && popPushL p q) || (mp == .s && popPushS p q))
  | .qbind p q _ _ _ => mp == .l && popPushL p q
  | .qfree p q _ => mp == .l && popPushL p q
  | .pfb p q _ _ => mp == .l && popPushL p q
  | .lnop p q => ((mp == .l && popPushL p q) || (mp == .s && popPushS p q))
  | .vcfg p q i => mp == .m && popPushM p q && decide ((i.extractLsb' 0 4).toNat ≤ 10)
  | .vadd p q _ a b _ m => mp == .m && popPushM p q && streams m a b
  | .vsub p q _ a b _ m => mp == .m && popPushM p q && streams m a b
  | .vmul p q _ a b _ m => mp == .m && popPushM p q && streams m a b
  | .vfma p q _ a b _ m => mp == .m && popPushM p q && streams m a b
  | .vfms p q _ a b _ m => mp == .m && popPushM p q && streams m a b
  | .vmin p q _ a b _ m => mp == .m && popPushM p q && streams m a b
  | .vmax p q _ a b _ m => mp == .m && popPushM p q && streams m a b
  | .vand p q _ a b _ m => mp == .m && popPushM p q && streams m a b
  | .vor p q _ a b _ m => mp == .m && popPushM p q && streams m a b
  | .vxor p q _ a b _ m => mp == .m && popPushM p q && streams m a b
  | .vshl p q _ a b _ m => mp == .m && popPushM p q && streams m a b
  | .vshr p q _ a b _ m => mp == .m && popPushM p q && streams m a b
  | .vsar p q _ a b _ m => mp == .m && popPushM p q && streams m a b
  | .vabs p q _ a _ m => mp == .m && popPushM p q && stream1 m a
  | .vneg p q _ a _ m => mp == .m && popPushM p q && stream1 m a
  | .vcmp p q d a b _ m => mp == .m && popPushM p q && streams m a b && predReg d
  | .vsel p q _ a b _ m => mp == .m && popPushM p q && streams m a b
  | .vmov p q _ a _ m => mp == .m && popPushM p q && stream1 m a
  | .vbci p q _ _ => mp == .m && popPushM p q
  | .vsfu p q _ a f _ m => mp == .m && popPushM p q && stream1 m a && decide (f.toNat ≤ 8)
  | .vred p q _ a f _ m => mp == .m && popPushM p q && stream1 m a && decide (f.toNat ≤ 2)
  | .vscan p q _ a f _ m => mp == .m && popPushM p q && stream1 m a && decide (f.toNat ≤ 2)
  | .vperm p q _ a b _ m => mp == .m && popPushM p q && streams m a b
  | .vzip p q d a b _ m => mp == .m && popPushM p q && streams m a b && multipleOf 2 d
  | .vunzip p q d a b _ m => mp == .m && popPushM p q && streams m a b && multipleOf 2 d
  | .vcvt p q _ a t _ m => mp == .m && popPushM p q && stream1 m a && decide (t.toNat ≤ 14)
  | .vwmul p q d a b _ m => mp == .m && popPushM p q && streams m a b && multipleOf 2 d
  | .vwadd p q d a b _ m => mp == .m && popPushM p q && streams m a b && multipleOf 2 d
  | .vnarr p q _ a b _ m => mp == .m && popPushM p q && (streams m a b && (m.getLsbD 0 || multipleOf 2 a))
  | .vmxq p q d a b _ m => mp == .m && popPushM p q && (stream1 m a && (m == 1 || multipleOf 4 a) && d != b)
  | .vmxd p q d a b _ m => mp == .m && popPushM p q && streams m a b && multipleOf 4 d
  | .vidx p q _ _ => mp == .m && popPushM p q
  | .vslide p q _ a b _ m => mp == .m && popPushM p q && streams m a b
  | .vqpop p q _ a _ _ => mp == .m && popPushM p q && predReg a
  | .plog p q d a b f => mp == .m && popPushM p q && (predReg d && predReg a && predReg b && decide (f.toNat ≤ 6) && (decide (f.toNat < 4) || b == 0))
  | .pcnt p q a => mp == .m && popPushM p q && predReg a
  | .vtos p q a _ m => mp == .m && popPushM p q && stream1 m a
  | .vfrs p q _ _ => mp == .m && popPushM p q
  | .mcfg p q d i => mp == .m && popPushM p q && mcfgOk d i
  | .mma p q _ k u _ _ => mp == .m && popPushM p q && (u == 1 || k == 0)
  | .mzero p q _ _ => mp == .m && popPushM p q
  | .mdrain p q d a b _ => mp == .m && popPushM p q && (decide (d.toNat ≤ 9) && decide (a.toNat ≤ 3) && (decide (b.toNat ≤ 3) || b == 16))
  | .scout p q _ _ _ => mp == .m && popPushM p q
  | .kmaskKmax p q _ a => mp == .m && popPushM p q && decide (a.toNat ≤ 3)
  | .kmaskKkeep p q d a _ => mp == .m && popPushM p q && decide (d.toNat ≤ 3) && decide (a.toNat ≤ 3)
  | .kmaskKrange p q d => mp == .m && popPushM p q && decide (d.toNat ≤ 3)
  | .kmaskKclr p q d => mp == .m && popPushM p q && decide (d.toNat ≤ 3)
  | .kmaskKor p q d a => mp == .m && popPushM p q && decide (d.toNat ≤ 3) && decide (a.toNat ≤ 3)
  | .kmaskKtop p q d a => mp == .m && popPushM p q && predReg d && decide (a.toNat ≤ 3)
  | .kmaskKfromp p q d a => mp == .m && popPushM p q && decide (d.toNat ≤ 3) && predReg a
  | .epset p q d a m => mp == .m && popPushM p q && stream1 m a && decide (d.toNat ≤ 3)
  | .wsel p q _ => mp == .m && popPushM p q
  | .wselTok p q => mp == .m && popPushM p q
  | .mnop p q => mp == .m && popPushM p q
  | .hset _ _ => mp == .h
  | .hsetTile _ => mp == .h
  | .hadd _ _ _ => mp == .h
  | .hloop _ _ => mp == .h
  | .hbr _ _ _ => mp == .h
  | .hwait => mp == .h
  | .hflag _ _ sc f => mp == .h && f != 3 && scopeOk sc
  | .hkv _ _ _ w => mp == .h && decide (w.toNat ≤ 1)
  | .hscout _ _ => mp == .h
  | .hwin _ => mp == .h
  | .hqk _ => mp == .h
  | .htree => mp == .h
  | .hmax => mp == .h
  | .hexp => mp == .h
  | .hsum => mp == .h
  | .hresc => mp == .h
  | .hpv => mp == .h
  | .hdrain => mp == .h
  | .hnop => mp == .h
  | .hend => mp == .h
  | .cgetb _ _ => mp == .g
  | .cgetl _ _ => mp == .g
  | .cgetp _ _ => mp == .g
  | .ctag _ _ => mp == .g
  | .candp _ _ _ => mp == .g
  | .cseal _ _ _ => mp == .g
  | .cunseal _ _ _ => mp == .g
  | .cmove _ _ => mp == .g
  | .cjalr _ _ _ => mp == .g
  | .csetb _ _ _ _ => mp == .g
  | .cld _ _ _ _ _ => mp == .g
  | .cldc _ _ _ _ => mp == .g
  | .cst _ _ _ _ _ _ => mp == .g
  | .cstc _ _ _ _ _ => mp == .g
  | .runStart => mp == .e
  | .startQueueWrite => mp == .e
  | .deferredPush => mp == .e
  | .tokenTimeout => mp == .e
  | .storePerform => mp == .e
  | .loadResponse => mp == .e
  | .fwaitWake => mp == .e
  | .waitaWake => mp == .e
  | .waitaTimeout => mp == .e
  | .idleWake => mp == .e
  | .matrixOperationFinish => mp == .e
  | .mdrainChunk => mp == .e
  | .rescan => mp == .e
  | .ytlbinv => mp == .e
  | .commandStart => mp == .e
  | .commandAcquire => mp == .e
  | .segment => mp == .e
  | .commandComplete => mp == .e
  | .completionTokenPush => mp == .e
  | .budgetWindow => mp == .e
  | .grainMove => mp == .e
  | .scrub => mp == .e
  | .encoderAccept => mp == .e
  | .frameEncoded => mp == .e
  | .placement => mp == .e
  | .exchangeLanding => mp == .e
  | .phaseRecordLoad => mp == .e
  | .preload => mp == .e
  | .dispatch => mp == .e
  | .tillerFreeze => mp == .e
  | .huskSave => mp == .e
  | .huskRestore => mp == .e
  | .taskWatchdog => mp == .e
  | .firing => mp == .e
  | .streamWatchdog => mp == .e
  | .thresherDecision => mp == .e
  | .checkpointDone => mp == .e
  | .escalation => mp == .e
  | .worldSwitch => mp == .e
  | .notify => mp == .e
  | .queueEnable => mp == .e
  | .queueDisable => mp == .e
  | .queueDisableDone => mp == .e
  | .registerWrite => mp == .e
  | .streamCreate => mp == .e
  | .streamDestroy => mp == .e
  | .graphLaunch => mp == .e
  | .memMapAlloc => mp == .e
  | .memMapFree => mp == .e
  | .memMapHwin => mp == .e
  | .memMapHunmap => mp == .e
  | .memMapProtect => mp == .e
  | .evict => mp == .e
  | .migrateStart => mp == .e
  | .migrateRound => mp == .e
  | .migrateStop => mp == .e
  | .migrateResume => mp == .e
  | .migrateCancel => mp == .e
  | .unknownOp => mp == .e
  | .recordComplete => mp == .e
  | .bar2Read => mp == .e
  | .bar2Write => mp == .e
  | .vectorUnmask => mp == .e
  | .flr => mp == .e
  | .flrDone => mp == .e
  | .image => mp == .e
  | .switch => mp == .e
  | .abort => mp == .e
  | .attest => mp == .e
  | .part => mp == .e
  | .bind => mp == .e
  | .unbind => mp == .e
  | .domain => mp == .e
  | .unknownCmd => mp == .e
  | .mailboxDone => mp == .e
  | .ucmdVerify => mp == .e
  | .verificationDone => mp == .e
  | .ucmdSwitch => mp == .e
  | .ucmdHandoverAccept => mp == .e
  | .ucmdHeartbeat => mp == .e
  | .ucmdAbort => mp == .e
  | .handoverTimeout => mp == .e
  | .trialHeartbeatGap => mp == .e
  | .controllerResetInTrial => mp == .e
  | .heartbeatGap => mp == .e
  | .reset => mp == .e
  | .thermalTrip => mp == .e
  | .tripclr => mp == .e
  | .level => mp == .e
  | .effChange => mp == .e
  | .tilepwr => mp == .e
  | .tileWake => mp == .e
  | .pwrerrRead => mp == .e
  | .d3hotEntry => mp == .e
  | .d0Return => mp == .e
  | .d3cold => mp == .e
  | .patrolScrub => mp == .e
  | .errorCounterRead => mp == .e
  | .fabricRequestServe => mp == .e
  | .fabricReissue => mp == .e
  | .portLost => mp == .e
  | .fabricNoPlane => mp == .e
  | .atomicResultExpiry => mp == .e
  | .illegal _ => mp == .e
  | .rv64 _ _ => mp == .g

/-- Well-formed in some map. -/
def Instr.wf (i : Instr) : Bool :=
  i.wfIn .c || i.wfIn .l || i.wfIn .s || i.wfIn .m || i.wfIn .h || i.wfIn .g || i.wfIn .e

end Sys2Proof
end

