-- ==== Sys2Proof/Decode.lean ====
section
/-! DEFINITION. The decoder and the encoder. `rawC` … `rawG` cut a word of each map into its row (R43–R51, R250, R348);
`decode` adds the checks of R52 by `Instr.wfIn` and rejects by name; `encodeWords` writes the words of an instruction
from the same layouts. -/

namespace Sys2Proof

/-- Why a word is not an instruction of its map (R52, R251, R348). -/
inductive DecodeErr where
  /-- A reserved or illegal major opcode. -/
  | reservedMajor
  /-- A function code past the end of its list. -/
  | badFunction
  /-- A field that must be zero is not. -/
  | nonzeroField
  /-- A field whose value R52 does not admit (scope, order, register, queue, immediate). -/
  | illFormed
  /-- The second word of a two-word instruction is not there (R52). -/
  | truncated
  deriving DecidableEq, Repr

/-- One word of the C map, R48. -/
def rawC (w : W32) (nxt : Option W32) : Except DecodeErr Instr :=
  match (w.extractLsb' 26 6).toNat with
  | 1 =>
    match (w.extractLsb' 0 11).toNat with
    | 0 => .ok (.add (w.extractLsb' 21 5) (w.extractLsb' 16 5) (w.extractLsb' 11 5))
    | 1 => .ok (.sub (w.extractLsb' 21 5) (w.extractLsb' 16 5) (w.extractLsb' 11 5))
    | 2 => .ok (.and (w.extractLsb' 21 5) (w.extractLsb' 16 5) (w.extractLsb' 11 5))
    | 3 => .ok (.or (w.extractLsb' 21 5) (w.extractLsb' 16 5) (w.extractLsb' 11 5))
    | 4 => .ok (.xor (w.extractLsb' 21 5) (w.extractLsb' 16 5) (w.extractLsb' 11 5))
    | 5 => .ok (.shl (w.extractLsb' 21 5) (w.extractLsb' 16 5) (w.extractLsb' 11 5))
    | 6 => .ok (.shr (w.extractLsb' 21 5) (w.extractLsb' 16 5) (w.extractLsb' 11 5))
    | 7 => .ok (.sar (w.extractLsb' 21 5) (w.extractLsb' 16 5) (w.extractLsb' 11 5))
    | 8 => .ok (.min (w.extractLsb' 21 5) (w.extractLsb' 16 5) (w.extractLsb' 11 5))
    | 9 => .ok (.max (w.extractLsb' 21 5) (w.extractLsb' 16 5) (w.extractLsb' 11 5))
    | 10 => .ok (.minu (w.extractLsb' 21 5) (w.extractLsb' 16 5) (w.extractLsb' 11 5))
    | 11 => .ok (.maxu (w.extractLsb' 21 5) (w.extractLsb' 16 5) (w.extractLsb' 11 5))
    | 12 => .ok (.slt (w.extractLsb' 21 5) (w.extractLsb' 16 5) (w.extractLsb' 11 5))
    | 13 => .ok (.sltu (w.extractLsb' 21 5) (w.extractLsb' 16 5) (w.extractLsb' 11 5))
    | 14 => .ok (.seq (w.extractLsb' 21 5) (w.extractLsb' 16 5) (w.extractLsb' 11 5))
    | 15 => .ok (.mul (w.extractLsb' 21 5) (w.extractLsb' 16 5) (w.extractLsb' 11 5))
    | 16 => .ok (.mulh (w.extractLsb' 21 5) (w.extractLsb' 16 5) (w.extractLsb' 11 5))
    | 17 => .ok (.div (w.extractLsb' 21 5) (w.extractLsb' 16 5) (w.extractLsb' 11 5))
    | 18 => .ok (.divu (w.extractLsb' 21 5) (w.extractLsb' 16 5) (w.extractLsb' 11 5))
    | 19 => .ok (.rem (w.extractLsb' 21 5) (w.extractLsb' 16 5) (w.extractLsb' 11 5))
    | 20 => .ok (.remu (w.extractLsb' 21 5) (w.extractLsb' 16 5) (w.extractLsb' 11 5))
    | 21 => if w.extractLsb' 11 5 == 0 then .ok (.clz (w.extractLsb' 21 5) (w.extractLsb' 16 5)) else .error .nonzeroField
    | 22 => if w.extractLsb' 11 5 == 0 then .ok (.ctz (w.extractLsb' 21 5) (w.extractLsb' 16 5)) else .error .nonzeroField
    | 23 => if w.extractLsb' 11 5 == 0 then .ok (.popc (w.extractLsb' 21 5) (w.extractLsb' 16 5)) else .error .nonzeroField
    | 24 => .ok (.fshl (w.extractLsb' 21 5) (w.extractLsb' 16 5) (w.extractLsb' 11 5))
    | 25 => .ok (.fshr (w.extractLsb' 21 5) (w.extractLsb' 16 5) (w.extractLsb' 11 5))
    | 26 => if w.extractLsb' 11 5 == 0 then .ok (.sextb (w.extractLsb' 21 5) (w.extractLsb' 16 5)) else .error .nonzeroField
    | 27 => if w.extractLsb' 11 5 == 0 then .ok (.sexth (w.extractLsb' 21 5) (w.extractLsb' 16 5)) else .error .nonzeroField
    | 28 => if w.extractLsb' 11 5 == 0 then .ok (.sextw (w.extractLsb' 21 5) (w.extractLsb' 16 5)) else .error .nonzeroField
    | _ => .error .badFunction
  | 2 => .ok (.addi (w.extractLsb' 21 5) (w.extractLsb' 16 5) (w.extractLsb' 0 16))
  | 3 => .ok (.andi (w.extractLsb' 21 5) (w.extractLsb' 16 5) (w.extractLsb' 0 16))
  | 4 => .ok (.ori (w.extractLsb' 21 5) (w.extractLsb' 16 5) (w.extractLsb' 0 16))
  | 5 => .ok (.xori (w.extractLsb' 21 5) (w.extractLsb' 16 5) (w.extractLsb' 0 16))
  | 6 => .ok (.shli (w.extractLsb' 21 5) (w.extractLsb' 16 5) (w.extractLsb' 0 16))
  | 7 => .ok (.shri (w.extractLsb' 21 5) (w.extractLsb' 16 5) (w.extractLsb' 0 16))
  | 8 => .ok (.sari (w.extractLsb' 21 5) (w.extractLsb' 16 5) (w.extractLsb' 0 16))
  | 9 => .ok (.slti (w.extractLsb' 21 5) (w.extractLsb' 16 5) (w.extractLsb' 0 16))
  | 10 => .ok (.li (w.extractLsb' 21 5) (w.extractLsb' 0 21))
  | 11 =>
    if w.extractLsb' 0 21 == 0 then
      match nxt with
      | some x => .ok (.liw (w.extractLsb' 21 5) x)
      | none => .error .truncated
    else .error .nonzeroField
  | 12 =>
    if w.extractLsb' 0 21 == 0 then
      match nxt with
      | some x => .ok (.lihw (w.extractLsb' 21 5) x)
      | none => .error .truncated
    else .error .nonzeroField
  | 13 => if w.extractLsb' 0 4 == 0 then .ok (.bext (w.extractLsb' 21 5) (w.extractLsb' 16 5) (w.extractLsb' 10 6) (w.extractLsb' 4 6)) else .error .nonzeroField
  | 14 => if w.extractLsb' 0 4 == 0 then .ok (.bins (w.extractLsb' 21 5) (w.extractLsb' 16 5) (w.extractLsb' 10 6) (w.extractLsb' 4 6)) else .error .nonzeroField
  | 15 => if w.extractLsb' 0 11 == 0 then .ok (.bextv (w.extractLsb' 21 5) (w.extractLsb' 16 5) (w.extractLsb' 11 5)) else .error .nonzeroField
  | 16 => .ok (.beq (w.extractLsb' 21 5) (w.extractLsb' 16 5) (w.extractLsb' 0 16))
  | 17 => .ok (.bne (w.extractLsb' 21 5) (w.extractLsb' 16 5) (w.extractLsb' 0 16))
  | 18 => .ok (.blt (w.extractLsb' 21 5) (w.extractLsb' 16 5) (w.extractLsb' 0 16))
  | 19 => .ok (.bge (w.extractLsb' 21 5) (w.extractLsb' 16 5) (w.extractLsb' 0 16))
  | 20 => .ok (.bltu (w.extractLsb' 21 5) (w.extractLsb' 16 5) (w.extractLsb' 0 16))
  | 21 => .ok (.bgeu (w.extractLsb' 21 5) (w.extractLsb' 16 5) (w.extractLsb' 0 16))
  | 22 => .ok (.j (w.extractLsb' 0 26))
  | 23 => .ok (.jal (w.extractLsb' 0 26))
  | 24 => if w.extractLsb' 0 16 == 0 then .ok (.jr (w.extractLsb' 21 5) (w.extractLsb' 16 5)) else .error .nonzeroField
  | 25 => if w.extractLsb' 16 5 == 0 then .ok (.loop (w.extractLsb' 21 5) (w.extractLsb' 0 16)) else .error .nonzeroField
  | 26 => .ok (.sldb (w.extractLsb' 21 5) (w.extractLsb' 16 5) (w.extractLsb' 0 16))
  | 27 => .ok (.sldh (w.extractLsb' 21 5) (w.extractLsb' 16 5) (w.extractLsb' 0 16))
  | 28 => .ok (.sldw (w.extractLsb' 21 5) (w.extractLsb' 16 5) (w.extractLsb' 0 16))
  | 29 => .ok (.sldd (w.extractLsb' 21 5) (w.extractLsb' 16 5) (w.extractLsb' 0 16))
  | 30 => .ok (.sstb (w.extractLsb' 21 5) (w.extractLsb' 16 5) (w.extractLsb' 0 16))
  | 31 => .ok (.ssth (w.extractLsb' 21 5) (w.extractLsb' 16 5) (w.extractLsb' 0 16))
  | 32 => .ok (.sstw (w.extractLsb' 21 5) (w.extractLsb' 16 5) (w.extractLsb' 0 16))
  | 33 => .ok (.sstd (w.extractLsb' 21 5) (w.extractLsb' 16 5) (w.extractLsb' 0 16))
  | 34 =>
    match (w.extractLsb' 0 6).toNat with
    | 0 => .ok (.amoadd (w.extractLsb' 21 5) (w.extractLsb' 16 5) (w.extractLsb' 11 5) (w.extractLsb' 8 3) (w.extractLsb' 6 2))
    | 1 => .ok (.amoswp (w.extractLsb' 21 5) (w.extractLsb' 16 5) (w.extractLsb' 11 5) (w.extractLsb' 8 3) (w.extractLsb' 6 2))
    | 2 => .ok (.amocas (w.extractLsb' 21 5) (w.extractLsb' 16 5) (w.extractLsb' 11 5) (w.extractLsb' 8 3) (w.extractLsb' 6 2))
    | 3 => .ok (.amomax (w.extractLsb' 21 5) (w.extractLsb' 16 5) (w.extractLsb' 11 5) (w.extractLsb' 8 3) (w.extractLsb' 6 2))
    | 4 => .ok (.amomin (w.extractLsb' 21 5) (w.extractLsb' 16 5) (w.extractLsb' 11 5) (w.extractLsb' 8 3) (w.extractLsb' 6 2))
    | 5 => .ok (.amoor (w.extractLsb' 21 5) (w.extractLsb' 16 5) (w.extractLsb' 11 5) (w.extractLsb' 8 3) (w.extractLsb' 6 2))
    | 6 => .ok (.amoand (w.extractLsb' 21 5) (w.extractLsb' 16 5) (w.extractLsb' 11 5) (w.extractLsb' 8 3) (w.extractLsb' 6 2))
    | _ => .error .badFunction
  | 35 =>
    match (w.extractLsb' 0 6).toNat with
    | 0 => if w.extractLsb' 21 5 == 0 then .ok (.fset (w.extractLsb' 16 5) (w.extractLsb' 11 5) (w.extractLsb' 8 3) (w.extractLsb' 6 2)) else .error .nonzeroField
    | 1 => if w.extractLsb' 21 5 == 0 then .ok (.fclr (w.extractLsb' 16 5) (w.extractLsb' 11 5) (w.extractLsb' 8 3) (w.extractLsb' 6 2)) else .error .nonzeroField
    | 2 => .ok (.ftest (w.extractLsb' 21 5) (w.extractLsb' 16 5) (w.extractLsb' 11 5) (w.extractLsb' 8 3) (w.extractLsb' 6 2))
    | 3 => .ok (.ftas (w.extractLsb' 21 5) (w.extractLsb' 16 5) (w.extractLsb' 11 5) (w.extractLsb' 8 3) (w.extractLsb' 6 2))
    | 4 => if w.extractLsb' 21 5 == 0 then .ok (.fwait (w.extractLsb' 16 5) (w.extractLsb' 11 5) (w.extractLsb' 8 3) (w.extractLsb' 6 2)) else .error .nonzeroField
    | 5 => if w.extractLsb' 21 5 == 0 then .ok (.fwaitc (w.extractLsb' 16 5) (w.extractLsb' 11 5) (w.extractLsb' 8 3) (w.extractLsb' 6 2)) else .error .nonzeroField
    | _ => .error .badFunction
  | 36 => if w.extractLsb' 0 6 == 0 then .ok (.waita (w.extractLsb' 21 5) (w.extractLsb' 16 5) (w.extractLsb' 11 5) (w.extractLsb' 8 3) (w.extractLsb' 6 2)) else .error .nonzeroField
  | 37 =>
    match (w.extractLsb' 0 11).toNat with
    | 0 => .ok (.trun (w.extractLsb' 21 5) (w.extractLsb' 16 5) (w.extractLsb' 11 5))
    | 1 => .ok (.tbase (w.extractLsb' 21 5) (w.extractLsb' 16 5) (w.extractLsb' 11 5))
    | 2 => if w.extractLsb' 11 10 == 0 then .ok (.tstop (w.extractLsb' 21 5)) else .error .nonzeroField
    | 3 => if w.extractLsb' 11 10 == 0 then .ok (.twait (w.extractLsb' 21 5)) else .error .nonzeroField
    | 4 => if w.extractLsb' 11 5 == 0 then .ok (.tcut (w.extractLsb' 21 5) (w.extractLsb' 16 5)) else .error .nonzeroField
    | 5 => if w.extractLsb' 11 5 == 0 then .ok (.tstat (w.extractLsb' 21 5) (w.extractLsb' 16 5)) else .error .nonzeroField
    | _ => .error .badFunction
  | 38 =>
    match (w.extractLsb' 0 11).toNat with
    | 0 => if w.extractLsb' 21 5 == 0 then .ok (.tkput (w.extractLsb' 16 5) (w.extractLsb' 11 5)) else .error .nonzeroField
    | 1 => if w.extractLsb' 16 5 == 0 then .ok (.tkget (w.extractLsb' 21 5) (w.extractLsb' 11 5)) else .error .nonzeroField
    | 2 => if w.extractLsb' 16 5 == 0 then .ok (.tkcnt (w.extractLsb' 21 5) (w.extractLsb' 11 5)) else .error .nonzeroField
    | 3 => .ok (.tkreset (w.extractLsb' 21 5) (w.extractLsb' 16 5) (w.extractLsb' 11 5))
    | _ => .error .badFunction
  | 39 => if w.extractLsb' 0 16 == 0 then .ok (.setn (w.extractLsb' 21 5) (w.extractLsb' 16 5)) else .error .nonzeroField
  | 40 =>
    match (w.extractLsb' 0 5).toNat with
    | 0 => .ok (.xcopy (w.extractLsb' 21 5) (w.extractLsb' 16 5) (w.extractLsb' 11 5) (w.extractLsb' 8 3) (w.extractLsb' 6 2) (w.extractLsb' 5 1))
    | 1 => if w.extractLsb' 11 5 == 0 then .ok (.xgath (w.extractLsb' 21 5) (w.extractLsb' 16 5) (w.extractLsb' 8 3) (w.extractLsb' 6 2) (w.extractLsb' 5 1)) else .error .nonzeroField
    | 2 => if w.extractLsb' 11 5 == 0 then .ok (.xscat (w.extractLsb' 21 5) (w.extractLsb' 16 5) (w.extractLsb' 8 3) (w.extractLsb' 6 2) (w.extractLsb' 5 1)) else .error .nonzeroField
    | 3 => if w.extractLsb' 11 5 == 0 then .ok (.xcoll (w.extractLsb' 21 5) (w.extractLsb' 16 5) (w.extractLsb' 8 3) (w.extractLsb' 6 2) (w.extractLsb' 5 1)) else .error .nonzeroField
    | 4 => if w.extractLsb' 11 5 == 0 then .ok (.xpref (w.extractLsb' 21 5) (w.extractLsb' 16 5) (w.extractLsb' 8 3) (w.extractLsb' 6 2) (w.extractLsb' 5 1)) else .error .nonzeroField
    | 5 => if w.extractLsb' 11 10 == 0 then .ok (.xlayer (w.extractLsb' 21 5) (w.extractLsb' 8 3) (w.extractLsb' 6 2) (w.extractLsb' 5 1)) else .error .nonzeroField
    | 6 => if w.extractLsb' 11 5 == 0 then .ok (.xpin (w.extractLsb' 21 5) (w.extractLsb' 16 5) (w.extractLsb' 8 3) (w.extractLsb' 6 2) (w.extractLsb' 5 1)) else .error .nonzeroField
    | 7 => if w.extractLsb' 11 5 == 0 then .ok (.xunpin (w.extractLsb' 21 5) (w.extractLsb' 16 5) (w.extractLsb' 8 3) (w.extractLsb' 6 2) (w.extractLsb' 5 1)) else .error .nonzeroField
    | 8 => if w.extractLsb' 5 11 == 0 then .ok (.xgen (w.extractLsb' 21 5) (w.extractLsb' 16 5)) else .error .nonzeroField
    | 9 => if w.extractLsb' 5 1 == 0 && w.extractLsb' 11 5 == 0 then .ok (.xwaitc (w.extractLsb' 21 5) (w.extractLsb' 16 5) (w.extractLsb' 8 3) (w.extractLsb' 6 2)) else .error .nonzeroField
    | 10 => if w.extractLsb' 5 11 == 0 then .ok (.xqstat (w.extractLsb' 21 5) (w.extractLsb' 16 5)) else .error .nonzeroField
    | 11 => if w.extractLsb' 11 5 == 0 then .ok (.egsub (w.extractLsb' 21 5) (w.extractLsb' 16 5) (w.extractLsb' 8 3) (w.extractLsb' 6 2) (w.extractLsb' 5 1)) else .error .nonzeroField
    | _ => .error .badFunction
  | 41 =>
    match (w.extractLsb' 0 5).toNat with
    | 0 => if w.extractLsb' 6 5 == 0 then .ok (.kvalloc (w.extractLsb' 21 5) (w.extractLsb' 16 5) (w.extractLsb' 11 5) (w.extractLsb' 5 1)) else .error .nonzeroField
    | 1 => if w.extractLsb' 5 11 == 0 then .ok (.kvfree (w.extractLsb' 21 5) (w.extractLsb' 16 5)) else .error .nonzeroField
    | 2 => if w.extractLsb' 5 11 == 0 then .ok (.kvref (w.extractLsb' 21 5) (w.extractLsb' 16 5)) else .error .nonzeroField
    | 3 => if w.extractLsb' 5 6 == 0 then .ok (.kvlook (w.extractLsb' 21 5) (w.extractLsb' 16 5) (w.extractLsb' 11 5)) else .error .nonzeroField
    | 4 => if w.extractLsb' 5 6 == 0 then .ok (.kvmap (w.extractLsb' 21 5) (w.extractLsb' 16 5) (w.extractLsb' 11 5)) else .error .nonzeroField
    | _ => .error .badFunction
  | 42 =>
    match (w.extractLsb' 0 11).toNat with
    | 0 => if w.extractLsb' 11 5 == 0 then .ok (.taskpost (w.extractLsb' 21 5) (w.extractLsb' 16 5)) else .error .nonzeroField
    | 1 => if w.extractLsb' 11 15 == 0 then .ok (.taskend) else .error .nonzeroField
    | 2 => if w.extractLsb' 11 10 == 0 then .ok (.taskyld (w.extractLsb' 21 5)) else .error .nonzeroField
    | 3 => if w.extractLsb' 11 5 == 0 then .ok (.glaunch (w.extractLsb' 21 5) (w.extractLsb' 16 5)) else .error .nonzeroField
    | 4 => if w.extractLsb' 11 10 == 0 then .ok (.slack (w.extractLsb' 21 5)) else .error .nonzeroField
    | 5 => .ok (.rung (w.extractLsb' 21 5) (w.extractLsb' 16 5) (w.extractLsb' 11 5))
    | 6 => if w.extractLsb' 11 5 == 0 then .ok (.frmacq (w.extractLsb' 21 5) (w.extractLsb' 16 5)) else .error .nonzeroField
    | 7 => .ok (.frmcommit (w.extractLsb' 21 5) (w.extractLsb' 16 5) (w.extractLsb' 11 5))
    | _ => .error .badFunction
  | 43 =>
    match (w.extractLsb' 0 6).toNat with
    | 0 => if w.extractLsb' 11 10 == 0 then .ok (.phase (w.extractLsb' 21 5) (w.extractLsb' 8 3) (w.extractLsb' 6 2)) else .error .nonzeroField
    | 1 => if w.extractLsb' 11 5 == 0 then .ok (.pharr (w.extractLsb' 21 5) (w.extractLsb' 16 5) (w.extractLsb' 8 3) (w.extractLsb' 6 2)) else .error .nonzeroField
    | 2 => if w.extractLsb' 21 5 == 0 then .ok (.phwait (w.extractLsb' 16 5) (w.extractLsb' 11 5) (w.extractLsb' 8 3) (w.extractLsb' 6 2)) else .error .nonzeroField
    | 3 => if w.extractLsb' 11 15 == 0 then .ok (.fence (w.extractLsb' 8 3) (w.extractLsb' 6 2)) else .error .nonzeroField
    | 4 => if w.extractLsb' 6 2 == 2 && w.extractLsb' 21 5 == 0 then .ok (.rels (w.extractLsb' 16 5) (w.extractLsb' 11 5) (w.extractLsb' 8 3)) else .error .nonzeroField
    | 5 => if w.extractLsb' 6 2 == 1 && w.extractLsb' 11 5 == 0 then .ok (.acqs (w.extractLsb' 21 5) (w.extractLsb' 16 5) (w.extractLsb' 8 3)) else .error .nonzeroField
    | _ => .error .badFunction
  | 44 =>
    match (w.extractLsb' 0 11).toNat with
    | 0 => if w.extractLsb' 11 5 == 0 then .ok (.atgo (w.extractLsb' 21 5) (w.extractLsb' 16 5)) else .error .nonzeroField
    | 1 => if w.extractLsb' 11 5 == 0 then .ok (.atwait (w.extractLsb' 21 5) (w.extractLsb' 16 5)) else .error .nonzeroField
    | 2 => if w.extractLsb' 21 5 == 0 then .ok (.atload (w.extractLsb' 16 5) (w.extractLsb' 11 5)) else .error .nonzeroField
    | 3 => if w.extractLsb' 11 10 == 0 then .ok (.atstat (w.extractLsb' 21 5)) else .error .nonzeroField
    | _ => .error .badFunction
  | 45 =>
    match (w.extractLsb' 0 11).toNat with
    | 0 => .ok (.svc (w.extractLsb' 21 5) (w.extractLsb' 16 5) (w.extractLsb' 11 5))
    | 1 => .ok (.trapret (w.extractLsb' 21 5) (w.extractLsb' 16 5) (w.extractLsb' 11 5))
    | 2 => .ok (.yrd (w.extractLsb' 21 5) (w.extractLsb' 16 5) (w.extractLsb' 11 5))
    | 3 => .ok (.ywr (w.extractLsb' 21 5) (w.extractLsb' 16 5) (w.extractLsb' 11 5))
    | 4 => if w.extractLsb' 11 5 == 0 then .ok (.idle (w.extractLsb' 21 5) (w.extractLsb' 16 5)) else .error .nonzeroField
    | 5 => if w.extractLsb' 11 15 == 0 then .ok (.halt) else .error .nonzeroField
    | 6 => if w.extractLsb' 11 5 == 0 then .ok (.tqpop (w.extractLsb' 21 5) (w.extractLsb' 16 5)) else .error .nonzeroField
    | 7 => if w.extractLsb' 11 5 == 0 then .ok (.freeze (w.extractLsb' 21 5) (w.extractLsb' 16 5)) else .error .nonzeroField
    | 8 => .ok (.husksave (w.extractLsb' 21 5) (w.extractLsb' 16 5) (w.extractLsb' 11 5))
    | 9 => .ok (.huskload (w.extractLsb' 21 5) (w.extractLsb' 16 5) (w.extractLsb' 11 5))
    | 10 => if w.extractLsb' 11 5 == 0 then .ok (.evpost (w.extractLsb' 21 5) (w.extractLsb' 16 5)) else .error .nonzeroField
    | 11 => if w.extractLsb' 11 15 == 0 then .ok (.brkpt) else .error .nonzeroField
    | _ => .error .badFunction
  | _ => .error .reservedMajor

/-- One word of the L and S map, R50. -/
def rawLS (w : W32) (nxt : Option W32) : Except DecodeErr Instr :=
  match (w.extractLsb' 26 6).toNat with
  | 1 => .ok (.vld (w.extractLsb' 23 3) (w.extractLsb' 20 3) (w.extractLsb' 15 5) (w.extractLsb' 11 4) (w.extractLsb' 10 1) (w.extractLsb' 0 10))
  | 2 => if w.extractLsb' 0 5 == 0 then .ok (.vlds (w.extractLsb' 23 3) (w.extractLsb' 20 3) (w.extractLsb' 15 5) (w.extractLsb' 10 5) (w.extractLsb' 5 5)) else .error .nonzeroField
  | 3 => if w.extractLsb' 0 5 == 0 then .ok (.vldg (w.extractLsb' 23 3) (w.extractLsb' 20 3) (w.extractLsb' 15 5) (w.extractLsb' 10 5) (w.extractLsb' 5 5)) else .error .nonzeroField
  | 4 => .ok (.vldb (w.extractLsb' 23 3) (w.extractLsb' 20 3) (w.extractLsb' 15 5) (w.extractLsb' 11 4) (w.extractLsb' 10 1) (w.extractLsb' 0 10))
  | 5 => .ok (.pld (w.extractLsb' 23 3) (w.extractLsb' 20 3) (w.extractLsb' 15 5) (w.extractLsb' 11 4) (w.extractLsb' 10 1) (w.extractLsb' 0 10))
  | 6 => if w.extractLsb' 7 5 == 0 && w.extractLsb' 17 3 == 0 then .ok (.mald (w.extractLsb' 23 3) (w.extractLsb' 20 3) (w.extractLsb' 16 1) (w.extractLsb' 12 4) (w.extractLsb' 0 7)) else .error .nonzeroField
  | 7 => .ok (.wld (w.extractLsb' 23 3) (w.extractLsb' 20 3) (w.extractLsb' 16 4) (w.extractLsb' 12 4) (w.extractLsb' 0 12))
  | 8 => if w.extractLsb' 7 5 == 0 && w.extractLsb' 18 2 == 0 then .ok (.zld (w.extractLsb' 23 3) (w.extractLsb' 20 3) (w.extractLsb' 16 2) (w.extractLsb' 12 4) (w.extractLsb' 0 7)) else .error .nonzeroField
  | 9 => .ok (.vst (w.extractLsb' 23 3) (w.extractLsb' 20 3) (w.extractLsb' 15 5) (w.extractLsb' 11 4) (w.extractLsb' 10 1) (w.extractLsb' 0 10))
  | 10 => if w.extractLsb' 0 5 == 0 then .ok (.vsts (w.extractLsb' 23 3) (w.extractLsb' 20 3) (w.extractLsb' 15 5) (w.extractLsb' 10 5) (w.extractLsb' 5 5)) else .error .nonzeroField
  | 11 => if w.extractLsb' 0 5 == 0 then .ok (.vstg (w.extractLsb' 23 3) (w.extractLsb' 20 3) (w.extractLsb' 15 5) (w.extractLsb' 10 5) (w.extractLsb' 5 5)) else .error .nonzeroField
  | 12 => if w.extractLsb' 0 2 == 0 && w.extractLsb' 5 5 == 0 then .ok (.vstm (w.extractLsb' 23 3) (w.extractLsb' 20 3) (w.extractLsb' 15 5) (w.extractLsb' 10 5) (w.extractLsb' 2 3)) else .error .nonzeroField
  | 13 => .ok (.est (w.extractLsb' 23 3) (w.extractLsb' 20 3) (w.extractLsb' 16 4) (w.extractLsb' 12 4) (w.extractLsb' 0 12))
  | 14 => .ok (.pst (w.extractLsb' 23 3) (w.extractLsb' 20 3) (w.extractLsb' 15 5) (w.extractLsb' 11 4) (w.extractLsb' 10 1) (w.extractLsb' 0 10))
  | 15 => if w.extractLsb' 0 5 == 0 then .ok (.aadd (w.extractLsb' 23 3) (w.extractLsb' 20 3) (w.extractLsb' 15 5) (w.extractLsb' 10 5) (w.extractLsb' 5 5)) else .error .nonzeroField
  | 16 => .ok (.aaddi (w.extractLsb' 23 3) (w.extractLsb' 20 3) (w.extractLsb' 16 4) (w.extractLsb' 12 4) (w.extractLsb' 0 12))
  | 17 =>
    match nxt with
    | some x => .ok (.aset (w.extractLsb' 23 3) (w.extractLsb' 20 3) (w.extractLsb' 16 4) (w.extractLsb' 12 4) (w.extractLsb' 0 12) x)
    | none => .error .truncated
  | 18 =>
    match (w.extractLsb' 0 12).toNat with
    | 0 => .ok (.amov (w.extractLsb' 23 3) (w.extractLsb' 20 3) (w.extractLsb' 16 4) (w.extractLsb' 12 4))
    | 1 => if w.extractLsb' 12 4 == 0 then .ok (.amovTok (w.extractLsb' 23 3) (w.extractLsb' 20 3) (w.extractLsb' 16 4)) else .error .nonzeroField
    | _ => .error .badFunction
  | 19 => if w.extractLsb' 5 7 == 0 then .ok (.awrap (w.extractLsb' 23 3) (w.extractLsb' 20 3) (w.extractLsb' 16 4) (w.extractLsb' 12 4) (w.extractLsb' 0 5)) else .error .nonzeroField
  | 20 =>
    if w.extractLsb' 0 12 == 0 then .ok (.astepReg (w.extractLsb' 23 3) (w.extractLsb' 20 3) (w.extractLsb' 16 4) (w.extractLsb' 12 4))
    else if w.extractLsb' 12 4 == 0 then .ok (.astep (w.extractLsb' 23 3) (w.extractLsb' 20 3) (w.extractLsb' 16 4) (w.extractLsb' 0 12))
    else .error .nonzeroField
  | 21 =>
    match (w.extractLsb' 16 4).toNat with
    | 0 => .ok (.bfull (w.extractLsb' 23 3) (w.extractLsb' 20 3) (w.extractLsb' 12 4) (w.extractLsb' 0 12))
    | 1 => .ok (.bempty (w.extractLsb' 23 3) (w.extractLsb' 20 3) (w.extractLsb' 12 4) (w.extractLsb' 0 12))
    | 2 => .ok (.bwait (w.extractLsb' 23 3) (w.extractLsb' 20 3) (w.extractLsb' 12 4) (w.extractLsb' 0 12))
    | 3 => .ok (.btest (w.extractLsb' 23 3) (w.extractLsb' 20 3) (w.extractLsb' 12 4) (w.extractLsb' 0 12))
    | _ => .error .badFunction
  | 22 => if w.extractLsb' 19 1 == 0 then .ok (.qbind (w.extractLsb' 23 3) (w.extractLsb' 20 3) (w.extractLsb' 16 3) (w.extractLsb' 12 4) (w.extractLsb' 0 12)) else .error .nonzeroField
  | 23 => if w.extractLsb' 0 16 == 0 && w.extractLsb' 19 1 == 0 then .ok (.qfree (w.extractLsb' 23 3) (w.extractLsb' 20 3) (w.extractLsb' 16 3)) else .error .nonzeroField
  | 24 => if w.extractLsb' 16 4 == 0 then .ok (.pfb (w.extractLsb' 23 3) (w.extractLsb' 20 3) (w.extractLsb' 12 4) (w.extractLsb' 0 12)) else .error .nonzeroField
  | 25 => if w.extractLsb' 0 20 == 0 then .ok (.lnop (w.extractLsb' 23 3) (w.extractLsb' 20 3)) else .error .nonzeroField
  | _ => .error .reservedMajor

/-- One word of the M map, R51. -/
def rawM (w : W32) : Except DecodeErr Instr :=
  match (w.extractLsb' 26 6).toNat with
  | 1 => if w.extractLsb' 8 12 == 0 then .ok (.vcfg (w.extractLsb' 23 3) (w.extractLsb' 20 3) (w.extractLsb' 0 8)) else .error .nonzeroField
  | 2 => .ok (.vadd (w.extractLsb' 23 3) (w.extractLsb' 20 3) (w.extractLsb' 15 5) (w.extractLsb' 10 5) (w.extractLsb' 5 5) (w.extractLsb' 2 3) (w.extractLsb' 0 2))
  | 3 => .ok (.vsub (w.extractLsb' 23 3) (w.extractLsb' 20 3) (w.extractLsb' 15 5) (w.extractLsb' 10 5) (w.extractLsb' 5 5) (w.extractLsb' 2 3) (w.extractLsb' 0 2))
  | 4 => .ok (.vmul (w.extractLsb' 23 3) (w.extractLsb' 20 3) (w.extractLsb' 15 5) (w.extractLsb' 10 5) (w.extractLsb' 5 5) (w.extractLsb' 2 3) (w.extractLsb' 0 2))
  | 5 => .ok (.vfma (w.extractLsb' 23 3) (w.extractLsb' 20 3) (w.extractLsb' 15 5) (w.extractLsb' 10 5) (w.extractLsb' 5 5) (w.extractLsb' 2 3) (w.extractLsb' 0 2))
  | 6 => .ok (.vfms (w.extractLsb' 23 3) (w.extractLsb' 20 3) (w.extractLsb' 15 5) (w.extractLsb' 10 5) (w.extractLsb' 5 5) (w.extractLsb' 2 3) (w.extractLsb' 0 2))
  | 7 => .ok (.vmin (w.extractLsb' 23 3) (w.extractLsb' 20 3) (w.extractLsb' 15 5) (w.extractLsb' 10 5) (w.extractLsb' 5 5) (w.extractLsb' 2 3) (w.extractLsb' 0 2))
  | 8 => .ok (.vmax (w.extractLsb' 23 3) (w.extractLsb' 20 3) (w.extractLsb' 15 5) (w.extractLsb' 10 5) (w.extractLsb' 5 5) (w.extractLsb' 2 3) (w.extractLsb' 0 2))
  | 9 => .ok (.vand (w.extractLsb' 23 3) (w.extractLsb' 20 3) (w.extractLsb' 15 5) (w.extractLsb' 10 5) (w.extractLsb' 5 5) (w.extractLsb' 2 3) (w.extractLsb' 0 2))
  | 10 => .ok (.vor (w.extractLsb' 23 3) (w.extractLsb' 20 3) (w.extractLsb' 15 5) (w.extractLsb' 10 5) (w.extractLsb' 5 5) (w.extractLsb' 2 3) (w.extractLsb' 0 2))
  | 11 => .ok (.vxor (w.extractLsb' 23 3) (w.extractLsb' 20 3) (w.extractLsb' 15 5) (w.extractLsb' 10 5) (w.extractLsb' 5 5) (w.extractLsb' 2 3) (w.extractLsb' 0 2))
  | 12 => .ok (.vshl (w.extractLsb' 23 3) (w.extractLsb' 20 3) (w.extractLsb' 15 5) (w.extractLsb' 10 5) (w.extractLsb' 5 5) (w.extractLsb' 2 3) (w.extractLsb' 0 2))
  | 13 => .ok (.vshr (w.extractLsb' 23 3) (w.extractLsb' 20 3) (w.extractLsb' 15 5) (w.extractLsb' 10 5) (w.extractLsb' 5 5) (w.extractLsb' 2 3) (w.extractLsb' 0 2))
  | 14 => .ok (.vsar (w.extractLsb' 23 3) (w.extractLsb' 20 3) (w.extractLsb' 15 5) (w.extractLsb' 10 5) (w.extractLsb' 5 5) (w.extractLsb' 2 3) (w.extractLsb' 0 2))
  | 15 => if w.extractLsb' 1 1 == 0 && w.extractLsb' 5 5 == 0 then .ok (.vabs (w.extractLsb' 23 3) (w.extractLsb' 20 3) (w.extractLsb' 15 5) (w.extractLsb' 10 5) (w.extractLsb' 2 3) (w.extractLsb' 0 1)) else .error .nonzeroField
  | 16 => if w.extractLsb' 1 1 == 0 && w.extractLsb' 5 5 == 0 then .ok (.vneg (w.extractLsb' 23 3) (w.extractLsb' 20 3) (w.extractLsb' 15 5) (w.extractLsb' 10 5) (w.extractLsb' 2 3) (w.extractLsb' 0 1)) else .error .nonzeroField
  | 17 => .ok (.vcmp (w.extractLsb' 23 3) (w.extractLsb' 20 3) (w.extractLsb' 15 5) (w.extractLsb' 10 5) (w.extractLsb' 5 5) (w.extractLsb' 2 3) (w.extractLsb' 0 2))
  | 18 => .ok (.vsel (w.extractLsb' 23 3) (w.extractLsb' 20 3) (w.extractLsb' 15 5) (w.extractLsb' 10 5) (w.extractLsb' 5 5) (w.extractLsb' 2 3) (w.extractLsb' 0 2))
  | 19 => if w.extractLsb' 1 1 == 0 && w.extractLsb' 5 5 == 0 then .ok (.vmov (w.extractLsb' 23 3) (w.extractLsb' 20 3) (w.extractLsb' 15 5) (w.extractLsb' 10 5) (w.extractLsb' 2 3) (w.extractLsb' 0 1)) else .error .nonzeroField
  | 20 => .ok (.vbci (w.extractLsb' 23 3) (w.extractLsb' 20 3) (w.extractLsb' 15 5) (w.extractLsb' 0 15))
  | 21 => if w.extractLsb' 1 1 == 0 then .ok (.vsfu (w.extractLsb' 23 3) (w.extractLsb' 20 3) (w.extractLsb' 15 5) (w.extractLsb' 10 5) (w.extractLsb' 5 5) (w.extractLsb' 2 3) (w.extractLsb' 0 1)) else .error .nonzeroField
  | 22 => if w.extractLsb' 1 1 == 0 then .ok (.vred (w.extractLsb' 23 3) (w.extractLsb' 20 3) (w.extractLsb' 15 5) (w.extractLsb' 10 5) (w.extractLsb' 5 5) (w.extractLsb' 2 3) (w.extractLsb' 0 1)) else .error .nonzeroField
  | 23 => if w.extractLsb' 1 1 == 0 then .ok (.vscan (w.extractLsb' 23 3) (w.extractLsb' 20 3) (w.extractLsb' 15 5) (w.extractLsb' 10 5) (w.extractLsb' 5 5) (w.extractLsb' 2 3) (w.extractLsb' 0 1)) else .error .nonzeroField
  | 24 => .ok (.vperm (w.extractLsb' 23 3) (w.extractLsb' 20 3) (w.extractLsb' 15 5) (w.extractLsb' 10 5) (w.extractLsb' 5 5) (w.extractLsb' 2 3) (w.extractLsb' 0 2))
  | 25 => .ok (.vzip (w.extractLsb' 23 3) (w.extractLsb' 20 3) (w.extractLsb' 15 5) (w.extractLsb' 10 5) (w.extractLsb' 5 5) (w.extractLsb' 2 3) (w.extractLsb' 0 2))
  | 26 => .ok (.vunzip (w.extractLsb' 23 3) (w.extractLsb' 20 3) (w.extractLsb' 15 5) (w.extractLsb' 10 5) (w.extractLsb' 5 5) (w.extractLsb' 2 3) (w.extractLsb' 0 2))
  | 27 => if w.extractLsb' 1 1 == 0 then .ok (.vcvt (w.extractLsb' 23 3) (w.extractLsb' 20 3) (w.extractLsb' 15 5) (w.extractLsb' 10 5) (w.extractLsb' 5 5) (w.extractLsb' 2 3) (w.extractLsb' 0 1)) else .error .nonzeroField
  | 28 => .ok (.vwmul (w.extractLsb' 23 3) (w.extractLsb' 20 3) (w.extractLsb' 15 5) (w.extractLsb' 10 5) (w.extractLsb' 5 5) (w.extractLsb' 2 3) (w.extractLsb' 0 2))
  | 29 => .ok (.vwadd (w.extractLsb' 23 3) (w.extractLsb' 20 3) (w.extractLsb' 15 5) (w.extractLsb' 10 5) (w.extractLsb' 5 5) (w.extractLsb' 2 3) (w.extractLsb' 0 2))
  | 30 => .ok (.vnarr (w.extractLsb' 23 3) (w.extractLsb' 20 3) (w.extractLsb' 15 5) (w.extractLsb' 10 5) (w.extractLsb' 5 5) (w.extractLsb' 2 3) (w.extractLsb' 0 2))
  | 31 => if w.extractLsb' 1 1 == 0 then .ok (.vmxq (w.extractLsb' 23 3) (w.extractLsb' 20 3) (w.extractLsb' 15 5) (w.extractLsb' 10 5) (w.extractLsb' 5 5) (w.extractLsb' 2 3) (w.extractLsb' 0 1)) else .error .nonzeroField
  | 32 => .ok (.vmxd (w.extractLsb' 23 3) (w.extractLsb' 20 3) (w.extractLsb' 15 5) (w.extractLsb' 10 5) (w.extractLsb' 5 5) (w.extractLsb' 2 3) (w.extractLsb' 0 2))
  | 33 => if w.extractLsb' 0 2 == 0 && w.extractLsb' 5 10 == 0 then .ok (.vidx (w.extractLsb' 23 3) (w.extractLsb' 20 3) (w.extractLsb' 15 5) (w.extractLsb' 2 3)) else .error .nonzeroField
  | 34 => .ok (.vslide (w.extractLsb' 23 3) (w.extractLsb' 20 3) (w.extractLsb' 15 5) (w.extractLsb' 10 5) (w.extractLsb' 5 5) (w.extractLsb' 2 3) (w.extractLsb' 0 2))
  | 35 => if w.extractLsb' 0 2 == 1 then .ok (.vqpop (w.extractLsb' 23 3) (w.extractLsb' 20 3) (w.extractLsb' 15 5) (w.extractLsb' 10 5) (w.extractLsb' 5 5) (w.extractLsb' 2 3)) else .error .nonzeroField
  | 36 => if w.extractLsb' 0 2 == 0 then .ok (.plog (w.extractLsb' 23 3) (w.extractLsb' 20 3) (w.extractLsb' 15 5) (w.extractLsb' 10 5) (w.extractLsb' 5 5) (w.extractLsb' 2 3)) else .error .nonzeroField
  | 37 => if w.extractLsb' 0 10 == 28 && w.extractLsb' 15 5 == 0 then .ok (.pcnt (w.extractLsb' 23 3) (w.extractLsb' 20 3) (w.extractLsb' 10 5)) else .error .nonzeroField
  | 38 => if w.extractLsb' 1 1 == 0 && w.extractLsb' 5 5 == 0 && w.extractLsb' 15 5 == 0 then .ok (.vtos (w.extractLsb' 23 3) (w.extractLsb' 20 3) (w.extractLsb' 10 5) (w.extractLsb' 2 3) (w.extractLsb' 0 1)) else .error .nonzeroField
  | 39 => if w.extractLsb' 0 2 == 0 && w.extractLsb' 5 10 == 0 then .ok (.vfrs (w.extractLsb' 23 3) (w.extractLsb' 20 3) (w.extractLsb' 15 5) (w.extractLsb' 2 3)) else .error .nonzeroField
  | 48 => .ok (.mcfg (w.extractLsb' 23 3) (w.extractLsb' 20 3) (w.extractLsb' 15 5) (w.extractLsb' 0 15))
  | 49 => .ok (.mma (w.extractLsb' 23 3) (w.extractLsb' 20 3) (w.extractLsb' 18 2) (w.extractLsb' 16 2) (w.extractLsb' 15 1) (w.extractLsb' 12 3) (w.extractLsb' 0 12))
  | 50 => if w.extractLsb' 0 12 == 0 && w.extractLsb' 15 3 == 0 then .ok (.mzero (w.extractLsb' 23 3) (w.extractLsb' 20 3) (w.extractLsb' 18 2) (w.extractLsb' 12 3)) else .error .nonzeroField
  | 51 => if w.extractLsb' 0 2 == 0 then .ok (.mdrain (w.extractLsb' 23 3) (w.extractLsb' 20 3) (w.extractLsb' 15 5) (w.extractLsb' 10 5) (w.extractLsb' 5 5) (w.extractLsb' 2 3)) else .error .nonzeroField
  | 52 => if w.extractLsb' 15 3 == 0 then .ok (.scout (w.extractLsb' 23 3) (w.extractLsb' 20 3) (w.extractLsb' 18 2) (w.extractLsb' 12 3) (w.extractLsb' 0 12)) else .error .nonzeroField
  | 53 =>
    match (w.extractLsb' 0 5).toNat with
    | 0 => if w.extractLsb' 5 5 == 0 then .ok (.kmaskKmax (w.extractLsb' 23 3) (w.extractLsb' 20 3) (w.extractLsb' 15 5) (w.extractLsb' 10 5)) else .error .nonzeroField
    | 4 => .ok (.kmaskKkeep (w.extractLsb' 23 3) (w.extractLsb' 20 3) (w.extractLsb' 15 5) (w.extractLsb' 10 5) (w.extractLsb' 5 5))
    | 8 => if w.extractLsb' 5 10 == 0 then .ok (.kmaskKrange (w.extractLsb' 23 3) (w.extractLsb' 20 3) (w.extractLsb' 15 5)) else .error .nonzeroField
    | 12 => if w.extractLsb' 5 10 == 0 then .ok (.kmaskKclr (w.extractLsb' 23 3) (w.extractLsb' 20 3) (w.extractLsb' 15 5)) else .error .nonzeroField
    | 16 => if w.extractLsb' 5 5 == 0 then .ok (.kmaskKor (w.extractLsb' 23 3) (w.extractLsb' 20 3) (w.extractLsb' 15 5) (w.extractLsb' 10 5)) else .error .nonzeroField
    | 20 => if w.extractLsb' 5 5 == 0 then .ok (.kmaskKtop (w.extractLsb' 23 3) (w.extractLsb' 20 3) (w.extractLsb' 15 5) (w.extractLsb' 10 5)) else .error .nonzeroField
    | 24 => if w.extractLsb' 5 5 == 0 then .ok (.kmaskKfromp (w.extractLsb' 23 3) (w.extractLsb' 20 3) (w.extractLsb' 15 5) (w.extractLsb' 10 5)) else .error .nonzeroField
    | _ => .error .badFunction
  | 54 => if w.extractLsb' 1 9 == 14 then .ok (.epset (w.extractLsb' 23 3) (w.extractLsb' 20 3) (w.extractLsb' 15 5) (w.extractLsb' 10 5) (w.extractLsb' 0 1)) else .error .nonzeroField
  | 55 =>
    match (w.extractLsb' 15 5).toNat with
    | 0 => .ok (.wsel (w.extractLsb' 23 3) (w.extractLsb' 20 3) (w.extractLsb' 0 15))
    | 1 => if w.extractLsb' 0 15 == 0 then .ok (.wselTok (w.extractLsb' 23 3) (w.extractLsb' 20 3)) else .error .nonzeroField
    | _ => .error .badFunction
  | 56 => if w.extractLsb' 0 20 == 0 then .ok (.mnop (w.extractLsb' 23 3) (w.extractLsb' 20 3)) else .error .nonzeroField
  | _ => .error .reservedMajor

/-- One word of the Rachis micro-ops, R250. -/
def rawH (w : W32) : Except DecodeErr Instr :=
  match (w.extractLsb' 26 6).toNat with
  | 1 =>
    match (w.extractLsb' 18 4).toNat with
    | 0 => .ok (.hset (w.extractLsb' 22 4) (w.extractLsb' 0 18))
    | 1 => if w.extractLsb' 0 18 == 0 then .ok (.hsetTile (w.extractLsb' 22 4)) else .error .nonzeroField
    | _ => .error .badFunction
  | 2 => .ok (.hadd (w.extractLsb' 22 4) (w.extractLsb' 18 4) (w.extractLsb' 0 18))
  | 3 => if w.extractLsb' 18 4 == 0 then .ok (.hloop (w.extractLsb' 22 4) (w.extractLsb' 0 18)) else .error .nonzeroField
  | 4 => .ok (.hbr (w.extractLsb' 22 4) (w.extractLsb' 18 4) (w.extractLsb' 0 18))
  | 5 => if w.extractLsb' 0 26 == 0 then .ok (.hwait) else .error .nonzeroField
  | 6 => if w.extractLsb' 5 13 == 0 then .ok (.hflag (w.extractLsb' 22 4) (w.extractLsb' 18 4) (w.extractLsb' 2 3) (w.extractLsb' 0 2)) else .error .nonzeroField
  | 7 => if w.extractLsb' 3 15 == 0 then .ok (.hkv (w.extractLsb' 22 4) (w.extractLsb' 18 4) (w.extractLsb' 2 1) (w.extractLsb' 0 2)) else .error .nonzeroField
  | 8 => if w.extractLsb' 0 18 == 0 then .ok (.hscout (w.extractLsb' 22 4) (w.extractLsb' 18 4)) else .error .nonzeroField
  | 9 => if w.extractLsb' 0 22 == 0 then .ok (.hwin (w.extractLsb' 22 4)) else .error .nonzeroField
  | 10 => if w.extractLsb' 0 22 == 0 then .ok (.hqk (w.extractLsb' 22 4)) else .error .nonzeroField
  | 11 => if w.extractLsb' 0 26 == 0 then .ok (.htree) else .error .nonzeroField
  | 12 => if w.extractLsb' 0 26 == 0 then .ok (.hmax) else .error .nonzeroField
  | 13 => if w.extractLsb' 0 26 == 0 then .ok (.hexp) else .error .nonzeroField
  | 14 => if w.extractLsb' 0 26 == 0 then .ok (.hsum) else .error .nonzeroField
  | 15 => if w.extractLsb' 0 26 == 0 then .ok (.hresc) else .error .nonzeroField
  | 16 => if w.extractLsb' 0 26 == 0 then .ok (.hpv) else .error .nonzeroField
  | 17 => if w.extractLsb' 0 26 == 0 then .ok (.hdrain) else .error .nonzeroField
  | 18 => if w.extractLsb' 0 26 == 0 then .ok (.hnop) else .error .nonzeroField
  | 19 => if w.extractLsb' 0 26 == 0 then .ok (.hend) else .error .nonzeroField
  | _ => .error .reservedMajor

/-- A sign- or zero-free 5-bit field of a RISC-V word. -/
def rvReg (w : W32) (lo : Nat) : Reg := w.extractLsb' lo 5

/-- One word of the warrant extension (R348); `none` when the word is not of its opcodes. -/
def rawWarrant (w : W32) : Option (Except DecodeErr Instr) :=
  match (w.extractLsb' 0 7).toNat with
  | 11 => some (
    match (w.extractLsb' 12 3).toNat with
    | 0 =>
      match (w.extractLsb' 25 7).toNat with
      | 0 => if w.extractLsb' 20 5 == 0 then .ok (.cgetb (w.extractLsb' 15 5) (w.extractLsb' 7 5)) else .error .nonzeroField
      | 1 => if w.extractLsb' 20 5 == 0 then .ok (.cgetl (w.extractLsb' 15 5) (w.extractLsb' 7 5)) else .error .nonzeroField
      | 2 => if w.extractLsb' 20 5 == 0 then .ok (.cgetp (w.extractLsb' 15 5) (w.extractLsb' 7 5)) else .error .nonzeroField
      | 3 => if w.extractLsb' 20 5 == 0 then .ok (.ctag (w.extractLsb' 15 5) (w.extractLsb' 7 5)) else .error .nonzeroField
      | 4 => .ok (.candp (w.extractLsb' 20 5) (w.extractLsb' 15 5) (w.extractLsb' 7 5))
      | 5 => .ok (.cseal (w.extractLsb' 20 5) (w.extractLsb' 15 5) (w.extractLsb' 7 5))
      | 6 => .ok (.cunseal (w.extractLsb' 20 5) (w.extractLsb' 15 5) (w.extractLsb' 7 5))
      | 7 => if w.extractLsb' 20 5 == 0 then .ok (.cmove (w.extractLsb' 15 5) (w.extractLsb' 7 5)) else .error .nonzeroField
      | 8 => .ok (.cjalr (w.extractLsb' 20 5) (w.extractLsb' 15 5) (w.extractLsb' 7 5))
      | _ => .error .badFunction
    | 1 => if w.extractLsb' 25 2 == 0 then .ok (.csetb (rvReg w 27) (rvReg w 20) (rvReg w 15) (rvReg w 7)) else .error .badFunction
    | _ => .error .badFunction)
  | 43 => some (
    match (w.extractLsb' 12 3).toNat with
    | 0 | 1 | 2 | 3 => .ok (.cld (w.extractLsb' 27 5) (w.extractLsb' 20 7) (w.extractLsb' 15 5) (w.extractLsb' 12 2) (w.extractLsb' 7 5))
    | 4 => .ok (.cldc (w.extractLsb' 27 5) (w.extractLsb' 20 7) (w.extractLsb' 15 5) (w.extractLsb' 7 5))
    | _ => .error .badFunction)
  | 123 => some (
    match (w.extractLsb' 12 3).toNat with
    | 0 | 1 | 2 | 3 => .ok (.cst (w.extractLsb' 27 5) (w.extractLsb' 25 2) (w.extractLsb' 20 5) (w.extractLsb' 15 5) (w.extractLsb' 12 2) (w.extractLsb' 7 5))
    | 4 => .ok (.cstc (w.extractLsb' 27 5) (w.extractLsb' 25 2) (w.extractLsb' 20 5) (w.extractLsb' 15 5) (w.extractLsb' 7 5))
    | _ => .error .badFunction)
  | _ => none

/-- A standard RV64IM word (R344), by the RISC-V base encodings. -/
def decodeRv32 (w : W32) : Except DecodeErr RvInstr :=
  let rd := rvReg w 7
  let rs1 := rvReg w 15
  let rs2 := rvReg w 20
  let immI : BitVec 12 := w.extractLsb' 20 12
  let f7 := (w.extractLsb' 25 7).toNat
  let f3 := (w.extractLsb' 12 3).toNat
  match (w.extractLsb' 0 7).toNat with
  | 0x37 => .ok (.lui rd (w.extractLsb' 12 20))
  | 0x17 => .ok (.auipc rd (w.extractLsb' 12 20))
  | 0x6F =>
    .ok (.jal rd (w.extractLsb' 31 1 ++ w.extractLsb' 12 8 ++ w.extractLsb' 20 1 ++ w.extractLsb' 21 10 ++ (0 : BitVec 1)))
  | 0x67 => if f3 = 0 then .ok (.jalr rd rs1 immI) else .error .badFunction
  | 0x63 =>
    let off : BitVec 13 := w.extractLsb' 31 1 ++ w.extractLsb' 7 1 ++ w.extractLsb' 25 6 ++ w.extractLsb' 8 4 ++ (0 : BitVec 1)
    match f3 with
    | 0 => .ok (.branch .eq rs1 rs2 off)
    | 1 => .ok (.branch .ne rs1 rs2 off)
    | 4 => .ok (.branch .lt rs1 rs2 off)
    | 5 => .ok (.branch .ge rs1 rs2 off)
    | 6 => .ok (.branch .ltu rs1 rs2 off)
    | 7 => .ok (.branch .geu rs1 rs2 off)
    | _ => .error .badFunction
  | 0x03 => if f3 = 7 then .error .badFunction else .ok (.load (w.extractLsb' 12 3) rd rs1 immI)
  | 0x23 =>
    if f3 ≤ 3 then .ok (.store (w.extractLsb' 12 3) rs1 rs2 (w.extractLsb' 25 7 ++ w.extractLsb' 7 5)) else .error .badFunction
  | 0x13 =>
    match f3 with
    | 0 => .ok (.opImm .add rd rs1 immI)
    | 1 => if f7 / 2 = 0 then .ok (.opImm .sll rd rs1 immI) else .error .badFunction
    | 2 => .ok (.opImm .slt rd rs1 immI)
    | 3 => .ok (.opImm .sltu rd rs1 immI)
    | 4 => .ok (.opImm .xor rd rs1 immI)
    | 5 =>
      if f7 / 2 = 0 then .ok (.opImm .srl rd rs1 immI)
      else if f7 / 2 = 16 then .ok (.opImm .sra rd rs1 (immI &&& 63)) else .error .badFunction
    | 6 => .ok (.opImm .or rd rs1 immI)
    | _ => .ok (.opImm .and rd rs1 immI)
  | 0x1B =>
    match f3 with
    | 0 => .ok (.opImm .addw rd rs1 immI)
    | 1 => if f7 = 0 then .ok (.opImm .sllw rd rs1 immI) else .error .badFunction
    | 5 =>
      if f7 = 0 then .ok (.opImm .srlw rd rs1 immI)
      else if f7 = 32 then .ok (.opImm .sraw rd rs1 (immI &&& 31)) else .error .badFunction
    | _ => .error .badFunction
  | 0x33 =>
    match f7, f3 with
    | 0, 0 => .ok (.op .add rd rs1 rs2)
    | 32, 0 => .ok (.op .sub rd rs1 rs2)
    | 0, 1 => .ok (.op .sll rd rs1 rs2)
    | 0, 2 => .ok (.op .slt rd rs1 rs2)
    | 0, 3 => .ok (.op .sltu rd rs1 rs2)
    | 0, 4 => .ok (.op .xor rd rs1 rs2)
    | 0, 5 => .ok (.op .srl rd rs1 rs2)
    | 32, 5 => .ok (.op .sra rd rs1 rs2)
    | 0, 6 => .ok (.op .or rd rs1 rs2)
    | 0, 7 => .ok (.op .and rd rs1 rs2)
    | 1, 0 => .ok (.op .mul rd rs1 rs2)
    | 1, 1 => .ok (.op .mulh rd rs1 rs2)
    | 1, 2 => .ok (.op .mulhsu rd rs1 rs2)
    | 1, 3 => .ok (.op .mulhu rd rs1 rs2)
    | 1, 4 => .ok (.op .div rd rs1 rs2)
    | 1, 5 => .ok (.op .divu rd rs1 rs2)
    | 1, 6 => .ok (.op .rem rd rs1 rs2)
    | 1, 7 => .ok (.op .remu rd rs1 rs2)
    | _, _ => .error .badFunction
  | 0x3B =>
    match f7, f3 with
    | 0, 0 => .ok (.op .addw rd rs1 rs2)
    | 32, 0 => .ok (.op .subw rd rs1 rs2)
    | 0, 1 => .ok (.op .sllw rd rs1 rs2)
    | 0, 5 => .ok (.op .srlw rd rs1 rs2)
    | 32, 5 => .ok (.op .sraw rd rs1 rs2)
    | 1, 0 => .ok (.op .mulw rd rs1 rs2)
    | 1, 4 => .ok (.op .divw rd rs1 rs2)
    | 1, 5 => .ok (.op .divuw rd rs1 rs2)
    | 1, 6 => .ok (.op .remw rd rs1 rs2)
    | 1, 7 => .ok (.op .remuw rd rs1 rs2)
    | _, _ => .error .badFunction
  | 0x0F => if f3 = 0 then .ok .fence else .error .badFunction
  | 0x73 =>
    match f3 with
    | 0 =>
      if rd != 0 || rs1 != 0 then .error .nonzeroField
      else match immI.toNat with
        | 0 => .ok .ecall
        | 1 => .ok .ebreak
        | 0x302 => .ok .mret
        | 0x105 => .ok .wfi
        | _ => .error .badFunction
    | 1 => .ok (.csr .rw rd rs1 false immI)
    | 2 => .ok (.csr .rs rd rs1 false immI)
    | 3 => .ok (.csr .rc rd rs1 false immI)
    | 5 => .ok (.csr .rw rd rs1 true immI)
    | 6 => .ok (.csr .rs rd rs1 true immI)
    | 7 => .ok (.csr .rc rd rs1 true immI)
    | _ => .error .badFunction
  | _ => .error .reservedMajor

/-- The registers x8–x15 of a compressed form's 3-bit field. -/
def rvcReg (h : BitVec 16) (lo : Nat) : Reg := (1 : BitVec 2) ++ h.extractLsb' lo 3

/-- A compressed word of RV64C without floating point (R344), as the standard instruction it stands for. -/
def decodeRvc (h : BitVec 16) : Except DecodeErr RvInstr :=
  let rd : Reg := h.extractLsb' 7 5
  let rs2 : Reg := h.extractLsb' 2 5
  let r7 := rvcReg h 7
  let r2 := rvcReg h 2
  let b12 : BitVec 1 := h.extractLsb' 12 1
  let imm6 : BitVec 6 := b12 ++ h.extractLsb' 2 5
  let i12 : BitVec 12 := imm6.signExtend 12
  let jOff : BitVec 12 :=
    b12 ++ h.extractLsb' 8 1 ++ h.extractLsb' 9 2 ++ h.extractLsb' 6 1 ++ h.extractLsb' 7 1 ++ h.extractLsb' 2 1 ++
      h.extractLsb' 11 1 ++ h.extractLsb' 3 3 ++ (0 : BitVec 1)
  let bOff : BitVec 9 :=
    b12 ++ h.extractLsb' 5 2 ++ h.extractLsb' 2 1 ++ h.extractLsb' 10 2 ++ h.extractLsb' 3 2 ++ (0 : BitVec 1)
  let lw : BitVec 12 := ((h.extractLsb' 5 1 ++ h.extractLsb' 10 3 ++ h.extractLsb' 6 1 ++ (0 : BitVec 2) : BitVec 7)).setWidth 12
  let ld : BitVec 12 := ((h.extractLsb' 5 2 ++ h.extractLsb' 10 3 ++ (0 : BitVec 3) : BitVec 8)).setWidth 12
  let lwsp : BitVec 12 := ((h.extractLsb' 2 2 ++ b12 ++ h.extractLsb' 4 3 ++ (0 : BitVec 2) : BitVec 8)).setWidth 12
  let ldsp : BitVec 12 := ((h.extractLsb' 2 3 ++ b12 ++ h.extractLsb' 5 2 ++ (0 : BitVec 3) : BitVec 9)).setWidth 12
  let swsp : BitVec 12 := ((h.extractLsb' 7 2 ++ h.extractLsb' 9 4 ++ (0 : BitVec 2) : BitVec 8)).setWidth 12
  let sdsp : BitVec 12 := ((h.extractLsb' 7 3 ++ h.extractLsb' 10 3 ++ (0 : BitVec 3) : BitVec 9)).setWidth 12
  let spn : BitVec 10 := h.extractLsb' 7 4 ++ h.extractLsb' 11 2 ++ h.extractLsb' 5 1 ++ h.extractLsb' 6 1 ++ (0 : BitVec 2)
  let sp16 : BitVec 10 := b12 ++ h.extractLsb' 3 2 ++ h.extractLsb' 5 1 ++ h.extractLsb' 2 1 ++ h.extractLsb' 6 1 ++ (0 : BitVec 4)
  match (h.extractLsb' 0 2).toNat, (h.extractLsb' 13 3).toNat with
  | 0, 0 => if spn == 0 then .error .reservedMajor else .ok (.opImm .add r2 2 (spn.setWidth 12))
  | 0, 2 => .ok (.load 2 r2 r7 lw)
  | 0, 3 => .ok (.load 3 r2 r7 ld)
  | 0, 6 => .ok (.store 2 r7 r2 lw)
  | 0, 7 => .ok (.store 3 r7 r2 ld)
  | 1, 0 => .ok (.opImm .add rd rd i12)
  | 1, 1 => if rd == 0 then .error .reservedMajor else .ok (.opImm .addw rd rd i12)
  | 1, 2 => .ok (.opImm .add rd 0 i12)
  | 1, 3 =>
    if rd == 2 then
      if sp16 == 0 then .error .reservedMajor else .ok (.opImm .add 2 2 (sp16.signExtend 12))
    else if imm6 == 0 then .error .reservedMajor else .ok (.lui rd (imm6.signExtend 20))
  | 1, 4 =>
    match (h.extractLsb' 10 2).toNat with
    | 0 => .ok (.opImm .srl r7 r7 (imm6.setWidth 12))
    | 1 => .ok (.opImm .sra r7 r7 (imm6.setWidth 12))
    | 2 => .ok (.opImm .and r7 r7 i12)
    | _ =>
      match b12.toNat, (h.extractLsb' 5 2).toNat with
      | 0, 0 => .ok (.op .sub r7 r7 r2)
      | 0, 1 => .ok (.op .xor r7 r7 r2)
      | 0, 2 => .ok (.op .or r7 r7 r2)
      | 0, 3 => .ok (.op .and r7 r7 r2)
      | 1, 0 => .ok (.op .subw r7 r7 r2)
      | 1, 1 => .ok (.op .addw r7 r7 r2)
      | _, _ => .error .badFunction
  | 1, 5 => .ok (.jal 0 (jOff.signExtend 21))
  | 1, 6 => .ok (.branch .eq r7 0 (bOff.signExtend 13))
  | 1, 7 => .ok (.branch .ne r7 0 (bOff.signExtend 13))
  | 2, 0 => .ok (.opImm .sll rd rd (imm6.setWidth 12))
  | 2, 2 => if rd == 0 then .error .reservedMajor else .ok (.load 2 rd 2 lwsp)
  | 2, 3 => if rd == 0 then .error .reservedMajor else .ok (.load 3 rd 2 ldsp)
  | 2, 4 =>
    if b12 == 0 then
      if rs2 == 0 then (if rd == 0 then .error .reservedMajor else .ok (.jalr 0 rd 0))
      else .ok (.op .add rd 0 rs2)
    else if rs2 == 0 then (if rd == 0 then .ok .ebreak else .ok (.jalr 1 rd 0))
    else .ok (.op .add rd rd rs2)
  | 2, 6 => .ok (.store 2 2 rs2 swsp)
  | 2, 7 => .ok (.store 3 2 rs2 sdsp)
  | _, _ => .error .reservedMajor

/-- A Granary word: a warrant instruction, a standard 32-bit word, or a compressed word in its low half. -/
def rawG (w : W32) : Except DecodeErr Instr :=
  if w.extractLsb' 0 2 == 3 then
    match rawWarrant w with
    | some r => r
    | none =>
      match decodeRv32 w with
      | .ok i => .ok (.rv64 false i)
      | .error e => .error e
  else
    match decodeRvc (w.extractLsb' 0 16) with
    | .ok i => .ok (.rv64 true i)
    | .error e => .error e

/-- One instruction of the map `mp`: the layout, then the checks of R52. `nxt` is the word that follows where the
instruction may take one (none at the end of a fetch block or of a table). -/
def decode (mp : IMap) (w : W32) (nxt : Option W32) : Except DecodeErr Instr :=
  let raw :=
    match mp with
    | .c => rawC w nxt
    | .l => rawLS w nxt
    | .s => rawLS w nxt
    | .m => rawM w
    | .h => rawH w
    | .g => rawG w
    | .e => .error .reservedMajor
  match raw with
  | .ok i => if i.wfIn mp then .ok i else .error .illFormed
  | .error e => .error e

/-- A little-endian 32-bit word from four bytes (R42). -/
def wordOfBytes (b0 b1 b2 b3 : Byte) : W32 := b3 ++ b2 ++ b1 ++ b0

/-- Decoding of any bytes: the instruction of the map and the bytes after it, or the reason for refusal. -/
def decodeBytes (mp : IMap) (bs : List Byte) : Except DecodeErr (Instr × List Byte) :=
  match bs with
  | b0 :: b1 :: b2 :: b3 :: rest =>
    let w := wordOfBytes b0 b1 b2 b3
    match rest with
    | c0 :: c1 :: c2 :: c3 :: rest2 =>
      match decode mp w (some (wordOfBytes c0 c1 c2 c3)) with
      | .ok i =>
        match i with
        | .liw _ _ | .lihw _ _ | .aset _ _ _ _ _ _ => .ok (i, rest2)
        | .rv64 true _ => .ok (i, b2 :: b3 :: rest)
        | _ => .ok (i, rest)
      | .error e => .error e
    | _ =>
      match decode mp w none with
      | .ok (.rv64 true i) => .ok (.rv64 true i, b2 :: b3 :: rest)
      | .ok i => .ok (i, rest)
      | .error e => .error e
  | b0 :: b1 :: rest =>
    match mp with
    | .g =>
      match decodeRvc (b1 ++ b0) with
      | .ok i => .ok (.rv64 true i, rest)
      | .error _ => .error .truncated
    | _ => .error .truncated
  | _ => .error .truncated

/-- The maps in the order in which a bare word is tried: the same word may be an instruction of several (R48–R51). -/
def tableMaps : List IMap := [.c, .l, .s, .m, .h, .g]

/-- The first map of `tableMaps` in which the word is an instruction. -/
def decodeAny (w nxt : W32) : List IMap → Option (IMap × Instr)
  | [] => none
  | mp :: rest =>
    match decode mp w (some nxt) with
    | .ok i => some (mp, i)
    | .error _ => decodeAny w nxt rest

/-- The first word of an opcode-table word, and the word that follows it. -/
def tableWords (w : Nat) : W32 × W32 := (BitVec.ofNat 32 w, BitVec.ofNat 32 (w / 2 ^ 32))

/-- The instruction that the decoder reads from the table's bits `w` (host interface). -/
def decodeTableWord (nbits w : Nat) : Option Instr :=
  if nbits ≤ 64 then
    (decodeAny (tableWords w).1 (tableWords w).2 tableMaps).map Prod.snd
  else none

/-- The base-encoding word of a standard RV64IM instruction. -/
def encodeRv (i : RvInstr) : List W32 :=
  let opR (f7 : BitVec 7) (f3 : BitVec 3) (opc : BitVec 7) (rd rs1 rs2 : Reg) : List W32 := [f7 ++ rs2 ++ rs1 ++ f3 ++ rd ++ opc]
  let opI (f3 : BitVec 3) (opc : BitVec 7) (rd rs1 : Reg) (imm : BitVec 12) : List W32 := [imm ++ rs1 ++ f3 ++ rd ++ opc]
  match i with
  | .lui rd imm => [imm ++ rd ++ (0x37 : BitVec 7)]
  | .auipc rd imm => [imm ++ rd ++ (0x17 : BitVec 7)]
  | .jal rd o => [o.extractLsb' 20 1 ++ o.extractLsb' 1 10 ++ o.extractLsb' 11 1 ++ o.extractLsb' 12 8 ++ rd ++ (0x6F : BitVec 7)]
  | .jalr rd rs1 o => opI 0 0x67 rd rs1 o
  | .branch c rs1 rs2 o =>
    let f3 : BitVec 3 := match c with
      | .eq => 0 | .ne => 1 | .lt => 4 | .ge => 5 | .ltu => 6 | .geu => 7
    [o.extractLsb' 12 1 ++ o.extractLsb' 5 6 ++ rs2 ++ rs1 ++ f3 ++ o.extractLsb' 1 4 ++ o.extractLsb' 11 1 ++ (0x63 : BitVec 7)]
  | .load f3 rd rs1 o => opI f3 0x03 rd rs1 o
  | .store f3 rs1 rs2 o => [o.extractLsb' 5 7 ++ rs2 ++ rs1 ++ f3 ++ o.extractLsb' 0 5 ++ (0x23 : BitVec 7)]
  | .opImm o rd rs1 imm =>
    match o with
    | .add => opI 0 0x13 rd rs1 imm
    | .sll => opI 1 0x13 rd rs1 (imm &&& 63)
    | .slt => opI 2 0x13 rd rs1 imm
    | .sltu => opI 3 0x13 rd rs1 imm
    | .xor => opI 4 0x13 rd rs1 imm
    | .srl => opI 5 0x13 rd rs1 (imm &&& 63)
    | .sra => opI 5 0x13 rd rs1 ((imm &&& 63) ||| 0x400)
    | .or => opI 6 0x13 rd rs1 imm
    | .and => opI 7 0x13 rd rs1 imm
    | .addw => opI 0 0x1B rd rs1 imm
    | .sllw => opI 1 0x1B rd rs1 (imm &&& 31)
    | .srlw => opI 5 0x1B rd rs1 (imm &&& 31)
    | .sraw => opI 5 0x1B rd rs1 ((imm &&& 31) ||| 0x400)
    | _ => []
  | .op o rd rs1 rs2 =>
    match o with
    | .add => opR 0 0 0x33 rd rs1 rs2
    | .sub => opR 32 0 0x33 rd rs1 rs2
    | .sll => opR 0 1 0x33 rd rs1 rs2
    | .slt => opR 0 2 0x33 rd rs1 rs2
    | .sltu => opR 0 3 0x33 rd rs1 rs2
    | .xor => opR 0 4 0x33 rd rs1 rs2
    | .srl => opR 0 5 0x33 rd rs1 rs2
    | .sra => opR 32 5 0x33 rd rs1 rs2
    | .or => opR 0 6 0x33 rd rs1 rs2
    | .and => opR 0 7 0x33 rd rs1 rs2
    | .mul => opR 1 0 0x33 rd rs1 rs2
    | .mulh => opR 1 1 0x33 rd rs1 rs2
    | .mulhsu => opR 1 2 0x33 rd rs1 rs2
    | .mulhu => opR 1 3 0x33 rd rs1 rs2
    | .div => opR 1 4 0x33 rd rs1 rs2
    | .divu => opR 1 5 0x33 rd rs1 rs2
    | .rem => opR 1 6 0x33 rd rs1 rs2
    | .remu => opR 1 7 0x33 rd rs1 rs2
    | .addw => opR 0 0 0x3B rd rs1 rs2
    | .subw => opR 32 0 0x3B rd rs1 rs2
    | .sllw => opR 0 1 0x3B rd rs1 rs2
    | .srlw => opR 0 5 0x3B rd rs1 rs2
    | .sraw => opR 32 5 0x3B rd rs1 rs2
    | .mulw => opR 1 0 0x3B rd rs1 rs2
    | .divw => opR 1 4 0x3B rd rs1 rs2
    | .divuw => opR 1 5 0x3B rd rs1 rs2
    | .remw => opR 1 6 0x3B rd rs1 rs2
    | .remuw => opR 1 7 0x3B rd rs1 rs2
  | .fence => [(0x0FF0000F : W32)]
  | .ecall => [(0x00000073 : W32)]
  | .ebreak => [(0x00100073 : W32)]
  | .mret => [(0x30200073 : W32)]
  | .wfi => [(0x10500073 : W32)]
  | .csr o rd src isImm num =>
    let f3 : BitVec 3 := (if isImm then 4 else 0) ||| (match o with
      | .rw => 1 | .rs => 2 | .rc => 3)
    opI f3 0x73 rd src num

/-- The words of an instruction, first word first; an event has none, and a standard RV64 instruction is encoded by
`encodeRv` below. -/
def encodeWords (i : Instr) : List W32 :=
  match i with
  | .add d a b => [(1 : BitVec 6) ++ d ++ a ++ b ++ (0 : BitVec 11)]
  | .sub d a b => [(1 : BitVec 6) ++ d ++ a ++ b ++ (1 : BitVec 11)]
  | .and d a b => [(1 : BitVec 6) ++ d ++ a ++ b ++ (2 : BitVec 11)]
  | .or d a b => [(1 : BitVec 6) ++ d ++ a ++ b ++ (3 : BitVec 11)]
  | .xor d a b => [(1 : BitVec 6) ++ d ++ a ++ b ++ (4 : BitVec 11)]
  | .shl d a b => [(1 : BitVec 6) ++ d ++ a ++ b ++ (5 : BitVec 11)]
  | .shr d a b => [(1 : BitVec 6) ++ d ++ a ++ b ++ (6 : BitVec 11)]
  | .sar d a b => [(1 : BitVec 6) ++ d ++ a ++ b ++ (7 : BitVec 11)]
  | .min d a b => [(1 : BitVec 6) ++ d ++ a ++ b ++ (8 : BitVec 11)]
  | .max d a b => [(1 : BitVec 6) ++ d ++ a ++ b ++ (9 : BitVec 11)]
  | .minu d a b => [(1 : BitVec 6) ++ d ++ a ++ b ++ (10 : BitVec 11)]
  | .maxu d a b => [(1 : BitVec 6) ++ d ++ a ++ b ++ (11 : BitVec 11)]
  | .slt d a b => [(1 : BitVec 6) ++ d ++ a ++ b ++ (12 : BitVec 11)]
  | .sltu d a b => [(1 : BitVec 6) ++ d ++ a ++ b ++ (13 : BitVec 11)]
  | .seq d a b => [(1 : BitVec 6) ++ d ++ a ++ b ++ (14 : BitVec 11)]
  | .mul d a b => [(1 : BitVec 6) ++ d ++ a ++ b ++ (15 : BitVec 11)]
  | .mulh d a b => [(1 : BitVec 6) ++ d ++ a ++ b ++ (16 : BitVec 11)]
  | .div d a b => [(1 : BitVec 6) ++ d ++ a ++ b ++ (17 : BitVec 11)]
  | .divu d a b => [(1 : BitVec 6) ++ d ++ a ++ b ++ (18 : BitVec 11)]
  | .rem d a b => [(1 : BitVec 6) ++ d ++ a ++ b ++ (19 : BitVec 11)]
  | .remu d a b => [(1 : BitVec 6) ++ d ++ a ++ b ++ (20 : BitVec 11)]
  | .clz d a => [(1 : BitVec 6) ++ d ++ a ++ (21 : BitVec 16)]
  | .ctz d a => [(1 : BitVec 6) ++ d ++ a ++ (22 : BitVec 16)]
  | .popc d a => [(1 : BitVec 6) ++ d ++ a ++ (23 : BitVec 16)]
  | .fshl d a b => [(1 : BitVec 6) ++ d ++ a ++ b ++ (24 : BitVec 11)]
  | .fshr d a b => [(1 : BitVec 6) ++ d ++ a ++ b ++ (25 : BitVec 11)]
  | .sextb d a => [(1 : BitVec 6) ++ d ++ a ++ (26 : BitVec 16)]
  | .sexth d a => [(1 : BitVec 6) ++ d ++ a ++ (27 : BitVec 16)]
  | .sextw d a => [(1 : BitVec 6) ++ d ++ a ++ (28 : BitVec 16)]
  | .addi d a i => [(2 : BitVec 6) ++ d ++ a ++ i]
  | .andi d a i => [(3 : BitVec 6) ++ d ++ a ++ i]
  | .ori d a i => [(4 : BitVec 6) ++ d ++ a ++ i]
  | .xori d a i => [(5 : BitVec 6) ++ d ++ a ++ i]
  | .shli d a i => [(6 : BitVec 6) ++ d ++ a ++ i]
  | .shri d a i => [(7 : BitVec 6) ++ d ++ a ++ i]
  | .sari d a i => [(8 : BitVec 6) ++ d ++ a ++ i]
  | .slti d a i => [(9 : BitVec 6) ++ d ++ a ++ i]
  | .li d i => [(10 : BitVec 6) ++ d ++ i]
  | .liw d i => [(11 : BitVec 6) ++ d ++ (0 : BitVec 21), i]
  | .lihw d i => [(12 : BitVec 6) ++ d ++ (0 : BitVec 21), i]
  | .bext d a p l => [(13 : BitVec 6) ++ d ++ a ++ p ++ l ++ (0 : BitVec 4)]
  | .bins d a p l => [(14 : BitVec 6) ++ d ++ a ++ p ++ l ++ (0 : BitVec 4)]
  | .bextv d a b => [(15 : BitVec 6) ++ d ++ a ++ b ++ (0 : BitVec 11)]
  | .beq a b o => [(16 : BitVec 6) ++ a ++ b ++ o]
  | .bne a b o => [(17 : BitVec 6) ++ a ++ b ++ o]
  | .blt a b o => [(18 : BitVec 6) ++ a ++ b ++ o]
  | .bge a b o => [(19 : BitVec 6) ++ a ++ b ++ o]
  | .bltu a b o => [(20 : BitVec 6) ++ a ++ b ++ o]
  | .bgeu a b o => [(21 : BitVec 6) ++ a ++ b ++ o]
  | .j o => [(22 : BitVec 6) ++ o]
  | .jal o => [(23 : BitVec 6) ++ o]
  | .jr d a => [(24 : BitVec 6) ++ d ++ a ++ (0 : BitVec 16)]
  | .loop a o => [(25 : BitVec 6) ++ a ++ (0 : BitVec 5) ++ o]
  | .sldb d a i => [(26 : BitVec 6) ++ d ++ a ++ i]
  | .sldh d a i => [(27 : BitVec 6) ++ d ++ a ++ i]
  | .sldw d a i => [(28 : BitVec 6) ++ d ++ a ++ i]
  | .sldd d a i => [(29 : BitVec 6) ++ d ++ a ++ i]
  | .sstb d a i => [(30 : BitVec 6) ++ d ++ a ++ i]
  | .ssth d a i => [(31 : BitVec 6) ++ d ++ a ++ i]
  | .sstw d a i => [(32 : BitVec 6) ++ d ++ a ++ i]
  | .sstd d a i => [(33 : BitVec 6) ++ d ++ a ++ i]
  | .amoadd d a b sc o => [(34 : BitVec 6) ++ d ++ a ++ b ++ sc ++ o ++ (0 : BitVec 6)]
  | .amoswp d a b sc o => [(34 : BitVec 6) ++ d ++ a ++ b ++ sc ++ o ++ (1 : BitVec 6)]
  | .amocas d a b sc o => [(34 : BitVec 6) ++ d ++ a ++ b ++ sc ++ o ++ (2 : BitVec 6)]
  | .amomax d a b sc o => [(34 : BitVec 6) ++ d ++ a ++ b ++ sc ++ o ++ (3 : BitVec 6)]
  | .amomin d a b sc o => [(34 : BitVec 6) ++ d ++ a ++ b ++ sc ++ o ++ (4 : BitVec 6)]
  | .amoor d a b sc o => [(34 : BitVec 6) ++ d ++ a ++ b ++ sc ++ o ++ (5 : BitVec 6)]
  | .amoand d a b sc o => [(34 : BitVec 6) ++ d ++ a ++ b ++ sc ++ o ++ (6 : BitVec 6)]
  | .fset a b sc o => [(35 : BitVec 6) ++ (0 : BitVec 5) ++ a ++ b ++ sc ++ o ++ (0 : BitVec 6)]
  | .fclr a b sc o => [(35 : BitVec 6) ++ (0 : BitVec 5) ++ a ++ b ++ sc ++ o ++ (1 : BitVec 6)]
  | .ftest d a b sc o => [(35 : BitVec 6) ++ d ++ a ++ b ++ sc ++ o ++ (2 : BitVec 6)]
  | .ftas d a b sc o => [(35 : BitVec 6) ++ d ++ a ++ b ++ sc ++ o ++ (3 : BitVec 6)]
  | .fwait a b sc o => [(35 : BitVec 6) ++ (0 : BitVec 5) ++ a ++ b ++ sc ++ o ++ (4 : BitVec 6)]
  | .fwaitc a b sc o => [(35 : BitVec 6) ++ (0 : BitVec 5) ++ a ++ b ++ sc ++ o ++ (5 : BitVec 6)]
  | .waita d a b sc o => [(36 : BitVec 6) ++ d ++ a ++ b ++ sc ++ o ++ (0 : BitVec 6)]
  | .trun d a b => [(37 : BitVec 6) ++ d ++ a ++ b ++ (0 : BitVec 11)]
  | .tbase d a b => [(37 : BitVec 6) ++ d ++ a ++ b ++ (1 : BitVec 11)]
  | .tstop d => [(37 : BitVec 6) ++ d ++ (2 : BitVec 21)]
  | .twait d => [(37 : BitVec 6) ++ d ++ (3 : BitVec 21)]
  | .tcut d a => [(37 : BitVec 6) ++ d ++ a ++ (4 : BitVec 16)]
  | .tstat d a => [(37 : BitVec 6) ++ d ++ a ++ (5 : BitVec 16)]
  | .tkput a b => [(38 : BitVec 6) ++ (0 : BitVec 5) ++ a ++ b ++ (0 : BitVec 11)]
  | .tkget d b => [(38 : BitVec 6) ++ d ++ (0 : BitVec 5) ++ b ++ (1 : BitVec 11)]
  | .tkcnt d b => [(38 : BitVec 6) ++ d ++ (0 : BitVec 5) ++ b ++ (2 : BitVec 11)]
  | .tkreset d a b => [(38 : BitVec 6) ++ d ++ a ++ b ++ (3 : BitVec 11)]
  | .setn d a => [(39 : BitVec 6) ++ d ++ a ++ (0 : BitVec 16)]
  | .xcopy d a b sc o n => [(40 : BitVec 6) ++ d ++ a ++ b ++ sc ++ o ++ n ++ (0 : BitVec 5)]
  | .xgath d a sc o n => [(40 : BitVec 6) ++ d ++ a ++ (0 : BitVec 5) ++ sc ++ o ++ n ++ (1 : BitVec 5)]
  | .xscat d a sc o n => [(40 : BitVec 6) ++ d ++ a ++ (0 : BitVec 5) ++ sc ++ o ++ n ++ (2 : BitVec 5)]
  | .xcoll d a sc o n => [(40 : BitVec 6) ++ d ++ a ++ (0 : BitVec 5) ++ sc ++ o ++ n ++ (3 : BitVec 5)]
  | .xpref d a sc o n => [(40 : BitVec 6) ++ d ++ a ++ (0 : BitVec 5) ++ sc ++ o ++ n ++ (4 : BitVec 5)]
  | .xlayer d sc o n => [(40 : BitVec 6) ++ d ++ (0 : BitVec 10) ++ sc ++ o ++ n ++ (5 : BitVec 5)]
  | .xpin d a sc o n => [(40 : BitVec 6) ++ d ++ a ++ (0 : BitVec 5) ++ sc ++ o ++ n ++ (6 : BitVec 5)]
  | .xunpin d a sc o n => [(40 : BitVec 6) ++ d ++ a ++ (0 : BitVec 5) ++ sc ++ o ++ n ++ (7 : BitVec 5)]
  | .xgen d a => [(40 : BitVec 6) ++ d ++ a ++ (8 : BitVec 16)]
  | .xwaitc d a sc o => [(40 : BitVec 6) ++ d ++ a ++ (0 : BitVec 5) ++ sc ++ o ++ (9 : BitVec 6)]
  | .xqstat d a => [(40 : BitVec 6) ++ d ++ a ++ (10 : BitVec 16)]
  | .egsub d a sc o n => [(40 : BitVec 6) ++ d ++ a ++ (0 : BitVec 5) ++ sc ++ o ++ n ++ (11 : BitVec 5)]
  | .kvalloc d a b n => [(41 : BitVec 6) ++ d ++ a ++ b ++ (0 : BitVec 5) ++ n ++ (0 : BitVec 5)]
  | .kvfree d a => [(41 : BitVec 6) ++ d ++ a ++ (1 : BitVec 16)]
  | .kvref d a => [(41 : BitVec 6) ++ d ++ a ++ (2 : BitVec 16)]
  | .kvlook d a b => [(41 : BitVec 6) ++ d ++ a ++ b ++ (3 : BitVec 11)]
  | .kvmap d a b => [(41 : BitVec 6) ++ d ++ a ++ b ++ (4 : BitVec 11)]
  | .taskpost d a => [(42 : BitVec 6) ++ d ++ a ++ (0 : BitVec 16)]
  | .taskend => [(42 : BitVec 6) ++ (1 : BitVec 26)]
  | .taskyld d => [(42 : BitVec 6) ++ d ++ (2 : BitVec 21)]
  | .glaunch d a => [(42 : BitVec 6) ++ d ++ a ++ (3 : BitVec 16)]
  | .slack d => [(42 : BitVec 6) ++ d ++ (4 : BitVec 21)]
  | .rung d a b => [(42 : BitVec 6) ++ d ++ a ++ b ++ (5 : BitVec 11)]
  | .frmacq d a => [(42 : BitVec 6) ++ d ++ a ++ (6 : BitVec 16)]
  | .frmcommit d a b => [(42 : BitVec 6) ++ d ++ a ++ b ++ (7 : BitVec 11)]
  | .phase d sc o => [(43 : BitVec 6) ++ d ++ (0 : BitVec 10) ++ sc ++ o ++ (0 : BitVec 6)]
  | .pharr d a sc o => [(43 : BitVec 6) ++ d ++ a ++ (0 : BitVec 5) ++ sc ++ o ++ (1 : BitVec 6)]
  | .phwait a b sc o => [(43 : BitVec 6) ++ (0 : BitVec 5) ++ a ++ b ++ sc ++ o ++ (2 : BitVec 6)]
  | .fence sc o => [(43 : BitVec 6) ++ (0 : BitVec 15) ++ sc ++ o ++ (3 : BitVec 6)]
  | .rels a b sc => [(43 : BitVec 6) ++ (0 : BitVec 5) ++ a ++ b ++ sc ++ (132 : BitVec 8)]
  | .acqs d a sc => [(43 : BitVec 6) ++ d ++ a ++ (0 : BitVec 5) ++ sc ++ (69 : BitVec 8)]
  | .atgo d a => [(44 : BitVec 6) ++ d ++ a ++ (0 : BitVec 16)]
  | .atwait d a => [(44 : BitVec 6) ++ d ++ a ++ (1 : BitVec 16)]
  | .atload a b => [(44 : BitVec 6) ++ (0 : BitVec 5) ++ a ++ b ++ (2 : BitVec 11)]
  | .atstat d => [(44 : BitVec 6) ++ d ++ (3 : BitVec 21)]
  | .svc d a b => [(45 : BitVec 6) ++ d ++ a ++ b ++ (0 : BitVec 11)]
  | .trapret d a b => [(45 : BitVec 6) ++ d ++ a ++ b ++ (1 : BitVec 11)]
  | .yrd d a b => [(45 : BitVec 6) ++ d ++ a ++ b ++ (2 : BitVec 11)]
  | .ywr d a b => [(45 : BitVec 6) ++ d ++ a ++ b ++ (3 : BitVec 11)]
  | .idle d a => [(45 : BitVec 6) ++ d ++ a ++ (4 : BitVec 16)]
  | .halt => [(45 : BitVec 6) ++ (5 : BitVec 26)]
  | .tqpop d a => [(45 : BitVec 6) ++ d ++ a ++ (6 : BitVec 16)]
  | .freeze d a => [(45 : BitVec 6) ++ d ++ a ++ (7 : BitVec 16)]
  | .husksave d a b => [(45 : BitVec 6) ++ d ++ a ++ b ++ (8 : BitVec 11)]
  | .huskload d a b => [(45 : BitVec 6) ++ d ++ a ++ b ++ (9 : BitVec 11)]
  | .evpost d a => [(45 : BitVec 6) ++ d ++ a ++ (10 : BitVec 16)]
  | .brkpt => [(45 : BitVec 6) ++ (11 : BitVec 26)]
  | .vld p q v a n o => [(1 : BitVec 6) ++ p ++ q ++ v ++ a ++ n ++ o]
  | .vlds p q d a b => [(2 : BitVec 6) ++ p ++ q ++ d ++ a ++ b ++ (0 : BitVec 5)]
  | .vldg p q d a b => [(3 : BitVec 6) ++ p ++ q ++ d ++ a ++ b ++ (0 : BitVec 5)]
  | .vldb p q v a n o => [(4 : BitVec 6) ++ p ++ q ++ v ++ a ++ n ++ o]
  | .pld p q v a n o => [(5 : BitVec 6) ++ p ++ q ++ v ++ a ++ n ++ o]
  | .mald p q sc a r => [(6 : BitVec 6) ++ p ++ q ++ (0 : BitVec 3) ++ sc ++ a ++ (0 : BitVec 5) ++ r]
  | .wld p q d a i => [(7 : BitVec 6) ++ p ++ q ++ d ++ a ++ i]
  | .zld p q k a r => [(8 : BitVec 6) ++ p ++ q ++ (0 : BitVec 2) ++ k ++ a ++ (0 : BitVec 5) ++ r]
  | .vst p q v a n o => [(9 : BitVec 6) ++ p ++ q ++ v ++ a ++ n ++ o]
  | .vsts p q d a b => [(10 : BitVec 6) ++ p ++ q ++ d ++ a ++ b ++ (0 : BitVec 5)]
  | .vstg p q d a b => [(11 : BitVec 6) ++ p ++ q ++ d ++ a ++ b ++ (0 : BitVec 5)]
  | .vstm p q d a k => [(12 : BitVec 6) ++ p ++ q ++ d ++ a ++ (0 : BitVec 5) ++ k ++ (0 : BitVec 2)]
  | .est p q d a i => [(13 : BitVec 6) ++ p ++ q ++ d ++ a ++ i]
  | .pst p q v a n o => [(14 : BitVec 6) ++ p ++ q ++ v ++ a ++ n ++ o]
  | .aadd p q d a b => [(15 : BitVec 6) ++ p ++ q ++ d ++ a ++ b ++ (0 : BitVec 5)]
  | .aaddi p q d a i => [(16 : BitVec 6) ++ p ++ q ++ d ++ a ++ i]
  | .aset p q d a i j => [(17 : BitVec 6) ++ p ++ q ++ d ++ a ++ i, j]
  | .amov p q d a => [(18 : BitVec 6) ++ p ++ q ++ d ++ a ++ (0 : BitVec 12)]
  | .amovTok p q d => [(18 : BitVec 6) ++ p ++ q ++ d ++ (1 : BitVec 16)]
  | .awrap p q d a k => [(19 : BitVec 6) ++ p ++ q ++ d ++ a ++ (0 : BitVec 7) ++ k]
  | .astep p q d i => [(20 : BitVec 6) ++ p ++ q ++ d ++ (0 : BitVec 4) ++ i]
  | .astepReg p q d a => [(20 : BitVec 6) ++ p ++ q ++ d ++ a ++ (0 : BitVec 12)]
  | .bfull p q a i => [(21 : BitVec 6) ++ p ++ q ++ (0 : BitVec 4) ++ a ++ i]
  | .bempty p q a i => [(21 : BitVec 6) ++ p ++ q ++ (1 : BitVec 4) ++ a ++ i]
  | .bwait p q a i => [(21 : BitVec 6) ++ p ++ q ++ (2 : BitVec 4) ++ a ++ i]
  | .btest p q a i => [(21 : BitVec 6) ++ p ++ q ++ (3 : BitVec 4) ++ a ++ i]
  | .qbind p q sc a i => [(22 : BitVec 6) ++ p ++ q ++ (0 : BitVec 1) ++ sc ++ a ++ i]
  | .qfree p q sc => [(23 : BitVec 6) ++ p ++ q ++ (0 : BitVec 1) ++ sc ++ (0 : BitVec 16)]
  | .pfb p q a i => [(24 : BitVec 6) ++ p ++ q ++ (0 : BitVec 4) ++ a ++ i]
  | .lnop p q => [(25 : BitVec 6) ++ p ++ q ++ (0 : BitVec 20)]
  | .vcfg p q i => [(1 : BitVec 6) ++ p ++ q ++ (0 : BitVec 12) ++ i]
  | .vadd p q d a b k m => [(2 : BitVec 6) ++ p ++ q ++ d ++ a ++ b ++ k ++ m]
  | .vsub p q d a b k m => [(3 : BitVec 6) ++ p ++ q ++ d ++ a ++ b ++ k ++ m]
  | .vmul p q d a b k m => [(4 : BitVec 6) ++ p ++ q ++ d ++ a ++ b ++ k ++ m]
  | .vfma p q d a b k m => [(5 : BitVec 6) ++ p ++ q ++ d ++ a ++ b ++ k ++ m]
  | .vfms p q d a b k m => [(6 : BitVec 6) ++ p ++ q ++ d ++ a ++ b ++ k ++ m]
  | .vmin p q d a b k m => [(7 : BitVec 6) ++ p ++ q ++ d ++ a ++ b ++ k ++ m]
  | .vmax p q d a b k m => [(8 : BitVec 6) ++ p ++ q ++ d ++ a ++ b ++ k ++ m]
  | .vand p q d a b k m => [(9 : BitVec 6) ++ p ++ q ++ d ++ a ++ b ++ k ++ m]
  | .vor p q d a b k m => [(10 : BitVec 6) ++ p ++ q ++ d ++ a ++ b ++ k ++ m]
  | .vxor p q d a b k m => [(11 : BitVec 6) ++ p ++ q ++ d ++ a ++ b ++ k ++ m]
  | .vshl p q d a b k m => [(12 : BitVec 6) ++ p ++ q ++ d ++ a ++ b ++ k ++ m]
  | .vshr p q d a b k m => [(13 : BitVec 6) ++ p ++ q ++ d ++ a ++ b ++ k ++ m]
  | .vsar p q d a b k m => [(14 : BitVec 6) ++ p ++ q ++ d ++ a ++ b ++ k ++ m]
  | .vabs p q d a k m => [(15 : BitVec 6) ++ p ++ q ++ d ++ a ++ (0 : BitVec 5) ++ k ++ (0 : BitVec 1) ++ m]
  | .vneg p q d a k m => [(16 : BitVec 6) ++ p ++ q ++ d ++ a ++ (0 : BitVec 5) ++ k ++ (0 : BitVec 1) ++ m]
  | .vcmp p q d a b c m => [(17 : BitVec 6) ++ p ++ q ++ d ++ a ++ b ++ c ++ m]
  | .vsel p q d a b k m => [(18 : BitVec 6) ++ p ++ q ++ d ++ a ++ b ++ k ++ m]
  | .vmov p q d a k m => [(19 : BitVec 6) ++ p ++ q ++ d ++ a ++ (0 : BitVec 5) ++ k ++ (0 : BitVec 1) ++ m]
  | .vbci p q d i => [(20 : BitVec 6) ++ p ++ q ++ d ++ i]
  | .vsfu p q d a f k m => [(21 : BitVec 6) ++ p ++ q ++ d ++ a ++ f ++ k ++ (0 : BitVec 1) ++ m]
  | .vred p q d a f k m => [(22 : BitVec 6) ++ p ++ q ++ d ++ a ++ f ++ k ++ (0 : BitVec 1) ++ m]
  | .vscan p q d a f k m => [(23 : BitVec 6) ++ p ++ q ++ d ++ a ++ f ++ k ++ (0 : BitVec 1) ++ m]
  | .vperm p q d a b k m => [(24 : BitVec 6) ++ p ++ q ++ d ++ a ++ b ++ k ++ m]
  | .vzip p q d a b k m => [(25 : BitVec 6) ++ p ++ q ++ d ++ a ++ b ++ k ++ m]
  | .vunzip p q d a b k m => [(26 : BitVec 6) ++ p ++ q ++ d ++ a ++ b ++ k ++ m]
  | .vcvt p q d a t k m => [(27 : BitVec 6) ++ p ++ q ++ d ++ a ++ t ++ k ++ (0 : BitVec 1) ++ m]
  | .vwmul p q d a b k m => [(28 : BitVec 6) ++ p ++ q ++ d ++ a ++ b ++ k ++ m]
  | .vwadd p q d a b k m => [(29 : BitVec 6) ++ p ++ q ++ d ++ a ++ b ++ k ++ m]
  | .vnarr p q d a b k m => [(30 : BitVec 6) ++ p ++ q ++ d ++ a ++ b ++ k ++ m]
  | .vmxq p q d a b k m => [(31 : BitVec 6) ++ p ++ q ++ d ++ a ++ b ++ k ++ (0 : BitVec 1) ++ m]
  | .vmxd p q d a b k m => [(32 : BitVec 6) ++ p ++ q ++ d ++ a ++ b ++ k ++ m]
  | .vidx p q d k => [(33 : BitVec 6) ++ p ++ q ++ d ++ (0 : BitVec 10) ++ k ++ (0 : BitVec 2)]
  | .vslide p q d a b k m => [(34 : BitVec 6) ++ p ++ q ++ d ++ a ++ b ++ k ++ m]
  | .vqpop p q d a c k => [(35 : BitVec 6) ++ p ++ q ++ d ++ a ++ c ++ k ++ (1 : BitVec 2)]
  | .plog p q d a b f => [(36 : BitVec 6) ++ p ++ q ++ d ++ a ++ b ++ f ++ (0 : BitVec 2)]
  | .pcnt p q a => [(37 : BitVec 6) ++ p ++ q ++ (0 : BitVec 5) ++ a ++ (28 : BitVec 10)]
  | .vtos p q a k m => [(38 : BitVec 6) ++ p ++ q ++ (0 : BitVec 5) ++ a ++ (0 : BitVec 5) ++ k ++ (0 : BitVec 1) ++ m]
  | .vfrs p q d k => [(39 : BitVec 6) ++ p ++ q ++ d ++ (0 : BitVec 10) ++ k ++ (0 : BitVec 2)]
  | .mcfg p q d i => [(48 : BitVec 6) ++ p ++ q ++ d ++ i]
  | .mma p q z k u n g => [(49 : BitVec 6) ++ p ++ q ++ z ++ k ++ u ++ n ++ g]
  | .mzero p q z n => [(50 : BitVec 6) ++ p ++ q ++ z ++ (0 : BitVec 3) ++ n ++ (0 : BitVec 12)]
  | .mdrain p q d a b j => [(51 : BitVec 6) ++ p ++ q ++ d ++ a ++ b ++ j ++ (0 : BitVec 2)]
  | .scout p q z n g => [(52 : BitVec 6) ++ p ++ q ++ z ++ (0 : BitVec 3) ++ n ++ g]
  | .kmaskKmax p q d a => [(53 : BitVec 6) ++ p ++ q ++ d ++ a ++ (0 : BitVec 10)]
  | .kmaskKkeep p q d a b => [(53 : BitVec 6) ++ p ++ q ++ d ++ a ++ b ++ (4 : BitVec 5)]
  | .kmaskKrange p q d => [(53 : BitVec 6) ++ p ++ q ++ d ++ (8 : BitVec 15)]
  | .kmaskKclr p q d => [(53 : BitVec 6) ++ p ++ q ++ d ++ (12 : BitVec 15)]
  | .kmaskKor p q d a => [(53 : BitVec 6) ++ p ++ q ++ d ++ a ++ (16 : BitVec 10)]
  | .kmaskKtop p q d a => [(53 : BitVec 6) ++ p ++ q ++ d ++ a ++ (20 : BitVec 10)]
  | .kmaskKfromp p q d a => [(53 : BitVec 6) ++ p ++ q ++ d ++ a ++ (24 : BitVec 10)]
  | .epset p q d a m => [(54 : BitVec 6) ++ p ++ q ++ d ++ a ++ (14 : BitVec 9) ++ m]
  | .wsel p q i => [(55 : BitVec 6) ++ p ++ q ++ (0 : BitVec 5) ++ i]
  | .wselTok p q => [(55 : BitVec 6) ++ p ++ q ++ (32768 : BitVec 20)]
  | .mnop p q => [(56 : BitVec 6) ++ p ++ q ++ (0 : BitVec 20)]
  | .hset a i => [(1 : BitVec 6) ++ a ++ (0 : BitVec 4) ++ i]
  | .hsetTile a => [(1 : BitVec 6) ++ a ++ (262144 : BitVec 22)]
  | .hadd a b i => [(2 : BitVec 6) ++ a ++ b ++ i]
  | .hloop a o => [(3 : BitVec 6) ++ a ++ (0 : BitVec 4) ++ o]
  | .hbr a b o => [(4 : BitVec 6) ++ a ++ b ++ o]
  | .hwait => [(5 : BitVec 6) ++ (0 : BitVec 26)]
  | .hflag a b sc f => [(6 : BitVec 6) ++ a ++ b ++ (0 : BitVec 13) ++ sc ++ f]
  | .hkv a b k w => [(7 : BitVec 6) ++ a ++ b ++ (0 : BitVec 15) ++ k ++ w]
  | .hscout a b => [(8 : BitVec 6) ++ a ++ b ++ (0 : BitVec 18)]
  | .hwin a => [(9 : BitVec 6) ++ a ++ (0 : BitVec 22)]
  | .hqk a => [(10 : BitVec 6) ++ a ++ (0 : BitVec 22)]
  | .htree => [(11 : BitVec 6) ++ (0 : BitVec 26)]
  | .hmax => [(12 : BitVec 6) ++ (0 : BitVec 26)]
  | .hexp => [(13 : BitVec 6) ++ (0 : BitVec 26)]
  | .hsum => [(14 : BitVec 6) ++ (0 : BitVec 26)]
  | .hresc => [(15 : BitVec 6) ++ (0 : BitVec 26)]
  | .hpv => [(16 : BitVec 6) ++ (0 : BitVec 26)]
  | .hdrain => [(17 : BitVec 6) ++ (0 : BitVec 26)]
  | .hnop => [(18 : BitVec 6) ++ (0 : BitVec 26)]
  | .hend => [(19 : BitVec 6) ++ (0 : BitVec 26)]
  | .cgetb a d => [(0 : BitVec 6) ++ (0 : BitVec 6) ++ a ++ (0 : BitVec 3) ++ d ++ (11 : BitVec 7)]
  | .cgetl a d => [(0 : BitVec 6) ++ (32 : BitVec 6) ++ a ++ (0 : BitVec 3) ++ d ++ (11 : BitVec 7)]
  | .cgetp a d => [(1 : BitVec 6) ++ (0 : BitVec 6) ++ a ++ (0 : BitVec 3) ++ d ++ (11 : BitVec 7)]
  | .ctag a d => [(1 : BitVec 6) ++ (32 : BitVec 6) ++ a ++ (0 : BitVec 3) ++ d ++ (11 : BitVec 7)]
  | .candp b a d => [(2 : BitVec 6) ++ (0 : BitVec 1) ++ b ++ a ++ (0 : BitVec 3) ++ d ++ (11 : BitVec 7)]
  | .cseal b a d => [(2 : BitVec 6) ++ (1 : BitVec 1) ++ b ++ a ++ (0 : BitVec 3) ++ d ++ (11 : BitVec 7)]
  | .cunseal b a d => [(3 : BitVec 6) ++ (0 : BitVec 1) ++ b ++ a ++ (0 : BitVec 3) ++ d ++ (11 : BitVec 7)]
  | .cmove a d => [(3 : BitVec 6) ++ (32 : BitVec 6) ++ a ++ (0 : BitVec 3) ++ d ++ (11 : BitVec 7)]
  | .cjalr b a d => [(4 : BitVec 6) ++ (0 : BitVec 1) ++ b ++ a ++ (0 : BitVec 3) ++ d ++ (11 : BitVec 7)]
  | .csetb c b a d => [c ++ (0 : BitVec 2) ++ b ++ a ++ (1 : BitVec 3) ++ d ++ (11 : BitVec 7)]
  | .cld w i a n d => [w ++ i ++ a ++ (0 : BitVec 1) ++ n ++ d ++ (43 : BitVec 7)]
  | .cldc w i a d => [w ++ i ++ a ++ (4 : BitVec 3) ++ d ++ (43 : BitVec 7)]
  | .cst w i b a n i2 => [w ++ i ++ b ++ a ++ (0 : BitVec 1) ++ n ++ i2 ++ (123 : BitVec 7)]
  | .cstc w i b a i2 => [w ++ i ++ b ++ a ++ (4 : BitVec 3) ++ i2 ++ (123 : BitVec 7)]
  | .runStart => []
  | .startQueueWrite => []
  | .deferredPush => []
  | .tokenTimeout => []
  | .storePerform => []
  | .loadResponse => []
  | .fwaitWake => []
  | .waitaWake => []
  | .waitaTimeout => []
  | .idleWake => []
  | .matrixOperationFinish => []
  | .mdrainChunk => []
  | .rescan => []
  | .ytlbinv => []
  | .commandStart => []
  | .commandAcquire => []
  | .segment => []
  | .commandComplete => []
  | .completionTokenPush => []
  | .budgetWindow => []
  | .grainMove => []
  | .scrub => []
  | .encoderAccept => []
  | .frameEncoded => []
  | .placement => []
  | .exchangeLanding => []
  | .phaseRecordLoad => []
  | .preload => []
  | .dispatch => []
  | .tillerFreeze => []
  | .huskSave => []
  | .huskRestore => []
  | .taskWatchdog => []
  | .firing => []
  | .streamWatchdog => []
  | .thresherDecision => []
  | .checkpointDone => []
  | .escalation => []
  | .worldSwitch => []
  | .notify => []
  | .queueEnable => []
  | .queueDisable => []
  | .queueDisableDone => []
  | .registerWrite => []
  | .streamCreate => []
  | .streamDestroy => []
  | .graphLaunch => []
  | .memMapAlloc => []
  | .memMapFree => []
  | .memMapHwin => []
  | .memMapHunmap => []
  | .memMapProtect => []
  | .evict => []
  | .migrateStart => []
  | .migrateRound => []
  | .migrateStop => []
  | .migrateResume => []
  | .migrateCancel => []
  | .unknownOp => []
  | .recordComplete => []
  | .bar2Read => []
  | .bar2Write => []
  | .vectorUnmask => []
  | .flr => []
  | .flrDone => []
  | .image => []
  | .switch => []
  | .abort => []
  | .attest => []
  | .part => []
  | .bind => []
  | .unbind => []
  | .domain => []
  | .unknownCmd => []
  | .mailboxDone => []
  | .ucmdVerify => []
  | .verificationDone => []
  | .ucmdSwitch => []
  | .ucmdHandoverAccept => []
  | .ucmdHeartbeat => []
  | .ucmdAbort => []
  | .handoverTimeout => []
  | .trialHeartbeatGap => []
  | .controllerResetInTrial => []
  | .heartbeatGap => []
  | .reset => []
  | .thermalTrip => []
  | .tripclr => []
  | .level => []
  | .effChange => []
  | .tilepwr => []
  | .tileWake => []
  | .pwrerrRead => []
  | .d3hotEntry => []
  | .d0Return => []
  | .d3cold => []
  | .patrolScrub => []
  | .errorCounterRead => []
  | .fabricRequestServe => []
  | .fabricReissue => []
  | .portLost => []
  | .fabricNoPlane => []
  | .atomicResultExpiry => []
  | .illegal _ => []
  | .rv64 _ i => encodeRv i

end Sys2Proof
end

