-- ==== Sys2Proof/Config.lean ====
section
/-! DEFINITION. What an implementation fixes and the spec does not give: the free values, each an opaque constant whose
value no proof can see, and the device's fuses and certificates (R353, R361). -/

namespace Sys2Proof.Config

/-- A fresh free 64-bit value, indexed by the counter State.freeCount. -/
opaque freeWord : Nat → Word
/-- A fresh free byte of a fresh free block: counter, then offset. -/
opaque freeByte : Nat → Nat → Byte
/-- A fresh free choice. -/
opaque freeNat : Nat → Nat
/-- The fused device-unique secret (R353). -/
opaque fusedSecret : List Byte
/-- Ferlas's signature of a certificate, made at manufacture (R361). -/
opaque ferlasSign : List Byte → Vector Byte 114
/-- The fields of a certificate that R361 does not give, in DER: the digests of the running images (none for the identity key's), then 0
serial number, 1 issuer, 2 validity, 3 subject, 4 extensions. -/
opaque certField : List (List Byte) → Nat → List Byte
/-- The SHAKE256 digests of the four fused public keys (R353). -/
opaque fusedKeyDigest : Nat → Vector Byte 64
/-- The revocation bit of each key (R353). -/
opaque fusedRevoked : Nat → Bool
/-- The minimum SVN of each controller (R353). -/
opaque fusedMinSvn : Nat → Nat
/-- The syntax elements that R240 leaves to an encoder: the submitted block, then the element's place among the free ones. -/
opaque av1Choice : List Byte → Nat → Nat
/-- The bits of an OBU_FRAME after its base_q_idx: the rest of the header and the coded tiles. The submitted block, base_q_idx, the
superblock columns to be coded as intra, the pixels, the previous reconstruction. -/
opaque av1Tail : List Byte → Nat → List Nat → List Byte → List Byte → List Bool
/-- The reconstruction that the encoder writes at REFOUT: block, pixels, previous reconstruction (R241). -/
opaque av1Recon : List Byte → List Byte → List Byte → List Byte
/-- The boot ROM's bytes (R345: content not given). -/
opaque bootRom : Nat → Byte
/-- The hottest junction at reset, in °C (R388: no reset value). -/
opaque resetTj : BitVec 8

/-- The bytes that the memories of the other devices hold at this device's reset: device × 2^48 + offset (R381: not this device's). -/
opaque remoteInit : Nat → Byte

/-- The hash that chooses a plane (R382: not given): device, 64 KiB page. -/
opaque planeHash : Nat → Nat → Nat

/-- Whether check 6 of R354 finds the digest to match (the image holds no digest to compare): image, its digest. -/
opaque digestMatches : List Byte → List Byte → Bool
/-- Where the boot ROM places an image's body in private SRAM (R353, R358: not given): bank B or A. -/
opaque bodyAt : Bool → Nat
/-- The address of the body of an image in private SRAM, where its 1 MiB fit. -/
def bodyBase (bankB : Bool) : Nat := bodyAt bankB % 0x2C0000
/-- The address at which the image in a bank of controller 0 enters: bank B or A, ENTRY. -/
def imageEntry (bankB : Bool) (entry : Nat) : Word := BitVec.ofNat 64 (bodyBase bankB + entry)
/-- What the boot ROM leaves in a Granary core when it enters an image (R346: narrower warrants in place of the roots): core, x register. -/
opaque bootX : Nat → Nat → Word
/-- The warrants that it derived: core, w register or 32 for wpc, then 0 the root it comes from (0 none, 1 w1, 2 w2), 1 LO, 2 HI, 3 RIGHTS. -/
opaque bootWarrant : Nat → Nat → Nat → Nat
/-- What a byte of the window at 0x80_0000 shows: a byte of a bank (controller, bank B, offset), of the LIVE or BASE copy of a record area
(controller, offset), or no such byte. -/
inductive WindowCell where
  | bank (c : Nat) (bankB : Bool) (off : Nat)
  | live (c off : Nat)
  | base (c off : Nat)
  | other
  deriving DecidableEq, Repr, Inhabited
/-- How the window shows the bank store and the record areas (R345, R351: the 28 MiB of banks do not fit its 8 MiB, and no layout is
given): offset in the window. -/
opaque windowCell : Nat → WindowCell
/-- The bytes of a controller's record area beyond a record's header (R357: not given). -/
opaque recordRoom : Nat → Nat

/-- mvendorid, marchid and mimpid of a Granary core (R344: not given). -/
opaque csrIdent : Nat → Word

end Sys2Proof.Config
end

