-- ==== Sys2Proof/Machine/State.lean ====
section
/-! DEFINITION. The state of the device as plain data: 64 tiles, 40 partitions with their scheduler, bulk and host
memory, the host functions, Granary, the fabric, the encoders and the power controller; the agenda that says which agent
moves next; the state after reset. -/

namespace Sys2Proof.Machine

/-- Sparse memory in canonical form: rising addresses, no entry zero; an unlisted byte reads as zero (R386 step 5). -/
abbrev Mem := List Host.Cell

/-- The trap kinds (R311). -/
inductive TrapKind where
  | illegal | align | space | bound | xlateNp | xlatePerm | wstream | ecc | tokenTimeout | svc | brkpt | watchdog | fabric | cap
  deriving DecidableEq, Repr

/-- The units of a trap record (R313). -/
inductive TrapUnit where
  | c | l | m | s | copy | rachis | tile
  deriving DecidableEq, Repr

/-- A stopped trap, held until TRAPRET resolves it (R312, R317). -/
structure Stop where
  kind : TrapKind
  /-- The record's TILE. -/
  tile : Tile
  /-- Trap id of the record's HDR (R313). -/
  tid : BitVec 16
  /-- The record's status word. -/
  status : Word
  /-- TRAPRET may replay it (R311). -/
  replay : Bool
  /-- The record is still in the tile's latch (R316). -/
  latched : Bool
  /-- The register that an SVC, or a move of a husk, gives to TRAPRET's value (R317). -/
  dst : Reg
  /-- C waits in a HUSKSAVE or HUSKLOAD whose copy met a fault: the record names the copy engine (R341). -/
  move : Bool := false
  deriving DecidableEq, Repr

/-- The home of one access unit, after the checks and the translation of R100. -/
inductive Loc where
  /-- A slice byte offset of a tile. -/
  | slice (t : Tile) (off : Nat)
  /-- A sync-space byte offset of a tile. -/
  | sync (t : Tile) (off : Nat)
  /-- Bulk memory: partition, VA, bulk physical address, address of the leaf used, and whether the line buffer is bypassed. -/
  | bulk (p : PartId) (va pa leaf : Nat) (stream : Bool)
  /-- Host memory: partition, host bus address, address of the leaf used. -/
  | host (p : PartId) (bus leaf : Nat)
  /-- Another device of the domain: device number, offset. -/
  | fabric (p : PartId) (dev off : Nat)
  deriving DecidableEq, Repr

/-- A failed check of an access: the trap's kind, the bits of its status word, the faulting address where there is one (R100). -/
structure Fail where
  kind : TrapKind
  status : Word
  addr : Option Word
  deriving DecidableEq, Repr

/-- What an outstanding access of C does when it is performed (R67, R76, R78, R120, R147). -/
inductive COpKind where
  | load
  | store (data : Word)
  | amo (op : AmoOp) (b expect : Word)
  | fset | fclr | ftest | ftas
  /-- ACQS. -/
  | acqs
  deriving DecidableEq, Repr

/-- An access that C has issued and that is not yet performed, oldest first in `CSt.ops` (R67). -/
structure COp where
  kind : COpKind
  loc : Loc
  width : Nat
  /-- The flag bit of a flag operation. -/
  bit : Nat
  dst : Reg
  ord : BitVec 2
  scope : BitVec 3
  /-- Stored data carries a poison mark (R395). -/
  poison : Bool
  /-- A load that stands at its home and waits there for a full bin (R103, R105). -/
  parked : Bool := false
  /-- A store that stands before a FENCE with an acquire which has completed: code is fetched after it (R57). -/
  fenced : Bool := false
  deriving DecidableEq, Repr

/-- A checked command that waits for a queue entry: what its instruction read, the register that receives its number, and for XCOLL the
group and the rank (R220). -/
structure PendingCmd where
  d : Reg
  ord : BitVec 2
  scope : BitVec 3
  func : BitVec 5
  sync : Word
  src : Word
  dst : Word
  block : List Byte
  join : Option (Nat × Nat)
  deriving DecidableEq, Repr

/-- A flit for a frozen task, kept in the landing buffer of its tile and delivered on restore (R321): bytes written into the slice,
which may mark the arrival of a bound block; the response to an access of C; the end of the KVALLOC or FREEZE that C waits in, with its
value; the action of a TRAPRET on a stopped trap (R335). -/
inductive Landing where
  | arrive (off n : Nat)
  | reply (d : Reg) (v : Word) (poison : Bool) (ord : BitVec 2) (scope : BitVec 3)
  | done (v : Word)
  | trapret (unit : TrapUnit) (tid : BitVec 16) (act : Nat) (v : Word)
  deriving DecidableEq, Repr

/-- What C waits for. -/
inductive CWait where
  | none
  /-- The instruction at the PC is issued again; `counts`: the wait counts toward the token timeout (R86). -/
  | retry (counts : Bool)
  /-- FWAIT or FWAITC, registered at the flag's home (R79). -/
  | flag (home : Tile) (flag : Nat) (want : Bool) (ord : BitVec 2) (scope : BitVec 3)
  /-- WAITA with its monitor armed (R80). -/
  | word (loc : Loc) (d : Reg) (since : Nat) (ord : BitVec 2) (scope : BitVec 3)
  /-- IDLE: destination, time limit in ck, clock at issue, the events of the clock of the first one, and that clock (R337). -/
  | idle (d : Reg) (limit : Nat) (since : Nat) (seen : BitVec 5) (first : Option Nat)
  /-- YWR to YTLBINV with this value waits for the removal (R309). -/
  | tlbInv (v : Word)
  /-- FREEZE waits for the named tile's husk save (R340). -/
  | freeze (t : Tile) (slot : Fin 2) (d : Reg)
  /-- No live plane reaches the device of the access at this address, a write or not, since this DTIME (R384). -/
  | noPlane (addr : Word) (w : Bool) (since : Nat)
  /-- An XCMD instruction waits for a queue entry; later changes to its block or registers do not matter (R220). -/
  | entry (p : PendingCmd)
  /-- KVALLOC waits for a clean block: destination, sequence, logical block (R237, R238). -/
  | kv (d : Reg) (seq lblk : Nat)
  /-- TASKYLD gave the tile away; s_d becomes 1 on resumption (R292). -/
  | yielded (d : Reg)
  deriving DecidableEq, Repr

/-- A block fetched ahead: its 64 bytes, or the fault that its fetch met, which is reported when a word of it issues (R55). -/
inductive CodeBlock where
  | bytes (bs : List Byte)
  | fault (f : Fail)
  deriving DecidableEq, Repr

/-- The C sequencer (R54, R67). -/
structure CSt where
  s : Vector Word 32
  pc : Word
  ops : List COp
  wait : CWait
  stop : Option Stop
  stall : Nat
  /-- Poison marks of s0–s31 (R395). -/
  poison : BitVec 32
  /-- Blocks fetched ahead and not yet discarded, by block address (R55, R57). -/
  fetched : List (Word × CodeBlock)
  /-- Words of memory that C's load path has read before their loads: home, width, bytes, poison (R133, R137). -/
  early : List (Loc × Nat × List Byte × Bool)
  /-- The PC was reached by a jump to another space; SPACE is raised at its first word (R56). -/
  spaceBad : Bool
  deriving DecidableEq, Repr

/-- A table word read while its run waits or runs: its step and the word (R57). -/
abbrev TableWord := Nat × W32

/-- A run of a step table: base, length, repeats, the step and repeat it stands at (R58, R60). -/
structure Run where
  base : Word
  len : Nat
  rep : Nat
  step : Nat
  j : Nat
  /-- Words of the micro-order at `step` once it has issued and its effect or push is not finished; 0 before it issues. -/
  issued : Nat
  /-- Words of the table read ahead: a step executes one of them or the word that memory holds (R57). -/
  ahead : List TableWord := []
  /-- The word of the micro-order in hand, and the second word of an ASET, as they were read when it was to issue. -/
  word : Option (W32 × Option W32) := none
  deriving DecidableEq, Repr

/-- A start-queue entry (R89). -/
inductive StartEntry where
  | run (base : Word) (len rep : Nat) (ahead : List TableWord)
  | addr (n : Fin 16) (v : Word)
  | count (n : Fin 8) (v : Word)
  deriving DecidableEq, Repr

/-- Where the blocks of an L load land, or where the blocks of an S store come from (R110–R112). -/
inductive LsData where
  /-- No data: only the push waits its turn (R108). -/
  | none
  | v (r : Fin 32)
  /-- VLDB: the one block goes to every block of the register. -/
  | vAll (r : Fin 32)
  | p (r : Fin 8)
  | aslot (k : Fin 2) (rows : Nat)
  | wbuf (off : Nat)
  | z (k : Fin 4)
  /-- VSTM: only the bytes that the predicate names are written. -/
  | vMask (r : Fin 32) (k : Fin 8)
  /-- EST: the chunks taken from the pipe's S buffer. -/
  | chunks (cs : List VReg)
  deriving DecidableEq, Repr

/-- One 64-byte unit of an L or S access (R128). -/
structure Blk where
  loc : Loc
  /-- Byte offset within the register or buffer. -/
  off : Nat
  len : Nat
  /-- The bytes read so far, for a load. -/
  got : Option (List Byte)
  /-- The unit has landed or has been stored. -/
  done : Bool
  poison : Bool
  deriving DecidableEq, Repr

/-- A micro-order of L or S whose effect or push is not finished (R108). -/
structure Inflight where
  store : Bool
  data : LsData
  blks : List Blk
  /-- The queue it pushes, as the number of R84, or none. -/
  push : Option (Fin 12)
  tok : Word
  /-- The run at its place in the table. -/
  run : Option Run
  /-- A load that stands at the home slice and waits there for a full bin (R103, R105). -/
  parked : Bool := false
  deriving DecidableEq, Repr

/-- What a sequencer's next or current micro-order waits for. -/
inductive SWait where
  | none | pop | push | other
  /-- No live plane reaches the device of the access at this address, a write or not, since this DTIME (R384). -/
  | noPlane (addr : Word) (w : Bool) (since : Nat)
  deriving DecidableEq, Repr

/-- The part of a sequencer that L, M and S share (R58–R61, R86, R89–R94). -/
structure SeqSt where
  run : Option Run
  startq : List StartEntry
  stopping : Bool
  /-- The token of the micro-order in progress, once its pop is done (R82). -/
  started : Option Word
  wait : SWait
  stop : Option Stop
  stall : Nat
  deriving DecidableEq, Repr

/-- The L or S sequencer. -/
structure LsSt where
  seq : SeqSt
  a : Vector Word 16
  stride : Vector Word 16
  inflight : List Inflight
  /-- Blocks of memory that L's load path has read before their loads: home, length, bytes, poison (R133, R137). -/
  early : List (Loc × Nat × List Byte × Bool)
  deriving DecidableEq, Repr

/-- What a matrix operation read when it issued (R187, R193, R194, R203). -/
structure MatOp where
  shape : Nat
  afmt : Nat
  bsrc : Nat
  akeep : Bool
  munit : Bool
  koff : Nat
  kuse : Bool
  mask : PReg
  kreg : Nat
  vr : Nat
  vc : Nat
  groups : Nat
  wptr : Nat
  z : Nat
  /-- The next group, and the stream byte offset of its first block. -/
  g : Nat
  soff : Nat
  /-- Partial scores of a SCOUT: one 128 × 128 image per sub-array. -/
  part : List Mem
  /-- The segment taken is the one of group `g`. -/
  taken : Bool
  firstSlot : Fin 2
  /-- Parts of z that ZLD wrote while the operation accumulates into z: z, byte offset, bytes, poison (R109). -/
  late : List (Nat × Nat × List Byte × Bool) := []
  deriving DecidableEq, Repr

/-- What a drain read when it issued (R199–R201). -/
structure Drain where
  dest : Nat
  z : Nat
  e : Nat
  raw : Bool
  vr : Nat
  vc : Nat
  vbase : Nat
  /-- The parameter block, read when the drain starts. -/
  block : Option VReg
  /-- Chunks delivered to the destination or to the S buffer. -/
  sent : Nat
  /-- Chunks of this drain that EST has taken. -/
  takenS : Nat
  flags : BitVec 5
  /-- The scale chunk of the payload chunk just sent, in MXFP4 (R200). -/
  scales : Option VReg
  /-- Chunks of the whole drain. -/
  total : Nat
  deriving DecidableEq, Repr

/-- A micro-order of M that is accepted and not finished, or whose push waits its turn (R206). -/
inductive MAct where
  | none
  | mma (o : MatOp)
  | scout (o : MatOp)
  | mzero (z vr vc : Nat)
  | drain (d : Drain)
  /-- The slots and the pointer of an MCFG mode, once the earlier matrix operations have finished (R187). -/
  | slots (ptr : Fin 2)
  deriving DecidableEq, Repr

structure MEntry where
  act : MAct
  done : Bool
  push : Option (Fin 12)
  tok : Word
  /-- The run at its place in the table. -/
  run : Option Run
  deriving DecidableEq, Repr

/-- A stream-register binding (R115): region in the own slice, read position, blocks arrived. -/
structure QBind where
  base : Nat
  chunks : Nat
  pos : Nat
  arrived : List Nat
  deriving DecidableEq, Repr

/-- M's own registers (R54, R151). -/
structure VecSt where
  v : Vector VReg 32
  p : Vector PReg 8
  k : Vector PReg 4
  e : Vector VReg 4
  n : Vector Word 8
  q : Vector (Option QBind) 8
  /-- Bits 7:0 of VCFG (R151). -/
  vcfg : BitVec 8
  /-- YFFLAGS bits 4:0: NV DZ OF UF NX (R27). -/
  fflags : BitVec 5
  /-- Flags raised on this clock, which a clear on the same clock leaves set (R28). -/
  fresh : BitVec 5
  /-- Poison marks of v0–v31, p0–p7 and e0–e3 (R395). -/
  poison : BitVec 32
  ppoison : BitVec 8
  epoison : BitVec 4
  deriving DecidableEq, Repr

/-- A staging slot's state (R190). -/
inductive SlotSt where
  | free | ready | busy
  deriving DecidableEq, Repr

/-- The matrix engine and the epilogue pipe's S buffer (R185–R201). -/
structure MatSt where
  z : Vector Mem 4
  aslot : Vector Mem 2
  slotSt : Vector SlotSt 2
  slotPtr : Fin 2
  wbuf : Mem
  wptr : Nat
  mmode : BitVec 15
  mkoff : BitVec 10
  mtau : BitVec 15
  mkcnt : BitVec 7
  mvbase : BitVec 5
  sbuf : List VReg
  /-- Poisoned 64-byte parts of the A slots, the weight buffer and z0–z3 (R395). -/
  aPoison : Vector (List Nat) 2
  wPoison : List Nat
  zPoison : Vector (List Nat) 4
  deriving DecidableEq, Repr

/-- The M sequencer. -/
structure MSt where
  seq : SeqSt
  list : List MEntry
  deriving DecidableEq, Repr

/-- The chunk record of the last HQK (R246, R258). -/
structure AtChunk where
  blocks : List Nat
  deriving DecidableEq, Repr

/-- A Rachis pass (R246). -/
structure Pass where
  /-- The 512 descriptor bytes (R247). -/
  desc : List Byte
  h : Vector Word 16
  upc : Nat
  m : Vector W32 512
  l : Vector W32 512
  smax : Vector W32 512
  alpha : Vector W32 128
  tile : Nat
  vr : Nat
  cursor : Nat
  /-- Resolved blocks: logical block, physical block (R255). -/
  scoutList : List (Nat × Nat)
  kList : List (Nat × Nat)
  vList : List (Nat × Nat)
  chunk : Option AtChunk
  /-- The tree words, once read (R259). -/
  tree : Option (List Word)
  /-- Bytes of the framed stream fetched so far (R423). -/
  fetched : Nat
  /-- The segments of the micro-op in hand that have been copied, with the bytes read (R265). -/
  got : List (Nat × List Byte)
  /-- What an HDRAIN in hand writes. -/
  out : Option (List (List Byte))
  /-- Copy-engine entries that the pass holds (R245). -/
  entries : Nat
  cls : Nat
  /-- The segments of the micro-op in hand whose copies a fault has stopped (R265). -/
  stops : List (Nat × Stop)
  waitd : Bool
  deriving DecidableEq, Repr

/-- Rachis (R246, R263). -/
structure RachisSt where
  store : Mem
  pass : Option Pass
  passNo : Nat
  /-- Status of the latest ended pass of the task (R263), and its number. -/
  last : Word
  lastNo : Nat
  deriving DecidableEq, Repr

/-- The state of a command-queue entry (R210); `finished`: its release and flag are done and its token waits (R213). -/
inductive CmdSt where
  | waiting | acquiring | running | suspended | stopped | finished
  deriving DecidableEq, Repr

/-- A copy-engine command (R210–R219). -/
structure Cmd where
  seq : Nat
  /-- A number of the device's own, by which its engines name the command. -/
  id : Nat
  gen : BitVec 16
  cls : Nat
  func : BitVec 5
  ord : BitVec 2
  scope : BitVec 3
  sync : Word
  src : Word
  dst : Word
  /-- The command block, for block commands (R220). -/
  block : List Byte
  st : CmdSt
  elem : Nat
  seg : Nat
  stop : Option Stop
  discarded : Bool
  /-- The command reads home values, not its tile's snapshot (R140, R218). -/
  lifted : Bool
  /-- The acquire has been performed. -/
  acquired : Bool
  /-- Bins written and not yet set full, as 64 × bin + tile, rising (R222). -/
  fills : List Nat
  /-- The index-derived address of the element in hand (R223). -/
  base : Word
  /-- No live plane reaches the device of the access at this address, a write or not, since this DTIME (R384). -/
  noPlane : Option (Word × Bool × Nat)
  deriving DecidableEq, Repr

/-- The copy engine's per-task state (R210, R213). -/
structure CopySt where
  q : List Cmd
  counter : Nat
  gen : BitVec 16
  done : Nat
  /-- Numbers above `done` whose commands have completed. -/
  retired : List Nat
  discarded : List Nat
  /-- The command served last (R211). -/
  served : Nat
  deriving DecidableEq, Repr

/-- A task record (R270). -/
structure TaskRec where
  entry : Word
  param : Word
  ltab : Word
  mtab : Word
  stab : Word
  cost : Nat
  deps : Nat
  tile : BitVec 8
  attr : BitVec 8
  succ : List Nat
  wdog : Nat
  deriving DecidableEq, Repr

/-- The identity and task-level Y state of the task that a tile's logic holds (husk section SYSR, R319). -/
structure TaskCtl where
  part : PartId
  inst : Nat
  idx : Nat
  rc : TaskRec
  /-- Effective class (R279). -/
  cls : Nat
  /-- Privilege S (R301). -/
  super : Bool
  /-- Run time u in ck (R279). -/
  u : Nat
  /-- The snapshot of R136 has been lifted. -/
  lifted : Bool
  deriving DecidableEq, Repr

/-- A tile's logic: what a husk carries (R319). -/
structure Logic where
  c : CSt
  l : LsSt
  m : MSt
  s : LsSt
  /-- The twelve token queues, oldest first (R81), numbered as R84 numbers them. -/
  tok : Vector (List Word) 12
  vec : VecSt
  mat : MatSt
  rachis : RachisSt
  copy : CopySt
  task : Option TaskCtl
  /-- The landing-buffer log of a frozen task, in arrival order (R321). -/
  flits : List Landing
  deriving DecidableEq, Repr

/-- A husk (R319); `poison`: the poisoned 64-byte blocks of its bytes, while it stands in no slot (R395). -/
structure Husk where
  logic : Logic
  rev : BitVec 16
  tile : Tile
  part : PartId
  cls : Nat
  inst : Nat
  clocks : Nat
  dtime : Nat
  poison : List Nat := []
  deriving DecidableEq, Repr

/-- The state of a record in Tiller (R277, R280, R281). -/
inductive TillerSt where
  | waiting | ready | running
  | frozen (slot : Fin 2)
  deriving DecidableEq, Repr

structure TillerRec where
  inst : Nat
  idx : Nat
  rc : TaskRec
  deps : Nat
  st : TillerSt
  /-- The clock on which the record first became READY (R280). -/
  age : Nat
  cls : Nat
  u : Nat
  deriving DecidableEq, Repr

/-- A tile's power state (R391). -/
inductive TilePwr where
  | on | gated | retain | off
  deriving DecidableEq, Repr

/-- A freeze in progress: the slot that it fills, none when the husk leaves the tile (R318, R326), and the DTIME of the freeze (R319). -/
structure Freezing where
  slot : Option (Fin 2)
  at_ : Nat
  /-- The tile that FREEZE was issued from, when it was (R340). -/
  by_ : Option Tile
  deriving DecidableEq, Repr

/-- A task whose husk has left its tile, until it is restored: the slice bytes written there since (R321, R341). -/
structure Away where
  part : PartId
  inst : Nat
  idx : Nat
  log : List (Nat × Nat)
  deriving DecidableEq, Repr

/-- A trap record held in the tile's latch (R316): its 64 bytes and whether it is fatal. -/
structure Latched where
  rec_ : List Byte
  fatal : Bool
  unit : TrapUnit
  deriving DecidableEq, Repr

/-- A cached leaf (R126): partition, host table or bulk table, first VA of the page, size in bytes, the leaf and its address. -/
structure TbEntry where
  part : PartId
  host : Bool
  va : Nat
  size : Nat
  leaf : Word
  at_ : Nat
  deriving DecidableEq, Repr

/-- A line of the line buffer (R117). -/
structure Line where
  part : PartId
  va : Nat
  data : List Byte
  /-- The instance whose snapshot the line holds, none for home values (R136). -/
  snapOf : Option Nat
  deriving DecidableEq, Repr

/-- A chunk in an encoder egress queue (R242): its bytes, the rows and the format of its drain, whether it is the drain's last. -/
structure EgChunk where
  data : VReg
  vr : Nat
  fmt : Nat
  last : Bool
  deriving DecidableEq, Repr

/-- One tile. -/
structure TileSt where
  logic : Logic
  /-- The slice's bytes; a byte's dirty and full/empty bits stand per bin (R102–R104). -/
  slice : Mem
  /-- The bins whose full/empty bit is empty, rising (R103). -/
  empty : List Nat
  /-- The bins whose dirty bit is set, rising (R104). -/
  dirty : List Nat
  /-- Poisoned 64-byte blocks of the slice (R394). -/
  poison : List Nat
  /-- The 64-byte blocks of the slice written on this clock (R115). -/
  wrote : List Nat
  /-- Sync space: flags at 0–0x1FF, sync words at 0x4000–0x7FFF (R98). -/
  sync : Mem
  tb : List TbEntry
  lines : List Line
  tiller : List TillerRec
  /-- Tiller's shadow bank: the record preloaded (R281). -/
  shadow : Option (Nat × Nat)
  freezing : Option Freezing
  husks : Vector (Option Husk) 2
  away : List Away
  latch : List Latched
  tid : BitVec 16
  /-- YTOKLIM.LIMIT (R87). -/
  tokLim : BitVec 32
  pwr : TilePwr
  /-- A power-state change on its way to ON (R391). -/
  waking : Bool
  clocks : Nat
  /-- The eight encoder egress queues (R242). -/
  egress : Vector (List EgChunk) 8
  /-- The partition and world of the last task, for the zeroing of R278 and the line buffer (R117). -/
  lastOwner : Option (PartId × Nat × Nat)
  /-- YSLICE.SLIM and YSLICE.PART (R305). -/
  slim : Nat
  part : PartId
  deriving DecidableEq, Repr

/-- An exchange entry (R271). -/
structure ExchEntry where
  soff : Nat
  doff : Nat
  stile : BitVec 8
  dest : BitVec 8
  mc : Bool
  flits : Nat
  t0 : Nat
  deriving DecidableEq, Repr

/-- One phase of a graph (R269). -/
structure GPhase where
  tasks : List TaskRec
  xlen : Nat
  exch : List ExchEntry
  deriving DecidableEq, Repr

/-- A graph object, read and checked (R269–R273). -/
structure Graph where
  fcols : Nat
  frows : Nat
  bin0 : Nat
  nbins : Nat
  groups : Option (List Word)
  phases : List GPhase
  deriving DecidableEq, Repr

/-- An in-phase barrier (R145): completion count, relative tiles arrived for the next epoch. -/
structure Barrier where
  count : Nat
  arrived : List (BitVec 8)
  deriving DecidableEq, Repr

/-- Where an instance came from, and what its end signals (R293, R369, R286). -/
inductive InstSrc where
  | program (dv : Bool) (dtile : Tile) (dflag : Nat) (scope : BitVec 3) (stptr : Word) (by_ : Tile)
  | host (f : VfId) (q : QueueId) (idx : Nat)
  | stream (k : Nat)
  deriving DecidableEq, Repr

/-- A flit of the exchange step (R275): the step clocks on which it leaves its source and lands in every target, where it is read and
written, and its eight 64-byte blocks with their poison marks once it has left. -/
structure Flit where
  leave : Nat
  land : Nat
  src : Tile
  soff : Nat
  dsts : List Tile
  doff : Nat
  data : Option (List (List Byte × Bool))
  deriving DecidableEq, Repr

/-- Where an instance stands in its phase (R275). -/
inductive PhaseSt where
  | queued
  | running
  /-- The barrier fired at this clock; the flits that have still to land, in table order, and the step clock at which the step ends: after
  the last landing, and not before XLEN. -/
  | exchange (fired : Nat) (flits : List Flit) (ends : Nat)
  /-- Parked by a checkpoint (R330). -/
  | parked
  deriving DecidableEq, Repr

/-- A graph instance (R274, R275, R136). -/
structure Inst where
  no : Nat
  graphPtr : Word
  graph : Option Graph
  cls : Nat
  dl : Nat
  iparam : Word
  src : InstSrc
  launched : Nat
  /-- The VF whose world the instance belongs to (R365). -/
  world : Option VfId
  col0 : Nat
  row0 : Nat
  phase : Nat
  st : PhaseSt
  /-- Records posted by TASKPOST in this phase (R290). -/
  posted : List TaskRec
  /-- Records of the phase that have not ended. -/
  live : List Nat
  barriers : Vector Barrier 8
  /-- Bulk memory as it stood when the phase began (R136). -/
  snap : Mem
  /-- Bytes written this phase by the instance's tasks, per relative tile of their records: bulk physical address, value (R136). -/
  own : List (BitVec 8 × Nat × Byte)
  deriving DecidableEq, Repr

/-- A stream (R284–R287). -/
structure Stream where
  period : Nat
  deadoff : Nat
  ring : Word
  nslot : Nat
  slotsz : Nat
  nrung : Nat
  cls : Nat
  nanch : Nat
  anch : Word
  wdns : Nat
  iparam : Word
  rungs : List (Word × Nat)
  rung : Nat
  rise : Nat
  overrun : Nat
  pend : Option Nat
  /-- Slack of the frames that ended, and launches skipped, since the last boundary (R287). -/
  ended : List Int
  skipped : Bool
  prod : Nat
  commit : Nat
  vf : Option VfId
  /-- STREAM-DESTROY has stopped the firings; the record that waits for the end. -/
  destroying : Option (VfId × QueueId × Nat)
  deriving DecidableEq, Repr

/-- A time-triggered entry: offset, stream, number of the next cycle that it fires in (R286). -/
structure TtEntry where
  off : Nat
  stream : Nat
  next : Nat
  deriving DecidableEq, Repr

/-- A member of a collective group: device, tile (R226). -/
structure Member where
  dev : Nat
  tile : Tile
  deriving DecidableEq, Repr

/-- A layer of a layer schedule is read from memory; the schedule table holds base, layer count, WRAP (R232). -/
structure LayerSched where
  base : Nat
  layers : Nat
  wrap : Bool
  /-- The grains of the hot set (R233). -/
  hot : List Nat
  deriving DecidableEq, Repr

/-- Thresher's choice for a queue (R329). -/
inductive Choice where
  | complete | checkpoint | discard
  deriving DecidableEq, Repr

/-- A queue of an eviction plan: instance, choice, escalated, time of settlement (R332). -/
structure Plan where
  inst : Nat
  choice : Choice
  esc : Bool
  settled : Option Nat
  deriving DecidableEq, Repr

/-- An accepted eviction (R327–R332). -/
structure Eviction where
  no : Nat
  tiles : Word
  deadline : Nat
  report : Word
  dv : Bool
  dtile : Tile
  dflag : Nat
  scope : BitVec 3
  t0 : Nat
  decided : Bool
  plan : List Plan
  by_ : Tile
  host : Option (VfId × QueueId × Nat)
  deriving DecidableEq, Repr

/-- A saved bin: tile, bin number, its bytes and its poisoned blocks, both counted from the bin's start, its full/empty bit. -/
structure SavedBin where
  tile : Tile
  bin : Nat
  data : Mem
  poison : List Nat
  full : Bool
  deriving DecidableEq, Repr

/-- The saved world of a VF that is switched out (R325): its husks and its copies of bins per tile, and its Tiller records. -/
structure SavedWorld where
  vf : Option VfId
  husks : List (Tile × Husk)
  bins : List SavedBin
  tillers : List (Tile × List TillerRec)
  deriving DecidableEq, Repr

/-- A world switch in progress (R325): the VF that comes in and its slice in ns, the DTIME at which the save or the restore began, and the
save time once the save has ended. -/
structure Switch where
  to_ : VfId
  slice : Nat
  began : Nat
  save : Option Nat
  deriving DecidableEq, Repr

/-- A KVALLOC that waits (R238): the task that issued it, by instance and record index, its tile, its key, and the clock on which it began
to wait. -/
structure KvWait where
  owner : Option (Nat × Nat)
  tile : Tile
  seq : Nat
  lblk : Nat
  since : Nat
  deriving DecidableEq, Repr

/-- A checkpointed instance (R330): its husks, bins and Tiller records by the tile they were taken from. -/
structure Parked where
  inst : Nat
  /-- The record stands in the checkpoint area (R331). -/
  written : Bool
  husks : List (Tile × Husk)
  bins : List SavedBin
  tillers : List (Tile × TillerRec)
  deriving DecidableEq, Repr

/-- A ROUND, or the final one of a STOP, that goes on (R376): the record, the next word of the bitmap to fetch, the bits of the last one
fetched that are still to be copied, the next block of the first of them, the pages and bins copied, whether it is a STOP's. -/
structure Round where
  q : QueueId
  idx : BitVec 16
  word : Nat
  todo : List Nat
  blk : Nat
  done : Nat
  stop : Bool
  deriving DecidableEq, Repr

/-- Dirty logging of a migration (R375, R376). -/
structure Migration where
  vf : VfId
  bmap : Word
  span : Nat
  dev : Nat
  part : Nat
  stopped : Bool
  round : Option Round
  deriving DecidableEq, Repr

/-- The copy budget (R308). -/
structure Budget where
  count : Int
  window : Nat
  refill : Nat
  /-- DTIME at which the current window began. -/
  began : Nat
  deriving DecidableEq, Repr

/-- A tier promotion that is waiting for the tier hardware (R229, R231). -/
structure TierMove where
  grain : Nat
  cmd : Option Nat
  pin : Bool
  deriving DecidableEq, Repr

/-- One partition (R324) with its scheduler, trap queue, KV unit and tier state. -/
structure PartSt where
  inUse : Bool
  tiles : Word
  slim : Nat
  home : Tile
  q0 : Nat
  q1 : Nat
  /-- Slots owned on output e of tile t's router, at index 4t + e (R379). -/
  slots : List Word
  budget : Budget
  /-- YPTBULK, YPTHOST, YCGRP, YLSCHED, YKVPOOL, YTTAB, YSTRTAB, YCKPT (R310). -/
  ctx : Vector Word 8
  trapq : Word
  tqflag : Word
  head : BitVec 16
  tail : BitVec 16
  lost : Nat
  /-- RESCAN has been written and the tiles have yet to post their latched records (R316). -/
  rescan : Bool
  exovr : Nat
  insts : List Inst
  instNo : Nat
  streams : List (Nat × Stream)
  ttCyc : Nat
  ttEpoch : Nat
  tt : List TtEntry
  collGroups : List (Nat × List Member)
  /-- Commands of each collective instance joined so far: group, instance, rank, command (R226). -/
  collJoined : List (Nat × Nat × Nat × Nat)
  collCount : List (Nat × Tile × Nat)
  layers : List LayerSched
  /-- Grains resident in tier 0, least recently promoted first, and pin counts (R230, R231). -/
  resident : List Nat
  pins : List (Nat × Nat)
  moves : List TierMove
  /-- The clean pool, oldest first, and the KVALLOCs that wait, in the order in which they are served (R237, R238). -/
  clean : List Nat
  kvWaiters : List KvWait
  evictions : List Eviction
  evNo : Nat
  closed : Word
  /-- The VF whose world is switched in (R325, R365), and the worlds switched out. -/
  world : Option VfId
  saved : List SavedWorld
  parked : List Parked
  /-- Husks that D3hot entry moved to the checkpoint area: tile, slot (R326). -/
  moved : List (Tile × Fin 2 × Husk)
  /-- The world switch in progress, the DTIME at which the slice of the world in force ends, S + Rt of each VF's previous switch in ns, and
  the VFs whose FLOORED bit is set (R325). -/
  switch : Option Switch
  sliceEnd : Nat
  costs : List (VfId × Nat)
  floored : List VfId
  /-- The clock of the last trap record posted, and its place in that clock's order (R312). -/
  lastRec : Nat × Nat
  migration : Option Migration
  deriving DecidableEq, Repr

/-- A launch record that the front end has read (R367, R371). -/
inductive RecSt where
  | read
  | started
  /-- The operation has ended: status, value; its completion is still to be written. -/
  | ended (status : Nat) (value : Word)
  | completed
  deriving DecidableEq, Repr

structure PendRec where
  idx : BitVec 16
  bytes : List Byte
  st : RecSt
  deriving DecidableEq, Repr

/-- A queue page (R366). -/
structure Queue where
  head : BitVec 16
  tail : BitVec 16
  base : Word
  cbase : Word
  en : Bool
  err : Bool
  log2n : BitVec 4
  /-- The front end's read position P (R367). -/
  rd : BitVec 16
  pend : List PendRec
  disabling : Bool
  /-- The record at the read position could not be read (R367). -/
  blocked : Bool
  deriving DecidableEq, Repr

/-- An MSI-X vector (R371). -/
structure Msix where
  addr : Word
  data : BitVec 32
  masked : Bool
  pending : Bool
  deriving DecidableEq, Repr

/-- One VF (R363–R366). -/
structure VfSt where
  part : Option PartId
  queues : Vector Queue 64
  msix : Vector Msix 4
  /-- An FLR is in progress (R373, R374). -/
  flr : Bool
  deriving DecidableEq, Repr

/-- A message sent to the host: function, vector (R371). -/
structure MsixSent where
  fn : Nat
  vec : Nat
  deriving DecidableEq, Repr

/-- The PF's registers (R377, R388, R396). -/
structure PfSt where
  mbcmd : BitVec 8
  mbargs : Vector Word 4
  busy : Bool
  /-- The pending command has been performed, with this result; MAILBOX_DONE reports it. -/
  mbResult : Option Nat
  last : BitVec 8
  result : BitVec 8
  level : BitVec 2
  eff : BitVec 2
  trip : Bool
  tj : BitVec 8
  ready : Bool
  recov : Bool
  tilepwr : Vector Word 2
  hbmsr : BitVec 8
  selfRefresh : BitVec 8
  pwrerr : BitVec 8
  msix : Vector Msix 4
  ecorrHbm : Nat
  ecorrSlice : Nat
  epoisHbm : Nat
  epoisSlice : Nat
  esoftRolled : Nat
  esoftLogic : Nat
  d3hot : Bool
  /-- The device is in D3cold (R393). -/
  cold : Bool
  /-- A D-state change is in progress (R392, R393). -/
  dchange : Bool
  /-- The value that the last PF BAR0 read returned to the host. -/
  readData : Word
  deriving DecidableEq, Repr

/-- A warrant with its valid bit (R346). -/
structure Warrant where
  bits : BitVec 128
  v : Bool
  deriving DecidableEq, Repr

/-- A Granary core (R344): RV64 state with machine and user modes, and the warrant state. -/
structure GCore where
  x : Vector Word 32
  pc : Word
  w : Vector Warrant 32
  wpc : Warrant
  /-- Machine mode. -/
  mach : Bool
  mstatus : Word
  mtvec : Word
  mepc : Word
  mcause : Word
  mtval : Word
  mscratch : Word
  mie : Word
  mip : Word
  mcounteren : Word
  running : Bool
  deriving DecidableEq, Repr

/-- The state of a bank (R352). -/
inductive BankSt where
  | active | idle | staged | trial | invalid
  deriving DecidableEq, Repr

/-- One controller's update state (R351–R359). -/
structure CtrlSt where
  bankA : List Byte
  bankB : List Byte
  /-- The public keys that came with the banks' images (R353). -/
  keyA : List Byte
  keyB : List Byte
  stA : BankSt
  stB : BankSt
  /-- The bank that runs: true for B. -/
  run : Bool
  err : Nat
  falls : Nat
  live : List Byte
  base : List Byte
  /-- DTIME of SWITCH while a trial runs. -/
  trial : Option Nat
  beat : Option Nat
  verifying : Bool
  held : Bool
  /-- A mailbox command waits for this verification. -/
  mbWaits : Bool
  deriving DecidableEq, Repr

/-- Granary (R344, R345). -/
structure GranarySt where
  cores : Vector GCore 8
  sram : Mem
  /-- The warrant store: slot contents and the slots whose valid bit is set (R345). -/
  wstore : Mem
  wvalid : List Nat
  /-- The bank-store window at 0x80_0000 (R345). -/
  bank : Mem
  ctrls : Vector CtrlSt 27
  poison : List Nat
  deriving DecidableEq, Repr

/-- An entry of the domain map (R381). -/
structure DomEntry where
  part : PartId
  dev : Nat
  rpart : Nat
  rights : BitVec 3
  planes : BitVec 16
  deriving DecidableEq, Repr

/-- An outstanding request to another device (R383). -/
structure FabReq where
  tag : Nat
  plane : Nat
  sent : Nat
  tile : Tile
  dev : Nat
  off : Nat
  deriving DecidableEq, Repr

/-- A kept result of an atomic or a flag operation served for another device (R383). -/
structure Kept where
  source : Nat
  tag : Nat
  value : Word
  /-- The value is poisoned (R395). -/
  poison : Bool
  at_ : Nat
  deriving DecidableEq, Repr

/-- The answer to a request served (R381, R384, R395): the bytes, and which of them lie in poisoned blocks; or why it is not served. -/
inductive FabAnswer where
  | data (bytes : List Byte) (poison : List Bool)
  | poisonedTable
  | notPresent
  | refused
  deriving DecidableEq, Repr

/-- What a migration sends beside bulk pages (R375): a task bin, block by block, by the tile's place among its partition's, with its poison; the
STOP's image of a world. -/
inductive Shipment where
  | bin (tile bin block : Nat) (data : List (Byte × Bool))
  | image (bytes : List Byte)
  deriving DecidableEq, Repr

/-- The Drambizo fabric as this device sees it (R380–R384). -/
structure FabricSt where
  own : Nat
  domain : List DomEntry
  ports : BitVec 16
  reqs : List FabReq
  kept : List Kept
  nextTag : Nat
  /-- The bytes of the other devices' memories that have been written since reset, as differences from what stood there then (device ×
  2^48 + offset), and their poisoned 64-byte blocks. -/
  remote : Mem
  poison : List Nat
  /-- The answer to the last request served. -/
  answer : FabAnswer
  /-- What this device has sent to peers' checkpoint areas and bins, newest first: device, partition, item (R375). -/
  outbox : List (Nat × Nat × Shipment)
  deriving DecidableEq, Repr

/-- A frame in an encoder's queue (R241): the command that submitted it, its block. -/
structure EncFrame where
  cmd : Nat
  block : List Byte
  deriving DecidableEq, Repr

/-- One AV1 encoder (R240–R243). -/
structure EncSt where
  /-- The commands that have started and that the encoder has not accepted, in start order (R241). -/
  starts : List Nat
  frames : List EncFrame
  /-- The last frame ended with STATUS 1 or 2. -/
  broken : Bool
  /-- Samples of the head frame taken so far. -/
  pixels : List Byte
  /-- Chunks of the block in hand taken so far. -/
  chunksDone : Nat
  /-- A drain that did not match was counted (R243). -/
  mismatch : Bool
  blocksDone : Nat
  deriving DecidableEq, Repr

/-- A waiter registered at a home (R79, R80): the tile that waits and what it watches. -/
inductive Watch where
  | flag (home : Tile) (f : Nat) (want : Bool)
  | block (loc : Loc)
  deriving DecidableEq, Repr

structure Monitor where
  waiter : Tile
  watch : Watch
  hit : Bool
  deriving DecidableEq, Repr

/-- A command that waits at its acquire flag: the flag has read 1 since the command started (R218, R79). -/
structure FlagWait where
  cmd : Nat
  home : Tile
  flag : Nat
  hit : Bool
  deriving DecidableEq, Repr

/-- The particulars of an event: which tile, unit, entry, partition, function, queue and value it concerns. -/
structure EvArgs where
  t : Tile
  u : Sq
  k : Nat
  j : Nat
  p : PartId
  f : VfId
  q : QueueId
  c : CtrlId
  v : Word
  bytes : List Byte
  reg : HostReg
  scrub : ScrubTarget
  found : ScrubOutcome
  fabric : Option FabricRequest
  deriving DecidableEq, Repr

/-- What Granary's firmware writes as a partition's context: tables that the spec says Granary writes without giving the
instruction that does so (R232, R234, R286, R307, R310, R226, R331). -/
structure FirmwareCtx where
  ctx : List Word
  trapq : Word
  tqflag : Word
  clean : List Nat
  ttCyc : Nat
  ttEpoch : Nat
  tt : List (Nat × Nat)
  collGroups : List (Nat × List Member)
  layers : List (Nat × Nat × Bool)
  closed : Word
  /-- Grains of the checkpoint area, when a new one is set up (R331). -/
  ckptSize : Nat
  deriving DecidableEq, Repr

/-- A field of the PCI Express capabilities of R363 and R364. -/
inductive PciField where
  | totalVfs | firstVfOffset | vfStride | ari | aer | flr | ats | pri | pasid | atomicCompleter
  | msixTableSize | msixTableBar | msixTableOffset | msixPbaBar | msixPbaOffset
  | pfBarSize (bar : Nat) | vfBarSize (bar : Nat)
  deriving DecidableEq, Repr

/-- What the host reads: a capability field, or the eight bytes at an offset of a BAR (R363, R364). -/
inductive HostRead where
  | config (x : PciField)
  | pfBar0 (off : Nat)
  | pfBar4 (off : Nat)
  | vfBar0 (f : VfId) (off : Nat)
  | vfBar4 (f : VfId) (off : Nat)
  deriving DecidableEq, Repr

/-- One entry of the agenda: which agent moves. -/
inductive Pick where
  /-- The sequencer `u` of tile `t` issues. -/
  | seq (t : Tile) (u : Sq)
  /-- Rachis of tile `t` issues a micro-op. -/
  | rachis (t : Tile)
  /-- A Granary core issues. -/
  | granary (k : CoreId)
  /-- An event, or a host access, with its particulars. -/
  | event (i : Instr) (a : EvArgs)
  /-- `n` ck of the arithmetic clock pass, with the 1588 discipline slewing DTIME by `slew` twenty-fourths of a ns (R306). -/
  | clock (n : Nat) (slew : Int)
  /-- C of tile `t` fetches a block ahead, or drops one (R55). -/
  | prefetch (t : Tile) (block : Word)
  | unfetch (t : Tile) (block : Word)
  /-- The load path of C or L of tile `t` reads `n` bytes at a pointer ahead of a load (R137). -/
  | readAhead (t : Tile) (u : Sq) (ptr : Word) (n : Nat)
  /-- Another device writes its own memory. -/
  | remoteWrite (dev off : Nat) (bytes : List Byte) (poison : Bool)
  /-- L, M or S reads the word of step `n` of a run ahead: the run that runs, or entry `k` of its start queue (R57). -/
  | tableAhead (t : Tile) (u : Sq) (k : Option Nat) (n : Nat)
  /-- A cached leaf leaves a tile's translation buffer, or the die cache (R126), or a line leaves the line buffer (R117), to
  make room. -/
  | tbDrop (t : Tile) (k : Nat)
  | dieTbDrop (k : Nat)
  | lineDrop (t : Tile) (k : Nat)
  /-- The front end reads the records of a queue that it has not read (R367). -/
  | frontEnd (f : VfId) (q : QueueId)
  /-- The hottest junction is at a temperature in °C (R388). -/
  | junction (tj : BitVec 8)
  /-- Host software writes its own memory. -/
  | hostWrite (bus : Nat) (bytes : List Byte)
  /-- The host reads a register. -/
  | hostRead (r : HostRead)
  /-- The host initiates an FLR of the PF (R363). -/
  | pfFlr
  /-- Granary restores the checkpointed instance `n` of a partition at an origin (R330). -/
  | unpark (p : PartId) (n col row : Nat)
  /-- Granary's firmware writes a partition's context. -/
  | firmware (p : PartId) (x : FirmwareCtx)
  deriving DecidableEq, Repr

/-- Why the machine stops with a fault. No meaning raises it: every exception of the spec is taken, as a trap record or
as a RISC-V exception. Safe. -/
inductive Fault where
  | stuck
  deriving DecidableEq, Repr

/-- Why an instruction has no meaning. -/
inductive Refusal where
  /-- The instruction is not modelled yet; raised by exec's refused arms only. Safe. -/
  | notModelled (mnemonic : String)
  deriving DecidableEq, Repr

/-- The device. -/
structure State where
  /-- Which tile, sequencer and core the current instruction issues from, and the particulars of the current event. -/
  cur : Tile
  curSq : Sq
  curCore : CoreId
  ev : EvArgs
  /-- The agenda, and the move made when it is empty. -/
  schedule : List Pick
  idlePick : Pick
  /-- Counter of the free values drawn so far. -/
  freeCount : Nat
  /-- Arithmetic clocks since reset, and device time in ns with its fraction in twenty-fourths (R306). -/
  ck : Nat
  dtime : Nat
  dfrac : Nat
  tiles : Vector TileSt 64
  parts : Vector PartSt 40
  bulk : Mem
  bulkPoison : List Nat
  /-- Next bulk physical address that MEM-MAP takes grains and tables from; the freed pages, address and grains (1 or 32), which it takes
  first; the table pages made. -/
  heap : Nat
  freePages : List (Nat × Nat)
  tables : Nat
  dieTb : List TbEntry
  host : Mem
  pf : PfSt
  vfs : Vector VfSt 256
  sent : List MsixSent
  /-- What the last BAR2 read returned: none for Unsupported Request (R372). -/
  bar2Data : Option (List Byte)
  /-- What the last read of a register by the host returned: none for Unsupported Request. -/
  hostData : Option Word
  granary : GranarySt
  fabric : FabricSt
  encs : Vector EncSt 8
  monitors : List Monitor
  flagWaits : List FlagWait
  /-- The flags whose last write is an instruction's of C that releases nothing beyond its tile: home, number, C's tile (R132). -/
  narrow : List (Tile × Nat × Tile)
  /-- Commands numbered so far. -/
  cmdNo : Nat
  /-- The husk behind each husk body that has left a slot as bytes (R319, R341). -/
  bodies : List (List Byte × Husk)
  /-- The blocks that wait for the scrub engine, in the order in which they reached SCRUB (R238). -/
  scrubq : List (PartId × Nat)
  deriving DecidableEq, Repr

/-! ## Reset -/

def SeqSt.reset : SeqSt :=
  { run := none, startq := [], stopping := false, started := none, wait := .none, stop := none, stall := 0 }

def CSt.reset : CSt :=
  { s := Vector.replicate 32 0, pc := 0, ops := [], wait := .none, stop := none, stall := 0, poison := 0, fetched := [],
    early := [], spaceBad := false }

def LsSt.reset : LsSt :=
  { seq := SeqSt.reset, a := Vector.replicate 16 0, stride := Vector.replicate 16 0, inflight := [], early := [] }

def MSt.reset : MSt := { seq := SeqSt.reset, list := [] }

/-- VCFG resets to TYPE FP32 (R151), YFFLAGS to 0 (R27). -/
def VecSt.reset : VecSt :=
  { v := Vector.replicate 32 0, p := Vector.replicate 8 0, k := Vector.replicate 4 0, e := Vector.replicate 4 0,
    n := Vector.replicate 8 0, q := Vector.replicate 8 none, vcfg := 8, fflags := 0, fresh := 0, poison := 0,
    ppoison := 0, epoison := 0 }

/-- R186, R190, R192, R386. -/
def MatSt.reset : MatSt :=
  { z := Vector.replicate 4 [], aslot := Vector.replicate 2 [], slotSt := Vector.replicate 2 .free, slotPtr := 0, wbuf := [],
    wptr := 0, mmode := 0, mkoff := 0, mtau := 0, mkcnt := 0, mvbase := 0, sbuf := [],
    aPoison := Vector.replicate 2 [], wPoison := [], zPoison := Vector.replicate 4 [] }

/-- The stock program of R264, words 0–18. -/
def stockProgram : List W32 :=
  [0x1C040000, 0x20040000, 0x24C00000, 0x1C140005, 0x05800000, 0x05840000, 0x29C00000, 0x11C00005, 0x44000000, 0x09980001,
   0x0C83FFFB, 0x4C000000, 0x2C000000, 0x30000000, 0x3C000000, 0x34000000, 0x38000000, 0x40000000, 0x11C3FFF4]

/-- Words laid out little-endian from an address, zero bytes left out (the canonical form of `Mem`). -/
def layWords (at_ : Nat) : List W32 → Mem
  | [] => []
  | w :: ws =>
    let b (i : Nat) : Mem := if w.extractLsb' (8 * i) 8 = 0 then [] else [(at_ + i, w.extractLsb' (8 * i) 8)]
    b 0 ++ (b 1 ++ (b 2 ++ (b 3 ++ layWords (at_ + 4) ws)))

def RachisSt.reset : RachisSt :=
  { store := layWords 0 stockProgram, pass := none, passNo := 0, last := 0, lastNo := 0 }

def CopySt.reset : CopySt := { q := [], counter := 0, gen := 0, done := 0, retired := [], discarded := [], served := 0 }

def Logic.reset : Logic :=
  { c := CSt.reset, l := LsSt.reset, m := MSt.reset, s := LsSt.reset, tok := Vector.replicate 12 [], vec := VecSt.reset,
    mat := MatSt.reset, rachis := RachisSt.reset, copy := CopySt.reset, task := none, flits := [] }

/-- YTOKLIM resets to 0x01000000 (R87); slices, bins and sync space as R386 leaves them. -/
def TileSt.reset : TileSt :=
  { logic := Logic.reset, slice := [], empty := [], dirty := [], poison := [], wrote := [], sync := [], tb := [], lines := [], tiller := [],
    shadow := none, freezing := none, husks := Vector.replicate 2 none, away := [], latch := [], tid := 0, tokLim := 0x01000000, pwr := .on,
    waking := false, clocks := 0, egress := Vector.replicate 8 [], lastOwner := none, slim := 0, part := 0 }

def Budget.reset : Budget := { count := 0, window := 0, refill := 0, began := 0 }

def PartSt.reset : PartSt :=
  { inUse := false, tiles := 0, slim := 0, home := 0, q0 := 0, q1 := 0, slots := [], budget := Budget.reset,
    ctx := Vector.replicate 8 0, trapq := 0, tqflag := 0, head := 0, tail := 0, lost := 0, rescan := false, exovr := 0, insts := [], instNo := 0,
    streams := [], ttCyc := 0, ttEpoch := 0, tt := [], collGroups := [], collJoined := [], collCount := [], layers := [],
    resident := [], pins := [], moves := [], clean := [], kvWaiters := [], evictions := [], evNo := 0, closed := 0,
    world := none, saved := [], parked := [], moved := [], switch := none, sliceEnd := 0, costs := [], floored := [],
    lastRec := (0, 0), migration := none }

def Queue.reset : Queue :=
  { head := 0, tail := 0, base := 0, cbase := 0, en := false, err := false, log2n := 0, rd := 0, pend := [], disabling := false, blocked := false }

/-- MSI-X vectors come up masked, as PCI Express has them. -/
def Msix.reset : Msix := { addr := 0, data := 0, masked := true, pending := false }

def VfSt.reset : VfSt :=
  { part := none, queues := Vector.replicate 64 Queue.reset, msix := Vector.replicate 4 Msix.reset, flr := false }

/-- R377, R388, R396. -/
def PfSt.reset : PfSt :=
  { mbcmd := 0, mbargs := Vector.replicate 4 0, busy := false, mbResult := none, last := 0, result := 0, level := 2, eff := 2,
    trip := false, tj := 0, ready := false, recov := false, tilepwr := Vector.replicate 2 0, hbmsr := 0, selfRefresh := 0,
    pwrerr := 0, msix := Vector.replicate 4 Msix.reset, ecorrHbm := 0, ecorrSlice := 0, epoisHbm := 0, epoisSlice := 0,
    esoftRolled := 0, esoftLogic := 0, d3hot := false, cold := false, dchange := false, readData := 0 }

def Warrant.empty : Warrant := { bits := 0, v := false }

/-- The bits of an unkeyed warrant (R346). -/
def Warrant.mk' (lo hi : BitVec 40) (rights : BitVec 8) : Warrant :=
  { bits := lo ++ hi ++ rights ++ (0 : BitVec 16) ++ (0 : BitVec 24), v := true }

/-- The roots of R346, machine mode, the pc at the reset vector; cores other than 0 wait (R386). -/
def GCore.reset (running : Bool) : GCore :=
  { x := Vector.replicate 32 0, pc := 0x400000,
    w := ((Vector.replicate 32 Warrant.empty).set 1 (Warrant.mk' 0 0xFFFFFFFFFF 0x1B)).set 2 (Warrant.mk' 1 0xFFFF 0x70),
    wpc := Warrant.mk' 0 0xFFFFFFFFFF 0x05, mach := true, mstatus := 0x1800, mtvec := 0, mepc := 0, mcause := 0, mtval := 0,
    mscratch := 0, mie := 0, mip := 0, mcounteren := 0, running := running }

/-- USTAT resets to bank A ACTIVE, bank B INVALID (R355). -/
def CtrlSt.reset : CtrlSt :=
  { bankA := [], bankB := [], keyA := [], keyB := [], stA := .active, stB := .invalid, run := false, err := 0, falls := 0, live := [],
    base := [], trial := none, beat := none, verifying := false, held := false, mbWaits := false }

def GranarySt.reset : GranarySt :=
  { cores := (Vector.replicate 8 (GCore.reset false)).set 0 (GCore.reset true), sram := [], wstore := [], wvalid := [], bank := [],
    ctrls := Vector.replicate 27 CtrlSt.reset, poison := [] }

def FabricSt.reset : FabricSt :=
  { own := 0, domain := [], ports := BitVec.allOnes 16, reqs := [], kept := [], nextTag := 0, remote := [], poison := [], answer := .data [] [], outbox := [] }

def EncSt.reset : EncSt := { starts := [], frames := [], broken := false, pixels := [], chunksDone := 0, mismatch := false, blocksDone := 0 }

def EvArgs.none : EvArgs :=
  { t := 0, u := .c, k := 0, j := 0, p := 0, f := 0, q := 0, c := 0, v := 0, bytes := [], reg := .readOnly,
    scrub := .hbm 0, found := .clean, fabric := Option.none }

/-- The device right after reset: every register at its reset value, nothing placed; the bring-up of R386 is the first move. -/
def State.reset : State :=
  { cur := 0, curSq := .c, curCore := 0, ev := EvArgs.none, schedule := [.event .reset EvArgs.none], idlePick := .clock 1 0,
    freeCount := 0, ck := 0, dtime := 0, dfrac := 0, tiles := Vector.replicate 64 TileSt.reset,
    parts := Vector.replicate 40 PartSt.reset, bulk := [], bulkPoison := [], heap := 0x100000000, freePages := [], tables := 0, dieTb := [], host := [],
    pf := PfSt.reset, vfs := Vector.replicate 256 VfSt.reset, sent := [], bar2Data := none, hostData := none, granary := GranarySt.reset,
    fabric := FabricSt.reset, encs := Vector.replicate 8 EncSt.reset, monitors := [], flagWaits := [], narrow := [], cmdNo := 0, bodies := [], scrubq := [] }

end Sys2Proof.Machine
end

