-- ==== Sys2Proof/Machine/Mem.lean ====
section
/-! DEFINITION. Sparse byte memory in canonical form: reading, writing and clearing ranges, and little-endian values (R2). -/

namespace Sys2Proof.Machine

/-- The byte at an address; an unlisted byte reads as zero (R386 step 5). -/
def Mem.byte : Mem → Nat → Byte
  | [], _ => 0
  | (k, b) :: r, a => if k = a then b else if a < k then 0 else Mem.byte r a

/-- The canonical form: rising addresses, no entry zero. -/
def Memory.wf : Mem → Bool
  | [] => true
  | (a, b) :: r => b != 0 && (r.all (fun c => a < c.1) && Memory.wf r)

/-- The entries of bytes laid out from an address. -/
def cellsAt (a : Nat) : List Byte → Mem
  | [] => []
  | b :: bs => if b = 0 then cellsAt (a + 1) bs else (a, b) :: cellsAt (a + 1) bs

/-- Writes bytes from an address. -/
def Mem.write (m : Mem) (a : Nat) (bs : List Byte) : Mem :=
  m.filter (fun c => c.1 < a) ++ (cellsAt a bs ++ m.filter (fun c => a + bs.length ≤ c.1))

/-- Writes zero to `n` bytes from an address. -/
def Mem.clear (m : Mem) (a n : Nat) : Mem := m.filter (fun c => c.1 < a || a + n ≤ c.1)

/-- The `n` bytes from an address. -/
def Mem.read (m : Mem) (a n : Nat) : List Byte := (List.range n).map (fun i => Mem.byte m (a + i))

/-- Replaces the bytes that a mask names, byte j by bit j (VSTM). -/
def Mem.writeMasked (m : Mem) (a : Nat) (bs : List Byte) (keep : Nat → Bool) : Mem :=
  Mem.write m a (bs.zipIdx.map (fun (b, j) => if keep j then b else Mem.byte m (a + j)))

/-- The bytes of a range as an own memory, addresses from zero. -/
def Mem.slice (m : Mem) (a n : Nat) : Mem :=
  (m.filter (fun c => a ≤ c.1 && c.1 < a + n)).map (fun c => (c.1 - a, c.2))

/-- Puts an own memory of `n` bytes at an address. -/
def Mem.place (m : Mem) (a n : Nat) (x : Mem) : Mem :=
  m.filter (fun c => c.1 < a) ++ ((x.filter (fun c => c.1 < n)).map (fun c => (a + c.1, c.2)) ++ m.filter (fun c => a + n ≤ c.1))

/-- A number as `n` little-endian bytes. -/
def leBytes : Nat → Nat → List Byte
  | 0, _ => []
  | n + 1, v => BitVec.ofNat 8 v :: leBytes n (v / 256)

/-- The number that little-endian bytes hold. -/
def leNat : List Byte → Nat
  | [] => 0
  | b :: bs => b.toNat + 256 * leNat bs

/-- The number in `n` bytes at an address. -/
def Mem.num (m : Mem) (a n : Nat) : Nat := leNat (Mem.read m a n)

/-- The field of `n` bytes at offset `o` of a block of bytes. -/
def fieldAt (bs : List Byte) (o n : Nat) : Nat := leNat ((bs.drop o).take n)

/-- The field of `n` bytes at offset `o` as a 64-bit value. -/
def wordAt (bs : List Byte) (o n : Nat) : Word := BitVec.ofNat 64 (fieldAt bs o n)

/-- Whether every byte of a range of a block is zero. -/
def zeroAt (bs : List Byte) (o n : Nat) : Bool := ((bs.drop o).take n).all (fun b => b = 0)

/-- Bits `l` to `l + n - 1` of a number. -/
def bitsOf (v l n : Nat) : Nat := (v / 2 ^ l) % 2 ^ n

/-- Bits of a 64-bit value as a number. -/
def wbits (w : Word) (l n : Nat) : Nat := bitsOf w.toNat l n

def vBytes (v : VReg) : List Byte := leBytes 512 v.toNat
def vOfBytes (bs : List Byte) : VReg := BitVec.ofNat 4096 (leNat bs)
def pBytes (p : PReg) : List Byte := leBytes 128 p.toNat
def pOfBytes (bs : List Byte) : PReg := BitVec.ofNat 1024 (leNat bs)

/-- The sum of numbers. -/
def listTotal (l : List Nat) : Nat := l.foldr (· + ·) 0

/-- Inserts into a rising list without repeats. -/
def insertRising (n : Nat) : List Nat → List Nat
  | [] => [n]
  | x :: xs => if n < x then n :: x :: xs else if n = x then x :: xs else x :: insertRising n xs

/-- The units of `size` bytes that a range touches. -/
def unitsOf (size a n : Nat) : List Nat :=
  if n = 0 then [] else (List.range ((a + n - 1) / size - a / size + 1)).map (fun i => a / size + i)

/-- The poison marks of a memory after a write: a block wholly covered takes the data's mark, another keeps its own as well. -/
def poisonAfter (marks : List Nat) (off n : Nat) (poison : Bool) : List Nat :=
  (unitsOf 64 off n).foldl (fun m b =>
    if poison then insertRising b m
    else if off ≤ 64 * b && 64 * b + 64 ≤ off + n then m.filter (fun k => k != b) else m) marks

/-- A vector of computed entries. -/
def vecOf {α : Type} (n : Nat) (f : Nat → α) : Vector α n :=
  ⟨((List.range n).map f).toArray, by simp⟩

/-- Entry `i` of a vector of registers, the first for an index beyond it. -/
def vGet {α : Type} {n : Nat} [NeZero n] (v : Vector α n) (i : Nat) : α := v[Fin.ofNat n i]

/-- A vector of registers with entry `i` replaced. -/
def vSet {α : Type} {n : Nat} (v : Vector α n) (i : Nat) (x : α) : Vector α n :=
  if h : i < n then v.set i x h else v

end Sys2Proof.Machine
end

