-- ==== Sys2Proof/Machine/Tile.lean ====
section
/-! DEFINITION. Reading and replacing the parts of the state: tiles, their logic, sequencers, registers and token queues,
partitions, instances and functions; free values; what waits a sequencer shows. -/

namespace Sys2Proof.Machine

/-- What a meaning answers. -/
abbrev Out := Host.Outcome State Fault Refusal

/-! ## Tiles and logic -/

def State.tile (s : State) (t : Tile) : TileSt := s.tiles[t]
def State.setTile (s : State) (t : Tile) (x : TileSt) : State := { s with tiles := s.tiles.set t x }
def State.modTile (s : State) (t : Tile) (f : TileSt → TileSt) : State := s.setTile t (f (s.tile t))
def State.logic (s : State) (t : Tile) : Logic := (s.tile t).logic
def State.modLogic (s : State) (t : Tile) (f : Logic → Logic) : State :=
  s.modTile t (fun x => { x with logic := f x.logic })
def State.c (s : State) (t : Tile) : CSt := (s.logic t).c
def State.modC (s : State) (t : Tile) (f : CSt → CSt) : State := s.modLogic t (fun g => { g with c := f g.c })
def State.vec (s : State) (t : Tile) : VecSt := (s.logic t).vec
def State.modVec (s : State) (t : Tile) (f : VecSt → VecSt) : State := s.modLogic t (fun g => { g with vec := f g.vec })
def State.mat (s : State) (t : Tile) : MatSt := (s.logic t).mat
def State.modMat (s : State) (t : Tile) (f : MatSt → MatSt) : State := s.modLogic t (fun g => { g with mat := f g.mat })
def State.copy (s : State) (t : Tile) : CopySt := (s.logic t).copy
def State.modCopy (s : State) (t : Tile) (f : CopySt → CopySt) : State := s.modLogic t (fun g => { g with copy := f g.copy })
def State.rachis (s : State) (t : Tile) : RachisSt := (s.logic t).rachis
def State.modRachis (s : State) (t : Tile) (f : RachisSt → RachisSt) : State :=
  s.modLogic t (fun g => { g with rachis := f g.rachis })
def State.task (s : State) (t : Tile) : Option TaskCtl := (s.logic t).task

/-- L or S: `true` for S. -/
def Logic.ls (g : Logic) (isS : Bool) : LsSt := if isS then g.s else g.l
def Logic.modLs (g : Logic) (isS : Bool) (f : LsSt → LsSt) : Logic :=
  if isS then { g with s := f g.s } else { g with l := f g.l }
def State.ls (s : State) (t : Tile) (isS : Bool) : LsSt := (s.logic t).ls isS
def State.modLs (s : State) (t : Tile) (isS : Bool) (f : LsSt → LsSt) : State := s.modLogic t (fun g => g.modLs isS f)

/-- The shared part of L, M or S; C has none and answers the reset part. -/
def Logic.seq (g : Logic) : Sq → SeqSt
  | .c => SeqSt.reset
  | .l => g.l.seq
  | .m => g.m.seq
  | .s => g.s.seq
def Logic.modSeq (g : Logic) (u : Sq) (f : SeqSt → SeqSt) : Logic :=
  match u with
  | .c => g
  | .l => { g with l := { g.l with seq := f g.l.seq } }
  | .m => { g with m := { g.m with seq := f g.m.seq } }
  | .s => { g with s := { g.s with seq := f g.s.seq } }
def State.seq (s : State) (t : Tile) (u : Sq) : SeqSt := (s.logic t).seq u
def State.modSeq (s : State) (t : Tile) (u : Sq) (f : SeqSt → SeqSt) : State := s.modLogic t (fun g => g.modSeq u f)

/-! ## Scalar registers (R54) -/

/-- s0 reads as zero. -/
def State.sr (s : State) (t : Tile) (r : Reg) : Word := if r = 0 then 0 else (s.c t).s[r.toFin]
/-- A write to s0 is discarded. -/
def CSt.put (c : CSt) (r : Reg) (v : Word) : CSt := if r = 0 then c else { c with s := c.s.set r.toFin v }
/-- A register with its poison mark (R395). -/
def CSt.putP (c : CSt) (r : Reg) (v : Word) (poison : Bool) : CSt :=
  if r = 0 then c else
    { c with s := c.s.set r.toFin v,
             poison := if poison then c.poison ||| (1#32 <<< r.toNat) else c.poison &&& ~~~(1#32 <<< r.toNat) }
def CSt.poisoned (c : CSt) (r : Reg) : Bool := c.poison.getLsbD r.toNat
def State.setS (s : State) (t : Tile) (r : Reg) (v : Word) : State := s.modC t (fun c => c.putP r v false)

/-- An address register of L or S. -/
def LsSt.areg (x : LsSt) (n : BitVec 4) : Word := x.a[n.toFin]
def LsSt.setA (x : LsSt) (n : BitVec 4) (v : Word) : LsSt := { x with a := x.a.set n.toFin v }

/-! ## Token queues (R81) -/

def State.toks (s : State) (t : Tile) (q : Fin 12) : List Word := (s.logic t).tok[q]
def State.setToks (s : State) (t : Tile) (q : Fin 12) (x : List Word) : State :=
  s.modLogic t (fun g => { g with tok := g.tok.set q x })

/-- Pushes a token; the caller has seen that the count is below 255. -/
def State.pushTok (s : State) (t : Tile) (q : Fin 12) (v : Word) : State := s.setToks t q (s.toks t q ++ [v])
def State.tokRoom (s : State) (t : Tile) (q : Fin 12) : Bool := (s.toks t q).length < 255

/-! ## Partitions, instances, functions -/

def State.part (s : State) (p : PartId) : PartSt := s.parts[p]
def State.setPart (s : State) (p : PartId) (x : PartSt) : State := { s with parts := s.parts.set p x }
def State.modPart (s : State) (p : PartId) (f : PartSt → PartSt) : State := s.setPart p (f (s.part p))
def PartSt.has (x : PartSt) (t : Tile) : Bool := x.inUse && x.tiles.getLsbD t.val
def PartSt.inst (x : PartSt) (n : Nat) : Option Inst := x.insts.find? (fun i => i.no = n)
def State.inst (s : State) (p : PartId) (n : Nat) : Option Inst := (s.part p).inst n
def State.modInst (s : State) (p : PartId) (n : Nat) (f : Inst → Inst) : State :=
  s.modPart p (fun x => { x with insts := x.insts.map (fun i => if i.no = n then f i else i) })
def State.vf (s : State) (f : VfId) : VfSt := s.vfs[f]
def State.modVf (s : State) (f : VfId) (g : VfSt → VfSt) : State := { s with vfs := s.vfs.set f (g (s.vf f)) }
def State.modPf (s : State) (f : PfSt → PfSt) : State := { s with pf := f s.pf }
def State.modGran (s : State) (f : GranarySt → GranarySt) : State := { s with granary := f s.granary }
def State.modFab (s : State) (f : FabricSt → FabricSt) : State := { s with fabric := f s.fabric }
def State.modEnc (s : State) (e : Fin 8) (f : EncSt → EncSt) : State := { s with encs := s.encs.set e (f s.encs[e]) }

/-- All tiles, in increasing id. -/
def allTiles : List Tile := List.finRange 64
/-- The tiles of a mask, in increasing id. -/
def tilesOf (m : Word) : List Tile := allTiles.filter (fun t => m.getLsbD t.val)
/-- The tiles of a partition. -/
def PartSt.tileList (x : PartSt) : List Tile := if x.inUse then tilesOf x.tiles else []

/-- The tile's task runs: the tile is ON, holds a task and is not frozen. -/
def TileSt.runs (x : TileSt) : Bool := x.pwr = .on && (x.freezing.isNone && x.logic.task.isSome)

/-- Twenty-fourths of a nanosecond in one ck at a level: 1.2, 1.6 or 2.0 GHz (R5). -/
def ckTime (level : BitVec 2) : Nat := if level = 0 then 20 else if level = 1 then 15 else 12

/-! ## Free values -/

def State.drawn (s : State) : State := { s with freeCount := s.freeCount + 1 }
/-- A free number below `n`, drawn from a fresh free choice. -/
def State.freeBelow (s : State) (n : Nat) : Nat := Config.freeNat s.freeCount % n
/-- A block of free bytes. -/
def State.freeBytes (s : State) (n : Nat) : List Byte := (List.range n).map (Config.freeByte s.freeCount)

/-! ## The issuing sequencer's waits (R86) -/

/-- C's instruction is to be issued again; `counts`: the wait counts toward the token timeout. -/
def State.cRetry (s : State) (counts : Bool) : State := s.modC s.cur (fun c => { c with wait := .retry counts })
/-- C's instruction has issued: the PC moves on, the wait and its stall counter end. -/
def State.cNextTo (s : State) (pc : Word) : State :=
  s.modC s.cur (fun c => { c with pc := pc, wait := .none, stall := 0 })
def State.cNext (s : State) : State := s.cNextTo ((s.c s.cur).pc + 4)

end Sys2Proof.Machine
end

