-- ==== Sys2Proof/Machine/Sha3.lean ====
section
/-! DEFINITION. SHAKE256 of FIPS 202, which R319, R353, R357 and R361 name. -/

namespace Sys2Proof.Machine

/-! ## Keccak-f[1600] -/

/-- The 25 lanes; lane (x, y) stands at x + 5y. -/
abbrev Lanes := List Word
def Lanes.at_ (a : Lanes) (x y : Nat) : Word := a.getD (x % 5 + 5 * (y % 5)) 0
/-- Lanes from a function of x and y. -/
def lanesOf (f : Nat → Nat → Word) : Lanes := (List.range 25).map (fun i => f (i % 5) (i / 5))

/-- The offsets of ρ, in the order of the lanes. -/
def rhoOffsets : List Nat :=
  [0, 1, 62, 28, 27, 36, 44, 6, 55, 20, 3, 10, 43, 25, 39, 41, 45, 15, 21, 8, 18, 2, 61, 56, 14]
/-- The constants of ι. -/
def roundConstants : List Word :=
  [0x0000000000000001, 0x0000000000008082, 0x800000000000808A, 0x8000000080008000, 0x000000000000808B, 0x0000000080000001,
   0x8000000080008081, 0x8000000000008009, 0x000000000000008A, 0x0000000000000088, 0x0000000080008009, 0x000000008000000A,
   0x000000008000808B, 0x800000000000008B, 0x8000000000008089, 0x8000000000008003, 0x8000000000008002, 0x8000000000000080,
   0x000000000000800A, 0x800000008000000A, 0x8000000080008081, 0x8000000000008080, 0x0000000080000001, 0x8000000080008008]

/-- The column parities. -/
def Lanes.parity (a : Lanes) : List Word :=
  (List.range 5).map (fun x => a.at_ x 0 ^^^ (a.at_ x 1 ^^^ (a.at_ x 2 ^^^ (a.at_ x 3 ^^^ a.at_ x 4))))
def theta (a : Lanes) : Lanes :=
  let c := a.parity
  lanesOf (fun x y => a.at_ x y ^^^ (c.getD ((x + 4) % 5) 0 ^^^ (c.getD ((x + 1) % 5) 0).rotateLeft 1))
/-- ρ, then π. -/
def rhoPi (a : Lanes) : Lanes :=
  lanesOf (fun x y => (a.at_ (x + 3 * y) x).rotateLeft (rhoOffsets.getD ((x + 3 * y) % 5 + 5 * x) 0))
def chi (a : Lanes) : Lanes := lanesOf (fun x y => a.at_ x y ^^^ (~~~(a.at_ (x + 1) y) &&& a.at_ (x + 2) y))
def iota (rc : Word) (a : Lanes) : Lanes := (a.at_ 0 0 ^^^ rc) :: a.drop 1
/-- The permutation: 24 rounds. -/
def keccakF (a : Lanes) : Lanes := roundConstants.foldl (fun a rc => iota rc (chi (rhoPi (theta a)))) a

/-! ## The sponge -/

/-- Bytes of a block of SHAKE256. -/
def shakeRate : Nat := 136
/-- The message with the suffix 1111 and the padding 10*1. -/
def shakePad (m : List Byte) : List Byte :=
  let k := shakeRate - m.length % shakeRate
  m ++ (if k = 1 then [0x9F] else 0x1F :: (List.replicate (k - 2) 0 ++ [0x80]))
/-- One block is absorbed. -/
def absorb (a : Lanes) (b : List Byte) : Lanes :=
  keccakF (lanesOf (fun x y => a.at_ x y ^^^ (if x + 5 * y < 17 then wordAt b (8 * (x + 5 * y)) 8 else 0)))
/-- The blocks of the output. -/
def squeeze : Nat → Lanes → List Byte
  | 0, _ => []
  | n + 1, a => (a.take 17).flatMap (fun w => leBytes 8 w.toNat) ++ squeeze n (keccakF a)
/-- The state when the whole message has been absorbed. -/
def absorbed (m : List Byte) : Lanes :=
  let p := shakePad m
  (List.range (p.length / shakeRate)).foldl (fun a i => absorb a ((p.drop (shakeRate * i)).take shakeRate)) (lanesOf (fun _ _ => 0))

/-- `n` bytes of SHAKE256. -/
@[irreducible] def shake256 (n : Nat) (m : List Byte) : List Byte :=
  let out := squeeze ((n + shakeRate - 1) / shakeRate) (absorbed m)
  (List.range n).map (fun i => out.getD i 0)

end Sys2Proof.Machine
end

