-- ==== Sys2Proof/Machine/Ed448.lean ====
section
/-! DEFINITION. Ed448 of RFC 8032, in its pure form with an empty context (R353, R361): keys, signatures, verification. -/

namespace Sys2Proof.Machine

/-! ## The field and the group -/

/-- The field's prime, 2⁴⁴⁸ − 2²²⁴ − 1. -/
def edP : Nat := 2 ^ 448 - 2 ^ 224 - 1
/-- The curve's d = −39081. -/
def edD : Nat := edP - 39081
/-- The order of the base point. -/
def edL : Nat := 2 ^ 446 - 13818066809895115352007386748515426880336692474882178609894547503885
def subP (a b : Nat) : Nat := (a + (edP - b % edP)) % edP
def mulP (a b : Nat) : Nat := a * b % edP
/-- b^e modulo p, for e below 2⁴⁴⁸. -/
def powP (b e : Nat) : Nat :=
  (List.range 448).reverse.foldl (fun r i => let q := mulP r r; if e.testBit i then mulP q b else q) 1
def invP (a : Nat) : Nat := powP a (edP - 2)

/-- A point of the curve, projective. -/
structure EdPoint where
  x : Nat
  y : Nat
  z : Nat
  deriving DecidableEq, Repr

def EdPoint.zero : EdPoint := { x := 0, y := 1, z := 1 }
def EdPoint.base : EdPoint :=
  { x := 224580040295924300187604334099896036246789641632564134246125461686950415467406032909029192869357953282578032075146446173674602635247710,
    y := 298819210078481492676017930443930673437544040154080242095928241372331506189835876003536878655418784733982303233503462500531545062832660,
    z := 1 }
/-- The sum, which is complete on this curve. -/
def EdPoint.add (p q : EdPoint) : EdPoint :=
  let a := mulP p.z q.z
  let b := mulP a a
  let c := mulP p.x q.x
  let d := mulP p.y q.y
  let e := mulP edD (mulP c d)
  let f := subP b e
  let g := (b + e) % edP
  let h := mulP (p.x + p.y) (q.x + q.y)
  { x := mulP (mulP a f) (subP (subP h c) d), y := mulP (mulP a g) (subP d c), z := mulP f g }
/-- n times a point, for n below 2⁴⁵⁶. -/
def EdPoint.mul (n : Nat) (p : EdPoint) : EdPoint :=
  (List.range 456).reverse.foldl (fun (r : EdPoint) i => let q := r.add r; if n.testBit i then q.add p else q) EdPoint.zero
/-- Two points are the same. -/
def EdPoint.same (p q : EdPoint) : Bool := mulP p.x q.z = mulP q.x p.z && mulP p.y q.z = mulP q.y p.z

/-- The 57 bytes of a point. -/
def EdPoint.encode (p : EdPoint) : List Byte :=
  let i := invP p.z
  leBytes 57 (mulP p.y i + 2 ^ 455 * (mulP p.x i % 2))
/-- The point in 57 bytes; none when they encode none. -/
def edDecode (b : List Byte) : Option EdPoint :=
  let n := leNat (b.take 57)
  let y := n % 2 ^ 455
  let sign := n / 2 ^ 455 % 2
  let u := subP (mulP y y) 1
  let v := subP (mulP edD (mulP y y)) 1
  let u3 := mulP (mulP u u) u
  let x := mulP (mulP u3 v) (powP (mulP (mulP u3 (mulP u u)) (mulP (mulP v v) v)) ((edP - 3) / 4))
  if b.length < 57 || (edP ≤ y || (mulP v (mulP x x) ≠ u || (x = 0 && sign = 1))) then none
  else some { x := if x % 2 = sign then x else edP - x, y := y, z := 1 }

/-! ## Keys and signatures -/

/-- "SigEd448", the flag 0 and the empty context. -/
def edDom : List Byte := [0x53, 0x69, 0x67, 0x45, 0x64, 0x34, 0x34, 0x38, 0, 0]
/-- A private key: its scalar, and the prefix that makes the signatures' nonces. -/
structure EdKey where
  scalar : Nat
  prefix_ : List Byte
  deriving DecidableEq, Repr
/-- The key of a seed: 114 bytes of SHAKE256, the first half pruned to the scalar. -/
def EdKey.ofSeed (seed : List Byte) : EdKey :=
  let h := shake256 114 seed
  let n := leNat (h.take 57) % 2 ^ 447
  { scalar := n - n % 4 + 2 ^ 447, prefix_ := h.drop 57 }
def EdKey.public (k : EdKey) : List Byte := (EdPoint.mul k.scalar EdPoint.base).encode
/-- The number that R, A and the message give. -/
def edHash (parts : List Byte) : Nat := leNat (shake256 114 (edDom ++ parts)) % edL
/-- The 114 bytes of a signature. -/
def EdKey.sign (k : EdKey) (m : List Byte) : List Byte :=
  let r := edHash (k.prefix_ ++ m)
  let rb := (EdPoint.mul r EdPoint.base).encode
  rb ++ leBytes 57 ((r + edHash (rb ++ (k.public ++ m)) * k.scalar) % edL)

/-- Verification: [4][S]B = [4]R + [4][k]A, the group equation that RFC 8032 gives first. -/
@[irreducible] def ed448Verify (key sig m : List Byte) : Bool :=
  match edDecode key, edDecode (sig.take 57) with
  | some a, some r =>
    let n := leNat (sig.drop 57)
    let k := edHash (sig.take 57 ++ (key ++ m))
    key.length = 57 && (sig.length = 114 && (n < edL &&
      (EdPoint.mul (4 * n % edL) EdPoint.base).same ((EdPoint.mul 4 r).add (EdPoint.mul 4 (EdPoint.mul k a)))))
  | _, _ => false

end Sys2Proof.Machine
end

