-- ==== Sys2Proof/Machine/Identity.lean ====
section
/-! DEFINITION. The device's keys and certificates (R361). -/

namespace Sys2Proof.Machine

/-! ## Keys -/

/-- "GLN-DEVID". -/
def devidLabel : List Byte := [0x47, 0x4C, 0x4E, 0x2D, 0x44, 0x45, 0x56, 0x49, 0x44]
/-- The device identity key: SHAKE256 of the fused secret with the label. -/
def identitySeed : List Byte := Config.fusedSecret ++ devidLabel
def identityKey : EdKey := EdKey.ofSeed identitySeed
/-- The identity secret: the bytes that the identity key's scalar is pruned from. -/
def identitySecret : List Byte := shake256 57 identitySeed
/-- The alias key for the digests of the running images, in controller order. -/
def aliasKey (digests : List (List Byte)) : EdKey := EdKey.ofSeed (identitySecret ++ digests.flatten)

/-! ## X.509 v3 certificates, in DER (RFC 8410) -/

/-- A DER element: tag, length, contents. -/
def der (tag : Byte) (b : List Byte) : List Byte :=
  let n := b.length
  tag :: ((if n < 128 then [BitVec.ofNat 8 n] else if n < 256 then [0x81, BitVec.ofNat 8 n]
    else [0x82, BitVec.ofNat 8 (n / 256), BitVec.ofNat 8 n]) ++ b)
/-- The algorithm identifier of Ed448, 1.3.101.113. -/
def algEd448 : List Byte := der 0x30 (der 0x06 [0x2B, 0x65, 0x71])
/-- A bit string of whole bytes. -/
def derBits (b : List Byte) : List Byte := der 0x03 (0 :: b)
/-- The part of a certificate that is signed: version 3, serial number, algorithm, issuer, validity, subject, key, extensions; `field`
gives the DER of those that R361 does not fix. -/
def tbsCertificate (field : Nat → List Byte) (public_ : List Byte) : List Byte :=
  der 0x30 (der 0xA0 (der 0x02 [2]) ++ (field 0 ++ (algEd448 ++ (field 1 ++ (field 2 ++ (field 3 ++
    (der 0x30 (algEd448 ++ derBits public_) ++ field 4)))))))
def certificate (tbs sig : List Byte) : List Byte := der 0x30 (tbs ++ (algEd448 ++ derBits sig))

/-- The certificate of the identity key, which Ferlas signed at manufacture. -/
def identityCert : List Byte :=
  let tbs := tbsCertificate (Config.certField []) identityKey.public
  certificate tbs (Config.ferlasSign tbs).toList
/-- The certificate of the alias key, signed by the identity key. -/
def aliasCert (digests : List (List Byte)) : List Byte :=
  let tbs := tbsCertificate (Config.certField digests) (aliasKey digests).public
  certificate tbs (identityKey.sign tbs)
/-- The chain that travels with a report: the alias key's certificate, then the identity key's. -/
@[irreducible] def certChain (digests : List (List Byte)) : List Byte := aliasCert digests ++ identityCert
/-- The signature of a report by the alias key (R362). -/
@[irreducible] def aliasSign (digests : List (List Byte)) (m : List Byte) : List Byte := (aliasKey digests).sign m

end Sys2Proof.Machine
end

