-- ==== Sys2Proof/Machine/Walk.lean ====
section
/-! DEFINITION. Address translation: the four-level walk, the translation buffers, the A and D bits (R122–R126), and the
accesses that hardware makes to its own structures through the bulk table without rights (R421). -/

namespace Sys2Proof.Machine

/-- The rights an access needs on its leaf (R124); `any`: a present leaf is enough (R421). -/
inductive Need where
  | r | w | rw | x | any
  deriving DecidableEq, Repr

def Need.writes : Need → Bool
  | .w => true
  | .rw => true
  | _ => false

/-- A leaf grants what is needed: R is bit 2, W bit 3, X bit 4 (R123). -/
def Need.grantedBy (n : Need) (leaf : Nat) : Bool :=
  match n with
  | .r => leaf.testBit 2
  | .w => leaf.testBit 3
  | .rw => leaf.testBit 2 && leaf.testBit 3
  | .x => leaf.testBit 4
  | .any => true

/-- How a walk ends (R124). -/
inductive WalkRes where
  | leaf (e at_ level : Nat)
  | np (level : Nat)
  | malformed (level : Nat)
  deriving DecidableEq, Repr

/-- Bits of the VA that index a level, and the index width (R122). -/
def levelShift : Nat → Nat
  | 0 => 16
  | 1 => 21
  | 2 => 30
  | _ => 39
def levelWidth (level : Nat) : Nat := if level = 0 then 5 else 9
/-- Bytes that a leaf of a level maps. -/
def leafSize (level : Nat) : Nat := if level = 1 then 0x200000 else 0x10000

/-- Whether an entry that is present breaks R123 or stands at a wrong level (R124). -/
def entryBad (e level : Nat) : Bool :=
  bitsOf e 52 12 != 0 || (e.testBit 7 ||
    (if e.testBit 1 then level ≥ 2 || (e % leafSize level) / 256 != 0 else level = 0))

/-- The page or table address in an entry: bits 51:8. -/
def entryAddr (e : Nat) : Nat := bitsOf e 8 44 * 256

/-- The walk from a table of a level (R124). -/
def walkFrom (m : Mem) (va : Nat) : Nat → Nat → WalkRes
  | level, table =>
    let a := table + 8 * bitsOf va (levelShift level) (levelWidth level)
    let e := Mem.num m a 8
    if e.testBit 0 then
      if entryBad e level then .malformed level
      else if e.testBit 1 then .leaf e a level
      else match level with
        | 0 => .malformed 0
        | l + 1 => walkFrom m va l (entryAddr e)
    else .np level

/-- The walk reads an entry in a poisoned block (R395). -/
def walkPoisoned (m : Mem) (bad : List Nat) (va : Nat) : Nat → Nat → Bool
  | level, table =>
    let a := table + 8 * bitsOf va (levelShift level) (levelWidth level)
    let e := Mem.num m a 8
    bad.contains (a / 64) ||
    (e.testBit 0 && (!entryBad e level && (!e.testBit 1 &&
      match level with
      | 0 => false
      | l + 1 => walkPoisoned m bad va l (entryAddr e))))

/-- The root of a partition's bulk or host table: the address bits 47:6 of YPTBULK or YPTHOST, read as a bulk physical address
(R310; DEDUCED: a table that translates BULK addresses cannot itself be reached through one). -/
def State.tableRoot (s : State) (p : PartId) (host : Bool) : Nat :=
  wbits ((s.part p).ctx[if host then (1 : Fin 8) else 0]) 6 42 * 64

/-- The outcome of a translation: physical address and the address of the leaf whose D the first write through it sets (R125), 0
where the leaf's D is 1; or the failure with its level and whether an entry is malformed. -/
inductive XRes where
  | ok (pa leafAt : Nat)
  | np (level : Nat)
  | perm (level : Nat) (malformed : Bool)
  /-- An entry that the walk reads is poisoned (R395). -/
  | ecc
  deriving DecidableEq, Repr

def TbEntry.maps (e : TbEntry) (p : PartId) (host : Bool) (va : Nat) : Bool :=
  e.part = p && (e.host == host && (e.va ≤ va && va < e.va + e.size))

/-- The cached leaf for an address: the tile's buffer first, then the die cache. -/
def State.cachedLeaf (s : State) (t : Option Tile) (p : PartId) (host : Bool) (va : Nat) : Option TbEntry :=
  let own := match t with
    | some t => (s.tile t).tb.find? (fun e => e.maps p host va)
    | none => none
  match own with
  | some e => some e
  | none => s.dieTb.find? (fun e => e.maps p host va)

/-- Puts a leaf into a buffer of `cap` entries in place of an older copy. -/
def fillTb (cap : Nat) (e : TbEntry) (l : List TbEntry) : List TbEntry :=
  (e :: l.filter (fun x => !(x.part = e.part && (x.host == e.host && x.va = e.va)))).take cap

def State.fillTbs (s : State) (t : Option Tile) (e : TbEntry) : State :=
  let s := { s with dieTb := fillTb 32768 e s.dieTb }
  match t with
  | some t => s.modTile t (fun x => { x with tb := fillTb 2048 e x.tb })
  | none => s

/-- Sets a bit of a table entry while V is 1 (R125). -/
def State.setEntryBit (s : State) (at_ bit : Nat) : State :=
  let e := Mem.num s.bulk at_ 8
  if e.testBit 0 then { s with bulk := Mem.write s.bulk at_ (leBytes 8 (e ||| 2 ^ bit)) } else s

/-- Translates an address for an access (R122–R126). A buffered leaf whose D is 0 is walked again for a write. -/
def State.translate (s : State) (t : Option Tile) (p : PartId) (host : Bool) (va : Nat) (need : Need) : XRes × State :=
  let fresh : XRes × State :=
    if walkPoisoned s.bulk s.bulkPoison va 3 (s.tableRoot p host) then (.ecc, s) else
    match walkFrom s.bulk va 3 (s.tableRoot p host) with
    | .np l => (.np l, s)
    | .malformed l => (.perm l true, s)
    | .leaf e a l =>
      if need.grantedBy e then
        let s := s.setEntryBit a 5
        let entry : TbEntry := { part := p, host := host, va := va / leafSize l * leafSize l, size := leafSize l,
                                 leaf := BitVec.ofNat 64 (e ||| 0x20), at_ := a }
        (.ok (entryAddr e + va % leafSize l) (if e.testBit 6 then 0 else a), s.fillTbs t entry)
      else (.perm l false, s)
  match s.cachedLeaf t p host va with
  | some c =>
    if need.writes && !c.leaf.getLsbD 6 then fresh
    else if need.grantedBy c.leaf.toNat then (.ok (entryAddr c.leaf.toNat + va % c.size) 0, s.fillTbs t c)
    else (.perm (if c.size = 0x200000 then 1 else 0) false, s)
  | none => fresh

/-! ## Hardware's own structures (R421) -/

/-- A range cut at 64 KiB boundaries. -/
def pageCuts : Nat → Nat → Nat → List (Nat × Nat)
  | 0, _, _ => []
  | fuel + 1, a, n =>
    if n = 0 then [] else
      let k := min n (0x10000 - a % 0x10000)
      (a, k) :: pageCuts fuel (a + k) (n - k)
def cutsOf (a n : Nat) : List (Nat × Nat) := pageCuts (n / 0x10000 + 2) a n

/-- The physical pieces of a bulk range, `none` when a page is not mapped. -/
def State.hwPieces (s : State) (p : PartId) (va n : Nat) : Option (List (Nat × Nat)) :=
  (cutsOf va n).mapM (fun (a, k) =>
    match walkFrom s.bulk a 3 (s.tableRoot p false) with
    | .leaf e _ l => some (entryAddr e + a % leafSize l, k)
    | _ => none)

/-- Reads a bulk range as hardware. -/
def State.hwRead (s : State) (p : PartId) (va n : Nat) : Option (List Byte) :=
  (s.hwPieces p va n).map (fun ps => ps.flatMap (fun (a, k) => Mem.read s.bulk a k))

/-- Whether a bulk range that hardware reads holds a poisoned block. -/
def State.hwPoisoned (s : State) (p : PartId) (va n : Nat) : Bool :=
  ((s.hwPieces p va n).getD []).any (fun e => (unitsOf 64 e.1 e.2).any (fun b => s.bulkPoison.contains b))

/-- Lays bytes into physical pieces. -/
def writePieces (m : Mem) : List (Nat × Nat) → List Byte → Mem
  | [], _ => m
  | (a, k) :: r, bs => writePieces (Mem.write m a (bs.take k)) r (bs.drop k)

/-- The addresses of the leaves that a bulk range goes through. -/
def State.hwLeaves (s : State) (p : PartId) (va n : Nat) : List Nat :=
  (cutsOf va n).filterMap (fun e => match walkFrom s.bulk e.1 3 (s.tableRoot p false) with
    | .leaf _ a _ => some a
    | _ => none)
/-- A walk for hardware's own read sets A on the leaves that it loads (R125). -/
def State.hwTouch (s : State) (p : PartId) (va n : Nat) : State :=
  (s.hwLeaves p va n).foldl (fun s a => s.setEntryBit a 5) s

/-- Writes a bulk range as hardware, with A and D of its leaves (R125); a write to a page that is not mapped is dropped. -/
def State.hwPut (s : State) (p : PartId) (va : Nat) (bs : List Byte) : State :=
  match s.hwPieces p va bs.length with
  | some ps =>
    let s := (s.hwLeaves p va bs.length).foldl (fun s a => (s.setEntryBit a 5).setEntryBit a 6) s
    { s with bulk := writePieces s.bulk ps bs,
             bulkPoison := ps.foldl (fun m (e : Nat × Nat) => poisonAfter m e.1 e.2 false) s.bulkPoison }
  | none => s

/-- A number that hardware reads, zero where nothing is mapped. -/
def State.hwNum (s : State) (p : PartId) (va n : Nat) : Nat :=
  match s.hwRead p va n with
  | some bs => leNat bs
  | none => 0

end Sys2Proof.Machine
end

