-- ==== Sys2Proof/Machine/Home.lean ====
section
/-! DEFINITION. Accesses performed at the home of their location (R128): what a read returns, what a write changes beside the
bytes (bins, arrival marks, waiters, poison, line buffer, snapshot, dirty logging), flags, and messages to the host. -/

namespace Sys2Proof.Machine

/-! ## Locations -/

/-- Whether two ranges share a byte at one home. -/
def Loc.overlaps (a : Loc) (n : Nat) (b : Loc) (m : Nat) : Bool :=
  let o (x y : Nat) : Bool := x < y + m && y < x + n
  match a, b with
  | .slice t x, .slice u y => t = u && o x y
  | .sync t x, .sync u y => t = u && o x y
  | .bulk _ _ x _ _, .bulk _ _ y _ _ => o x y
  | .host _ x _, .host _ y _ => o x y
  | .fabric _ d x, .fabric _ e y => d = e && o x y
  | _, _ => false

/-- The location `k` bytes on. -/
def Loc.plus (a : Loc) (k : Nat) : Loc :=
  match a with
  | .slice t x => .slice t (x + k)
  | .sync t x => .sync t (x + k)
  | .bulk p va pa l st => .bulk p (va + k) (pa + k) l st
  | .host p x l => .host p (x + k) l
  | .fabric p d x => .fabric p d (x + k)

/-- The host port is up: its controller is not held in reset (R387). -/
def State.hostUp (s : State) : Bool := !(s.granary.ctrls[(9 : Fin 27)]).held

/-- A byte address of another device's memory as one number. -/
def remoteAt (dev off : Nat) : Nat := dev * 2 ^ 48 + off
/-- The bytes of another device's memory: what this device and that device wrote there, over what stood there at reset. -/
def FabricSt.remoteRead (x : FabricSt) (a n : Nat) : List Byte :=
  (List.range n).map (fun i => Mem.byte x.remote (a + i) ^^^ Config.remoteInit (a + i))
def FabricSt.remoteWrite (x : FabricSt) (a : Nat) (bs : List Byte) (poison : Bool) : FabricSt :=
  { x with remote := Mem.write x.remote a (bs.zipIdx.map (fun e => e.1 ^^^ Config.remoteInit (a + e.2))),
           poison := poisonAfter x.poison a bs.length poison }

/-- The bytes at their home. -/
def State.homeBytes (s : State) (loc : Loc) (n : Nat) : List Byte :=
  match loc with
  | .slice t o => Mem.read (s.tile t).slice o n
  | .sync t o => Mem.read (s.tile t).sync o n
  | .bulk _ _ pa _ _ => Mem.read s.bulk pa n
  | .host _ b _ => Mem.read s.host b n
  | .fabric _ d o => s.fabric.remoteRead (remoteAt d o) n

/-- Whether a range meets a poisoned 64-byte block (R394). -/
def State.poisonedAt (s : State) (loc : Loc) (n : Nat) : Bool :=
  match loc with
  | .slice t o => (unitsOf 64 o n).any (fun b => (s.tile t).poison.contains b)
  | .bulk _ _ pa _ _ => (unitsOf 64 pa n).any (fun b => s.bulkPoison.contains b)
  | .fabric _ d o => (unitsOf 64 (remoteAt d o) n).any (fun b => s.fabric.poison.contains b)
  | _ => false

/-- All bins that a slice range touches are full (R103). -/
def TileSt.binsFull (x : TileSt) (off n : Nat) : Bool := (unitsOf 0x10000 off n).all (fun b => !x.empty.contains b)
def State.locFull (s : State) (loc : Loc) (n : Nat) : Bool :=
  match loc with
  | .slice t o => (s.tile t).binsFull o n
  | _ => true

/-! ## Reads for a task: snapshot and line buffer (R117, R134, R136) -/

/-- The bulk bytes of the snapshot of a tile's task: its instance's snapshot, and the bytes that the instance's tasks with records on the
same tile wrote in this phase. The list is one per tile: a frozen task also sees what a task that started after it wrote there (the model's
choice: R136 names the earlier tasks). -/
def State.bulkSnap (s : State) (t : Tile) (pa n : Nat) : List Byte :=
  match (s.task t).bind (fun k => s.inst k.part k.inst) with
  | some i =>
    (List.range n).map (fun j =>
      match i.own.find? (fun e => (s.task t).any (fun k => e.1 = k.rc.tile) && e.2.1 = pa + j) with
      | some e => e.2.2
      | none => Mem.byte i.snap (pa + j))
  | none => Mem.read s.bulk pa n

/-- The tile's task reads as the snapshot. -/
def State.unlifted (s : State) (t : Tile) : Bool :=
  match s.task t with
  | some k => !k.lifted
  | none => false

/-- The bulk bytes that a task's read returns from home. -/
def State.bulkFor (s : State) (t : Tile) (pa n : Nat) : List Byte :=
  if s.unlifted t then s.bulkSnap t pa n else Mem.read s.bulk pa n

/-- The instance whose snapshot a tile's task reads, none when it is lifted. -/
def State.snapInst (s : State) (t : Tile) : Option Nat :=
  match s.task t with
  | some k => if k.lifted then none else some k.inst
  | none => none

/-- A read made for the tile's task; `cached`: the read may hit and fill the line buffer (C and L through BULK); a task that reads
its snapshot hits only lines of that snapshot (R136). `home`: the read returns the home value, never the snapshot's (ACQS, atomics). -/
def State.taskRead (s : State) (t : Tile) (loc : Loc) (n : Nat) (cached home : Bool) : List Byte × State :=
  match loc with
  | .bulk p va pa _ stream =>
    if home then (Mem.read s.bulk pa n, s)
    else if cached && !stream then
      match (s.tile t).lines.find? (fun l => l.part = p && (l.va = va / 256 * 256 && (!s.unlifted t || l.snapOf = s.snapInst t))) with
      | some l => ((l.data.drop (va % 256)).take n, s)
      | none =>
        let lineOk := !s.poisonedAt (.bulk p (va / 256 * 256) (pa - va % 256) 0 false) 256
        let line : Line := { part := p, va := va / 256 * 256, data := s.bulkFor t (pa - va % 256) 256, snapOf := s.snapInst t }
        (s.bulkFor t pa n, if lineOk then s.modTile t (fun x => { x with lines := (line :: x.lines).take 1024 }) else s)
    else (s.bulkFor t pa n, s)
  | _ => (s.homeBytes loc n, s)

/-- Drops the lines that a write by the tile's own C, S or copy engine touches (R117). -/
def State.dropLines (s : State) (t : Tile) (p : PartId) (va n : Nat) : State :=
  s.modTile t (fun x => { x with lines := x.lines.filter (fun l => !(l.part = p && (l.va < va + n && va < l.va + 256))) })
def State.emptyLines (s : State) (t : Tile) : State := s.modTile t (fun x => { x with lines := [] })

/-! ## Messages to the host (R371) -/

def Msix.fire (m : Msix) : Msix := if m.masked then { m with pending := true } else m

/-- Sends a function's vector: function 0 is the PF, f + 1 stands for VF index f. A masked vector becomes pending. Nothing is
sent under a VF whose FLR is in progress (R374), nor while the host port is down (R387). -/
def State.sendMsix (s : State) (fn : Nat) (vec : Fin 4) : State :=
  if !s.hostUp then s
  else if fn = 0 then
    let m := s.pf.msix[vec]
    let s := s.modPf (fun x => { x with msix := x.msix.set vec m.fire })
    if m.masked then s else { s with sent := s.sent ++ [MsixSent.mk 0 vec] }
  else
    let f : VfId := Fin.ofNat 256 (fn - 1)
    let m := (s.vf f).msix[vec]
    if (s.vf f).flr then s else
      let s := s.modVf f (fun x => { x with msix := x.msix.set vec m.fire })
      if m.masked then s else { s with sent := s.sent ++ [MsixSent.mk fn vec] }

/-! ## What a write does beside its bytes -/

/-- Marks arrived blocks of a bound stream register (R115). -/
def QBind.mark (b : QBind) (off n : Nat) : QBind :=
  { b with arrived := ((unitsOf 64 off n).filter (fun k => b.base ≤ 64 * k && 64 * k < b.base + 512 * b.chunks)).foldl (fun l k =>
      insertRising (k - b.base / 64) l) b.arrived }
def Logic.markArrivals (g : Logic) (off n : Nat) : Logic :=
  { g with vec := { g.vec with q := vecOf 8 (fun i => (vGet g.vec.q i).map (fun b => b.mark off n)) } }
/-- A flit for a frozen task joins its log (R321). -/
def Logic.addFlit (g : Logic) (e : Landing) : Logic := { g with flits := g.flits ++ [e] }
/-- Bytes written are logged for a frozen task that has a stream register bound. -/
def Logic.logArrival (g : Logic) (off n : Nat) : Logic :=
  if (List.range 8).any (fun i => (vGet g.vec.q i).isSome) then g.addFlit (.arrive off n) else g
/-- Bytes written mark the bindings of the task that the tile runs, and are logged for a task that is being frozen, for those in the tile's
husks and for those whose husk has left the tile (R115, R321, R341). -/
def TileSt.markArrivals (x : TileSt) (off n : Nat) : TileSt :=
  { x with logic := if x.freezing.isSome then x.logic.logArrival off n else x.logic.markArrivals off n,
           husks := vecOf 2 (fun i => (vGet x.husks i).map (fun h => { h with logic := h.logic.logArrival off n })),
           away := x.away.map (fun e => { e with log := e.log ++ [(off, n)] }) }

/-- A write to a block wakes the tiles that watch it (R80). -/
def State.wakeBlock (s : State) (loc : Loc) (n : Nat) : State :=
  { s with monitors := s.monitors.map (fun m =>
      match m.watch with
      | .block l => if l.overlaps 64 loc n then { m with hit := true } else m
      | .flag _ _ _ => m) }

/-- An event that an IDLE watches, at a clock (R337): those of its first clock count. -/
def CWait.note (w : CWait) (bit : BitVec 5) (now : Nat) : CWait :=
  match w with
  | .idle d l since seen Option.none => .idle d l since (seen ||| bit) (some now)
  | .idle d l since seen (some c) => .idle d l since (if c = now then seen ||| bit else seen) (some c)
  | w => w

/-- A write in a tile's sync space is an event for its IDLE (R337). -/
def State.noteSync (s : State) (t : Tile) : State :=
  s.modC t (fun c => { c with wait := c.wait.note 2 s.ck })

/-- Sets a bit of a migration bitmap (R375): `i` counts from the bitmap's base. -/
def State.setBitmapBit (s : State) (p : PartId) (bmap : Word) (i : Nat) : State :=
  let va := wbits bmap 0 48 + i / 8
  if wbits bmap 60 4 = 7 then
    match s.translate none p true va .any with
    | (.ok pa _, s) => { s with host := Mem.write s.host pa [Mem.byte s.host pa ||| (1 <<< (i % 8))] }
    | (_, s) => s
  else
    s.hwPut p va [BitVec.ofNat 8 (s.hwNum p va 1) ||| (1 <<< (i % 8))]

/-- Words of the page part of a migration bitmap. -/
def Migration.pageWords (m : Migration) : Nat := (m.span + 4194303) / 4194304

/-- A write to a bulk page of a partition whose VF is being migrated sets its bit, whichever world is in: the bulk range is the partition's,
and the host writes it at any time (R372, R376). -/
def State.logPage (s : State) (p : PartId) (va n : Nat) : State :=
  match (s.part p).migration with
  | some m => (unitsOf 0x10000 va n).foldl (fun s k => if 0x10000 * k < m.span then s.setBitmapBit p m.bmap k else s) s
  | none => s

/-- Writes a bulk range as hardware does (R421): A and D of its leaves, and the migration's bits (R376). -/
def State.hwWrite (s : State) (p : PartId) (va : Nat) (bs : List Byte) : State := (s.hwPut p va bs).logPage p va bs.length

/-- The same for a task bin of a tile of the partition. -/
def State.logBin (s : State) (t : Tile) (off n : Nat) : State :=
  let p := (s.tile t).part
  match (s.part p).migration with
  | some m =>
    if (s.part p).has t && (s.part p).world = some m.vf then
      (unitsOf 0x10000 off n).foldl (fun s b =>
        if b < (s.tile t).slim then
          s.setBitmapBit p m.bmap (64 * m.pageWords + 4096 * ((s.part p).tileList.filter (fun u => u.val < t.val)).length + b)
        else s) s
    else s
  | none => s

/-- The VF in whose world the tile's task runs. -/
def State.worldOfTask (s : State) (t : Tile) : Option VfId :=
  match s.task t with
  | some k => match s.inst k.part k.inst with
    | some i => i.world
    | none => none
  | none => none
def State.hostBlocked (s : State) (t : Tile) : Bool :=
  match s.worldOfTask t with
  | some f => (s.vf f).flr
  | none => false

/-! ## Writes -/

/-- A write performed into a slice: bytes, dirty bits (R104), poison, arrival marks, waiters, migration bits. -/
def State.writeSlice (s : State) (t : Tile) (off : Nat) (bs : List Byte) (poison : Bool) : State :=
  if bs = [] then s else
  let n := bs.length
  let s := s.modTile t (fun x =>
    ({ x with slice := Mem.write x.slice off bs,
              dirty := (unitsOf 0x10000 off n).foldl (fun l b => insertRising b l) x.dirty,
              wrote := (unitsOf 64 off n).foldl (fun l b => insertRising b l) x.wrote,
              poison := poisonAfter x.poison off n poison } : TileSt).markArrivals off n)
  (s.wakeBlock (.slice t off) n).logBin t off n

/-- A write performed into a sync space. -/
def State.writeSync (s : State) (t : Tile) (off : Nat) (bs : List Byte) : State :=
  ((s.modTile t (fun x => { x with sync := Mem.write x.sync off bs })).wakeBlock (.sync t off) bs.length).noteSync t

/-- A write performed into bulk memory; `by_`: the tile whose C, S or copy engine writes for its task. -/
def State.writeBulk (s : State) (by_ : Option Tile) (p : PartId) (va pa leaf : Nat) (bs : List Byte) (poison : Bool) : State :=
  if bs = [] then s else
  let n := bs.length
  let s := { s with bulk := Mem.write s.bulk pa bs, bulkPoison := poisonAfter s.bulkPoison pa n poison }
  let s := if leaf = 0 then s else s.setEntryBit leaf 6
  let s := match by_ with
    | some t =>
      let s := s.dropLines t p va n
      match s.task t with
      | some k => s.modInst k.part k.inst (fun i =>
          { i with own := bs.zipIdx.map (fun (e : Byte × Nat) => (k.rc.tile, pa + e.2, e.1)) ++
              i.own.filter (fun (e : BitVec 8 × Nat × Byte) => !(e.1 = k.rc.tile && (pa ≤ e.2.1 && e.2.1 < pa + n))) })
      | none => s
    | none => s
  s.logPage p va n

/-- A write performed at the home of its location (R128). -/
def State.homeWrite (s : State) (by_ : Option Tile) (loc : Loc) (bs : List Byte) (poison : Bool) : State :=
  match loc with
  | .slice t o => s.writeSlice t o bs poison
  | .sync t o => s.writeSync t o bs
  | .bulk p va pa l _ => s.writeBulk by_ p va pa l bs poison
  | .host _ b l =>
    let blocked := match by_ with
      | some t => s.hostBlocked t
      | none => false
    if blocked || !s.hostUp then s else
      let s : State := { s with host := Mem.write s.host b bs }
      if l = 0 then s else s.setEntryBit l 6
  | .fabric _ d o => s.modFab (fun f => f.remoteWrite (remoteAt d o) bs poison)

/-! ## Flags (R77) -/

def TileSt.flag (x : TileSt) (f : Nat) : Bool := (Mem.byte x.sync (f / 8)).getLsbD (f % 8)

/-- A flag write performed at its home: the waiters that wait for the value wake, and so do an IDLE and block watchers. -/
def State.setFlag (s : State) (home : Tile) (f : Nat) (v : Bool) : State :=
  let old := Mem.byte (s.tile home).sync (f / 8)
  let b : Byte := if v then old ||| (1#8 <<< (f % 8)) else old &&& ~~~(1#8 <<< (f % 8))
  let s := s.writeSync home (f / 8) [b]
  { s with
    narrow := s.narrow.filter (fun e => !(e.1 = home && e.2.1 = f)),
    monitors := s.monitors.map (fun m =>
      match m.watch with
      | .flag h g w => if h = home && (g = f && w == v) then { m with hit := true } else m
      | .block _ => m),
    flagWaits := s.flagWaits.map (fun m => if v && (m.home = home && m.flag = f) then { m with hit := true } else m) }

/-- Drops a tile's registrations. -/
def State.unwatch (s : State) (t : Tile) : State := { s with monitors := s.monitors.filter (fun m => m.waiter != t) }
/-- Registers a tile at a home (R79, R80). -/
def State.watchFor (s : State) (t : Tile) (w : Watch) : State :=
  { s.unwatch t with monitors := { waiter := t, watch := w, hit := false } :: (s.unwatch t).monitors }
def State.woken (s : State) (t : Tile) : Bool := s.monitors.any (fun m => m.waiter = t && m.hit)

end Sys2Proof.Machine
end

