-- ==== Sys2Proof/Machine/Access.lean ====
section
/-! DEFINITION. The checks that every access makes before any part of its effect (R98–R102), and where its bytes are. -/

namespace Sys2Proof.Machine

/-- The space code of a pointer (R98). -/
def spaceOf (ptr : Word) : Nat := wbits ptr 60 4

/-- The offset of a slice pointer, LOCAL, REMOTE or MCAST. -/
def sliceOff (ptr : Word) : Nat := wbits ptr 0 28
/-- The tile of a REMOTE pointer. -/
def remoteTile (ptr : Word) : Tile := Fin.ofNat 64 (wbits ptr 28 6)
/-- The tile of a SYNC pointer. -/
def syncTile (ptr : Word) : Tile := Fin.ofNat 64 (wbits ptr 16 6)

/-- The partition whose rules bind the tile's accesses: that of its task. -/
def State.partOf (s : State) (t : Tile) : PartId :=
  match s.task t with
  | some k => k.part
  | none => (s.tile t).part

/-- The domain map's entry for a partition and a device (R381). -/
def State.domEntry (s : State) (p : PartId) (dev : Nat) : Option DomEntry :=
  s.fabric.domain.find? (fun e => e.part = p && e.dev = dev)

/-- The SPACE check of R98 and R101 over `n` bytes; `allow`: the spaces that R99 permits. -/
def State.spaceOk (s : State) (p : PartId) (allow : Nat → Bool) (ptr : Word) (n : Nat) : Bool :=
  allow (spaceOf ptr) &&
  match spaceOf ptr with
  | 0 => wbits ptr 28 32 = 0 && sliceOff ptr + n ≤ 0x10000000
  | 1 => wbits ptr 34 26 = 0 && (sliceOff ptr + n ≤ 0x10000000 && (s.part p).has (remoteTile ptr))
  | 2 => wbits ptr 36 24 = 0 && sliceOff ptr + n ≤ 0x10000000
  | 3 => wbits ptr 22 38 = 0 && ((s.part p).has (syncTile ptr) && (0x4000 ≤ wbits ptr 0 16 && wbits ptr 0 16 + n ≤ 0x8000))
  | 4 => wbits ptr 48 12 = 0 && wbits ptr 0 48 + n ≤ 0x1000000000000
  | 5 => wbits ptr 48 12 = 0 && wbits ptr 0 48 + n ≤ 0x1000000000000
  | 6 => wbits ptr 58 2 = 0 && (wbits ptr 0 48 + n ≤ 0x1000000000000 && (s.domEntry p (wbits ptr 48 10)).isSome)
  | 7 => wbits ptr 48 12 = 0 && wbits ptr 0 48 + n ≤ 0x1000000000000
  | _ => false

/-- Scalar loads and stores, RELS and ACQS (R99). -/
def scalarSpaces (c : Nat) : Bool := c = 0 || (c = 1 || (3 ≤ c && c ≤ 7))
/-- L loads and S stores, and engine commands (R99, R221). -/
def vectorSpaces (c : Nat) : Bool := c = 0 || (c = 1 || (4 ≤ c && c ≤ 7))
/-- The BIN group. -/
def sliceSpaces (c : Nat) : Bool := c ≤ 1
/-- QBIND, and blocks that C reads for a command. -/
def localSpace (c : Nat) : Bool := c = 0
/-- C fetch and step tables. -/
def fetchSpaces (c : Nat) : Bool := c = 0 || c = 4

/-- A slice range lies in task bins of its tile (R102). -/
def State.binsOk (s : State) (t : Tile) (off n : Nat) : Bool := n = 0 || (off + n - 1) / 0x10000 < (s.tile t).slim

/-- The tile whose slice a LOCAL or REMOTE pointer names. -/
def sliceHome (t : Tile) (ptr : Word) : Tile := if spaceOf ptr = 1 then remoteTile ptr else t

/-- The BOUND check of R102 over `n` bytes. -/
def State.boundOk (s : State) (t : Tile) (ptr : Word) (n : Nat) : Bool :=
  if spaceOf ptr ≤ 1 then s.binsOk (sliceHome t ptr) (sliceOff ptr) n else true

/-- The outcome of placing an access. -/
inductive Res (α : Type) where
  | ok (a : α)
  | fail (f : Fail)
  /-- No live plane reaches the device. -/
  | noPlane (addr : Word) (w : Bool)
  deriving DecidableEq, Repr

/-- The status bits of a failed translation (R315). -/
def xlateStatus (level : Nat) (malformed write : Bool) : Word :=
  BitVec.ofNat 64 (level * 0x1000 + (if malformed then 0x4000 else 0) + (if write then 0x800 else 0))

/-- The live planes by which a device is reachable. -/
def State.livePlanes (s : State) (e : DomEntry) : List Nat :=
  (List.range 16).filter (fun k => e.planes.getLsbD k && s.fabric.ports.getLsbD k)

/-- WRITE of the status word (R315). -/
def writeBit (w : Bool) : Word := if w then 0x800 else 0

/-- The domain map's grant: R is bit 0, W bit 1, atomic bit 2 (R381). -/
def grants (rights : BitVec 3) : Need → Bool
  | .r => rights.getLsbD 0
  | .w => rights.getLsbD 1
  | .rw => rights.getLsbD 2
  | .x => false
  | .any => true

/-- RETRY of a FABRIC trap (R315). -/
def retryBit : Word := 0x10000

/-- The host serves a request: as a free choice, it completes a read or an atomic with an error (R121, R384); a write is posted and has no
completion. A port that is held serves none (R387). -/
def State.hostServes (s : State) (need : Need) : Bool × State :=
  match need with
  | .w => (true, s)
  | _ => (s.hostUp && s.freeBelow 2 = 0, s.drawn)

/-- Places one unit of an access, which lies within one page: the fourth check of R100. A request to another device answers, as
a free choice of that device, served, not present there, or refused there (R384). -/
def State.place (s : State) (t : Tile) (p : PartId) (need : Need) (ptr : Word) : Res Loc × State :=
  let w := need.writes
  match spaceOf ptr with
  | 0 => (.ok (.slice t (sliceOff ptr)), s)
  | 1 => (.ok (.slice (remoteTile ptr) (sliceOff ptr)), s)
  | 3 => (.ok (.sync (syncTile ptr) (wbits ptr 0 16)), s)
  | 6 =>
    let dev := wbits ptr 48 10
    let off := wbits ptr 0 48
    match s.domEntry p dev with
    | none => (.fail ⟨.space, writeBit w, some ptr⟩, s)
    | some e =>
      if !grants e.rights need then (.fail ⟨.fabric, writeBit w, some ptr⟩, s)
      else if dev = s.fabric.own then
        let rp : PartId := Fin.ofNat 40 e.rpart
        match s.translate none rp false off need with
        | (.ok pa l, s) => (.ok (.bulk rp off pa l true), s)
        | (.ecc, s) => (.fail ⟨.ecc, writeBit w, some ptr⟩, s)
        | (.np _, s) => (.fail ⟨.fabric, retryBit ||| writeBit w, some ptr⟩, s)
        | (.perm _ _, s) => (.fail ⟨.fabric, writeBit w, some ptr⟩, s)
      else match s.livePlanes e with
        | [] => (.noPlane ptr w, s)
        | pl =>
          match s.freeBelow 3 with
          | 0 =>
            let req : FabReq := { tag := s.fabric.nextTag, plane := pl.getD (Config.planeHash dev (off / 65536) % pl.length) 0,
                                  sent := s.dtime, tile := t, dev := dev, off := off }
            (.ok (.fabric p dev off),
              s.drawn.modFab (fun f => { f with reqs := f.reqs ++ [req], nextTag := f.nextTag + 1 }))
          | 1 => (.fail ⟨.fabric, retryBit ||| writeBit w, some ptr⟩, s.drawn)
          | _ => (.fail ⟨.fabric, writeBit w, some ptr⟩, s.drawn)
  | 7 =>
    match s.translate (some t) p true (wbits ptr 0 48) need with
    | (.ok pa l, s) =>
      match s.hostServes need with
      | (true, s) => (.ok (.host p pa l), s)
      | (false, s) => (.fail ⟨.fabric, writeBit w, some ptr⟩, s)
    | (.ecc, s) => (.fail ⟨.ecc, writeBit w, some ptr⟩, s)
    | (.np l, s) => (.fail ⟨.xlateNp, xlateStatus l false w, some ptr⟩, s)
    | (.perm l m, s) => (.fail ⟨.xlatePerm, xlateStatus l m w, some ptr⟩, s)
  | c =>
    match s.translate (some t) p false (wbits ptr 0 48) need with
    | (.ok pa l, s) => (.ok (.bulk p (wbits ptr 0 48) pa l (c = 5)), s)
    | (.ecc, s) => (.fail ⟨.ecc, writeBit w, some ptr⟩, s)
    | (.np l, s) => (.fail ⟨.xlateNp, xlateStatus l false w, some ptr⟩, s)
    | (.perm l m, s) => (.fail ⟨.xlatePerm, xlateStatus l m w, some ptr⟩, s)

/-- Places units in order; the first that fails decides. -/
def State.placeAll (s : State) (t : Tile) (p : PartId) (need : Need) : List Word → Res (List Loc) × State
  | [] => (.ok [], s)
  | u :: us =>
    match s.place t p need u with
    | (.ok l, s) =>
      match s.placeAll t p need us with
      | (.ok ls, s) => (.ok (l :: ls), s)
      | (.fail f, s) => (.fail f, s)
      | (.noPlane a w, s) => (.noPlane a w, s)
    | (.fail f, s) => (.fail f, s)
    | (.noPlane a w, s) => (.noPlane a w, s)

/-- The checks of R100 for one access of `n` bytes that lies within one page once aligned. -/
def State.access (s : State) (t : Tile) (allow : Nat → Bool) (need : Need) (ptr : Word) (n align : Nat) : Res Loc × State :=
  let p := s.partOf t
  let w := writeBit need.writes
  if !s.spaceOk p allow ptr n then (.fail ⟨.space, w, some ptr⟩, s)
  else if ptr.toNat % align ≠ 0 then (.fail ⟨.align, w, some ptr⟩, s)
  else if !s.boundOk t ptr n then (.fail ⟨.bound, w, some ptr⟩, s)
  else s.place t p need ptr

/-- The response to a request has come (R383). -/
def State.fabricDone (s : State) (t : Tile) (loc : Loc) : State :=
  match loc with
  | .fabric _ dev off =>
    s.modFab (fun f => { f with reqs := f.reqs.eraseP (fun r => r.tile = t && (r.dev = dev && r.off = off)) })
  | _ => s

/-- The turn of a request to another device has come: the requests of a tile to one page go in order, and one that is issued again keeps
its place ahead of every later one (R382, R383). -/
def State.fabricTurn (s : State) (t : Tile) (loc : Loc) : Bool :=
  match loc with
  | .fabric _ dev off =>
    match s.fabric.reqs.find? (fun r => r.tile = t && (r.dev = dev && r.off / 0x10000 = off / 0x10000)) with
    | some r => r.off = off
    | none => true
  | _ => true
/-- The outstanding requests of a tile's task go with it. -/
def State.dropReqs (s : State) (t : Tile) : State := s.modFab (fun f => { f with reqs := f.reqs.filter (fun r => r.tile != t) })

/-- The flag that a pointer and a bit number name, after the checks of R77: SPACE, then BOUND. -/
def State.flagAt (s : State) (t : Tile) (ptr bit : Word) (w : Bool) : Except Fail (Tile × Nat) :=
  if !(spaceOf ptr = 3 && (wbits ptr 22 38 = 0 && ((s.part (s.partOf t)).has (syncTile ptr) && wbits ptr 0 16 ≤ 0x1FF))) then
    .error ⟨.space, writeBit w, some ptr⟩
  else if wbits bit 3 61 ≠ 0 then .error ⟨.bound, writeBit w, some ptr⟩
  else .ok (syncTile ptr, 8 * wbits ptr 0 16 + wbits bit 0 3)

end Sys2Proof.Machine
end

