-- ==== Sys2Proof/Machine/Perform.lean ====
section
/-! DEFINITION. Performing at home the accesses that C and S have issued (R67, R110, R120, R128, R129, R131), and what an acquire does
(R117, R133, R136). -/

namespace Sys2Proof.Machine

/-! ## Orders and acquires -/

/-- The access returns a value to a register. -/
def COp.returns (o : COp) : Bool :=
  match o.kind with
  | .load | .amo _ _ _ | .ftest | .ftas | .acqs => true
  | _ => false
/-- The order field of an ordered word (R44): acquire is bit 0, release bit 1. -/
def acquires (o : BitVec 2) : Bool := o.getLsbD 0
def releases (o : BitVec 2) : Bool := o.getLsbD 1

/-- What has been read ahead for C and L is discarded. -/
def Logic.forget (g : Logic) : Logic := { g with c := { g.c with early := [] }, l := { g.l with early := [] } }

/-- What every acquire of the tile's task does at a scope: FOOT or wider lifts the snapshot (R136, R147), DEV or wider empties the line
buffer (R117). -/
def State.lift (s : State) (t : Tile) (scope : BitVec 3) : State :=
  let s := if 1 ≤ scope.toNat then s.modLogic t (fun g => { g with task := g.task.map (fun k => { k with lifted := true }) }) else s
  if 3 ≤ scope.toNat then s.emptyLines t else s
/-- What an acquire that synchronises does: no later load takes a value read before it either (R133). -/
def State.acquire (s : State) (t : Tile) (scope : BitVec 3) : State := (s.modLogic t Logic.forget).lift t scope

/-- The same, when the order holds an acquire. -/
def State.acquireIf (s : State) (t : Tile) (o : BitVec 2) (scope : BitVec 3) : State :=
  if acquires o then s.acquire t scope else s
/-- The flag was written last by another tile's C, with no release that reaches beyond that tile: reading it synchronises with nothing
(R132). -/
def State.isNarrow (s : State) (t : Tile) (home : Tile) (f : Nat) : Bool := s.narrow.any (fun e => e.1 = home && (e.2.1 = f && e.2.2 != t))
/-- An acquire that reads a flag. -/
def State.acquireFlag (s : State) (t : Tile) (o : BitVec 2) (scope : BitVec 3) (weak : Bool) : State :=
  if acquires o && weak then s.lift t scope else s.acquireIf t o scope

/-! ## The accesses of C -/

/-- No earlier access of C holds this one back: one at the same location (R129), one that acquires (R78, R120, R147). -/
def CSt.clearOf (ops : List COp) (loc : Loc) (n : Nat) : Bool :=
  ops.all (fun x => !(x.loc.overlaps x.width loc n) && !acquires x.ord)

/-- A location whose home is on a tile. -/
def Loc.onTile (t : Tile) : Loc → Bool
  | .slice u _ => u = t
  | .sync u _ => u = t
  | _ => false

/-- A release waits for every earlier access (R131, R147); at TILE scope, for the reads and for the writes whose home is the tile
(R398). -/
def CSt.released (ops : List COp) (t : Tile) (scope : BitVec 3) : Bool :=
  ops.all (fun x => scope = 0 && (!x.returns && !x.loc.onTile t))

/-- The old value at an atomic's home gives the value that it writes, or none for an AMOCAS that fails (R120). -/
def amoNew (op : AmoOp) (m b expect : Word) : Option Word :=
  match op with
  | .add => some (m + b)
  | .swp => some b
  | .cas => if m = expect then some b else none
  | .max => some (if m.toInt ≤ b.toInt then b else m)
  | .min => some (if m.toInt ≤ b.toInt then m else b)
  | .or => some (m ||| b)
  | .and => some (m &&& b)

/-- An atomic on bulk memory invalidates the line that holds its location (R121). -/
def State.amoLines (s : State) (t : Tile) (loc : Loc) : State :=
  match loc with
  | .bulk p va _ _ _ => s.dropLines t p va 8
  | _ => s

/-- An atomic at its home, made for a tile's task. -/
def State.amoAt (s : State) (t : Tile) (loc : Loc) (op : AmoOp) (b expect : Word) (poison : Bool) : Word × State :=
  let m := wordAt (s.homeBytes loc 8) 0 8
  let s := s.amoLines t loc
  match amoNew op m b expect with
  | some v => (m, s.homeWrite (some t) loc (leBytes 8 v.toNat) poison)
  | none => (m, s)

/-- The value that a load leaves in C's register, and the acquire that it is; while the task is frozen the response is logged (R321). -/
def State.cReturn (s : State) (t : Tile) (o : COp) (v : Word) (poison : Bool) (weak : Bool := false) : State :=
  if (s.tile t).freezing.isSome then s.modLogic t (fun g => g.addFlit (.reply o.dst v poison o.ord o.scope))
  else (s.modC t (fun c => c.putP o.dst v poison)).acquireFlag t o.ord o.scope weak

/-- What a load path read ahead of a load (R137). -/
def readEarly (early : List (Loc × Nat × List Byte × Bool)) (l : Loc) (n : Nat) : Option (List Byte × Bool) :=
  (early.find? (fun e => e.1 = l && e.2.1 = n)).map (fun e => e.2.2)
/-- The entries that share no byte with a location. -/
def earlyBut (early : List (Loc × Nat × List Byte × Bool)) (l : Loc) (n : Nat) : List (Loc × Nat × List Byte × Bool) :=
  early.filter (fun e => !e.1.overlaps e.2.1 l n)
/-- The tile itself writes at a location: L takes no older value from then on (R129, R130). -/
def State.ownWrite (s : State) (t : Tile) (l : Loc) (n : Nat) : State := s.modLs t false (fun x => { x with early := earlyBut x.early l n })
/-- C writes a flag: whether a later acquire of it synchronises (R132). -/
def State.noteFlag (s : State) (t : Tile) (o : COp) (f : Tile × Nat) : State :=
  if releases o.ord && o.scope != 0 then s else { s with narrow := (f.1, f.2, t) :: s.narrow }

/-- Access `k` of a tile's C is performed; from then on no load takes an older value of its location (R129). `ahead`: a load takes
what was read ahead of it. -/
def State.cPerform (s : State) (t : Tile) (k : Nat) (o : COp) (ahead : Bool) : State :=
  let found := if ahead then readEarly (s.c t).early o.loc o.width else none
  let s := (s.fabricDone t o.loc).modC t (fun c => { c with
    ops := c.ops.eraseIdx k, early := earlyBut c.early o.loc o.width })
  let marked := s.poisonedAt o.loc o.width
  let flag (h : Loc) : Tile × Nat := match h with
    | .sync h y => (h, 8 * y + o.bit)
    | _ => (t, 0)
  match o.kind with
  | .load =>
    match found with
    | some e => s.cReturn t o (wordAt e.1 0 8) e.2
    | none =>
      let r := s.taskRead t o.loc o.width true false
      r.2.cReturn t o (wordAt r.1 0 8) marked
  | .acqs =>
    let r := s.taskRead t o.loc o.width true (1 ≤ o.scope.toNat)
    r.2.cReturn t o (wordAt r.1 0 8) marked
  | .store v => (s.ownWrite t o.loc o.width).homeWrite (some t) o.loc (leBytes o.width v.toNat) o.poison
  | .amo op b e =>
    let r := (s.ownWrite t o.loc o.width).amoAt t o.loc op b e o.poison
    r.2.cReturn t o r.1 marked
  | .fset => (s.setFlag (flag o.loc).1 (flag o.loc).2 true).noteFlag t o (flag o.loc)
  | .fclr => (s.setFlag (flag o.loc).1 (flag o.loc).2 false).noteFlag t o (flag o.loc)
  | .ftest =>
    s.cReturn t o (if (s.tile (flag o.loc).1).flag (flag o.loc).2 then 1 else 0) false (s.isNarrow t (flag o.loc).1 (flag o.loc).2)
  | .ftas =>
    let old := (s.tile (flag o.loc).1).flag (flag o.loc).2
    let weak := s.isNarrow t (flag o.loc).1 (flag o.loc).2
    ((s.setFlag (flag o.loc).1 (flag o.loc).2 true).noteFlag t o (flag o.loc)).cReturn t o (if old then 1 else 0) false weak

/-- The bins that an access reads are full (R103); an atomic does not wait for them (R121). -/
def State.cFull (s : State) (o : COp) : Bool :=
  match o.kind with
  | .load => s.locFull o.loc o.width
  | .acqs => s.locFull o.loc o.width
  | _ => true

/-- No earlier access of the tile's C holds access `k` back. -/
def State.cReady (s : State) (t : Tile) (k : Nat) (o : COp) : Bool :=
  let before := (s.c t).ops.take k
  CSt.clearOf before o.loc o.width && (!releases o.ord || CSt.released before t o.scope)

/-- Access `k` of a tile's C is performed, when it is of the kind asked for and nothing holds it back; a load that finds an empty bin
waits at its home (R103). -/
def State.cTry (s : State) (t : Tile) (k : Nat) (returns ahead : Bool) : State :=
  match (s.c t).ops[k]? with
  | some o =>
    if !(o.returns == returns && (s.cReady t k o && s.fabricTurn t o.loc)) then s
    else if s.cFull o then s.cPerform t k o ahead
    else s.modC t (fun c => { c with ops := c.ops.modify k (fun o => { o with parked := true }) })
  | none => s

/-! ## The stores of S -/

/-- The bytes that a block of a store holds, and their poison mark. -/
def Logic.storeBytes (g : Logic) (d : LsData) (off : Nat) : List Byte × Bool :=
  match d with
  | .v r => (((vBytes g.vec.v[r]).drop off).take 64, g.vec.poison.getLsbD r.val)
  | .vMask r _ => (((vBytes g.vec.v[r]).drop off).take 64, g.vec.poison.getLsbD r.val)
  | .p r => (((pBytes (if r = 7 then BitVec.allOnes 1024 else g.vec.p[r])).drop off).take 64, r != 7 && g.vec.ppoison.getLsbD r.val)
  | .chunks cs => (((vBytes (cs.getD (off / 512) 0)).drop (off % 512)).take 64, false)
  | _ => ([], false)

/-- The maximal runs of kept positions. -/
def keptRuns : List (Byte × Bool) → Nat → List (Nat × List Byte)
  | [], _ => []
  | (b, true) :: r, i =>
    match keptRuns r (i + 1) with
    | (j, bs) :: rest => if j = i + 1 then (i, b :: bs) :: rest else (i, [b]) :: (j, bs) :: rest
    | [] => [(i, [b])]
  | (_, false) :: r, i => keptRuns r (i + 1)

/-- The data of a store's block is there: a chunk that EST sends has come from the pipe (R112). -/
def Inflight.there (e : Inflight) (b : Blk) : Bool :=
  match e.data with
  | .chunks cs => b.off / 512 < cs.length
  | _ => true

/-- Block `j` of store `k` of S is performed at its home, once the earlier stores have been performed (R108); earlier blocks of it at
the same bytes come first (R110). -/
def State.sWrite (s : State) (t : Tile) (k j : Nat) : State :=
  match (s.ls t true).inflight[k]? with
  | some e =>
    match e.blks[j]? with
    | some b =>
      let held := ((s.ls t true).inflight.take k).any (fun e => e.blks.any (fun x => !x.done)) ||
        ((e.blks.take j).any (fun x => !x.done && x.loc.overlaps x.len b.loc b.len) || !s.fabricTurn t b.loc)
      if !e.store || (b.done || (held || !e.there b)) then s
      else
        let d := (s.logic t).storeBytes e.data b.off
        let s := s.ownWrite t b.loc b.len
        let s := match e.data with
          | .vMask _ p =>
            let keep (i : Nat) : Bool := p = 7 || ((s.vec t).p[p]).getLsbD (b.off + i)
            (keptRuns (d.1.zipIdx.map (fun (x : Byte × Nat) => (x.1, keep x.2))) 0).foldl (fun (s : State) (r : Nat × List Byte) =>
              s.homeWrite (some t) (b.loc.plus r.1) r.2 d.2) s
          | _ => s.homeWrite (some t) b.loc d.1 d.2
        (s.fabricDone t b.loc).modLs t true (fun x => { x with inflight := x.inflight.modify k (fun e =>
          { e with blks := e.blks.modify j (fun b => { b with done := true }) }) })
    | none => s
  | none => s

/-! ## A release (R131, R316) -/

/-- The first outstanding access of a tile's C that can be performed. -/
def State.cNextOp (s : State) (t : Tile) : Option (Nat × COp) :=
  (((s.c t).ops.zipIdx.map (fun e => (e.2, e.1))).find? (fun e => s.cReady t e.1 e.2 && s.cFull e.2))
/-- The accesses of a tile's C are performed, in program order, but for loads that wait for a full bin. -/
def State.cDrain (s : State) (t : Tile) : State :=
  (s.c t).ops.foldl (fun s _ => match s.cNextOp t with
    | some (k, o) => s.cPerform t k o false
    | none => s) s
/-- The stores of a tile's S whose data is there are performed, in program order. -/
def State.sDrain (s : State) (t : Tile) : State :=
  (s.ls t true).inflight.zipIdx.foldl (fun (s : State) e => (List.range e.1.blks.length).foldl (fun s j => s.sWrite t e.2 j) s) s
/-- What a sequencer has issued before a release of its own is performed. -/
def State.releaseOf (s : State) (t : Tile) : Sq → State
  | .c => s.cDrain t
  | .s => s.sDrain t
  | _ => s

end Sys2Proof.Machine
end

