-- ==== Sys2Proof/Machine/Frozen.lean ====
section
/-! DEFINITION. Frozen tasks: where their husks stand, what lands for them and how it is delivered (R321), and the accesses that
are performed for them at home while they are frozen. -/

namespace Sys2Proof.Machine

/-- The world that the instance belongs to is switched in (R365). -/
def PartSt.inWorld (x : PartSt) (i : Inst) : Bool := i.world.isNone || i.world = x.world

/-- The husks of a partition that stand in no slot while their tile's landing buffer receives for them: those that D3hot entry or a
checkpoint took out, until the checkpoint's record stands, and those that HUSKSAVE moved to memory. -/
def State.outHusks (s : State) (p : PartId) : List Husk :=
  (s.part p).moved.map (·.2.2) ++ ((((s.part p).parked.filter (fun k => !k.written)).flatMap (fun k => k.husks.map (·.2))) ++
    (s.bodies.map (·.2)).filter (fun h => h.part = p))
/-- The husks of a tile whose world is switched in: those in its slots, then those that stand in none. -/
def State.frozenAt (s : State) (t : Tile) : List Husk :=
  ((s.tile t).husks.toList.filterMap id ++ (s.outHusks (s.tile t).part).filter (fun h => h.tile = t)).filter (fun h =>
    (s.inst h.part h.inst).any (fun i => (s.part h.part).inWorld i))

/-- Every husk of a partition's tasks: on the tiles, in worlds switched out, parked, moved, in memory. -/
def State.allHusks (s : State) (p : PartId) : List Husk :=
  (s.part p).tileList.flatMap (fun t => (s.tile t).husks.toList.filterMap id) ++
    ((s.part p).saved.flatMap (fun w => w.husks.map (·.2)) ++ ((s.part p).parked.flatMap (fun w => w.husks.map (·.2)) ++
      ((s.part p).moved.map (·.2.2) ++ (s.bodies.map (·.2)).filter (fun h => h.part = p))))
/-- Changes every one of them. -/
def State.mapHusks (s : State) (p : PartId) (f : Husk → Husk) : State :=
  let s := (s.part p).tileList.foldl (fun (s : State) t => s.modTile t (fun x => { x with husks := vecOf 2 (fun i => (vGet x.husks i).map f) })) s
  { s.modPart p (fun x => { x with
      saved := x.saved.map (fun w => { w with husks := w.husks.map (fun e => (e.1, f e.2)) }),
      parked := x.parked.map (fun w => { w with husks := w.husks.map (fun e => (e.1, f e.2)) }),
      moved := x.moved.map (fun e => (e.1, e.2.1, f e.2.2)) }) with
    bodies := s.bodies.map (fun e => (e.1, if e.2.part = p then f e.2 else e.2)) }

/-- Two husks are of one task. -/
def Husk.same (h k : Husk) : Bool :=
  match h.logic.task, k.logic.task with
  | some x, some y => x.part = y.part && (x.inst = y.inst && x.idx = y.idx)
  | _, _ => false

/-- Performs `f` for husk `k` of a tile, as the tile's landing buffer does while the task is frozen: what returns is logged. Meanwhile the
logic that the tile holds stands in the husk's place, so that what lands for it is not lost. -/
def State.onFrozen (s : State) (t : Tile) (k : Nat) (f : State → State) : State :=
  match (s.frozenAt t)[k]? with
  | some h =>
    let x := s.tile t
    let own := x.logic
    let s := (s.mapHusks h.part (fun y => if y.same h then { y with logic := { own with task := h.logic.task } } else y)).modTile t (fun x =>
      { x with logic := h.logic, freezing := some { slot := none, at_ := s.dtime, by_ := none } })
    let s := f s
    let g := s.logic t
    let back := ((s.frozenAt t).find? (fun y => y.same h)).elim own (·.logic)
    let arrived := back.flits.foldl (fun (y : Logic) e => match e with
      | .arrive off n => y.markArrivals off n
      | _ => y) own
    let s' := (s.modTile t (fun y => { y with logic := if x.freezing.isSome then { own with flits := back.flits } else arrived,
                                              freezing := x.freezing, lines := x.lines })).mapHusks h.part (fun y =>
      if y.same h then { y with logic := g } else y)
    if (s'.tile t).sync = x.sync then s' else s'.noteSync t
  | none => s

/-- For the logic that a tile holds (0), or for its husk `v` − 1. -/
def State.forLogic (s : State) (t : Tile) (v : Nat) (f : State → State) : State := if v = 0 then f s else s.onFrozen t (v - 1) f

/-! ## Delivery -/

/-- The KVALLOC or FREEZE that C waits in ends with a value; a KVALLOC is an acquire at PART (R237). -/
def Logic.finishWait (g : Logic) (v : Word) : Logic :=
  match g.c.wait with
  | .kv d _ _ => { g.forget with c := { g.forget.c.putP d v false with pc := g.c.pc + 4, wait := .none, stall := 0 },
                                 task := g.task.map (fun k => { k with lifted := true }) }
  | .freeze _ _ d => { g with c := { g.c.putP d v false with pc := g.c.pc + 4, wait := .none, stall := 0 } }
  | _ => g

/-- One logged flit is delivered on restore. -/
def Logic.deliver (g : Logic) : Landing → Logic
  | .arrive off n => g.markArrivals off n
  | .reply d v poison o sc =>
    let g := { g with c := g.c.putP d v poison }
    if acquires o && 1 ≤ sc.toNat then { g with task := g.task.map (fun k => { k with lifted := true }) } else g
  | .done v => g.finishWait v
  | .trapret _ _ _ _ => g

/-- The waits of C that a test picks end with a value: at once for a task that runs, on restore for a frozen one. -/
def State.endWaits (s : State) (p : PartId) (sel : Logic → Bool) (v : Word) : State :=
  let go (frozen : Bool) (g : Logic) : Logic :=
    if sel g then (if frozen then g.addFlit (.done v) else g.finishWait v) else g
  let s := allTiles.foldl (fun (s : State) t => s.modTile t (fun x => { x with logic := go x.freezing.isSome x.logic })) s
  s.mapHusks p (fun h => { h with logic := go true h.logic })

/-- An access of the task is still owed its response, or has still to be performed at home (R321). -/
def Logic.owed (g : Logic) : Bool :=
  !g.c.ops.isEmpty || (g.l.inflight.any (fun e => e.blks.any (fun b => b.got.isNone && !b.done)) ||
    g.s.inflight.any (fun e => e.blks.any (fun b => !b.done && e.there b)))

/-- A husk leaves its tile: what lands there for its task is logged there (R321, R341). -/
def TileSt.sendAway (x : TileSt) (h : Husk) : TileSt :=
  match h.logic.task with
  | some k => { x with away := { part := k.part, inst := k.inst, idx := k.idx, log := [] } :: x.away }
  | none => x
def Away.isOf (a : Away) (h : Husk) : Bool := h.logic.task.any (fun k => k.part = a.part && (k.inst = a.inst && k.idx = a.idx))
/-- The husk with what its old tile logged for it, which forgets it. -/
def State.collect (s : State) (h : Husk) : Husk × State :=
  let log := ((s.tile h.tile).away.filter (fun a => a.isOf h)).flatMap (·.log)
  ({ h with logic := log.foldl (fun g e => g.logArrival e.1 e.2) h.logic },
   s.modTile h.tile (fun x => { x with away := x.away.filter (fun a => !a.isOf h) }))

end Sys2Proof.Machine
end

