-- ==== Sys2Proof/Machine/Ops.lean ====
section
/-! DEFINITION. Taking a trap: the record, the queue, the latch, the stop (R311–R316); the end of a task and of an instance
(R293, R312); evictions that settle (R332). Returning from a trap stands in `System` (TRAPRET), over the same operations. -/

namespace Sys2Proof.Machine

/-! ## Writes of the scheduler -/

/-- A write that the scheduler or Thresher makes with the partition's translation; LOCAL means the slice of `home`. It is dropped
whole when a page fails (R293). -/
def State.schedWrite (s : State) (home : Tile) (p : PartId) (ptr : Word) (bs : List Byte) : State :=
  match spaceOf ptr with
  | 0 => s.writeSlice home (sliceOff ptr) bs false
  | c =>
    let cuts := cutsOf (wbits ptr 0 48) bs.length
    match s.placeAll home p .w (cuts.map (fun (a, _) => BitVec.ofNat 64 (c * 2 ^ 60 + a))) with
    | (.ok ls, s) =>
      ((ls.zip cuts).foldl (fun (acc : State × List Byte) e =>
        (acc.1.homeWrite none e.1 (acc.2.take e.2.2) false, acc.2.drop e.2.2)) (s, bs)).1
    | (_, s) => s

/-! ## Launch records and streams -/

/-- The operation of a launch record has ended; its completion is still to be written (R371). -/
def State.endRecord (s : State) (f : VfId) (q : QueueId) (idx : Nat) (status : Nat) (value : Word) : State :=
  s.modVf f (fun x =>
    let y := x.queues[q]
    { x with queues := x.queues.set q { y with pend := y.pend.map (fun r =>
        if r.idx.toNat = idx && r.st != .completed then { r with st := .ended status value } else r) } })

def PartSt.stream (x : PartSt) (k : Nat) : Option Stream := (x.streams.find? (fun e => e.1 = k)).map (·.2)
def State.modStream (s : State) (p : PartId) (k : Nat) (f : Stream → Stream) : State :=
  s.modPart p (fun x => { x with streams := x.streams.map (fun e => if e.1 = k then (k, f e.2) else e) })

/-- The VA of a stream's frame ring. -/
def Stream.ringVa (st : Stream) : Nat := wbits st.ring 0 48

/-- A discard sets PROD := COMMIT (R285). -/
def State.rollback (s : State) (p : PartId) (k : Nat) : State :=
  match (s.part p).stream k with
  | some st => (s.hwWrite p st.ringVa (leBytes 8 st.commit)).modStream p k (fun st => { st with prod := st.commit })
  | none => s

/-- Adds to a grain's pin count, 0 to 255 (R231). -/
def addPin (g : Nat) (up : Bool) (l : List (Nat × Nat)) : List (Nat × Nat) :=
  let old := (l.find? (fun e => e.1 = g)).elim 0 (·.2)
  let new := if up then min 255 (old + 1) else old - 1
  let rest := l.filter (fun e => e.1 != g)
  if new = 0 then rest else (g, new) :: rest

/-- The grains of a stream's anchors. -/
def Stream.anchors (st : Stream) : List Nat := (List.range st.nanch).map (fun i => wbits st.anch 16 32 + i)

/-- Frees a stream: anchors unpinned, the entry gone, a STREAM-DESTROY that waits ended with the frames committed (R369). -/
def State.freeStream (s : State) (p : PartId) (k : Nat) : State :=
  match (s.part p).stream k with
  | some st =>
    let s := s.modPart p (fun x => { x with streams := x.streams.filter (fun e => e.1 != k),
                                            pins := st.anchors.foldl (fun l g => addPin g false l) x.pins })
    match st.destroying with
    | some (f, q, i) => s.endRecord f q i 0 (BitVec.ofNat 64 st.commit)
    | none => s
  | none => s

/-! ## Evictions (R332) -/

/-- The report, the release and the flag of an eviction whose queues have all settled; its launch record ends. -/
def State.reportEviction (s : State) (p : PartId) (e : Eviction) : State :=
  let bytes := e.plan.flatMap (fun q =>
    leBytes 4 q.inst ++ leBytes 1 (match q.choice with | .complete => 0 | .checkpoint => 1 | .discard => 2) ++
    leBytes 1 (if q.esc then 1 else 0) ++ leBytes 2 0 ++ leBytes 8 (q.settled.getD 0))
  let s := if e.report = 0 || bytes = [] then s else s.schedWrite e.by_ p e.report bytes
  let s := if e.dv then s.setFlag e.dtile e.dflag true else s
  let s := match e.host with
    | some (f, q, i) => s.endRecord f q i 0 (BitVec.ofNat 64 e.no)
    | none => s
  s.modPart p (fun x => { x with evictions := x.evictions.filter (fun y => y.no != e.no) })

/-- Reports every eviction whose queues have all settled. -/
def State.reportDone (s : State) (p : PartId) : State :=
  ((s.part p).evictions.filter (fun e => e.decided && e.plan.all (fun q => q.settled.isSome))).foldl
    (fun s e => s.reportEviction p e) s

/-- An instance has settled in every eviction that plans it. -/
def State.settle (s : State) (p : PartId) (n : Nat) : State :=
  (s.modPart p (fun x => { x with evictions := x.evictions.map (fun e =>
    { e with plan := e.plan.map (fun q =>
        if q.inst = n && q.settled.isNone then { q with settled := some s.dtime } else q) }) })).reportDone p

/-! ## The end of a task and of an instance (R312) -/

/-- Tile logic without a task: the matrix memories and Rachis's control store keep their contents (R278). -/
def Logic.cleared (g : Logic) : Logic :=
  { Logic.reset with
    mat := { MatSt.reset with z := g.mat.z, aslot := g.mat.aslot, wbuf := g.mat.wbuf,
                              aPoison := g.mat.aPoison, wPoison := g.mat.wPoison, zPoison := g.mat.zPoison },
    rachis := { RachisSt.reset with store := g.rachis.store } }

/-- Tile logic whose task has ended: its registers stand until the next dispatch; tokens, stream bindings, start queues, accesses,
micro-orders and commands are discarded (R291, R312). -/
def Logic.ended (g : Logic) : Logic :=
  { g.cleared with
    c := { CSt.reset with s := g.c.s, poison := g.c.poison, pc := g.c.pc },
    l := { LsSt.reset with a := g.l.a }, s := { LsSt.reset with a := g.s.a },
    vec := { g.vec with q := Vector.replicate 8 none, fresh := 0 } }

/-- An encoder forgets commands; with the head frame goes what it has taken for that frame. -/
def EncSt.forget (e : EncSt) (ids : List Nat) : EncSt :=
  let e := { e with starts := e.starts.filter (fun k => !ids.contains k) }
  if e.frames.head?.any (fun f => ids.contains f.cmd) then
    { e with frames := e.frames.filter (fun f => !ids.contains f.cmd), pixels := [], chunksDone := 0, mismatch := false, blocksDone := 0 }
  else { e with frames := e.frames.filter (fun f => !ids.contains f.cmd) }

/-- The device's engines forget commands that are ended: acquire flags, encoder frames, collective joins, tier moves. -/
def State.forgetCommands (s : State) (p : PartId) (ids : List Nat) : State :=
  let s := { s with encs := vecOf 8 (fun i => (vGet s.encs i).forget ids),
                    flagWaits := s.flagWaits.filter (fun m => !ids.contains m.cmd) }
  s.modPart p (fun x => { x with
    collJoined := x.collJoined.filter (fun e => !ids.contains e.2.2.2),
    moves := x.moves.map (fun m => { m with cmd := m.cmd.filter (fun k => !ids.contains k) }) })

/-- C waits in a FREEZE of a tile. -/
def Logic.freezes (g : Logic) (t : Tile) : Bool :=
  match g.c.wait with
  | .freeze u _ _ => u = t
  | _ => false
/-- A FREEZE that waited for the tile's save ends with all ones when the task it freezes is ended. -/
def State.endFreeze (s : State) (t : Tile) : State :=
  if (s.tile t).freezing.any (fun f => f.by_.isSome) then s.endWaits (s.partOf t) (fun g => g.freezes t) (BitVec.allOnes 64) else s

/-- The task that a logic holds, by instance and record index. -/
def Logic.owner (g : Logic) : Option (Nat × Nat) := g.task.map (fun k => (k.inst, k.idx))
/-- The wait of a task on a tile. -/
def KvWait.isOf (w : KvWait) (g : Logic) (t : Tile) : Bool := w.owner = g.owner && (g.task.isSome || w.tile = t)
/-- The KV unit forgets the KVALLOC that a task waits in, which has ended. -/
def State.dropKvWait (s : State) (t : Tile) (p : PartId) (g : Logic) : State :=
  match g.c.wait with
  | .kv _ _ _ => s.modPart p (fun x => { x with kvWaiters := x.kvWaiters.filter (fun w => !w.isOf g t) })
  | _ => s

/-- Ends the task that a tile's logic holds, with its commands, its pass and its waits. -/
def State.dropTask (s : State) (t : Tile) : State :=
  let p := s.partOf t
  let s := s.forgetCommands p ((s.copy t).q.map (·.id))
  let s := ((s.endFreeze t).unwatch t).dropReqs t
  let s := s.dropKvWait t p (s.logic t)
  s.modTile t (fun x => { x with logic := x.logic.ended, freezing := none })

/-- Whether a task belongs to an instance. -/
def TaskCtl.isOf (k : TaskCtl) (p : PartId) (n : Nat) : Bool := k.part = p && k.inst = n
def Husk.isOf (h : Husk) (p : PartId) (n : Nat) : Bool :=
  match h.logic.task with
  | some k => k.isOf p n
  | none => false

/-- Ends an instance's tasks on one tile: the running one, those in husks, and the records in Tiller. -/
def State.clearTile (s : State) (p : PartId) (n : Nat) (t : Tile) : State :=
  let s := match s.task t with
    | some k => if k.isOf p n then s.dropTask t else s
    | none => s
  let s := (List.range 2).foldl (fun (s : State) i =>
    match vGet (s.tile t).husks i with
    | some h => if h.isOf p n then s.forgetCommands p (h.logic.copy.q.map (·.id)) else s
    | none => s) s
  s.modTile t (fun x => { x with
    husks := vecOf 2 (fun i => (vGet x.husks i).filter (fun h => !h.isOf p n)),
    away := x.away.filter (fun a => !(a.part = p && a.inst = n)),
    tiller := if x.part = p then x.tiller.filter (fun r => r.inst != n) else x.tiller,
    shadow := x.shadow.filter (fun r => !(x.part = p && r.1 = n)) })

/-- The signals of an instance's end or refusal (R293, R369, R371, R287): release, status, flag; a stream's slack and rollback. -/
def State.signalEnd (s : State) (p : PartId) (i : Inst) (status : Nat) : State :=
  let s := match i.src with
    | .program dv dt df _ stptr home =>
      let blocked := spaceOf stptr = 7 && i.world.any (fun f => (s.vf f).flr)
      let s := if stptr = 0 || blocked then s else s.schedWrite home p stptr (leBytes 8 status)
      if dv then s.setFlag dt df true else s
    | .host f q k => s.endRecord f q k status (BitVec.ofNat 64 i.no)
    | .stream k =>
      let s := if status ≥ 3 then s.rollback p k else s
      let s := s.modStream p k (fun st => { st with ended := ((i.dl : Int) - (s.dtime : Int)) :: st.ended })
      match (s.part p).stream k with
      | some st => if st.destroying.isSome then s.freeStream p k else s
      | none => s
  match i.world with
  | some f => if status = 3 then s.sendMsix (f.val + 1) 2 else s
  | none => s

/-- The checkpoint area of a partition: the VA of its header (R331). -/
def State.ckptVa (s : State) (p : PartId) : Nat := wbits (vGet (s.part p).ctx 7) 6 42 * 64
/-- A record of the checkpoint area is consumed; with the last one FREE goes back to 64 (R331). -/
def State.dropRecord (s : State) (p : PartId) : State :=
  let a := s.ckptVa p
  let n := s.hwNum p (a + 16) 4 - 1
  let s := s.hwWrite p (a + 16) (leBytes 4 n)
  if n = 0 then s.hwWrite p (a + 8) (leBytes 8 64) else s

/-- Ends an instance with a status: its tasks end with no record of their own (R312), its record in the checkpoint area is dropped
(R331), then its end is signalled. -/
def State.endInstance (s : State) (p : PartId) (n : Nat) (status : Nat) : State :=
  match s.inst p n with
  | some i =>
    let s := if (s.part p).parked.any (fun k => k.inst = n && k.written) then s.dropRecord p else s
    let s := allTiles.foldl (fun s t => s.clearTile p n t) s
    let s := s.modPart p (fun x => { x with
      kvWaiters := x.kvWaiters.filter (fun w => !w.owner.any (fun o => o.1 = n)),
      insts := x.insts.filter (fun y => y.no != n),
      saved := x.saved.map (fun w =>
        { w with husks := w.husks.filter (fun h => !h.2.isOf p n),
                 tillers := w.tillers.map (fun e => (e.1, e.2.filter (fun r => r.inst != n))) }),
      parked := x.parked.filter (fun k => k.inst != n),
      moved := x.moved.filter (fun h => !h.2.2.isOf p n) })
    (s.signalEnd p i status).settle p n
  | none => s

/-- Ends the instance of the tile's task as a fatal trap does. -/
def State.endTaskOf (s : State) (t : Tile) (status : Nat) : State :=
  match s.task t with
  | some k => s.endInstance k.part k.inst status
  | none => s

/-! ## Trap records (R313–R315) -/

/-- The codes of R311. -/
def TrapKind.code : TrapKind → Nat
  | .illegal => 0x01 | .align => 0x02 | .space => 0x03 | .bound => 0x04 | .xlateNp => 0x05 | .xlatePerm => 0x06
  | .wstream => 0x07 | .ecc => 0x08 | .tokenTimeout => 0x09 | .svc => 0x0A | .brkpt => 0x0B | .watchdog => 0x0C
  | .fabric => 0x0D | .cap => 0x0E

/-- The kinds that TRAPRET may resume; FABRIC when RETRY is set. -/
def TrapKind.replayable (k : TrapKind) (retry : Bool) : Bool :=
  match k with
  | .xlateNp | .tokenTimeout | .svc | .brkpt => true
  | .fabric => retry
  | _ => false

/-- The UNIT codes of R313. -/
def TrapUnit.code : TrapUnit → Nat
  | .c => 0 | .l => 1 | .m => 2 | .s => 3 | .copy => 4 | .rachis => 5 | .tile => 6

/-- A stop vector of L, M or S (R314). -/
def stopVector : Option Run → Word
  | none => 0xF000000000000000
  | some r => BitVec.ofNat 64 (spaceOf r.base * 2 ^ 60 + r.step % 4096 * 2 ^ 48 + wbits r.base 6 42 * 64)
/-- It names the micro-order whose push is pending, where one waits for room. -/
def Logic.stopVec (g : Logic) (u : Sq) : Word :=
  let waits : Option Run := match u with
    | .c => none
    | .l => g.l.inflight.head?.bind (·.run)
    | .m => g.m.list.head?.bind (·.run)
    | .s => g.s.inflight.head?.bind (·.run)
  stopVector (if (g.seq u).wait = .push && waits.isSome then waits else (g.seq u).run)

/-- The HDR word (R313). -/
def trapHdr (p : PartId) (gen tid : BitVec 16) (u : TrapUnit) (late fatal : Bool) (t : Tile) (k : TrapKind) : Word :=
  BitVec.ofNat 64 (p.val * 2 ^ 56 + gen.toNat * 2 ^ 40 + tid.toNat * 2 ^ 24 + u.code * 2 ^ 16 + (if late then 0x8000 else 0) +
    (if fatal then 0x4000 else 0) + t.val * 256 + k.code)

/-- Free entries of the partition's trap queue (R307). -/
def PartSt.trapFree (x : PartSt) : Nat := 2 ^ wbits x.trapq 48 4 - (x.tail - x.head).toNat
/-- The VA of entry `i`. -/
def PartSt.trapEntry (x : PartSt) (i : BitVec 16) : Nat :=
  wbits x.trapq 6 42 * 64 + 64 * (i.toNat % 2 ^ wbits x.trapq 48 4)

/-- Writes a record at TAIL, raises TAIL, sets the queue flag, and sends the trap vector of the VF that is switched in (R316,
R371). -/
def State.enqueueTrap (s : State) (p : PartId) (bytes : List Byte) : State :=
  let x := s.part p
  let s := s.hwWrite p (x.trapEntry x.tail) bytes
  let s := s.modPart p (fun x => { x with tail := x.tail + 1 })
  let s := if x.tqflag.getLsbD 63 then s.setFlag (Fin.ofNat 64 (wbits x.tqflag 16 6)) (wbits x.tqflag 0 12) true else s
  let s := x.tileList.foldl (fun (s : State) t => s.modC t (fun c =>
    if (s.task t).any (·.super) then { c with wait := c.wait.note 8 s.ck } else c)) s
  match x.world with
  | some f => s.sendMsix (f.val + 1) 1
  | none => s

/-- The place of a record among those of one clock: tile, unit, then the sequence number of a command (R312). -/
def recKey (t : Tile) (u : TrapUnit) (sub : Nat) : Nat := (8 * t.val + u.code) * 2 ^ 64 + sub
/-- A record may still be posted on this clock: none that comes after it in the clock's order has been. The agenda's order of the moves of one
clock is not the hardware's: a trap that comes too late on its clock is taken when the clock has passed. -/
def State.trapTurn (s : State) (t : Tile) (u : TrapUnit) (sub : Nat) : Bool :=
  let x := s.part (s.partOf t)
  x.lastRec.1 ≠ s.ck || x.lastRec.2 ≤ recKey t u sub

/-- Posts or latches a trap record of a tile about a task's logic and answers the stop that a replayable one leaves (R312, R313,
R316). ADDR of a trap that has no faulting address is a free value. -/
def State.postTrapOf (s : State) (g : Logic) (t : Tile) (u : TrapUnit) (k : TrapKind) (status : Word) (addr : Option Word)
    (gen : BitVec 16) (retry : Bool) (sub : Nat := 0) : Stop × State :=
  let given := addr.isSome
  let addr := addr.getD (Config.freeWord s.freeCount)
  let s := if given then s else s.drawn
  let p := s.partOf t
  let x := s.tile t
  let fatal := !k.replayable retry
  let bytes := leBytes 8 (trapHdr p gen x.tid u false fatal t k).toNat ++ leBytes 8 g.c.pc.toNat ++
    leBytes 8 (g.stopVec .l).toNat ++ leBytes 8 (g.stopVec .m).toNat ++
    leBytes 8 (g.stopVec .s).toNat ++ leBytes 8 status.toNat ++ leBytes 8 addr.toNat ++ leBytes 8 s.dtime
  let s := (s.modTile t (fun y => { y with tid := y.tid + 1 })).modPart p (fun y => { y with lastRec := (s.ck, recKey t u sub) })
  let free := (s.part p).trapFree
  let room := if fatal then free > 0 else free > 2
  let s := if room then s.enqueueTrap p bytes
    else (s.modTile t (fun y => { y with latch := y.latch ++ [{ rec_ := bytes, fatal := fatal, unit := u }] })).modPart p
      (fun y => { y with lost := min 0xFFFF (y.lost + 1) })
  ({ kind := k, tile := t, tid := x.tid, status := status, replay := !fatal, latched := !room, dst := 0 }, s)

def State.postTrap (s : State) (t : Tile) (u : TrapUnit) (k : TrapKind) (status : Word) (addr : Option Word)
    (gen : BitVec 16) (retry : Bool) (sub : Nat := 0) : Stop × State := s.postTrapOf (s.logic t) t u k status addr gen retry sub

/-- The tile's generation (R224). -/
def State.gen (s : State) (t : Tile) : BitVec 16 := (s.copy t).gen

/-- The unit of a sequencer. -/
def sqUnit : Sq → TrapUnit
  | .c => .c
  | .l => .l
  | .m => .m
  | .s => .s

/-- THE TRAP of a sequencer: what it issued before is performed, for the posting is a release (R316); the record is posted or latched;
a fatal trap ends the task and its instance, a replayable one stops the sequencer at the instruction or micro-order in hand (R312). -/
def State.trap (s : State) (t : Tile) (u : Sq) (k : TrapKind) (status : Word) (addr : Option Word) : State :=
  let unit := sqUnit u
  if !s.trapTurn t unit 0 then s else
  let s := s.releaseOf t u
  let r := s.postTrap t unit k status addr (s.gen t) (status.getLsbD 16)
  if r.1.replay then
    match u with
    | .c => r.2.modC t (fun c => { c with stop := some r.1, wait := .none, stall := 0 })
    | u => r.2.modSeq t u (fun x => { x with stop := some r.1, wait := .none, stall := 0 })
  else r.2.endTaskOf t 4

/-- A trap of C at the instruction in hand. -/
def State.trapC (s : State) (k : TrapKind) (status : Word) (addr : Option Word) : State := s.trap s.cur .c k status addr
/-- A failed check of C. -/
def State.failC (s : State) (f : Fail) : State := s.trapC f.kind f.status f.addr

/-- PRIV of the status word (R302). -/
def privBit : Word := 0x8000
/-- POPDONE and PUSHPEND of the status word (R315). -/
def popDone : Word := 1
def pushPend : Word := 2

/-- A fatal trap of M at the operation `k` of its list, which may have issued before the micro-order in hand. -/
def State.trapMat (s : State) (t : Tile) (k : Nat) (kind : TrapKind) (status : Word) (addr : Option Word) : State :=
  if !s.trapTurn t .m 0 then s else
    (s.modSeq t .m (fun x => { x with run := (s.logic t).m.list[k]?.bind (·.run), wait := .none })).trap t .m kind status addr

/-- A trap of L, M or S at the micro-order in hand; POPDONE says that its pop step is behind it (R108). -/
def State.trapSeq (s : State) (u : Sq) (k : TrapKind) (status : Word) (addr : Option Word) : State :=
  s.trap s.cur u k (status ||| (if (s.seq s.cur u).started.isSome then popDone else 0)) addr
def State.failSeq (s : State) (u : Sq) (f : Fail) : State := s.trapSeq u f.kind f.status f.addr

/-- A trap of the copy engine: a replayable one stops the command (R216). -/
def State.trapCmd (s : State) (t : Tile) (seq : Nat) (k : TrapKind) (status : Word) (addr : Option Word)
    (retry : Bool) : State :=
  if !s.trapTurn t .copy seq then s else
  let gen := match (s.copy t).q.find? (fun c => c.seq = seq) with
    | some c => c.gen
    | none => s.gen t
  let r := s.postTrap t .copy k status addr gen retry seq
  if r.1.replay then
    r.2.modCopy t (fun x => { x with q := x.q.map (fun c => if c.seq = seq then { c with st := .stopped, stop := some r.1 } else c) })
  else r.2.endTaskOf t 4

/-- A watchdog trap of a task on a tile: UNIT 6, status 0 (R283, R288, R315). -/
def State.trapWatchdog (s : State) (t : Tile) (g : Logic) : State :=
  (s.postTrapOf g t .tile .watchdog 0 none g.copy.gen false).2

/-! ## The issue of an instruction on C (R67) -/

/-- A result is pending in a register. -/
def CSt.pending (c : CSt) (r : Reg) : Bool := r != 0 && c.ops.any (fun o => o.returns && o.dst = r)

/-- Issues an instruction that names these registers: while one has a result pending, C waits. -/
def State.cIssue (s : State) (regs : List Reg) (body : State → State) : Out :=
  if regs.any (fun r => (s.c s.cur).pending r) then .next (s.cRetry false) else .next (body s)

/-- C's register operand. -/
def State.rs (s : State) (r : Reg) : Word := s.sr s.cur r
/-- The current tile's C writes a result and goes on; `poison`: an operand of the computation is poisoned (R395). -/
def State.cDone (s : State) (d : Reg) (v : Word) (poison : Bool) : State :=
  (s.modC s.cur (fun c => c.putP d v poison)).cNext
def State.cPoisoned (s : State) (rs : List Reg) : Bool := rs.any (fun r => (s.c s.cur).poisoned r)

/-- Issues an instruction that uses registers as an address, a count or a control field: poison there raises ECC (R395). -/
def State.cIssueCtl (s : State) (ctl regs : List Reg) (body : State → State) : Out :=
  s.cIssue (ctl ++ regs) (fun s => if s.cPoisoned ctl then s.trapC .ecc 0 none else body s)

/-- C's privilege: S when the task's record has SUPER and the tile is the partition's home (R301). -/
def State.atS (s : State) (t : Tile) : Bool :=
  match s.task t with
  | some k => k.super
  | none => false

end Sys2Proof.Machine
end

