-- ==== Sys2Proof/Machine/Firmware.lean ====
section
/-! DEFINITION. The A/B image banks of the 27 controllers: verification, SWITCH, the trial, fallback and heartbeat
(R351–R360), as operations that the update registers, the mailbox and the events share. -/

namespace Sys2Proof.Machine

def State.ctrl (s : State) (c : CtrlId) : CtrlSt := s.granary.ctrls[c]
def State.modCtrl (s : State) (c : CtrlId) (f : CtrlSt → CtrlSt) : State :=
  s.modGran (fun g => { g with ctrls := g.ctrls.set c (f g.ctrls[c]) })

/-- Bytes of a bank (R351). -/
def bankBytes (c : CtrlId) : Nat := if c.val = 0 then 0x100000 else 0x80000

/-- The bank that runs and the other one. -/
def CtrlSt.running (x : CtrlSt) : List Byte := if x.run then x.bankB else x.bankA
def CtrlSt.idleBank (x : CtrlSt) : List Byte := if x.run then x.bankA else x.bankB
def CtrlSt.runSt (x : CtrlSt) : BankSt := if x.run then x.stB else x.stA
def CtrlSt.idleSt (x : CtrlSt) : BankSt := if x.run then x.stA else x.stB
def CtrlSt.setRunSt (x : CtrlSt) (b : BankSt) : CtrlSt := if x.run then { x with stB := b } else { x with stA := b }
def CtrlSt.setIdleSt (x : CtrlSt) (b : BankSt) : CtrlSt := if x.run then { x with stA := b } else { x with stB := b }
/-- An image and its public key are loaded into the idle bank. -/
def CtrlSt.loadIdle (x : CtrlSt) (bs key : List Byte) : CtrlSt :=
  if x.run then { x with bankA := bs, keyA := key } else { x with bankB := bs, keyB := key }
def CtrlSt.idleKey (x : CtrlSt) : List Byte := if x.run then x.keyA else x.keyB

/-- The digest of an image (R353): SIG read as zeros. -/
def imageDigest (img : List Byte) : List Byte :=
  shake256 64 (img.take 64 ++ List.replicate 114 0 ++ (img.drop 178).take (78 + fieldAt img 12 4))

/-- Checks 1 to 7 of R354 on an image: zero when all pass, else the code of the first that fails. -/
def imageCode7 (c : CtrlId) (key img : List Byte) : Nat :=
  let k := fieldAt img 5 1
  if fieldAt img 0 4 ≠ 0x474D4946 || !(zeroAt img 26 38 && zeroAt img 178 78) then 1
  else if fieldAt img 4 1 ≠ c.val then 2
  else if bankBytes c < 256 + fieldAt img 12 4 || (fieldAt img 16 4 % 4 ≠ 0 || fieldAt img 12 4 ≤ fieldAt img 16 4) then 3
  else if 3 < k || (Config.fusedRevoked k || shake256 64 key != (Config.fusedKeyDigest k).toList) then 4
  else if fieldAt img 6 2 < Config.fusedMinSvn c.val then 5
  else if !Config.digestMatches img (imageDigest img) then 6
  else if !ed448Verify key ((img.drop 64).take 114) (imageDigest img) then 7
  else 0

/-- All checks of R354 on the idle bank of a controller. -/
def CtrlSt.verifyCode (x : CtrlSt) (c : CtrlId) : Nat :=
  let code := imageCode7 c x.idleKey x.idleBank
  if code ≠ 0 then code
  else
    let w := fieldAt x.running 24 2
    if fieldAt x.idleBank 20 2 ≤ w && w ≤ fieldAt x.idleBank 22 2 then 0 else 8

/-- A pending mailbox command has been performed (R377); MAILBOX_DONE reports it. -/
def State.mbResult (s : State) (r : Nat) : State := s.modPf (fun x => { x with mbResult := some r })

/-- A command that does not fit the state (R356). -/
def CtrlSt.misfit (x : CtrlSt) : CtrlSt := { x with err := 12 }

def State.inTrial (s : State) (c : CtrlId) : Bool := (s.ctrl c).trial.isSome

/-- VERIFY: the checks run on the idle bank, and end at VERIFICATION-DONE. While a trial runs, the other bank is what a fallback
needs, so the command does not fit. -/
def State.ucmdVerify (s : State) (c : CtrlId) : State :=
  s.modCtrl c (fun x => if x.trial.isSome || x.verifying then x.misfit else { x with verifying := true })

/-- The checks of R354 end: the idle bank becomes STAGED, or INVALID with its code; a mailbox IMAGE that waits gets its result.
An image that the boot ROM verifies in recovery is written ACTIVE, and the bank that was ACTIVE becomes IDLE (R387, as at an acceptance:
R358). -/
def State.verificationDone (s : State) (c : CtrlId) : State :=
  let x := s.ctrl c
  if !x.verifying then s else
    let code := if s.pf.recov then imageCode7 c x.idleKey x.idleBank else x.verifyCode c
    let good : BankSt := if s.pf.recov then .active else .staged
    let s := s.modCtrl c (fun x =>
      let y := if code = 0 then x.setIdleSt good else x.setIdleSt .invalid
      let y := if code = 0 && (s.pf.recov && y.runSt = .active) then y.setRunSt .idle else y
      { y with err := if code = 0 then y.err else code, verifying := false, mbWaits := false })
    if x.mbWaits then s.mbResult (if code = 0 then 0 else 16 + code) else s

/-- The LIVE copy is current for a SWITCH (R356). -/
def State.liveCurrent (s : State) (c : CtrlId) : Bool :=
  let x := s.ctrl c
  let r := x.live
  let len := fieldAt r 24 4
  fieldAt r 0 4 = 0x4F444E48 && (fieldAt r 6 1 = c.val &&
    (len ≤ r.length && (len ≤ 128 + Config.recordRoom c.val && (128 + 16 * fieldAt r 7 1 ≤ len &&
    ((List.range (fieldAt r 7 1)).all (fun k => fieldAt r (128 + 16 * k + 4) 4 + fieldAt r (128 + 16 * k + 8) 4 ≤ len) &&
    ((r.drop 64).take 64 == shake256 64 ((r.take len).drop 128) &&
    (fieldAt r 4 2 = fieldAt x.running 24 2 &&
    (fieldAt x.idleBank 20 2 ≤ fieldAt r 4 2 && (fieldAt r 4 2 ≤ fieldAt x.idleBank 22 2 &&
    ((x.base = [] || fieldAt x.base 8 8 < fieldAt r 8 8) &&
    (fieldAt r 16 8 ≤ s.dtime && s.dtime ≤ fieldAt r 16 8 + 10000000)))))))))))

/-- A warrant that the boot ROM left in a core, narrower than the root it comes from (R346); register 32 is wpc. -/
def bootWarrant (core r : Nat) : Warrant :=
  let lo := Config.bootWarrant core r 1
  let hi := Config.bootWarrant core r 2
  let rights := BitVec.ofNat 8 (Config.bootWarrant core r 3)
  match Config.bootWarrant core r 0 with
  | 1 => if lo ≤ min hi 0xFFFFFFFFFE then Warrant.mk' (BitVec.ofNat 40 lo) (BitVec.ofNat 40 (min hi 0xFFFFFFFFFE)) (rights &&& 0x1B) else Warrant.empty
  | 2 => if 1 ≤ lo && lo ≤ min hi 0xFFFE then Warrant.mk' (BitVec.ofNat 40 lo) (BitVec.ofNat 40 (min hi 0xFFFE)) (rights &&& 0x70) else Warrant.empty
  | _ => Warrant.empty
/-- A core as it enters an image: the roots are cleared; wpc holds the image's entry; the other registers hold what the boot ROM left. -/
def bootCore (core entry : Nat) : GCore :=
  { GCore.reset true with
    pc := BitVec.ofNat 64 entry,
    x := vecOf 32 (fun r => Config.bootX core r),
    w := vecOf 32 (fun r => bootWarrant core r),
    wpc := Warrant.mk' (BitVec.ofNat 40 (min (Config.bootWarrant core 32 1) entry))
      (BitVec.ofNat 40 (min (max (Config.bootWarrant core 32 2) (entry + 3)) 0xFFFFFFFFFE)) 0x05 }
/-- Granary's eight cores enter the image of a bank, whose body the boot ROM has placed in private SRAM (R351, R358, R386). -/
def State.bootGranary (s : State) (bankB : Bool) (img : List Byte) : State :=
  let at_ := Config.bodyBase bankB
  let body := (img.drop 256).take (min (fieldAt img 12 4) 0x100000)
  s.modGran (fun g => { g with
    cores := vecOf 8 (fun k => bootCore k (Config.imageEntry bankB (fieldAt img 16 4)).toNat),
    sram := Mem.write g.sram at_ body, poison := poisonAfter g.poison at_ body.length false })
def State.bootCtrl (s : State) (c : CtrlId) : State :=
  if c.val = 0 then s.bootGranary (s.ctrl c).run (s.ctrl c).running else s

/-- SWITCH (R356, R357, R358); while a VERIFY checks the idle bank again, it does not fit. -/
def State.ucmdSwitch (s : State) (c : CtrlId) : State :=
  let x := s.ctrl c
  if c.val ≠ 0 && s.inTrial 0 then s.modCtrl c (fun x => { x with err := 13 })
  else if x.idleSt ≠ .staged || (x.trial.isSome || x.verifying) then s.modCtrl c CtrlSt.misfit
  else if !s.liveCurrent c then s.modCtrl c (fun x => { x with err := 14 })
  else (s.modCtrl c (fun x =>
    let x := (x.setIdleSt .trial).setRunSt .idle
    { x with run := !x.run, base := x.live, trial := some s.dtime, beat := none })).bootCtrl c

/-- The clock of the last heartbeat of a trial, or of its SWITCH. -/
def CtrlSt.lastBeat (x : CtrlSt) (t0 : Nat) : Nat := max t0 (x.beat.getD t0)

/-- FALLBACK (R358): the new image stops, its bank becomes INVALID, the old bank becomes ACTIVE and resumes from BASE. -/
def State.fallback (s : State) (c : CtrlId) (code : Nat) : State :=
  if !s.inTrial c then s else
    ((s.modCtrl c (fun x =>
      let x := (x.setRunSt .invalid).setIdleSt .active
      { x with run := !x.run, trial := none, beat := some s.dtime, err := code, falls := min 255 (x.falls + 1) })).bootCtrl
        c).sendMsix 0 2

/-- The time at which a trial falls back if nothing more comes, and its code (R358). -/
def CtrlSt.trialEnds (x : CtrlSt) (t0 : Nat) : Nat × Nat :=
  if x.lastBeat t0 + 10000000 ≤ t0 + 100000000 then (x.lastBeat t0 + 10000000, 10) else (t0 + 100000000, 9)
/-- A restart of the ACTIVE bank after a heartbeat gap (R359). -/
def State.restartActive (s : State) (c : CtrlId) : State :=
  ((s.modCtrl c (fun x => { x with beat := some s.dtime, err := 10, falls := min 255 (x.falls + 1) })).bootCtrl c).sendMsix 0 2

/-- HANDOVER-ACCEPT, taken from the running bank's own code (R356, R358); after a gap or its time the trial falls back. The heartbeats go
on from the last one. -/
def State.ucmdAccept (s : State) (c : CtrlId) : State :=
  match (s.ctrl c).trial with
  | some t0 =>
    let e := (s.ctrl c).trialEnds t0
    if s.dtime < e.1 then s.modCtrl c (fun x => { x.setRunSt .active with trial := none, beat := some (x.lastBeat t0) })
    else s.fallback c e.2
  | none => s.modCtrl c CtrlSt.misfit

/-- HEARTBEAT (R358, R359); after a gap the trial falls back, or the ACTIVE image is restarted. -/
def State.ucmdHeartbeat (s : State) (c : CtrlId) : State :=
  match (s.ctrl c).trial with
  | some t0 =>
    let e := (s.ctrl c).trialEnds t0
    if s.dtime < e.1 then s.modCtrl c (fun x => { x with beat := some s.dtime }) else s.fallback c e.2
  | none =>
    if (s.ctrl c).beat.any (fun b => b + 10000000 < s.dtime) then s.restartActive c
    else s.modCtrl c (fun x => { x with beat := some s.dtime })

/-- ABORT. -/
def State.ucmdAbort (s : State) (c : CtrlId) : State :=
  s.modCtrl c (fun x => if x.idleSt = .staged && !x.verifying then x.setIdleSt .invalid else x.misfit)

/-- A write of an update register (R355), from Granary's code: HANDOVER-ACCEPT and HEARTBEAT of another controller are not taken
from it. -/
def State.writeUcmd (s : State) (c : CtrlId) (v : Word) : State :=
  if wbits v 56 8 ≠ 0xA5 then s else
  match wbits v 0 8 with
  | 1 => s.ucmdVerify c
  | 2 => s.ucmdSwitch c
  | 3 => if c.val = 0 then s.ucmdAccept c else s
  | 4 => if c.val = 0 then s.ucmdHeartbeat c else s
  | 5 => s.ucmdAbort c
  | _ => s.modCtrl c CtrlSt.misfit

def BankSt.code : BankSt → Nat
  | .active => 0 | .idle => 1 | .staged => 2 | .trial => 3 | .invalid => 4

/-- USTAT (R355). -/
def CtrlSt.ustat (x : CtrlSt) : Word :=
  BitVec.ofNat 64 (x.err * 2 ^ 40 + x.falls * 2 ^ 32 + (if x.run then 256 else 0) + x.stA.code * 16 + x.stB.code)

/-! ## The events -/

/-- UCMD_VERIFY (R354, R355). -/
def execUcmdVerify (s : State) : Out := .next (s.ucmdVerify s.ev.c)
/-- VERIFICATION_DONE (R354). -/
def execVerificationDone (s : State) : Out := .next (s.verificationDone s.ev.c)
/-- UCMD_SWITCH: the running firmware's handover record, when the event carries one, is written as LIVE first (R356). -/
def execUcmdSwitch (s : State) : Out :=
  .next ((if s.ev.bytes = [] then s else s.modCtrl s.ev.c (fun x => { x with live := s.ev.bytes })).ucmdSwitch s.ev.c)
/-- UCMD_HANDOVER_ACCEPT; too late, or for a controller whose trial has passed its time, it is a fallback's matter (R358). -/
def execUcmdHandoverAccept (s : State) : Out := .next (s.ucmdAccept s.ev.c)
/-- UCMD_HEARTBEAT; the image rewrites LIVE before it (R359). -/
def execUcmdHeartbeat (s : State) : Out :=
  .next ((if s.ev.bytes = [] then s else s.modCtrl s.ev.c (fun x => { x with live := s.ev.bytes })).ucmdHeartbeat s.ev.c)
/-- UCMD_ABORT (R356). -/
def execUcmdAbort (s : State) : Out := .next (s.ucmdAbort s.ev.c)

/-- HANDOVER_TIMEOUT: 100 ms from SWITCH without HANDOVER-ACCEPT (R358). -/
def execHandoverTimeout (s : State) : Out :=
  match (s.ctrl s.ev.c).trial with
  | some t0 => .next (if t0 + 100000000 ≤ s.dtime then s.fallback s.ev.c 9 else s)
  | none => .next s

/-- TRIAL_HEARTBEAT_GAP: a gap above 10 ms (R358; R359's example falls back when the gap reaches 10 ms). -/
def execTrialHeartbeatGap (s : State) : Out :=
  match (s.ctrl s.ev.c).trial with
  | some t0 => .next (if (s.ctrl s.ev.c).lastBeat t0 + 10000000 ≤ s.dtime then s.fallback s.ev.c 10 else s)
  | none => .next s

/-- CONTROLLER_RESET_IN_TRIAL (R358). -/
def execControllerResetInTrial (s : State) : Out := .next (s.fallback s.ev.c 11)

/-- HEARTBEAT_GAP of an ACTIVE image (R359). -/
def execHeartbeatGap (s : State) : Out :=
  let x := s.ctrl s.ev.c
  match x.trial, x.beat with
  | none, some b => .next (if b + 10000000 < s.dtime && (x.runSt = .active && !x.held) then s.restartActive s.ev.c else s)
  | _, _ => .next s

end Sys2Proof.Machine
end

