-- ==== Sys2Proof/Machine/Warrants.lean ====
section
/-! DEFINITION. A Granary core's warrants, its 40-bit address space, and its exceptions: RISC-V's own and CAP (R344–R347). -/

namespace Sys2Proof.Machine

/-! ## Warrants (R346) -/

def Warrant.lo (w : Warrant) : Nat := w.bits.toNat / 2 ^ 88
def Warrant.hi (w : Warrant) : Nat := bitsOf w.bits.toNat 48 40
def Warrant.rights (w : Warrant) : BitVec 8 := w.bits.extractLsb' 40 8
def Warrant.key (w : Warrant) : Nat := bitsOf w.bits.toNat 24 16
def Warrant.rd (w : Warrant) : Bool := w.rights.getLsbD 0
def Warrant.wr (w : Warrant) : Bool := w.rights.getLsbD 1
def Warrant.runs (w : Warrant) : Bool := w.rights.getLsbD 2
def Warrant.dev (w : Warrant) : Bool := w.rights.getLsbD 3
def Warrant.keep (w : Warrant) : Bool := w.rights.getLsbD 4
def Warrant.bind (w : Warrant) : Bool := w.rights.getLsbD 5
def Warrant.opens (w : Warrant) : Bool := w.rights.getLsbD 6
/-- An access of `n` bytes at `x` is in range. -/
def Warrant.covers (w : Warrant) (x n : Nat) : Bool := w.lo ≤ x && x + n ≤ w.hi + 1
/-- A key warrant grants a key only when 1 ≤ LO and HI ≤ 0xFFFF, and its range is not empty. -/
def Warrant.grantsKey (w : Warrant) : Bool := 1 ≤ w.lo && (w.hi ≤ 0xFFFF && w.lo ≤ w.hi)
/-- The same warrant with other bounds, rights or key. -/
def Warrant.withRange (w : Warrant) (lo hi : Nat) : Warrant :=
  { w with bits := BitVec.ofNat 40 lo ++ BitVec.ofNat 40 hi ++ w.bits.extractLsb' 0 48 }
def Warrant.withRights (w : Warrant) (r : BitVec 8) : Warrant :=
  { w with bits := w.bits.extractLsb' 48 80 ++ r ++ w.bits.extractLsb' 0 40 }
def Warrant.withKey (w : Warrant) (k : Nat) : Warrant :=
  { w with bits := w.bits.extractLsb' 40 88 ++ BitVec.ofNat 16 k ++ w.bits.extractLsb' 0 24 }

/-! ## Core registers -/

def State.core (s : State) : GCore := s.granary.cores[s.curCore]
def State.modCore (s : State) (f : GCore → GCore) : State :=
  s.modGran (fun g => { g with cores := g.cores.set s.curCore (f g.cores[s.curCore]) })
def GCore.xr (c : GCore) (r : Reg) : Word := if r = 0 then 0 else c.x[r.toFin]
def GCore.setX (c : GCore) (r : Reg) (v : Word) : GCore := if r = 0 then c else { c with x := c.x.set r.toFin v }
/-- w0 reads as the empty warrant. -/
def GCore.wr (c : GCore) (r : Reg) : Warrant := if r = 0 then Warrant.empty else c.w[r.toFin]
def GCore.setW (c : GCore) (r : Reg) (v : Warrant) : GCore := if r = 0 then c else { c with w := c.w.set r.toFin v }
def GCore.step4 (c : GCore) : GCore := { c with pc := c.pc + 4 }

/-! ## Exceptions -/

/-- Takes a synchronous exception as the RISC-V privileged architecture does: mepc, mcause, mtval, the mstatus stack, machine
mode, the handler at mtvec. -/
def GCore.except (c : GCore) (cause : Word) (tval : Word) : GCore :=
  let mie := c.mstatus.getLsbD 3
  let st := (c.mstatus &&& ~~~(0x1888 : Word)) ||| (if mie then 0x80 else 0) ||| (if c.mach then 0x1800 else 0)
  { c with mepc := c.pc, mcause := cause, mtval := tval, mstatus := st, mach := true, pc := c.mtvec &&& ~~~(3 : Word) }
def State.gExcept (s : State) (cause tval : Word) : State := s.modCore (fun c => c.except cause tval)

/-- mtval where the privileged architecture lets an implementation write zero or the value. -/
def State.gExceptOpt (s : State) (cause tval : Word) : State :=
  s.drawn.gExcept cause (if s.freeBelow 2 = 0 then 0 else tval)

/-- CAP (R347): cause, register number, whether it is a w register. -/
def State.cap (s : State) (cause : Nat) (reg : Reg) (isW : Bool) : State :=
  s.gExcept 24 (BitVec.ofNat 64 (cause + 256 * reg.toNat + (if isW then 0x2000 else 0)))

/-- The first of some checks that fails, in cause order. -/
def firstFail : List (Bool × Nat × Reg) → Option (Nat × Reg)
  | [] => none
  | (bad, cause, reg) :: r => if bad then some (cause, reg) else firstFail r

/-! ## The address space (R345) -/

/-- Where an address lies. -/
inductive GRegion where
  | sram | wstore | rom | bank | control | bulk | none
  deriving DecidableEq, Repr

def gRegion (x : Nat) : GRegion :=
  if x < 0x3C0000 then .sram
  else if x < 0x400000 then .wstore
  else if x < 0x410000 then .rom
  else if 0x800000 ≤ x && x < 0x1000000 then .bank
  else if 0x100000000 ≤ x && x < 0x200000000 then .control
  else if 0x8000000000 ≤ x && x < 0x10000000000 then .bulk
  else .none

/-- The update register pair that an address of the control range lies in: controller, offset in the pair (R355). -/
def updateReg (x : Nat) : Option (CtrlId × Nat) :=
  if 0x100001000 ≤ x && (x < 0x100001000 + 64 * 27 && (x - 0x100001000) % 64 < 16) then
    some (Fin.ofNat 27 ((x - 0x100001000) / 64), (x - 0x100001000) % 64)
  else none

/-! ## The bank-store window (R345) -/

/-- A byte of a list that is longer than it shows: zero beyond its end. -/
def byteAt (l : List Byte) (i : Nat) : Byte := l.getD i 0
def setByteAt (l : List Byte) (i : Nat) (v : Byte) : List Byte := (l ++ List.replicate (i + 1 - l.length) 0).set i v
/-- The byte at an offset of the window: of a bank, of a record's copy, or of what else it shows. -/
def GranarySt.windowByte (g : GranarySt) (o : Nat) : Byte :=
  match Config.windowCell o with
  | .bank c b k => byteAt (let x := g.ctrls[(Fin.ofNat 27 c : CtrlId)]; if b then x.bankB else x.bankA) k
  | .live c k => byteAt g.ctrls[(Fin.ofNat 27 c : CtrlId)].live k
  | .base c k => byteAt g.ctrls[(Fin.ofNat 27 c : CtrlId)].base k
  | .other => Mem.byte g.bank o
def GranarySt.setWindowByte (g : GranarySt) (o : Nat) (v : Byte) : GranarySt :=
  let at_ (c : Nat) (f : CtrlSt → CtrlSt) : GranarySt :=
    { g with ctrls := g.ctrls.set (Fin.ofNat 27 c : CtrlId) (f g.ctrls[(Fin.ofNat 27 c : CtrlId)]) }
  match Config.windowCell o with
  | .bank c b k => at_ c (fun x => if b then { x with bankB := setByteAt x.bankB k v } else { x with bankA := setByteAt x.bankA k v })
  | .live c k => at_ c (fun x => { x with live := setByteAt x.live k v })
  | .base c k => at_ c (fun x => { x with base := setByteAt x.base k v })
  | .other => { g with bank := Mem.write g.bank o [v] }

/-! ## The bus (R345) -/

/-- A Granary access meets a poisoned block of its SRAM or of bulk memory (R394). -/
def State.gPoisoned (s : State) (x n : Nat) : Bool :=
  match gRegion x with
  | .sram => (unitsOf 64 x n).any (fun b => s.granary.poison.contains b)
  | .wstore => (unitsOf 64 x n).any (fun b => s.granary.poison.contains b)
  | .bulk => (unitsOf 64 (x - 0x8000000000) n).any (fun b => s.bulkPoison.contains b)
  | _ => false

/-- A read by a core: the bytes' value, or none for a bus error, which a poisoned block answers too. UCMD, which is write-only, reads
zero. A control register that the spec does not describe reads a free value. -/
def State.busRead (s : State) (x n : Nat) : Option (Nat × State) :=
  if s.gPoisoned x n then none else
  match gRegion x with
  | .sram => some (Mem.num s.granary.sram x n, s)
  | .rom => some (leNat ((List.range n).map (fun i => Config.bootRom (x - 0x400000 + i))), s)
  | .bank => some (leNat ((List.range n).map (fun i => s.granary.windowByte (x - 0x800000 + i))), s)
  | .bulk => some (Mem.num s.bulk (x - 0x8000000000) n, s)
  | .control =>
    match updateReg x with
    | some (c, o) => some (if o < 8 then 0 else (s.ctrl c).ustat.toNat / 2 ^ (8 * (o - 8)) % 2 ^ (8 * n), s)
    | none => some (leNat (s.freeBytes n), s.drawn)
  | _ => none

/-- A write by a core, or none for a bus error. A UCMD write that does not carry KEY and CMD together is ignored. A control register that
the spec does not describe has no effect that it gives. -/
def State.busWrite (s : State) (x n : Nat) (v : Nat) : Option State :=
  let bs := leBytes n v
  match gRegion x with
  | .sram => some (s.modGran (fun g => { g with sram := Mem.write g.sram x bs, poison := poisonAfter g.poison x n false }))
  | .bank => some (s.modGran (fun g => bs.zipIdx.foldl (fun (g : GranarySt) e => g.setWindowByte (x - 0x800000 + e.2) e.1) g))
  | .bulk => some { s with bulk := Mem.write s.bulk (x - 0x8000000000) bs,
                           bulkPoison := poisonAfter s.bulkPoison (x - 0x8000000000) n false }
  | .control =>
    match updateReg x with
    | some (c, 0) => some (if n = 8 then s.writeUcmd c (BitVec.ofNat 64 v) else s)
    | _ => some s
  | _ => none

/-! ## Fetch (R344) -/

/-- Why a fetch fails. -/
inductive GFetch where
  | word (w : W32)
  | cap
  | bus
  deriving DecidableEq, Repr

/-- The bytes at the pc: inside wpc's range, which must hold RUN; from SRAM, where no block of them is poisoned, or the boot ROM. A compressed instruction needs its
two bytes only. -/
def State.gFetch (s : State) : GFetch :=
  let c := s.core
  let x := c.pc.toNat
  let ok (n : Nat) : Bool := c.wpc.v && (c.wpc.key = 0 && (c.wpc.runs && c.wpc.covers x n))
  if !ok 2 || gRegion x = .wstore then .cap
  else
    let get (k : Nat) : Option Nat :=
      if s.gPoisoned (x + k) 2 then none else
      match gRegion (x + k) with
      | .sram => some (Mem.num s.granary.sram (x + k) 2)
      | .rom => some (leNat [Config.bootRom (x + k - 0x400000), Config.bootRom (x + k + 1 - 0x400000)])
      | _ => none
    match get 0 with
    | none => .bus
    | some lo =>
      if lo % 4 ≠ 3 then .word (BitVec.ofNat 32 lo)
      else if !ok 4 || gRegion (x + 2) = .wstore then .cap
      else match get 2 with
        | none => .bus
        | some hi => .word (BitVec.ofNat 32 (lo + 65536 * hi))

end Sys2Proof.Machine
end

