-- ==== Sys2Proof/Machine/Granary.lean ====
section
/-! DEFINITION. Granary's instructions: the warrant instructions (R349, R350) and standard RV64IMC (R344). -/

namespace Sys2Proof.Machine

/-! ## Register forms (R349) -/

/-- CGETB: LO. -/
def execCgetb (a d : Reg) (s : State) : Out :=
  .next (s.modCore (fun c => (c.setX d (BitVec.ofNat 64 (c.wr a).lo)).step4))
/-- CGETL: HI − LO + 1. -/
def execCgetl (a d : Reg) (s : State) : Out :=
  .next (s.modCore (fun c => (c.setX d (BitVec.ofNat 64 (c.wr a).hi + 1 - BitVec.ofNat 64 (c.wr a).lo)).step4))
/-- CGETP: RIGHTS and KEY. -/
def execCgetp (a d : Reg) (s : State) : Out :=
  .next (s.modCore (fun c => (c.setX d (BitVec.ofNat 64 ((c.wr a).rights.toNat + 256 * (c.wr a).key))).step4))
/-- CTAG: V, and whether the warrant is keyed. -/
def execCtag (a d : Reg) (s : State) : Out :=
  .next (s.modCore (fun c => (c.setX d ((if (c.wr a).v then 1 else 0) + (if (c.wr a).key ≠ 0 then 2 else 0))).step4))
/-- CMOVE. -/
def execCmove (a d : Reg) (s : State) : Out := .next (s.modCore (fun c => (c.setW d (c.wr a)).step4))

/-- A register form's checks, then its effect. -/
def State.capElse (s : State) (checks : List (Bool × Nat × Reg)) (f : GCore → GCore) : Out :=
  match firstFail checks with
  | some (cause, r) => .next (s.cap cause r true)
  | none => .next (s.modCore f)

/-- CANDP. -/
def execCandp (b a d : Reg) (s : State) : Out :=
  let w := s.core.wr a
  s.capElse [(w.key ≠ 0, 2, a)]
    (fun c => (c.setW d (w.withRights (w.rights &&& (c.xr b).extractLsb' 0 8))).step4)

/-- CSEAL. -/
def execCseal (b a d : Reg) (s : State) : Out :=
  let w := s.core.wr a
  let k := s.core.wr b
  s.capElse [(!w.v, 1, a), (!k.v, 1, b), (w.key ≠ 0, 2, a), (k.key ≠ 0, 2, b), (!k.bind, 3, b), (!k.grantsKey, 7, b)]
    (fun c => (c.setW d (w.withKey k.lo)).step4)

/-- CUNSEAL. -/
def execCunseal (b a d : Reg) (s : State) : Out :=
  let w := s.core.wr a
  let k := s.core.wr b
  s.capElse [(!w.v, 1, a), (!k.v, 1, b), (k.key ≠ 0, 2, b), (!k.opens, 3, b),
      (w.key = 0 || (w.key < k.lo || k.hi < w.key), 7, a), (!k.grantsKey, 7, b)]
    (fun c => (c.setW d (w.withKey 0)).step4)

/-- CJALR: links to the word after it, then jumps under the new program warrant. -/
def execCjalr (b a d : Reg) (s : State) : Out :=
  let w := s.core.wr a
  let target := w.lo + (s.core.xr b).toNat
  s.capElse [(!w.v, 1, a), (w.key ≠ 0, 2, a), (!w.runs, 3, a), (!w.covers target 2, 4, a), (target % 2 ≠ 0, 12, a)]
    (fun c => { (c.setX d (c.pc + 4 - BitVec.ofNat 64 c.wpc.lo)).setW d c.wpc with pc := BitVec.ofNat 64 target, wpc := w })

/-- CSETB: narrows the range; both sums are exact. -/
def execCsetb (cr b a d : Reg) (s : State) : Out :=
  let w := s.core.wr a
  let lo := w.lo + (s.core.xr b).toNat
  let len := (s.core.xr cr).toNat
  let hi := lo + len - 1
  s.capElse [(!w.v, 1, a), (w.key ≠ 0, 2, a), (w.hi < hi, 5, a), (len = 0 || 0xFFFFFFFFFF < hi, 6, a)]
    (fun c => (c.setW d (w.withRange lo hi)).step4)

/-! ## Memory forms (R350) -/

/-- The address of a memory form: modulo 2⁴⁰. -/
def State.gAddr (s : State) (w a : Reg) (imm : BitVec 7) (n : Nat) : Nat :=
  ((BitVec.ofNat 40 (s.core.wr w).lo) + (s.core.xr a).setWidth 40 + imm.signExtend 40 * BitVec.ofNat 40 n).toNat

/-- The checks of a memory form in cause order. -/
def State.gChecks (s : State) (w : Reg) (x n : Nat) (store slot : Bool) (keepBad : Option Reg) : List (Bool × Nat × Reg) :=
  let m := s.core.wr w
  let inStore := gRegion x = .wstore || gRegion (x + n - 1) = .wstore
  [(!m.v, 1, w), (m.key ≠ 0, 2, w),
   ((if store then !m.wr else !m.rd) || ((gRegion x = .control || gRegion (x + n - 1) = .control) && !m.dev), 3, w),
   (!m.covers x n, 4, w),
   (if slot then !(gRegion x = .wstore && gRegion (x + n - 1) = .wstore) else inStore, 8, w),
   (keepBad.isSome, 9, keepBad.getD 0),
   (x % n ≠ 0, 12, w)]

/-- CLD. -/
def execCld (w : Reg) (i : BitVec 7) (a : Reg) (n : BitVec 2) (d : Reg) (s : State) : Out :=
  let len := 2 ^ n.toNat
  let x := s.gAddr w a i len
  match firstFail (s.gChecks w x len false false none) with
  | some (cause, r) => .next (s.cap cause r true)
  | none =>
    match s.busRead x len with
    | some (v, s) => .next (s.modCore (fun c => (c.setX d (BitVec.ofNat 64 v)).step4))
    | none => .next (s.gExcept 5 (BitVec.ofNat 64 x))

/-- CLDC: the slot and its valid bit; a poisoned slot is an access fault. -/
def execCldc (w : Reg) (i : BitVec 7) (a d : Reg) (s : State) : Out :=
  let x := s.gAddr w a i 16
  match firstFail (s.gChecks w x 16 false true none) with
  | some (cause, r) => .next (s.cap cause r true)
  | none =>
    if s.gPoisoned x 16 then .next (s.gExcept 5 (BitVec.ofNat 64 x)) else
    let slot := (x - 0x3C0000) / 16
    let v : Warrant := { bits := BitVec.ofNat 128 (Mem.num s.granary.wstore (16 * slot) 16), v := s.granary.wvalid.contains slot }
    .next (s.modCore (fun c => (c.setW d v).step4))

/-- CST. -/
def execCst (w : Reg) (i : BitVec 2) (b a : Reg) (n : BitVec 2) (i2 : Reg) (s : State) : Out :=
  let len := 2 ^ n.toNat
  let x := s.gAddr w a (i ++ i2) len
  match firstFail (s.gChecks w x len true false none) with
  | some (cause, r) => .next (s.cap cause r true)
  | none =>
    match s.busWrite x len ((s.core.xr b).toNat % 2 ^ (8 * len)) with
    | some s => .next (s.modCore GCore.step4)
    | none => .next (s.gExcept 7 (BitVec.ofNat 64 x))

/-- CSTC: the slot and its valid bit; a valid warrant needs KEEP. -/
def execCstc (w : Reg) (i : BitVec 2) (b a : Reg) (i2 : Reg) (s : State) : Out :=
  let x := s.gAddr w a (i ++ i2) 16
  let v := s.core.wr b
  match firstFail (s.gChecks w x 16 true true (if v.v && !v.keep then some b else none)) with
  | some (cause, r) => .next (s.cap cause r true)
  | none =>
    let slot := (x - 0x3C0000) / 16
    .next ((s.modGran (fun g => { g with
      wstore := Mem.write g.wstore (16 * slot) (leBytes 16 v.bits.toNat),
      wvalid := if v.v then insertRising slot g.wvalid else g.wvalid.filter (fun k => k != slot) })).modCore GCore.step4)

/-! ## Standard RV64IMC -/

/-- The integer operations of RV64I and RV64M. -/
def rvAlu (o : RvOp) (a b : Word) : Word :=
  let w (x : BitVec 32) : Word := x.signExtend 64
  let a32 : BitVec 32 := a.setWidth 32
  let b32 : BitVec 32 := b.setWidth 32
  let sh := b.toNat % 64
  let sh32 := b.toNat % 32
  match o with
  | .add => a + b
  | .sub => a - b
  | .sll => a <<< sh
  | .slt => if a.toInt < b.toInt then 1 else 0
  | .sltu => if a.toNat < b.toNat then 1 else 0
  | .xor => a ^^^ b
  | .srl => a >>> sh
  | .sra => a.sshiftRight sh
  | .or => a ||| b
  | .and => a &&& b
  | .mul => a * b
  | .mulh => BitVec.ofInt 64 (a.toInt * b.toInt / 2 ^ 64)
  | .mulhsu => BitVec.ofInt 64 (a.toInt * (b.toNat : Int) / 2 ^ 64)
  | .mulhu => BitVec.ofNat 64 (a.toNat * b.toNat / 2 ^ 64)
  | .div => if b = 0 then BitVec.allOnes 64 else a.sdiv b
  | .divu => if b = 0 then BitVec.allOnes 64 else a / b
  | .rem => if b = 0 then a else a.srem b
  | .remu => if b = 0 then a else a % b
  | .addw => w (a32 + b32)
  | .subw => w (a32 - b32)
  | .sllw => w (a32 <<< sh32)
  | .srlw => w (a32 >>> sh32)
  | .sraw => w (a32.sshiftRight sh32)
  | .mulw => w (a32 * b32)
  | .divw => if b32 = 0 then BitVec.allOnes 64 else w (a32.sdiv b32)
  | .divuw => if b32 = 0 then BitVec.allOnes 64 else w (a32 / b32)
  | .remw => if b32 = 0 then w a32 else w (a32.srem b32)
  | .remuw => if b32 = 0 then w a32 else w (a32 % b32)

def rvTaken (c : RvCond) (a b : Word) : Bool :=
  match c with
  | .eq => a = b
  | .ne => a != b
  | .lt => a.toInt < b.toInt
  | .ge => b.toInt ≤ a.toInt
  | .ltu => a.toNat < b.toNat
  | .geu => b.toNat ≤ a.toNat

/-- Whether a CSR exists for the mode and the access, by the privileged architecture: its number, whether it is written. -/
def GCore.csrOk (c : GCore) (num : Nat) (writes : Bool) : Bool :=
  let known := [0x300, 0x301, 0x304, 0x305, 0x306, 0x320, 0x340, 0x341, 0x342, 0x343, 0x344, 0xF11, 0xF12, 0xF13, 0xF14, 0xF15,
    0xB00, 0xB02, 0xC00, 0xC01, 0xC02].contains num || ((0xB03 ≤ num && num ≤ 0xB1F) || ((0x323 ≤ num && num ≤ 0x33F) || (0xC03 ≤ num && num ≤ 0xC1F)))
  let user := 0xC00 ≤ num && num ≤ 0xC1F
  known && ((c.mach || (user && c.mcounteren.getLsbD (num % 32))) && !(writes && 0xC00 ≤ num))

/-- A CSR's value. The counters read free values; the identification registers an implementation fixes. -/
def State.csrRead (s : State) (num : Nat) : Word :=
  let c := s.core
  match num with
  | 0x300 => c.mstatus ||| 0x200000000
  | 0x301 => 0x8000000000101104
  | 0x304 => c.mie
  | 0x305 => c.mtvec
  | 0x306 => c.mcounteren
  | 0x340 => c.mscratch
  | 0x341 => c.mepc
  | 0x342 => c.mcause
  | 0x343 => c.mtval
  | 0x344 => c.mip
  | 0xF11 => Config.csrIdent num
  | 0xF12 => Config.csrIdent num
  | 0xF13 => Config.csrIdent num
  | 0xF14 => BitVec.ofNat 64 s.curCore.val
  | 0xB00 => Config.freeWord s.freeCount
  | 0xB02 => Config.freeWord s.freeCount
  | 0xC00 => Config.freeWord s.freeCount
  | 0xC01 => Config.freeWord s.freeCount
  | 0xC02 => Config.freeWord s.freeCount
  | _ => 0

/-- A CSR's new value under its legal fields; a counter keeps running and shows no write. -/
def GCore.csrWrite (c : GCore) (num : Nat) (v : Word) : GCore :=
  match num with
  | 0x300 =>
    let mpp := wbits v 11 2
    let keep := if mpp = 0 || mpp = 3 then v &&& 0x1800 else c.mstatus &&& 0x1800
    { c with mstatus := (v &&& 0x220088) ||| keep }
  | 0x304 => { c with mie := v &&& 0x888 }
  | 0x305 => { c with mtvec := v &&& ~~~(2 : Word) }
  | 0x306 => { c with mcounteren := v &&& 0xFFFFFFFF }
  | 0x340 => { c with mscratch := v }
  | 0x341 => { c with mepc := v &&& ~~~(1 : Word) }
  | 0x342 => { c with mcause := v }
  | 0x343 => { c with mtval := v }
  | _ => c

/-- MRET: the mode and the interrupt enable come back from mstatus, the pc from mepc. -/
def GCore.mret (c : GCore) : GCore :=
  let st := (c.mstatus &&& ~~~(0x1888 : Word)) ||| (if c.mstatus.getLsbD 7 then 8 else 0) ||| 0x80
  let toM := wbits c.mstatus 11 2 = 3
  { c with mstatus := if toM then st else st &&& ~~~(0x20000 : Word), mach := toM, pc := c.mepc }

/-- STANDARD_RV64_INSTRUCTION: a standard instruction, two bytes long when `short`. Standard loads and stores raise CAP with
cause LEGACY; the register that CAP names is then a free value. WFI ends at once. -/
def execRv64 (short : Bool) (i : RvInstr) (s : State) : Out :=
  let len : Word := if short then 2 else 4
  let c := s.core
  let goOn (c : GCore) : GCore := { c with pc := c.pc + len }
  let ill : Out := .next (s.gExceptOpt 2 (match s.gFetch with | .word w => w.setWidth 64 | _ => 0))
  match i with
  | .lui rd imm => .next (s.modCore (fun c => goOn (c.setX rd ((imm ++ (0 : BitVec 12)).signExtend 64))))
  | .auipc rd imm => .next (s.modCore (fun c => goOn (c.setX rd (c.pc + (imm ++ (0 : BitVec 12)).signExtend 64))))
  | .jal rd off => .next (s.modCore (fun c => { c.setX rd (c.pc + len) with pc := c.pc + off.signExtend 64 }))
  | .jalr rd rs1 off =>
    .next (s.modCore (fun c => { c.setX rd (c.pc + len) with pc := (c.xr rs1 + off.signExtend 64) &&& ~~~(1 : Word) }))
  | .branch cnd rs1 rs2 off =>
    .next (s.modCore (fun c => if rvTaken cnd (c.xr rs1) (c.xr rs2) then { c with pc := c.pc + off.signExtend 64 } else goOn c))
  | .load _ _ _ _ =>
    .next (s.drawn.gExcept 24 (BitVec.ofNat 64 (0x0B + 256 * (s.freeBelow 64))))
  | .store _ _ _ _ =>
    .next (s.drawn.gExcept 24 (BitVec.ofNat 64 (0x0B + 256 * (s.freeBelow 64))))
  | .opImm o rd rs1 imm => .next (s.modCore (fun c => goOn (c.setX rd (rvAlu o (c.xr rs1) (imm.signExtend 64)))))
  | .op o rd rs1 rs2 => .next (s.modCore (fun c => goOn (c.setX rd (rvAlu o (c.xr rs1) (c.xr rs2)))))
  | .fence => .next (s.modCore goOn)
  | .ecall => .next (s.gExcept (if c.mach then 11 else 8) 0)
  | .ebreak => .next (s.gExceptOpt 3 c.pc)
  | .mret => if c.mach then .next (s.modCore GCore.mret) else ill
  | .wfi => if c.mach || !c.mstatus.getLsbD 21 then .next (s.modCore goOn) else ill
  | .csr o rd src isImm num =>
    let operand : Word := if isImm then src.setWidth 64 else c.xr src
    let writes := o = .rw || src ≠ 0
    if !c.csrOk num.toNat writes then ill
    else
      let old := s.csrRead num.toNat
      let new := match o with
        | .rw => operand
        | .rs => old ||| operand
        | .rc => old &&& ~~~operand
      .next (s.drawn.modCore (fun c => goOn ((if writes then c.csrWrite num.toNat new else c).setX rd old)))

end Sys2Proof.Machine
end

