-- ==== Sys2Proof/Machine/Egress.lean ====
section
/-! DEFINITION. The pixel side of the eight encoders: the fields of an EGSUB block, the blocks of a frame in the order of their
arrival, and the taking of chunks from the tiles' egress queues (R241, R242). -/

namespace Sys2Proof.Machine

/-- W0 of a command block. -/
def w0 (b : List Byte) : Word := wordAt b 0 8
/-- Bits of W0's ARG. -/
def argBits (b : List Byte) (l n : Nat) : Nat := wbits (w0 b) l n

/-- The encoder of a frame (R241). -/
def egEnc (b : List Byte) : Fin 8 := Fin.ofNat 8 (argBits b 0 3)
/-- DEPTH: 10 bits. -/
def egDeep (b : List Byte) : Bool := argBits b 3 1 = 1
def egKey (b : List Byte) : Bool := argBits b 4 1 = 1
def egWidth (b : List Byte) : Nat := fieldAt b 8 2
def egHeight (b : List Byte) : Nat := fieldAt b 10 2
def egMask (b : List Byte) : Word := wordAt b 40 8
/-- Bytes of a sample, and of a reconstruction. -/
def egSample (b : List Byte) : Nat := if egDeep b then 2 else 1
def egRecon (b : List Byte) : Nat := egWidth b * egHeight b * 3 / 2 * egSample b

/-- The 128 × 128 blocks of a plane whose first block row has number `q0`: width, height, block row. -/
def planeBlocks (w h q0 : Nat) : List (Nat × Nat × Nat) :=
  (List.range ((h + 127) / 128)).flatMap (fun y =>
    (List.range ((w + 127) / 128)).map (fun x => (min 128 (w - 128 * x), min 128 (h - 128 * y), q0 + y)))

/-- The blocks of a frame in the order Y, Cb, Cr (R242). -/
def egBlocks (b : List Byte) : List (Nat × Nat × Nat) :=
  let w := egWidth b
  let h := egHeight b
  let ry := (h + 127) / 128
  let rc := (h / 2 + 127) / 128
  planeBlocks w h 0 ++ (planeBlocks (w / 2) (h / 2) ry ++ planeBlocks (w / 2) (h / 2) (ry + rc))

/-- The tile that supplies a block row (R242). -/
def egTile (b : List Byte) (q : Nat) : Tile :=
  let l := tilesOf (egMask b)
  l.getD (q % l.length) 0

/-- The samples that the encoder uses of a chunk: the first `w` columns of those of its rows that lie in the block. -/
def chunkSamples (size w h first : Nat) (c : VReg) : List Byte :=
  let bs := vBytes c
  (List.range (4 / size)).flatMap (fun r =>
    if first * (4 / size) + r < h then (bs.drop (r * 128 * size)).take (w * size) else [])

/-- Takes one chunk of the block in hand for the frame at the head of the queue, when the supplying tile holds one. A drain that
does not match is counted as the block all the same (R243). -/
def State.encTakeOne (s : State) (e : Fin 8) : Option State :=
  let x := s.encs[e]
  match x.frames with
  | f :: _ =>
    match (egBlocks f.block)[x.blocksDone]? with
    | some (w, h, q) =>
      let t := egTile f.block q
      match vGet (s.tile t).egress e with
      | c :: r =>
        let size := egSample f.block
        let bad := c.vr != h || c.fmt != (if size = 2 then 8 else 7)
        let s := s.modTile t (fun y => { y with egress := vSet y.egress e r })
        some (s.modEnc e (fun x => { x with
          pixels := x.pixels ++ chunkSamples size w h x.chunksDone c.data, mismatch := x.mismatch || bad,
          chunksDone := if c.last then 0 else x.chunksDone + 1, blocksDone := if c.last then x.blocksDone + 1 else x.blocksDone }))
      | [] => none
    | none => none
  | [] => none

/-- Takes chunks while any can be taken. -/
def State.encTakeN : Nat → State → Fin 8 → State
  | 0, s, _ => s
  | n + 1, s, e =>
    match s.encTakeOne e with
    | some s => State.encTakeN n s e
    | none => s

/-- An egress queue holds at most 64 chunks on each tile (R242). -/
def State.encTake (s : State) (e : Fin 8) : State := State.encTakeN 4097 s e

end Sys2Proof.Machine
end

