-- ==== Sys2Proof/Machine/Av1.lean ====
section
/-! DEFINITION. The bitstream of an encoder (R240, R241): the OBUs of a frame, with every syntax element that R240 fixes at its value
and its place in the AV1 syntax, and the encoder's own choices free. -/

namespace Sys2Proof.Machine

/-- A field of `n` bits, most significant first, as AV1's f(n). -/
def f_ (n v : Nat) : List Bool := (List.range n).map (fun i => v.testBit (n - 1 - i))

/-- Bytes of a bit string, most significant bit first, the last byte filled with zeros. -/
def packBits : Nat → List Bool → List Byte
  | 0, _ => []
  | n + 1, bs =>
    if bs.isEmpty then [] else
      BitVec.ofNat 8 ((List.range 8).foldl (fun v i => 2 * v + (if (bs[i]?).getD false then 1 else 0)) 0) :: packBits n (bs.drop 8)
def bitBytes (bs : List Bool) : List Byte := packBits (bs.length / 8 + 1) bs

/-- AV1's leb128 of a size. -/
def leb128 : Nat → Nat → List Byte
  | 0, _ => []
  | n + 1, v => if v < 128 then [BitVec.ofNat 8 v] else BitVec.ofNat 8 (128 + v % 128) :: leb128 n (v / 128)

/-- An OBU: its header with obu_has_size_field 1, its size, its payload. -/
def obu (ty : Nat) (payload : List Byte) : List Byte := BitVec.ofNat 8 (8 * ty + 2) :: (leb128 8 payload.length ++ payload)

/-- A free element of `n` bits, and a free flag. -/
def ownBits (b : List Byte) (k n : Nat) : List Bool := f_ n (Config.av1Choice b k % 2 ^ n)
def ownFlag (b : List Byte) (k : Nat) : Bool := Config.av1Choice b k % 2 = 1

/-- LEVEL, LOG2COLS, LOG2ROWS and the quantiser of a frame (R241). -/
def egLevel (b : List Byte) : Nat := argBits b 13 5
def egCols (b : List Byte) : Nat := argBits b 6 3
def egRows (b : List Byte) : Nat := argBits b 9 3
def egQidx (b : List Byte) : Nat := if argBits b 5 1 = 0 then fieldAt b 12 4 else Config.av1Choice b 0 % 256

/-- The bits that hold the frame's width or height: enough for it, up to 16. -/
def dimBits (b : List Byte) (k v : Nat) : Nat :=
  let least := Nat.log2 (max 1 (v - 1)) + 1
  least + Config.av1Choice b k % (17 - least)

/-- The elements of the sequence header that the encoder chooses and that later syntax depends on: screen content tools chosen frame
by frame (else their fixed value), the same for integer motion vectors. -/
def seqScreenSel (b : List Byte) : Bool := ownFlag b 10
def seqScreenOn (b : List Byte) : Bool := ownFlag b 11
def seqMvSel (b : List Byte) : Bool := ownFlag b 12
def seqMvInt (b : List Byte) : Bool := ownFlag b 13

/-- sequence_header_obu: Main profile, no still picture, no timing information, one operating point, seq_level_idx = LEVEL, no frame
identifiers, 64-sample superblocks, no order hints, no superres, CDEF, no restoration, the depth, 4:2:0 in colour, no film grain. -/
def seqHeader (b : List Byte) : List Bool :=
  let nw := dimBits b 1 (egWidth b)
  let nh := dimBits b 2 (egHeight b)
  let delay := ownFlag b 15
  [f_ 3 0, f_ 1 0, f_ 1 0, f_ 1 0, [delay], f_ 5 0, f_ 12 0, f_ 5 (egLevel b), if 7 < egLevel b then ownBits b 3 1 else [],
   if delay then [ownFlag b 16] ++ (if ownFlag b 16 then ownBits b 17 4 else []) else [],
   f_ 4 (nw - 1), f_ 4 (nh - 1), f_ nw (egWidth b - 1), f_ nh (egHeight b - 1), f_ 1 0, f_ 1 0,
   ownBits b 4 1, ownBits b 5 1, ownBits b 6 1, ownBits b 7 1, ownBits b 8 1, ownBits b 9 1, f_ 1 0,
   [seqScreenSel b], if seqScreenSel b then [] else [seqScreenOn b],
   if seqScreenSel b || seqScreenOn b then [seqMvSel b] ++ (if seqMvSel b then [] else [seqMvInt b]) else [],
   f_ 1 0, f_ 1 1, f_ 1 0,
   f_ 1 (argBits b 3 1), f_ 1 0, f_ 1 0, f_ 1 0, f_ 2 0, ownBits b 14 1, f_ 1 0, [true]].flatten

/-- The superblock columns that an inter frame codes as intra under IRP (R241). -/
def intraColumns (b : List Byte) : List Nat :=
  let n := fieldAt b 28 2
  let cols := (egWidth b + 63) / 64
  let k := fieldAt b 32 4 % n
  if n = 0 || egKey b then [] else (List.range ((k + 1) * cols / n - k * cols / n)).map (fun i => k * cols / n + i)

/-- AV1's increment bits of a tile count's logarithm, from `lo` up to `hi`. -/
def tileLog2 (lo hi v : Nat) : List Bool := List.replicate (min v hi - lo) true ++ (if v < hi then [false] else [])
/-- The least k with `1 << k` times a block at least a target. -/
def tileFit (blk target : Nat) : Nat := ((List.range 13).find? (fun k => target ≤ blk * 2 ^ k)).getD 12

/-- tile_info with uniform_tile_spacing_flag 1: 64-sample superblocks, 4,096 samples at most across a tile. -/
def tileInfo (b : List Byte) : List Bool :=
  let cols := (egWidth b + 63) / 64
  let rows := (egHeight b + 63) / 64
  let lo := tileFit 64 cols
  let least := max lo (tileFit 2304 (rows * cols))
  [f_ 1 1, tileLog2 lo (tileFit 1 (min cols 64)) (egCols b), tileLog2 (least - egCols b) (tileFit 1 (min rows 64)) (egRows b),
   if egCols b + egRows b = 0 then [] else ownBits b 20 (egCols b + egRows b) ++ ownBits b 21 2].flatten

/-- uncompressed_header as far as base_q_idx: KEY_FRAME or INTER_FRAME, show_frame 1, error_resilient_mode 0 where it is coded,
refresh_frame_flags 0x01 and every ref_frame_idx 0 on inter frames (0xFF is implied on key frames). -/
def frameHeader (b : List Byte) : List Bool :=
  let inter := !egKey b
  let cdfOff := ownFlag b 30
  let screen := if seqScreenSel b then ownFlag b 31 else seqScreenOn b
  let intMv := screen && (if seqMvSel b then ownFlag b 32 else seqMvInt b)
  let size := ownFlag b 33
  let render := if ownFlag b 42 then [true] ++ (ownBits b 43 16 ++ ownBits b 44 16) else [false]
  let dims := (if size then f_ (dimBits b 1 (egWidth b)) (egWidth b - 1) ++ f_ (dimBits b 2 (egHeight b)) (egHeight b - 1) else []) ++ render
  let found := size && ownFlag b 34
  let own : List Bool :=
    if inter then
      [ownBits b 35 3, f_ 8 1, f_ 21 0, if found then [true] else if size then List.replicate 7 false ++ dims else dims,
       if intMv then [] else ownBits b 36 1, if ownFlag b 37 then [true] else [false] ++ ownBits b 38 2, ownBits b 39 1].flatten
    else dims ++ (if screen then ownBits b 40 1 else [])
  [f_ 1 0, f_ 2 (if inter then 1 else 0), f_ 1 1, if inter then f_ 1 0 else [], [cdfOff], if seqScreenSel b then [screen] else [],
   if screen && seqMvSel b then [intMv] else [], [size], own,
   if cdfOff then [] else ownBits b 41 1, tileInfo b, f_ 8 (egQidx b)].flatten

/-- What an encoder writes for a frame: a temporal delimiter, a sequence header on a key frame or with SEQHDR, one OBU_FRAME. -/
def av1Stream (b pixels ref : List Byte) : List Byte :=
  let tail := Config.av1Tail b (egQidx b) (intraColumns b) pixels ref
  obu 2 [] ++ ((if egKey b || argBits b 12 1 = 1 then obu 1 (bitBytes (seqHeader b)) else []) ++
    obu 6 (bitBytes (frameHeader b ++ tail)))

end Sys2Proof.Machine
end

