-- ==== Sys2Proof/Machine/Fp.lean ====
section
/-! DEFINITION. Number formats to the bit (R17–R25), exact values, rounding and flags (R26–R32), floating-point operations rounded
once (R158, R161, R162, R168), MX blocks (R25), the special functions (R166, R167). -/

namespace Sys2Proof.Machine

/-- Exception flags in the order of YFFLAGS (R27). -/
abbrev FFlags := BitVec 5
def fNV : FFlags := 16
def fDZ : FFlags := 8
def fOF : FFlags := 4
def fUF : FFlags := 2
def fNX : FFlags := 1

/-- A floating-point format (R18): width, mantissa bits, bias; which codes are special. -/
inductive Specials where
  | ieee | e4m3 | none
  deriving DecidableEq, Repr
structure FpFmt where
  w : Nat
  m : Nat
  bias : Nat
  sp : Specials
  deriving DecidableEq, Repr

def fp32 : FpFmt := ⟨32, 23, 127, .ieee⟩
def fp16 : FpFmt := ⟨16, 10, 15, .ieee⟩
def bf16 : FpFmt := ⟨16, 7, 127, .ieee⟩
def e5m2 : FpFmt := ⟨8, 2, 15, .ieee⟩
def e4m3 : FpFmt := ⟨8, 3, 7, .e4m3⟩
def e3m2 : FpFmt := ⟨6, 2, 3, .none⟩
def e2m3 : FpFmt := ⟨6, 3, 1, .none⟩
def e2m1 : FpFmt := ⟨4, 1, 1, .none⟩

/-- The exponent field of all ones. -/
def FpFmt.emax (f : FpFmt) : Nat := 2 ^ (f.w - 1 - f.m) - 1
def FpFmt.sign (f : FpFmt) (neg : Bool) : Nat := if neg then 2 ^ (f.w - 1) else 0
/-- The pattern of the largest finite magnitude. -/
def FpFmt.maxPat (f : FpFmt) : Nat :=
  match f.sp with
  | .ieee => f.emax * 2 ^ f.m - 1
  | .e4m3 => 0x7E
  | .none => 2 ^ (f.w - 1) - 1
def FpFmt.infPat (f : FpFmt) : Nat := f.emax * 2 ^ f.m
/-- The canonical NaN (R29); +0 where the format has no NaN. -/
def FpFmt.nanPat (f : FpFmt) : Nat :=
  match f.sp with
  | .ieee => f.emax * 2 ^ f.m + 2 ^ (f.m - 1)
  | .e4m3 => 0x7F
  | .none => 0
/-- The exponent of the least bit of a subnormal. -/
def FpFmt.emin (f : FpFmt) : Int := 1 - (f.bias : Int) - (f.m : Int)

/-- A value: `fin neg mag exp` is (−1)^neg × mag × 2^exp; `nan true` is signalling, or the outcome of an invalid operation. -/
inductive FpVal where
  | nan (sig : Bool)
  | inf (neg : Bool)
  | fin (neg : Bool) (mag : Nat) (exp : Int)
  deriving DecidableEq, Repr

/-- The finite value of an exponent field and a mantissa (R19). -/
def FpFmt.finite (f : FpFmt) (neg : Bool) (e man : Nat) : FpVal :=
  if e = 0 then .fin neg man f.emin else .fin neg (2 ^ f.m + man) (f.emin + (e : Int) - 1)

/-- Reads a code for arithmetic, with the substitutes of R21 for the FP8 formats. -/
def FpFmt.read (f : FpFmt) (pat : Nat) : FpVal :=
  let neg := pat / 2 ^ (f.w - 1) % 2 = 1
  let e := pat / 2 ^ f.m % (f.emax + 1)
  let man := pat % 2 ^ f.m
  match f.sp with
  | .none => f.finite neg e man
  | .e4m3 => if e = f.emax && man = 7 then f.finite neg f.emax 6 else f.finite neg e man
  | .ieee =>
    if e ≠ f.emax then f.finite neg e man
    else if f.w = 8 then if man = 0 then f.finite neg (f.emax - 1) 3 else .fin false 0 f.emin
    else if man = 0 then .inf neg
    else .nan (man / 2 ^ (f.m - 1) = 0)

/-! ## Rounding (R26) -/

/-- Whether a remainder of `rem` in `2 ^ sh` rounds the magnitude `n` up. -/
def roundsUp (mode : Nat) (neg : Bool) (n rem sh : Nat) : Bool :=
  if rem = 0 then false
  else match mode with
    | 0 => decide (2 ^ sh < 2 * rem) || (decide (2 * rem = 2 ^ sh) && decide (n % 2 = 1))
    | 1 => false
    | 2 => neg
    | _ => !neg

/-- `mag × 2^exp` as a rounded multiple of `2^q`, and whether it is inexact. -/
def roundAt (mode : Nat) (neg : Bool) (mag : Nat) (exp q : Int) : Nat × Bool :=
  if q ≤ exp then (mag * 2 ^ (exp - q).toNat, false)
  else
    let sh := (q - exp).toNat
    let n := mag / 2 ^ sh
    let rem := mag % 2 ^ sh
    (if roundsUp mode neg n rem sh then n + 1 else n, rem != 0)

/-- A rounded finite value: its pattern, and whether it overflows, is tiny after rounding (with an unbounded exponent), is
inexact. -/
structure Rounded where
  pat : Nat
  overflow : Bool
  tiny : Bool
  inexact : Bool
  deriving DecidableEq, Repr

/-- What an overflow delivers (R29). -/
def FpFmt.overflow (f : FpFmt) (mode : Nat) (sat neg : Bool) : Nat :=
  let toInf := f.sp = .ieee && (!sat && (mode = 0 || (mode = 2 && neg) || (mode = 3 && !neg)))
  f.sign neg + (if toInf then f.infPat else f.maxPat)

/-- Rounds a finite value once to a format. -/
def FpFmt.round (f : FpFmt) (mode : Nat) (sat neg : Bool) (mag : Nat) (exp : Int) : Rounded :=
  if mag = 0 then ⟨f.sign neg, false, false, false⟩
  else
    let q0 := exp + (Nat.log2 mag : Int) - (f.m : Int)
    let q := max q0 f.emin
    let r := roundAt mode neg mag exp q
    let body := (q - f.emin).toNat * 2 ^ f.m + r.1
    let tiny := q0 < f.emin && !(q0 + 1 = f.emin && (roundAt mode neg mag exp q0).1 = 2 ^ (f.m + 1))
    if f.maxPat < body then ⟨f.overflow mode sat neg, true, false, true⟩
    else ⟨f.sign neg + body, false, tiny, r.2⟩

/-- The flags of a rounding. -/
def Rounded.flags (r : Rounded) : FFlags :=
  (if r.overflow then fOF else 0) ||| ((if r.inexact then fNX else 0) ||| (if r.tiny && r.inexact then fUF else 0))

/-- A value delivered in a format (R29, R158). -/
def FpFmt.deliver (f : FpFmt) (mode : Nat) (sat : Bool) (v : FpVal) : Nat × FFlags :=
  match v with
  | .nan sig => (f.nanPat, if sig || f.sp = .none then fNV else 0)
  | .inf neg => if f.sp = .ieee && !sat then (f.sign neg + f.infPat, 0) else (f.sign neg + f.maxPat, fNX)
  | .fin neg mag exp =>
    let r := f.round mode sat neg mag exp
    (r.pat, r.flags)

/-- A value as an integer of a range (R30). -/
def fpToInt (mode : Nat) (lo hi : Int) (v : FpVal) : Int × FFlags :=
  match v with
  | .nan _ => (0, fNV)
  | .inf neg => (if neg then lo else hi, fNV)
  | .fin neg mag exp =>
    let r := roundAt mode neg mag exp 0
    let x : Int := if neg then -(r.1 : Int) else r.1
    if x < lo then (lo, fNV) else if hi < x then (hi, fNV) else (x, if r.2 then fNX else 0)

/-- An integer as a value; 0 is +0. -/
def fpOfInt (x : Int) : FpVal := .fin (x < 0) x.natAbs 0

/-! ## Integers (R31, R158) -/

/-- Wraps to `w` bits, or clamps to a range first. -/
def intNarrow (w : Nat) (lo hi : Int) (sat : Bool) (x : Int) : Nat :=
  let y := if sat then max lo (min hi x) else x
  (y % ((2 : Int) ^ w)).toNat

/-- A pattern of `w` bits read as signed. -/
def intSigned (w pat : Nat) : Int := if pat < 2 ^ (w - 1) then pat else (pat : Int) - (2 : Int) ^ w

/-! ## Exact operations -/

/-- The signed integer of a finite value at an exponent not above its own. -/
def alignedAt (neg : Bool) (mag : Nat) (exp e : Int) : Int :=
  let n : Int := (mag * 2 ^ (exp - e).toNat : Nat)
  if neg then -n else n

def FpVal.neg : FpVal → FpVal
  | .nan s => .nan s
  | .inf n => .inf (!n)
  | .fin n m e => .fin (!n) m e

/-- The exact product; 0 × ∞ is invalid. -/
def FpVal.mul : FpVal → FpVal → FpVal
  | .nan s, .nan t => .nan (s || t)
  | .nan s, _ => .nan s
  | _, .nan s => .nan s
  | .inf n, .inf m => .inf (n != m)
  | .inf n, .fin m k _ => if k = 0 then .nan true else .inf (n != m)
  | .fin m k _, .inf n => if k = 0 then .nan true else .inf (n != m)
  | .fin n a e, .fin m b g => .fin (n != m) (a * b) (e + g)

/-- The exact sum of a list; an exact zero takes the one sign of zero addends, else +0, −0 under RDN (IEEE 754-2019, R168).
Infinities of both signs beside a quiet NaN raise no NV (the model's choice: R168 is silent). -/
def fpSum (mode : Nat) (vs : List FpVal) : FpVal :=
  let nan := vs.any (fun v => match v with | .nan _ => true | _ => false)
  let sig := vs.any (fun v => match v with | .nan s => s | _ => false)
  let pinf := vs.any (fun v => v = .inf false)
  let ninf := vs.any (fun v => v = .inf true)
  if nan then .nan sig
  else if pinf && ninf then .nan true
  else if pinf then .inf false
  else if ninf then .inf true
  else
    let e := vs.foldl (fun m v => match v with | .fin _ k x => if k = 0 then m else min m x | _ => m) 0
    let t := vs.foldl (fun (a : Int) v => match v with | .fin n k x => if k = 0 then a else a + alignedAt n k x e | _ => a) 0
    if t ≠ 0 then .fin (t < 0) t.natAbs e
    else
      let zero (n : Bool) (v : FpVal) : Bool := match v with | .fin m k _ => k = 0 && m == n | _ => false
      if vs = [] then .fin false 0 0
      else if vs.all (zero false) then .fin false 0 0
      else if vs.all (zero true) then .fin true 0 0
      else .fin (mode = 2) 0 0

/-- `a × b + c`, or `c − a × b`, before rounding: an invalid product is invalid whatever the addend. -/
def fpFma (mode : Nat) (sub : Bool) (a b c : FpVal) : FpVal :=
  let p := a.mul b
  let p := if sub then p.neg else p
  match p with
  | .nan true => .nan true
  | p => fpSum mode [p, c]

/-- Order of numbers, −0 below +0 (R162). -/
def FpVal.lt : FpVal → FpVal → Bool
  | .inf n, .inf m => n && !m
  | .inf n, .fin _ _ _ => n
  | .fin _ _ _, .inf m => !m
  | .fin n a e, .fin m b g =>
    let k := min e g
    let x := alignedAt n a e k
    let y := alignedAt m b g k
    x < y || (x = y && (a = 0 && (n && !m)))
  | _, _ => false
/-- Equality of numbers, −0 equal to +0 (R164). -/
def FpVal.eqv (a b : FpVal) : Bool :=
  match a, b with
  | .fin n x e, .fin m y g =>
    let k := min e g
    alignedAt n x e k = alignedAt m y g k
  | .inf n, .inf m => n == m
  | _, _ => false

def FpVal.isNan : FpVal → Bool
  | .nan _ => true
  | _ => false
def FpVal.isSig : FpVal → Bool
  | .nan s => s
  | _ => false

/-- The larger or the smaller of the numbers, a NaN giving way to a number (R162). -/
def fpPick (max : Bool) (a b : FpVal) : FpVal :=
  if a.isNan then b else if b.isNan then a else if a.lt b == max then b else a

/-! ## MX blocks (R23–R25) -/

/-- The exponent of an E8M0 scale code, 0xFF read as 2¹²⁷. -/
def e8m0 (c : Nat) : Int := if c = 255 then 127 else (c : Int) - 127

/-- ⌊log2⌋ of a non-zero finite magnitude. -/
def FpVal.exp2 : FpVal → Option Int
  | .fin _ m e => if m = 0 then none else some (e + (Nat.log2 m : Int))
  | _ => none

/-- A value scaled by a power of two. -/
def FpVal.scale (v : FpVal) (k : Int) : FpVal :=
  match v with
  | .fin n m e => .fin n m (e + k)
  | v => v

/-- Quantises a block: the scale code, the element codes, the flags. A tiny inexact element raises UF with NX (the model's choice: R25
gives one that rounds to 6 or below NX alone, and R29 gives UF to a tiny one). -/
def mxQuant (mode : Nat) (vs : List FpVal) : Nat × List Nat × FFlags :=
  let big := (vs.filterMap FpVal.exp2).foldl (fun (a : Option Int) x => some (match a with | some y => max x y | none => x)) none
  let s : Nat := match big with
    | some e => (max (-127) (min 127 (e - 2)) + 127).toNat
    | none => 0
  let cs := vs.map (fun v => e2m1.deliver mode false (v.scale (127 - (s : Int))))
  (s, cs.map (·.1), cs.foldl (fun a c => a ||| c.2) 0)

/-! ## Special functions (R166, R167)

The exact value is enclosed in an interval of rationals and rounded at both ends; the result is theirs where they agree. The one
case that the enclosure would leave open is a free value. -/

/-- The working precision in bits. -/
def sfuBits : Nat := 640

/-- The integer square root, bit by bit. -/
def sqrtBits (n : Nat) : Nat → Nat → Nat
  | 0, r => r
  | k + 1, r => sqrtBits n k (if (r + 2 ^ k) * (r + 2 ^ k) ≤ n then r + 2 ^ k else r)
def natSqrt (n : Nat) : Nat := sqrtBits n (Nat.log2 n / 2 + 1) 0

/-- Terms z^(2k+1) ÷ (2k+1) of the series of artanh, or alternating of arctan, at z = 1 ÷ d in fixed point. -/
def seriesInv (d : Nat) (alt : Bool) : Nat → Nat → Nat → Int
  | 0, _, _ => 0
  | fuel + 1, k, t =>
    let x : Int := ((t / (2 * k + 1) : Nat) : Int)
    (if alt && k % 2 = 1 then -x else x) + seriesInv d alt fuel (k + 1) (t / (d * d))

/-- ln 2 = 2 artanh(1 ÷ 3) in fixed point, within 2⁻⁶⁴⁰ × 2¹⁰. -/
def ln2Fix : Int := 2 * seriesInv 3 false 260 0 (2 ^ sfuBits / 3)
/-- π by Machin's formula. -/
def piFix : Int := 16 * seriesInv 5 true 180 0 (2 ^ sfuBits / 5) - 4 * seriesInv 239 true 60 0 (2 ^ sfuBits / 239)
/-- The slack that covers the truncations of these sums. -/
def fixSlack : Int := 4096

/-- An interval of dyadic rationals: [lo, hi] × 2^exp. -/
structure Ivl where
  lo : Int
  hi : Int
  exp : Int
  deriving DecidableEq, Repr

/-- Brings an interval to a smaller exponent. -/
def Ivl.at (x : Ivl) (e : Int) : Ivl := ⟨x.lo * 2 ^ (x.exp - e).toNat, x.hi * 2 ^ (x.exp - e).toNat, e⟩
def Ivl.add (x y : Ivl) : Ivl :=
  let e := min x.exp y.exp
  ⟨(x.at e).lo + (y.at e).lo, (x.at e).hi + (y.at e).hi, e⟩
def Ivl.neg (x : Ivl) : Ivl := ⟨-x.hi, -x.lo, x.exp⟩
/-- The product by an interval of non-negative numbers. -/
def Ivl.mulPos (x y : Ivl) : Ivl :=
  ⟨min (x.lo * y.lo) (x.lo * y.hi), max (x.hi * y.lo) (x.hi * y.hi), x.exp + y.exp⟩
/-- Division by an interval of positive numbers. -/
def Ivl.divPos (x y : Ivl) : Ivl :=
  let k : Int := 2 ^ (2 * sfuBits + (y.hi.natAbs).log2)
  ⟨min (x.lo * k / y.hi) (x.lo * k / y.lo), max (x.hi * k / y.lo) (x.hi * k / y.hi) + 1,
   x.exp - y.exp - ((2 * sfuBits + (y.hi.natAbs).log2 : Nat) : Int)⟩
/-- An exact value. -/
def Ivl.exact (neg : Bool) (mag : Nat) (exp : Int) : Ivl := let n : Int := if neg then -(mag : Int) else mag; ⟨n, n, exp⟩
def Ivl.one : Ivl := ⟨1, 1, 0⟩

/-- The Taylor sum of e^r, 0 ≤ r < 1, in fixed point, terms truncated. -/
def taylor (r : Nat) : Nat → Nat → Nat → Nat
  | 0, _, _ => 0
  | fuel + 1, k, t => t + taylor r fuel (k + 1) (t * r / 2 ^ sfuBits / (k + 1))

/-- e^y for y in an interval of fixed-point numbers (scale 2⁻⁶⁴⁰). -/
def expFix (lo hi : Int) : Ivl :=
  let n := lo / (ln2Fix + fixSlack)
  let r (y l : Int) : Nat := (y - n * l).toNat
  let rl := r lo (if n < 0 then ln2Fix - fixSlack else ln2Fix + fixSlack)
  let rh := r hi (if n < 0 then ln2Fix + fixSlack else ln2Fix - fixSlack)
  ⟨(taylor rl 140 0 (2 ^ sfuBits) : Nat), (taylor rh 140 0 (2 ^ sfuBits) : Nat) + fixSlack, n - (sfuBits : Int)⟩

/-- A number in fixed point between two integers, kept to |y| ≤ 1000: beyond that every format has overflowed or vanished. -/
def toFix (x : Ivl) : Int × Int :=
  let e : Int := -(sfuBits : Int)
  let d : Int := 2 ^ (e - x.exp).toNat
  let b : Int := 1000 * 2 ^ sfuBits
  let p := if e ≤ x.exp then ((x.at e).lo, (x.at e).hi) else (x.lo / d, x.hi / d + 1)
  (max (-b) (min b p.1), max (-b) (min b p.2))

/-- e^x. -/
def Ivl.expE (x : Ivl) : Ivl := let p := toFix x; expFix p.1 p.2

/-- The series of artanh at z in fixed point (z² given), truncated. -/
def artanhSum (z2 : Nat) : Nat → Nat → Nat → Nat
  | 0, _, _ => 0
  | fuel + 1, k, t => t / (2 * k + 1) + artanhSum z2 fuel (k + 1) (t * z2 / 2 ^ sfuBits)

/-- log2 of mag × 2^exp, where mag is no power of two: its exponent plus 2 artanh((m − 1) ÷ (m + 1)) ÷ ln 2. -/
def log2Ivl (mag : Nat) (exp : Int) : Ivl :=
  let l := Nat.log2 mag
  let z := (mag - 2 ^ l) * 2 ^ sfuBits / (mag + 2 ^ l)
  let t (z : Nat) : Int := 2 * ((artanhSum (z * z / 2 ^ sfuBits) 220 0 z : Nat) : Int)
  let ln : Ivl := ⟨t z - fixSlack, t (z + 1) + fixSlack, 0⟩
  (ln.divPos ⟨ln2Fix - fixSlack, ln2Fix + fixSlack, 0⟩).add ⟨exp + (l : Int), exp + (l : Int), 0⟩

/-- √(2 ÷ π) in fixed point. -/
def sqrt2Pi : Ivl :=
  let s (p : Int) : Int := ((natSqrt (2 * 2 ^ (3 * sfuBits) / p.toNat) : Nat) : Int)
  ⟨s (piFix + fixSlack), s (piFix - fixSlack) + 1, -(sfuBits : Int)⟩

/-- The functions of VSFU, by the code of field b (R166). -/
inductive Sfu where
  | exp2 | exp | rcp | rsqrt | log2 | tanh | sigmoid | gelu | silu
  deriving DecidableEq, Repr
def Sfu.ofCode : Nat → Sfu
  | 0 => .exp2 | 1 => .exp | 2 => .rcp | 3 => .rsqrt | 4 => .log2 | 5 => .tanh | 6 => .sigmoid | 7 => .gelu | _ => .silu

/-- The enclosure of a function that has no exact value at a finite non-zero operand. -/
def sfuIvl (fn : Sfu) (neg : Bool) (mag : Nat) (exp : Int) : Ivl :=
  let x := Ivl.exact neg mag exp
  match fn with
  | .exp2 =>
    let p := toFix x
    let y (v : Int) (l : Int) : Int := v * l / 2 ^ sfuBits
    let ll := ln2Fix - fixSlack
    let lh := ln2Fix + fixSlack
    expFix (min (y p.1 ll) (y p.1 lh)) (max (y p.2 ll) (y p.2 lh) + 1)
  | .exp => x.expE
  | .log2 => log2Ivl mag exp
  | .tanh =>
    let q := (Ivl.exact true mag (exp + 1)).expE
    let t := (Ivl.one.add q.neg).divPos (Ivl.one.add q)
    if neg then t.neg else t
  | .sigmoid => Ivl.one.divPos (Ivl.one.add x.neg.expE)
  | .silu => x.divPos (Ivl.one.add x.neg.expE)
  | .gelu =>
    let cube := Ivl.exact neg (mag * mag * mag * 44715) (3 * exp)
    let inner := (Ivl.exact neg (mag * 1000000) exp).add cube
    let t2 := (inner.mulPos ⟨2 * sqrt2Pi.lo, 2 * sqrt2Pi.hi, sqrt2Pi.exp⟩).divPos ⟨1000000, 1000000, 0⟩
    x.divPos (Ivl.one.add t2.neg.expE)
  | _ => x

/-- |x| is at least `b`. -/
def sfuFar (b mag : Nat) (exp : Int) : Bool := if 0 ≤ exp then b ≤ mag * 2 ^ (min exp 40).toNat else b * 2 ^ (-exp).toNat ≤ mag

/-- For |x| of 80 and more (16 for gelu), where the function is the limit times 1 − δ with 0 < δ < 2⁻¹⁰⁰: a number that rounds as it does. -/
def sfuNear (fn : Sfu) (neg : Bool) (mag : Nat) (exp : Int) : Option Ivl :=
  let near (neg : Bool) (mag : Nat) (exp : Int) : Option Ivl := some (Ivl.exact neg (mag * (2 ^ 100 - 1)) (exp - 100))
  if !sfuFar (if fn = .gelu then 16 else 80) mag exp then none
  else match fn with
    | .tanh => near neg 1 0
    | .sigmoid => if neg then none else near false 1 0
    | .gelu => if neg then none else near false mag exp
    | .silu => if neg then none else near false mag exp
    | _ => none

/-- The result of an interval rounded at both ends, inexact; none where the ends part. -/
def FpFmt.ivl (f : FpFmt) (mode : Nat) (sat : Bool) (x : Ivl) : Option (Nat × FFlags) :=
  let r (v : Int) : Rounded := f.round mode sat (v < 0) v.natAbs x.exp
  let a := r x.lo
  let b := r x.hi
  if a.pat = b.pat && (a.overflow == b.overflow && (a.tiny == b.tiny && ((x.lo < 0) == (x.hi < 0) && (x.lo != 0 && x.hi != 0)))) then
    some (a.pat, (if a.overflow then fOF else 0) ||| (fNX ||| (if a.tiny then fUF else 0)))
  else none

/-- A magnitude `q` with a remainder below it: one more bit says that the value is not exact. -/
def FpFmt.sticky (f : FpFmt) (mode : Nat) (sat neg : Bool) (q : Nat) (rest : Bool) (exp : Int) : Nat × FFlags :=
  let r := f.round mode sat neg (2 * q + (if rest then 1 else 0)) (exp - 1)
  (r.pat, r.flags)

/-- ±∞ from a division by zero: DZ only, the largest finite value under SAT (R158). -/
def FpFmt.divZero (f : FpFmt) (sat neg : Bool) : Nat × FFlags :=
  (f.sign neg + (if sat then f.maxPat else f.infPat), fDZ)

/-- A special function of a value, rounded once; none where the enclosure does not settle the rounding. -/
def FpFmt.sfu (f : FpFmt) (fn : Sfu) (mode : Nat) (sat : Bool) (v : FpVal) : Option (Nat × FFlags) :=
  let give (v : FpVal) : Option (Nat × FFlags) := some (f.deliver mode sat v)
  match v with
  | .nan s => give (.nan s)
  | .inf neg =>
    match fn with
    | .exp2 => if neg then give (.fin false 0 0) else give (.inf false)
    | .exp => if neg then give (.fin false 0 0) else give (.inf false)
    | .rcp => give (.fin neg 0 0)
    | .rsqrt => if neg then give (.nan true) else give (.fin false 0 0)
    | .log2 => if neg then give (.nan true) else give (.inf false)
    | .tanh => give (.fin neg 1 0)
    | .sigmoid => if neg then give (.fin false 0 0) else give (.fin false 1 0)
    | .gelu => if neg then give (.fin true 0 0) else give (.inf false)
    | .silu => if neg then give (.fin true 0 0) else give (.inf false)
  | .fin neg mag exp =>
    if mag = 0 then
      match fn with
      | .exp2 => give (.fin false 1 0)
      | .exp => give (.fin false 1 0)
      | .rcp => some (f.divZero sat neg)
      | .rsqrt => some (f.divZero sat neg)
      | .log2 => some (f.divZero sat true)
      | .sigmoid => give (.fin false 1 (-1))
      | .tanh => give (.fin neg 0 0)
      | .gelu => give (.fin neg 0 0)
      | .silu => give (.fin neg 0 0)
    else match fn with
      | .rcp =>
        let k := 64 + 2 * Nat.log2 mag
        some (f.sticky mode sat neg (2 ^ k / mag) (2 ^ k % mag != 0) (-exp - (k : Int)))
      | .rsqrt =>
        if neg then give (.nan true)
        else
          let odd := exp % 2 ≠ 0
          let m := if odd then 2 * mag else mag
          let e := if odd then exp - 1 else exp
          let k := 64 + 2 * Nat.log2 m
          let r := natSqrt (2 ^ (2 * k) / m)
          some (f.sticky mode sat false r (r * r * m != 2 ^ (2 * k)) (-(e / 2) - (k : Int)))
      | .log2 =>
        if neg then give (.nan true)
        else if mag = 2 ^ Nat.log2 mag then give (fpOfInt (exp + (Nat.log2 mag : Int)))
        else f.ivl mode sat (sfuIvl fn neg mag exp)
      | .exp2 =>
        let whole := exp ≥ 0 || mag % 2 ^ (-exp).toNat = 0
        if whole then
          let n : Int := if exp ≥ 0 then (mag * 2 ^ (min exp 40).toNat : Nat) else (mag / 2 ^ (-exp).toNat : Nat)
          let n := min 2000 n
          give (.fin false 1 (if neg then -n else n))
        else f.ivl mode sat (sfuIvl fn neg mag exp)
      | fn => f.ivl mode sat ((sfuNear fn neg mag exp).getD (sfuIvl fn neg mag exp))

end Sys2Proof.Machine
end

