-- ==== Sys2Proof/Machine/Pass.lean ====
section
/-! DEFINITION. A Rachis pass as the rest of the tile sees it: what it owns, its status word, its end and its traps (R245, R263, R265). -/

namespace Sys2Proof.Machine

/-- Rachis owns the matrix engine while its pass exists (R207). -/
def State.rachisOwns (s : State) : Bool := (s.rachis s.cur).pass.isSome

/-- The k register that receives a pass's keep mask (R247). -/
def Pass.kreg (p : Pass) : Nat := bitsOf (fieldAt p.desc 0 8) 12 2
/-- Bits set in the keep mask. -/
def Logic.keptNow (g : Logic) (p : Pass) : Nat :=
  ((List.range 1024).filter (fun b => (vGet g.vec.k p.kreg).getLsbD b)).length

/-- The pass status (R263): END, UPC, KEPT. -/
def Logic.passStatus (g : Logic) (p : Pass) (end_ : Nat) : Word :=
  BitVec.ofNat 64 (end_ * 2 ^ 40 + p.upc % 4096 * 2 ^ 28 + g.keptNow p)

/-- The pass ends with a status (R262, R265). -/
def Logic.endPass (g : Logic) (end_ : Nat) : Logic :=
  match g.rachis.pass with
  | some p => { g with rachis := { g.rachis with pass := none, last := g.passStatus p end_, lastNo := g.rachis.passNo } }
  | none => g
def State.endPass (s : State) (t : Tile) (end_ : Nat) : State := s.modLogic t (fun g => g.endPass end_)

/-- A fault of the pass, fatal to the task: UNIT 5, the tile's generation, the pass status with END = 1 (R265). -/
def State.trapPass (s : State) (t : Tile) (k : TrapKind) (addr : Option Word) : State :=
  if !s.trapTurn t .rachis 0 then s else
  let v := match (s.rachis t).pass with
    | some p => (s.logic t).passStatus p 1
    | none => 0
  ((s.postTrap t .rachis k v addr (s.gen t) false).2).endTaskOf t 4

/-- Entries of the copy queue that are taken, Rachis's own among them (R245). -/
def Logic.copyUsed (g : Logic) : Nat := g.copy.q.length + g.rachis.pass.elim 0 (·.entries)

end Sys2Proof.Machine
end

