-- ==== Sys2Proof/Machine/Operands.lean ====
section
/-! DEFINITION. Operand forms: immediates (R43), branch targets (R56), queue operands (R47, R84), target sequencers (R88),
address operands of L and S (R46). -/

namespace Sys2Proof.Machine

/-- SX(imm, n) as a 64-bit value (CI, CL, CW). -/
def sx {n : Nat} (i : BitVec n) : Word := i.signExtend 64

/-- The target of CB and CJ: blocks from the block of the PC (R56). -/
def blockTarget {n : Nat} (pc : Word) (off : BitVec n) : Word := (pc &&& ~~~(63 : Word)) + sx off * 64
/-- The block after the PC's block: what a link holds (R56). -/
def nextBlock (pc : Word) : Word := (pc &&& ~~~(63 : Word)) + 64

/-- The queue that a TK operand names (R84). -/
def tkQueue (b : Reg) : Fin 12 := Fin.ofNat 12 b.toNat

/-- The sequencer that a TSEQ target names: 1 L, 2 M, 3 S (R88). -/
def target (n : Reg) : Sq := if n = 1 then .l else if n = 2 then .m else .s

/-- The queue that a pop field names for a sequencer (R47). -/
def popQueue (u : Sq) (p : BitVec 3) : Option (Fin 12) :=
  match u, p.toNat with
  | .l, 1 => some 0 | .l, 2 => some 5 | .l, 3 => some 6 | .l, 4 => some 10
  | .m, 1 => some 1 | .m, 2 => some 3
  | .s, 1 => some 2 | .s, 2 => some 4
  | _, _ => none

/-- The queue that a push field names for a sequencer (R47). -/
def pushQueue (u : Sq) (q : BitVec 3) : Option (Fin 12) :=
  match u, q.toNat with
  | .l, 1 => some 3 | .l, 2 => some 7
  | .m, 1 => some 4 | .m, 2 => some 6 | .m, 3 => some 8
  | .s, 1 => some 5 | .s, 2 => some 9
  | _, _ => none

/-- The displacement of an EM operand in bytes: SX(off10, 10) × 64 (R46). -/
def emDisp (o : BitVec 10) : Word := sx o * 64

end Sys2Proof.Machine
end

