-- ==== Sys2Proof/Machine/ScalarMem.lean ====
section
/-! DEFINITION. C's accesses to memory: scalar loads and stores, atomics, flags and waits on words (R67, R76–R80, R120, R121),
their issue and their performance at home; an instruction word outside the maps (R52, R53). -/

namespace Sys2Proof.Machine

/-! ## Issue (R67) -/

/-- Room among the eight outstanding accesses that return a value, and the sixteen that do not. -/
def CSt.room (c : CSt) (returns : Bool) : Bool :=
  let n := (c.ops.filter (fun o => o.returns == returns)).length
  if returns then n < 8 else n < 16

/-- C waits for a plane to a device, as from the first refusal of the same access (R384). -/
def CWait.awaitPlane (x : CWait) (a : Word) (w : Bool) (now : Nat) : CWait :=
  match x with
  | .noPlane b _ since => .noPlane a w (if a = b then since else now)
  | _ => .noPlane a w now

/-- Issues an access: a place among the outstanding ones, the checks of R100, then the access stands in program order. -/
def State.cSend (s : State) (returns : Bool) (allow : Nat → Bool) (need : Need) (ptr : Word) (n align : Nat) (mk : Loc → COp) : State :=
  if !(s.c s.cur).room returns then s.cRetry false
  else match s.access s.cur allow need ptr n align with
    | (.ok l, s) => (s.modC s.cur (fun c => { c with ops := c.ops ++ [mk l] })).cNext
    | (.fail f, s) => s.failC f
    | (.noPlane a w, s) => s.modC s.cur (fun c => { c with wait := c.wait.awaitPlane a w s.dtime })

/-- SLDx (R76). -/
def State.cLoad (s : State) (n : Nat) (d a : Reg) (i : BitVec 16) : Out :=
  s.cIssueCtl [a] [d] (fun s => s.cSend true scalarSpaces .r (s.rs a + sx i) n n (fun l =>
    { kind := .load, loc := l, width := n, bit := 0, dst := d, ord := 0, scope := 0, poison := false }))
/-- SSTx (R76). -/
def State.cStore (s : State) (n : Nat) (d a : Reg) (i : BitVec 16) : Out :=
  s.cIssueCtl [a] [d] (fun s => s.cSend false scalarSpaces .w (s.rs a + sx i) n n (fun l =>
    { kind := .store (s.rs d), loc := l, width := n, bit := 0, dst := 0, ord := 0, scope := 0, poison := s.cPoisoned [d] }))

def execSldb (d a : Reg) (i : BitVec 16) (s : State) : Out := s.cLoad 1 d a i
def execSldh (d a : Reg) (i : BitVec 16) (s : State) : Out := s.cLoad 2 d a i
def execSldw (d a : Reg) (i : BitVec 16) (s : State) : Out := s.cLoad 4 d a i
def execSldd (d a : Reg) (i : BitVec 16) (s : State) : Out := s.cLoad 8 d a i
def execSstb (d a : Reg) (i : BitVec 16) (s : State) : Out := s.cStore 1 d a i
def execSsth (d a : Reg) (i : BitVec 16) (s : State) : Out := s.cStore 2 d a i
def execSstw (d a : Reg) (i : BitVec 16) (s : State) : Out := s.cStore 4 d a i
def execSstd (d a : Reg) (i : BitVec 16) (s : State) : Out := s.cStore 8 d a i

/-- The spaces of an atomic (R99): HOST takes AMOADD, AMOSWP and AMOCAS only. -/
def amoSpaces (op : AmoOp) (c : Nat) : Bool :=
  scalarSpaces c && (c != 7 || (op = .add || (op = .swp || op = .cas)))

/-- The AMO group (R120). -/
def State.cAmo (s : State) (op : AmoOp) (d a b : Reg) (sc : BitVec 3) (o : BitVec 2) : Out :=
  s.cIssueCtl [a] [d, b] (fun s => s.cSend true (amoSpaces op) .rw (s.rs a) 8 8 (fun l =>
    { kind := .amo op (s.rs b) (s.rs d), loc := l, width := 8, bit := 0, dst := d, ord := o, scope := sc,
      poison := s.cPoisoned (if op = .cas then [b, d] else [b]) }))

def execAmoadd (d a b : Reg) (sc : BitVec 3) (o : BitVec 2) (s : State) : Out := s.cAmo .add d a b sc o
def execAmoswp (d a b : Reg) (sc : BitVec 3) (o : BitVec 2) (s : State) : Out := s.cAmo .swp d a b sc o
def execAmocas (d a b : Reg) (sc : BitVec 3) (o : BitVec 2) (s : State) : Out := s.cAmo .cas d a b sc o
def execAmomax (d a b : Reg) (sc : BitVec 3) (o : BitVec 2) (s : State) : Out := s.cAmo .max d a b sc o
def execAmomin (d a b : Reg) (sc : BitVec 3) (o : BitVec 2) (s : State) : Out := s.cAmo .min d a b sc o
def execAmoor (d a b : Reg) (sc : BitVec 3) (o : BitVec 2) (s : State) : Out := s.cAmo .or d a b sc o
def execAmoand (d a b : Reg) (sc : BitVec 3) (o : BitVec 2) (s : State) : Out := s.cAmo .and d a b sc o

/-- A flag operation that does not wait for a value (R77, R78). -/
def State.cFlag (s : State) (k : COpKind) (returns : Bool) (d a b : Reg) (sc : BitVec 3) (o : BitVec 2) : Out :=
  s.cIssueCtl [a, b] [d] (fun s =>
    match s.flagAt s.cur (s.rs a) (s.rs b) (k != .ftest) with
    | .error f => s.failC f
    | .ok (h, f) =>
      if (s.c s.cur).room returns then
        (s.modC s.cur (fun c => { c with ops := c.ops ++ [{ kind := k, loc := .sync h (f / 8), width := 1, bit := f % 8, dst := d,
                                                            ord := o, scope := sc, poison := false }] })).cNext
      else s.cRetry false)

def execFset (a b : Reg) (sc : BitVec 3) (o : BitVec 2) (s : State) : Out := s.cFlag .fset false 0 a b sc o
def execFclr (a b : Reg) (sc : BitVec 3) (o : BitVec 2) (s : State) : Out := s.cFlag .fclr false 0 a b sc o
def execFtest (d a b : Reg) (sc : BitVec 3) (o : BitVec 2) (s : State) : Out := s.cFlag .ftest true d a b sc o
def execFtas (d a b : Reg) (sc : BitVec 3) (o : BitVec 2) (s : State) : Out := s.cFlag .ftas true d a b sc o

/-- An outstanding load of the tile's C waits for a full bin: C is stalled (R76, R103). -/
def State.binStall (s : State) (t : Tile) : Bool := (s.c t).ops.any (fun o => !s.cFull o)

/-- The load path of C or L reads `n` bytes, no more than a 64-byte block, ahead of a load: nothing orders a plain load after what its
sequencer does before it without an acquire (R137). Only an access that passes its checks, and that no earlier access of C holds back, is
read. -/
def State.readAhead (s : State) (t : Tile) (u : Sq) (ptr : Word) (n : Nat) : State :=
  let c := u == .c
  if !((s.tile t).runs && (n = 1 || (n = 2 || (n = 4 || (n = 8 || n = 64))) || (u == .l && (1 ≤ n && n ≤ 64)))) then s
  else match s.access t (if c then scalarSpaces else vectorSpaces) .r ptr n (if c then n else 1) with
    | (.ok l, s') =>
      if (!c || CSt.clearOf (s.c t).ops l n) && s.locFull l n then
        let e := (l, n, (s'.taskRead t l n true false).1, s'.poisonedAt l n)
        let s := (s'.taskRead t l n true false).2
        if c then s.modC t (fun x => { x with early := e :: earlyBut x.early l n })
        else s.modLs t false (fun x => { x with early := e :: earlyBut x.early l n })
      else s
    | _ => s

/-! ## Waiting on a flag (R79) and on a word (R80) -/

/-- FWAIT and FWAITC. -/
def State.cWaitFlag (s : State) (want : Bool) (a b : Reg) (sc : BitVec 3) (o : BitVec 2) : Out :=
  s.cIssueCtl [a, b] [] (fun s =>
    match s.flagAt s.cur (s.rs a) (s.rs b) false with
    | .error f => s.failC f
    | .ok (h, f) =>
      if !((s.c s.cur).room true && CSt.clearOf (s.c s.cur).ops (.sync h (f / 8)) 1) then s.cRetry false
      else if (s.tile h).flag f == want then (s.acquireFlag s.cur o sc (s.isNarrow s.cur h f)).cNext
      else (s.watchFor s.cur (.flag h f want)).modC s.cur (fun c => { c with wait := .flag h f want o sc, stall := 0 }))

def execFwait (a b : Reg) (sc : BitVec 3) (o : BitVec 2) (s : State) : Out := s.cWaitFlag true a b sc o
def execFwaitc (a b : Reg) (sc : BitVec 3) (o : BitVec 2) (s : State) : Out := s.cWaitFlag false a b sc o

/-- FWAIT_WAKE: a write after the registration gave the flag the awaited value. -/
def execFwaitWake (s : State) : Out :=
  match (s.c s.cur).wait with
  | .flag _ _ _ o sc => .next (if (s.tile s.cur).runs && s.woken s.cur then ((s.unwatch s.cur).acquireIf s.cur o sc).cNext else s)
  | _ => .next s

/-- The spaces of WAITA. -/
def waitaSpaces (c : Nat) : Bool := c ≤ 1 || c = 3

/-- The 64-byte block of a slice or sync location. -/
def Loc.block : Loc → Loc
  | .slice t x => .slice t (x / 64 * 64)
  | .sync t x => .sync t (x / 64 * 64)
  | l => l

/-- WAITA completes with the word as it stands; with an acquire, this load is it. -/
def State.waitaDone (s : State) (loc : Loc) (d : Reg) (sc : BitVec 3) (o : BitVec 2) : State :=
  ((s.modC s.cur (fun c => c.putP d (wordAt (s.homeBytes loc 8) 0 8) (s.poisonedAt loc 8))).acquireIf s.cur o sc).cNext

def execWaita (d a b : Reg) (sc : BitVec 3) (o : BitVec 2) (s : State) : Out :=
  s.cIssueCtl [a] [d, b] (fun s =>
    match s.access s.cur waitaSpaces .r (s.rs a) 8 8 with
    | (.ok l, s) =>
      if !((s.c s.cur).room true && (CSt.clearOf (s.c s.cur).ops l 8 && s.locFull l 8)) then s.cRetry false
      else if wordAt (s.homeBytes l 8) 0 8 = s.rs b then
        (s.watchFor s.cur (.block l.block)).modC s.cur (fun c => { c with wait := .word l d s.ck o sc, stall := 0 })
      else s.waitaDone l d sc o
    | (.fail f, s) => s.failC f
    | (.noPlane _ _, s) => s)

/-- The waiting WAITA reads the word again and completes, once its bin is full. -/
def State.waitaEnd (s : State) (wake : Nat → Bool) : State :=
  match (s.c s.cur).wait with
  | .word l d since o sc =>
    if (s.tile s.cur).runs && (wake since && s.locFull l 8) then (s.unwatch s.cur).waitaDone l d sc o else s
  | _ => s

/-- WAITA_WAKE: a write touched the watched block. -/
def execWaitaWake (s : State) : Out := .next (s.waitaEnd (fun _ => s.woken s.cur))
/-- WAITA_TIMEOUT: 16,384 ck have passed. -/
def execWaitaTimeout (s : State) : Out := .next (s.waitaEnd (fun since => since + 16384 ≤ s.ck))

/-! ## A word outside the maps -/

/-- ILLEGAL on the sequencer that fetched the word: nothing of the instruction takes effect (R52, R53). -/
def execIllegal (_w : W32) (s : State) : Out := .next (s.trap s.cur s.curSq .illegal 0 none)

end Sys2Proof.Machine
end

