-- ==== Sys2Proof/Machine/Order.lean ====
section
/-! DEFINITION. The ORD group: the phase, in-phase barriers, fences, releasing stores and acquiring loads (R143–R148). -/

namespace Sys2Proof.Machine

/-- The absolute tile of a relative tile in an instance's footprint (R270, R274). -/
def Inst.tileOf (i : Inst) (rel : BitVec 8) : Tile :=
  Fin.ofNat 64 ((i.row0 + bitsOf rel.toNat 3 3) * 8 + (i.col0 + bitsOf rel.toNat 0 3))

/-- The records of the current phase, posted ones included. -/
def Inst.records (i : Inst) : List TaskRec :=
  (match i.graph with
    | some g => match g.phases[i.phase]? with
      | some p => p.tasks
      | none => []
    | none => []) ++ i.posted

/-- The participants of the phase's barriers: the relative tiles of the footprint with a record of the phase (R145); a placed task
without a graph has its own tile. -/
def Inst.participants (i : Inst) (own : BitVec 8) : List (BitVec 8) :=
  match i.graph with
  | some _ => i.records.map (·.tile)
  | none => [own]

/-- The instance of the tile's task. -/
def State.instOf (s : State) (t : Tile) : Option Inst :=
  match s.task t with
  | some k => s.inst k.part k.inst
  | none => none

/-- PHASE (R144). -/
def execPhase (d : Reg) (_sc : BitVec 3) (_o : BitVec 2) (s : State) : Out :=
  s.cIssue [d] (fun s =>
    match s.instOf s.cur with
    | some i => s.cDone d (BitVec.ofNat 64 (i.no % 2 ^ 32 * 65536 + i.phase % 65536)) false
    | none => s.cDone d 0 false)

/-- An arrival of a relative tile at a barrier; the last participant's completes the epoch (R145). -/
def Barrier.arrive (b : Barrier) (t : BitVec 8) (all : List (BitVec 8)) : Barrier :=
  let arrived := t :: b.arrived
  if all.all (fun u => arrived.contains u) then { count := b.count + 1, arrived := [] } else { b with arrived := arrived }

/-- PHARR (R145): a second arrival for one epoch waits; with rel, every earlier access is performed first. A task arrives for the relative
tile of its record, wherever a restore has put it, so its arrival counts once (R321). -/
def execPharr (d a : Reg) (sc : BitVec 3) (o : BitVec 2) (s : State) : Out :=
  s.cIssueCtl [a] [d] (fun s =>
    if wbits (s.rs a) 3 61 ≠ 0 then s.trapC .bound 0 none
    else match s.instOf s.cur, s.task s.cur with
      | some i, some k =>
        let n := wbits (s.rs a) 0 3
        let b := vGet i.barriers n
        if b.arrived.contains k.rc.tile || (releases o && !CSt.released (s.c s.cur).ops s.cur sc) then s.cRetry false
        else
          (s.modInst k.part k.inst (fun i =>
            { i with barriers := vSet i.barriers n (b.arrive k.rc.tile (i.participants k.rc.tile)) })).cDone d (BitVec.ofNat 64 (b.count + 1)) false
      | _, _ => s.cNext)

/-- PHWAIT (R145). -/
def execPhwait (a b : Reg) (sc : BitVec 3) (o : BitVec 2) (s : State) : Out :=
  s.cIssueCtl [a, b] [] (fun s =>
    if wbits (s.rs a) 3 61 ≠ 0 then s.trapC .bound 0 none
    else match s.instOf s.cur with
      | some i =>
        if (s.rs b).toNat ≤ (vGet i.barriers (wbits (s.rs a) 0 3)).count then (s.acquireIf s.cur o sc).cNext else s.cRetry false
      | none => s.cNext)

/-- FENCE (R146): a release waits for every earlier access, an acquire for the earlier reads; an acquire discards the blocks
fetched ahead, and code that is fetched from then on sees C's earlier stores (R57). -/
def execFence (sc : BitVec 3) (o : BitVec 2) (s : State) : Out :=
  let ops := (s.c s.cur).ops
  if (releases o && !CSt.released ops s.cur sc) || (acquires o && ops.any COp.returns) then .next (s.cRetry false)
  else if acquires o then
    .next ((s.acquire s.cur sc).modC s.cur (fun c => { c with
      fetched := [], ops := c.ops.map (fun x => { x with fenced := true }) })).cNext
  else .next s.cNext

/-- RELS (R147). -/
def execRels (a b : Reg) (sc : BitVec 3) (s : State) : Out :=
  s.cIssueCtl [a] [b] (fun s => s.cSend false scalarSpaces .w (s.rs a) 8 8 (fun l =>
    { kind := .store (s.rs b), loc := l, width := 8, bit := 0, dst := 0, ord := 2, scope := sc, poison := s.cPoisoned [b] }))

/-- ACQS (R147). -/
def execAcqs (d a : Reg) (sc : BitVec 3) (s : State) : Out :=
  s.cIssueCtl [a] [d] (fun s => s.cSend true scalarSpaces .r (s.rs a) 8 8 (fun l =>
    { kind := .acqs, loc := l, width := 8, bit := 0, dst := d, ord := 1, scope := sc, poison := false }))

end Sys2Proof.Machine
end

