-- ==== Sys2Proof/Machine/Sequence.lean ====
section
/-! DEFINITION. Runs of step tables on L, M and S: issue and advance, the start queue, TSTOP, token waits and timeouts
(R58–R61, R82, R86, R89, R91). -/

namespace Sys2Proof.Machine

/-! ## Advancing through a run (R60) -/

/-- The stride update at the end of a repeat. -/
def LsSt.applyStrides (x : LsSt) : LsSt := { x with a := vecOf 16 (fun i => vGet x.a i + vGet x.stride i) }
def LsSt.clearStrides (x : LsSt) : LsSt := { x with stride := Vector.replicate 16 0 }

/-- Applies a function to L or S, none to M. -/
def Logic.modLsOf (g : Logic) (u : Sq) (f : LsSt → LsSt) : Logic :=
  match u with
  | .l => { g with l := f g.l }
  | .s => { g with s := f g.s }
  | _ => g

/-- The run ends where it stands (R91). -/
def Logic.endRun (g : Logic) (u : Sq) : Logic :=
  (g.modSeq u (fun x => { x with run := none, stopping := false, started := none, wait := .none, stall := 0 })).modLsOf u LsSt.clearStrides

/-- The micro-order in hand, `words` long, has issued; the run stands at it until it is finished or the next one issues. -/
def State.issued (s : State) (u : Sq) (words : Nat) : State :=
  s.modSeq s.cur u (fun x =>
    { x with run := x.run.map (fun r => { r with issued := words }), started := none, wait := .none, stall := 0 })

/-- Past the micro-order that has issued: the next step, the next repeat, or the end of the run. -/
def Logic.advance (g : Logic) (u : Sq) : Logic :=
  match (g.seq u).run with
  | none => g
  | some r =>
    if r.issued = 0 then g
    else if r.step + r.issued < r.len then
      g.modSeq u (fun x => { x with run := some { r with step := r.step + r.issued, issued := 0, word := none } })
    else
      let g := g.modLsOf u LsSt.applyStrides
      if r.j + 1 < r.rep then g.modSeq u (fun x => { x with run := some { r with step := 0, j := r.j + 1, issued := 0, word := none } })
      else g.modSeq u (fun x => { x with run := none })

/-- The micro-order that issued last is finished: the run goes on past it; a TSTOP that waited for this boundary ends the run
(R91). -/
def Logic.settle (g : Logic) (u : Sq) : Logic :=
  let g := g.advance u
  if (g.seq u).stopping && (g.seq u).run.all (fun r => r.issued = 0) && (g.seq u).started.isNone then g.endRun u else g

/-- The micro-order in hand is the last of its run (R60). -/
def Run.last (r : Run) : Bool := r.len ≤ r.step + r.issued && r.rep ≤ r.j + 1

/-- The micro-order in hand waits; a wait of another kind than before starts its stall counter at 0 (R86). -/
def State.seqWait (s : State) (u : Sq) (w : SWait) : State :=
  s.modSeq s.cur u (fun x => { x with wait := w, stall := if x.wait = w then x.stall else 0 })

/-- The start of a micro-order (R82): its pop waits for a token, or the micro-order starts with the token's value, 0 when it names
no pop. `body` gets the value; it runs again on the later moves of a micro-order that has started and waits. -/
def State.start (s : State) (u : Sq) (p : BitVec 3) (body : Word → State → State) : Out :=
  match (s.seq s.cur u).started with
  | some v => .next (body v s)
  | none =>
    match popQueue u p with
    | none => .next (body 0 (s.modSeq s.cur u (fun x => { x with started := some 0, wait := .none, stall := 0 })))
    | some q =>
      match s.toks s.cur q with
      | [] => .next (s.seqWait u .pop)
      | v :: r =>
        .next (body v ((s.setToks s.cur q r).modSeq s.cur u (fun x => { x with started := some v, wait := .none, stall := 0 })))

/-- The sequencer is not stopped by a trap and no push of it waits for room. -/
def SeqSt.goes (x : SeqSt) : Bool := x.stop.isNone && x.wait != .push

/-! ## TSTOP, TCUT and the start queue -/

/-- The micro-order at the head of the retire order has had its effect and waits for room: TSTOP abandons its push (R91). -/
def Logic.abandonPush (g : Logic) (u : Sq) : Logic :=
  let full (q : Option (Fin 12)) : Bool := match q with
    | some q => 255 ≤ (g.tok[q]).length
    | none => false
  let lsDrop (l : List Inflight) : List Inflight := match l with
    | e :: r => if e.blks.all (·.done) && full e.push then r else l
    | [] => []
  match u with
  | .l => { g with l := { g.l with inflight := lsDrop g.l.inflight } }
  | .s => { g with s := { g.s with inflight := lsDrop g.s.inflight } }
  | .m => match g.m.list with
    | e :: r => if e.done && full e.push then { g with m := { g.m with list := r } } else g
    | [] => g
  | .c => g

/-- A micro-order of L, M or S is in progress. -/
def Logic.inProgress (g : Logic) (u : Sq) : Bool :=
  (g.seq u).started.isSome ||
  match u with
  | .l => !g.l.inflight.isEmpty
  | .s => !g.s.inflight.isEmpty
  | .m => !g.m.list.isEmpty
  | .c => false

/-- TSTOP on a sequencer (R91, R97): a stopped one keeps STOPPING; one that has not started its micro-order ends its run now; a
micro-order in progress finishes first. -/
def Logic.tstop (g : Logic) (u : Sq) : Logic :=
  let x := g.seq u
  match x.run with
  | none => g
  | some r =>
    if x.stop.isSome then g.modSeq u (fun x => { x with stopping := true })
    else
      let g := g.abandonPush u
      if x.started.isSome || (r.issued ≠ 0 && g.inProgress u) then g.modSeq u (fun x => { x with stopping := true })
      else g.endRun u

/-- No running run, no waiting entry, no micro-order in progress (R92). -/
def Logic.idle (g : Logic) (u : Sq) : Bool :=
  (g.seq u).run.isNone && ((g.seq u).startq.isEmpty && !g.inProgress u)

def StartEntry.isRun : StartEntry → Bool
  | .run _ _ _ _ => true
  | _ => false

/-- RUN_START: the run at the head of the start queue starts, when none runs or the last micro-order of the one that runs has
issued and does not wait to push (R60, R61). -/
def execRunStart (s : State) : Out :=
  let x := s.seq s.cur s.curSq
  let passes := x.goes && (!x.stopping && (x.run.any (fun r => r.issued ≠ 0 && r.last) && x.startq.head?.any StartEntry.isRun))
  let s := if (s.tile s.cur).runs && passes then s.modLogic s.cur (fun g => g.advance s.curSq) else s
  let x := s.seq s.cur s.curSq
  match (s.tile s.cur).runs && x.run.isNone, x.startq with
  | true, .run base len rep ahead :: r =>
    .next (s.modLogic s.cur (fun g =>
      (g.modSeq s.curSq (fun x => { x with run := some { base := base, len := len, rep := rep, step := 0, j := 0, issued := 0, ahead := ahead },
                                           startq := r,
                                           stopping := false, started := none, wait := .none, stall := 0 })).modLsOf s.curSq LsSt.clearStrides))
  | _, _ => .next s

/-- START_QUEUE_WRITE: an address or count write at the head of the start queue takes effect, when no run runs (R89, R95). -/
def execStartQueueWrite (s : State) : Out :=
  let x := s.seq s.cur s.curSq
  match (s.tile s.cur).runs && x.run.isNone, x.startq with
  | true, .addr n v :: r =>
    .next (s.modLogic s.cur (fun g =>
      (g.modSeq s.curSq (fun x => { x with startq := r })).modLsOf s.curSq (fun y => { y with a := vSet y.a n v })))
  | true, .count n v :: r =>
    .next (s.modLogic s.cur (fun g =>
      { g.modSeq s.curSq (fun x => { x with startq := r }) with vec := { g.vec with n := vSet g.vec.n n v } }))
  | _, _ => .next s

/-- TOKEN_TIMEOUT: a stall counter that stands at or above a limit that is not 0 traps (R86), whatever else of the tile is stopped
(R312 stops the counting alone); a push that waits leaves only the push to be done, its pop step behind it (R315). -/
def execTokenTimeout (s : State) : Out :=
  let x := s.tile s.cur
  let g := x.logic
  let reached (n : Nat) : Bool := x.tokLim ≠ 0 && x.tokLim.toNat ≤ n
  if !x.runs then .next s
  else match s.curSq with
    | .c => match g.c.wait with
      | .retry true => .next (if g.c.stop.isNone && reached g.c.stall then s.trapC .tokenTimeout 0 none else s)
      | _ => .next s
    | u =>
      if !(reached (g.seq u).stall && (g.seq u).stop.isNone) then .next s
      else match (g.seq u).wait with
        | .pop => .next (s.trap s.cur u .tokenTimeout 0 none)
        | .push => .next (s.trap s.cur u .tokenTimeout (pushPend ||| popDone) none)
        | _ => .next s

end Sys2Proof.Machine
end

