-- ==== Sys2Proof/Machine/LoadStore.lean ====
section
/-! DEFINITION. The micro-orders of L and S: address registers, vector loads and stores, the loads of the matrix engine, bins,
stream-register bindings, prefetch (R102–R118), and the retirement of their effects and pushes in order (R82, R108). -/

namespace Sys2Proof.Machine

/-! ## Retirement (R108) -/

/-- Flags are ORed into YFFLAGS; they count as raised on this clock (R27, R28). -/
def VecSt.raise (x : VecSt) (f : BitVec 5) : VecSt := { x with fflags := x.fflags ||| f, fresh := x.fresh ||| f }

def Logic.canPush (g : Logic) (q : Option (Fin 12)) : Bool :=
  match q with
  | some q => (g.tok[q]).length < 255
  | none => true
def Logic.push (g : Logic) (q : Option (Fin 12)) (v : Word) : Logic :=
  match q with
  | some q => { g with tok := g.tok.set q (g.tok[q] ++ [v]) }
  | none => g

/-- Bytes put into a register at a byte offset. -/
def putBytes {n : Nat} (old : BitVec n) (off : Nat) (bs : List Byte) : BitVec n :=
  let m := BitVec.ofNat n (2 ^ (8 * bs.length) - 1) <<< (8 * off)
  (old &&& ~~~m) ||| ((BitVec.ofNat n (leNat bs) <<< (8 * off)) &&& m)

/-- A mark set or cleared. -/
def setMark {n : Nat} (m : BitVec n) (i : Nat) (v : Bool) : BitVec n :=
  if v then m ||| (1#n <<< i) else m &&& ~~~(1#n <<< i)

/-- An operation that accumulates into z `k` and has begun its first group holds a ZLD's part until it finishes (R109). -/
def MEntry.holdsZ (e : MEntry) (k : Nat) : Bool :=
  match e.act with
  | .mma o => !e.done && (0 < o.g && (o.shape != 0 || o.z = k))
  | _ => false
/-- The part stands with the first such operation. -/
def holdZ (k off : Nat) (bs : List Byte) (bad : Bool) : List MEntry → Option (List MEntry)
  | [] => none
  | e :: r =>
    match e.act, e.holdsZ k with
    | .mma o, true => some ({ e with act := .mma { o with late := o.late ++ [(k, off, bs, bad)] } } :: r)
    | _, _ => (holdZ k off bs bad r).map (fun r => e :: r)

/-- Bytes and their poison written into z. -/
def MatSt.putZ (x : MatSt) (k off : Nat) (bs : List Byte) (bad : Bool) : MatSt :=
  { x with z := vSet x.z k (Mem.write (vGet x.z k) off bs), zPoison := vSet x.zPoison k (poisonAfter (vGet x.zPoison k) off bs.length bad) }

/-- A block of a load lands where its micro-order says. -/
def Logic.land (g : Logic) (d : LsData) (b : Blk) : Logic :=
  match b.got with
  | none => g
  | some bs =>
    match d with
    | .v r =>
      { g with vec := { g.vec with v := g.vec.v.set r (putBytes g.vec.v[r] b.off bs),
                                   poison := if b.poison then setMark g.vec.poison r.val true else g.vec.poison } }
    | .vAll r =>
      { g with vec := { g.vec with v := g.vec.v.set r (vOfBytes ((List.replicate 8 bs).flatten)) } }
    | .p r =>
      if r = 7 then g else { g with vec := { g.vec with p := g.vec.p.set r (putBytes g.vec.p[r] b.off bs) } }
    | .aslot k _ =>
      { g with mat := { g.mat with aslot := g.mat.aslot.set k (Mem.write g.mat.aslot[k] b.off bs),
                                   aPoison := g.mat.aPoison.set k (poisonAfter g.mat.aPoison[k] b.off bs.length b.poison) } }
    | .wbuf o =>
      { g with mat := { g.mat with wbuf := Mem.write g.mat.wbuf (o + b.off) bs,
                                   wPoison := poisonAfter g.mat.wPoison (o + b.off) bs.length b.poison } }
    | .z k =>
      match holdZ k.val b.off bs b.poison g.m.list with
      | some l => { g with m := { g.m with list := l } }
      | none => { g with mat := g.mat.putZ k.val b.off bs b.poison }
    | _ => g

/-- What is done once the last block has landed: the register's poison mark, and READY for an A slot whose line 127 was
written (R190). -/
def Logic.landed (g : Logic) (e : Inflight) : Logic :=
  let bad := e.blks.any (·.poison)
  match e.data with
  | .v r => if e.store then g else { g with vec := { g.vec with poison := setMark g.vec.poison r.val bad } }
  | .vAll r => { g with vec := { g.vec with poison := setMark g.vec.poison r.val bad } }
  | .p r => if e.store || r = 7 then g else { g with vec := { g.vec with ppoison := setMark g.vec.ppoison r.val bad } }
  | .aslot k rows => if rows = 128 then { g with mat := { g.mat with slotSt := g.mat.slotSt.set k .ready } } else g
  | _ => g

/-- A push waits for room, its stall counter from 0 when the wait begins; or no push waits (R86). -/
def SeqSt.pushWaits (x : SeqSt) (waits : Bool) : SeqSt :=
  if waits then { x with wait := .push, stall := if x.wait = .push then x.stall else 0 }
  else if x.wait = .push then { x with wait := .none, stall := 0 } else x

/-- Micro-orders whose effects have landed leave in program order, each with its push; a push that finds its queue full waits there. -/
def Logic.retireList (g : Logic) (u : Sq) : List Inflight → Logic × List Inflight
  | [] => (g.modSeq u (·.pushWaits false), [])
  | e :: r =>
    if e.blks.all (·.done) then
      let g := g.landed e
      if g.canPush e.push then ((g.modSeq u (·.pushWaits false)).push e.push e.tok).retireList u r
      else (g.modSeq u (·.pushWaits true), { e with data := .none, blks := [] } :: r)
    else (g.modSeq u (·.pushWaits false), e :: r)

/-- L or S: the part of its own that is not shared with M. -/
def isS (u : Sq) : Bool := u = .s
def Logic.retire (g : Logic) (u : Sq) : Logic :=
  let r := g.retireList u (g.ls (isS u)).inflight
  let g := r.1.modLs (isS u) (fun x => { x with inflight := r.2 })
  if r.2.isEmpty then g.settle u else g

/-- M's pushes are made in program order, each once every earlier micro-order has finished. -/
def Logic.mRetireList (g : Logic) : List MEntry → Logic × List MEntry
  | [] => (g.modSeq .m (·.pushWaits false), [])
  | e :: r =>
    if !e.done then (g.modSeq .m (·.pushWaits false), e :: r)
    else if g.canPush e.push then ((g.modSeq .m (·.pushWaits false)).push e.push e.tok).mRetireList r
    else (g.modSeq .m (·.pushWaits true), e :: r)
def Logic.mRetire (g : Logic) : Logic :=
  let r := g.mRetireList g.m.list
  let g : Logic := { r.1 with m := { r.1.m with list := r.2 } }
  if r.2.getLast?.all (fun e => e.done && e.push.isNone) then g.settle .m else g

/-- Drains whose last chunk has been delivered finish, and their flags reach YFFLAGS (R199, R201). -/
def MEntry.drained (e : MEntry) : Option Drain :=
  match e.act with
  | .drain d => if !e.done && (if d.dest = 0 then d.takenS = d.total else d.sent = d.total) then some d else none
  | _ => none
def Logic.finishDrains (g : Logic) : Logic :=
  let flags := g.m.list.foldl (fun (a : BitVec 5) e => match e.drained with | some d => a ||| d.flags | none => a) 0
  ({ g with m := { g.m with list := g.m.list.map (fun e => if e.drained.isSome then { e with done := true } else e) },
            vec := g.vec.raise flags } : Logic).mRetire

/-- The epilogue pipe's chunks go to the EST micro-orders that wait for them, in order (R112, R201); each chunk counts as taken for
the oldest drain to S that has one outstanding. -/
def estFill (buf : List VReg) : List Inflight → List VReg × List Inflight
  | [] => (buf, [])
  | e :: r =>
    match e.data with
    | .chunks cs =>
      let n := min buf.length (e.blks.length / 8 - cs.length)
      let rest := estFill (buf.drop n) r
      (rest.1, { e with data := .chunks (cs ++ buf.take n) } :: rest.2)
    | _ =>
      let rest := estFill buf r
      (rest.1, e :: rest.2)
def creditDrains : Nat → List MEntry → List MEntry
  | _, [] => []
  | n, e :: r =>
    match e.act with
    | .drain d =>
      if d.dest = 0 then
        let k := min n (d.sent - d.takenS)
        { e with act := .drain { d with takenS := d.takenS + k } } :: creditDrains (n - k) r
      else e :: creditDrains n r
    | _ => e :: creditDrains n r
def Logic.estTake (g : Logic) : Logic :=
  let r := estFill g.mat.sbuf g.s.inflight
  if r.1.length = g.mat.sbuf.length then g else
    ({ g with mat := { g.mat with sbuf := r.1 }, s := { g.s with inflight := r.2 },
              m := { g.m with list := creditDrains (g.mat.sbuf.length - r.1.length) g.m.list } } : Logic).finishDrains

/-! ## Issue -/

/-- The sequencer that issues a micro-order legal in L and in S. -/
def State.lsq (s : State) : Sq := if s.curSq = .s then .s else .l

def State.lsX (s : State) (u : Sq) : LsSt := s.ls s.cur (isS u)
/-- An address register of the issuing sequencer. -/
def State.ar (s : State) (u : Sq) (n : BitVec 4) : Word := (s.lsX u).areg n
/-- An address register named by a 5-bit field. -/
def low4 (r : Reg) : BitVec 4 := r.setWidth 4

/-- At most 32 memory micro-orders are in flight. -/
def State.lsRoom (s : State) (u : Sq) : Bool := ((s.lsX u).inflight.filter (fun e => !e.blks.isEmpty)).length < 32

/-- The micro-order issues: register updates, the next step, then its place in the retirement order. -/
def State.lsPut (s : State) (u : Sq) (words : Nat) (e : Inflight) (upd : LsSt → LsSt) : State :=
  let e := { e with run := (s.seq s.cur u).run }
  let s := (s.modLs s.cur (isS u) upd).issued u words
  s.modLogic s.cur (fun g =>
    let g := g.modLs (isS u) (fun x => { x with inflight := x.inflight ++ [e] })
    (match e.data with | .chunks _ => g.estTake | _ => g).retire u)

/-- A micro-order without an access: its update, and its push in order. -/
def State.lsDone (s : State) (u : Sq) (words : Nat) (q : BitVec 3) (tok : Word) (upd : LsSt → LsSt) : State :=
  s.lsPut u words { store := false, data := .none, blks := [], push := pushQueue u q, tok := tok, run := none } upd

/-- A list of `n` groups of `k` entries with the groups in the opposite order. -/
def regroup {α : Type} (l : List α) (n k : Nat) : List α := (List.range n).flatMap (fun i => (l.drop ((n - 1 - i) * k)).take k)

/-- The checks of R100 over the union of ranges of one length, in the order SPACE, ALIGN (`alignX`: an operand that breaks it), BOUND
(`boundX`), translation in increasing address order; `rev`: the ranges stand in decreasing address order. Answers the homes of the
64-byte blocks. -/
def State.accessAll (s : State) (need : Need) (rs : List (Word × Nat)) (alignX boundX : Option Fail) (rev : Bool) :
    Res (List Loc) × State :=
  let p := s.partOf s.cur
  let w := writeBit need.writes
  match rs.find? (fun r => !s.spaceOk p vectorSpaces r.1 r.2) with
  | some r => (.fail ⟨.space, w, some r.1⟩, s)
  | none =>
  match rs.find? (fun r => r.1.toNat % 64 != 0), alignX with
  | some r, _ => (.fail ⟨.align, w, some r.1⟩, s)
  | none, some f => (.fail f, s)
  | none, none =>
  match rs.find? (fun r => !s.boundOk s.cur r.1 r.2), boundX with
  | some r, _ => (.fail ⟨.bound, w, some r.1⟩, s)
  | none, some f => (.fail f, s)
  | none, none =>
    let units := (if rev then rs.reverse else rs).flatMap (fun r => (List.range (r.2 / 64)).map (fun i => r.1 + BitVec.ofNat 64 (64 * i)))
    match s.placeAll s.cur p need units with
    | (.ok ls, s) => (.ok (if rev then regroup ls rs.length (ls.length / rs.length) else ls), s)
    | r => r

/-- The 64-byte units of a register or buffer, in order. -/
def blksOf (ls : List Loc) : List Blk :=
  ls.zipIdx.map (fun e => { loc := e.1, off := 64 * e.2, len := 64, got := none, done := false, poison := false })

/-- A load or store of L or S after its pop: room, the checks, then the access is in flight. `ready` holds it at issue. -/
def State.lsAccess (s : State) (u : Sq) (need : Need) (rs : List (Word × Nat)) (alignX boundX : Option Fail) (rev : Bool)
    (ready : Bool) (q : BitVec 3) (data : LsData) (upd : LsSt → LsSt) : State :=
  match s.accessAll need rs alignX boundX rev with
  | (.fail f, s) => s.failSeq u f
  | (.noPlane a w, s) => s.seqWait u (match (s.seq s.cur u).wait with
    | .noPlane b _ since => .noPlane a w (if a = b then since else s.dtime)
    | _ => .noPlane a w s.dtime)
  | (.ok ls, s') =>
    if s.lsRoom u && ready then
      s'.lsPut u 1 { store := need.writes, data := data, blks := blksOf ls, push := pushQueue u q, tok := 0, run := none } upd
    else s.seqWait u .other

/-- The address and the update of an EM operand (R46). -/
def emAddr (v : Word) (n : BitVec 1) (o : BitVec 10) : Word := if n = 1 then v else v + emDisp o
def emUpd (a : BitVec 4) (n : BitVec 1) (o : BitVec 10) (x : LsSt) : LsSt := if n = 1 then x.setA a (x.areg a + emDisp o) else x

/-- An EM access of `n` bytes. -/
def State.lsEm (s : State) (u : Sq) (need : Need) (p q : BitVec 3) (a : BitVec 4) (n : BitVec 1) (o : BitVec 10) (len : Nat)
    (data : LsData) : Out :=
  s.start u p (fun _ s => s.lsAccess u need [(emAddr (s.ar u a) n o, len)] none none false true q data (emUpd a n o))

def execVld (p q : BitVec 3) (v : Reg) (a : BitVec 4) (n : BitVec 1) (o : BitVec 10) (s : State) : Out :=
  s.lsEm .l .r p q a n o 512 (.v v.toFin)
def execVldb (p q : BitVec 3) (v : Reg) (a : BitVec 4) (n : BitVec 1) (o : BitVec 10) (s : State) : Out :=
  s.lsEm .l .r p q a n o 64 (.vAll v.toFin)
def execPld (p q : BitVec 3) (v : Reg) (a : BitVec 4) (n : BitVec 1) (o : BitVec 10) (s : State) : Out :=
  s.lsEm .l .r p q a n o 128 (.p (Fin.ofNat 8 v.toNat))
def execVst (p q : BitVec 3) (v : Reg) (a : BitVec 4) (n : BitVec 1) (o : BitVec 10) (s : State) : Out :=
  s.lsEm .s .w p q a n o 512 (.v v.toFin)
def execPst (p q : BitVec 3) (v : Reg) (a : BitVec 4) (n : BitVec 1) (o : BitVec 10) (s : State) : Out :=
  s.lsEm .s .w p q a n o 128 (.p (Fin.ofNat 8 v.toNat))

/-- Eight 64-byte blocks a fixed stride apart (VLDS, VSTS). -/
def State.lsStride (s : State) (u : Sq) (need : Need) (p q : BitVec 3) (a b : Reg) (data : LsData) : Out :=
  s.start u p (fun _ s =>
    let base := s.ar u (low4 a)
    let st := s.ar u (low4 b)
    s.lsAccess u need ((List.range 8).map (fun i => (base + BitVec.ofNat 64 i * st, 64)))
      (if st.toNat % 64 = 0 then none else some ⟨.align, writeBit need.writes, none⟩) none (st.msb) true q data id)

def execVlds (p q : BitVec 3) (d a b : Reg) (s : State) : Out := s.lsStride .l .r p q a b (.v d.toFin)
def execVsts (p q : BitVec 3) (d a b : Reg) (s : State) : Out := s.lsStride .s .w p q a b (.v d.toFin)

/-- An earlier store of S that has still to change some byte of a range holds a read back (R129). -/
def State.storesClear (s : State) (u : Sq) (l : Loc) (n : Nat) : Bool :=
  !(isS u) || (s.lsX u).inflight.all (fun e => e.blks.all (fun b => b.done || !b.loc.overlaps b.len l n))

/-- Eight 64-byte blocks at offsets from a table (VLDG, VSTG): the table's checks and its read, then the targets'. -/
def State.lsGather (s : State) (u : Sq) (need : Need) (p q : BitVec 3) (a b : Reg) (data : LsData) : Out :=
  s.start u p (fun _ s =>
    match s.access s.cur localSpace .r (s.ar u (low4 b)) 32 32 with
    | (.fail f, s) => s.failSeq u f
    | (.noPlane _ _, s) => s
    | (.ok l, s) =>
      if !(s.locFull l 32 && s.storesClear u l 32) then s.seqWait u .other
      else if s.poisonedAt l 32 then s.trapSeq u .ecc 0 (some (s.ar u (low4 b)))
      else
        let tbl := s.homeBytes l 32
        let base := s.ar u (low4 a)
        let odd := (List.range 8).find? (fun i => base.toNat % 64 != 0 || fieldAt tbl (4 * i) 4 % 64 != 0)
        s.lsAccess u need ((List.range 8).map (fun i => (base + wordAt tbl (4 * i) 4, 64)))
          (odd.map (fun i => ⟨.align, writeBit need.writes, some (base + wordAt tbl (4 * i) 4)⟩)) none false true q data id)

def execVldg (p q : BitVec 3) (d a b : Reg) (s : State) : Out := s.lsGather .l .r p q a b (.v d.toFin)
def execVstg (p q : BitVec 3) (d a b : Reg) (s : State) : Out := s.lsGather .s .w p q a b (.v d.toFin)

/-- VSTM (R110): all 512 bytes are checked; a poisoned predicate is a poisoned control field. -/
def execVstm (p q : BitVec 3) (d a : Reg) (k : BitVec 3) (s : State) : Out :=
  s.start .s p (fun _ s =>
    if (s.vec s.cur).ppoison.getLsbD k.toNat then s.trapSeq .s .ecc 0 none
    else s.lsAccess .s .w [(s.ar .s (low4 a), 512)] none none false true q (.vMask d.toFin k.toFin) id)

/-- A load of the matrix engine waits before its pop while Rachis owns the engine (R245). -/
def State.startOwned (s : State) (p : BitVec 3) (body : Word → State → State) : Out :=
  if s.rachisOwns && (s.seq s.cur .l).started.isNone then .next (s.seqWait .l .other) else s.start .l p body

/-- MALD (R111, R190): the slot must be FREE, with no earlier MALD that will make it READY. -/
def execMald (p q : BitVec 3) (sc : BitVec 1) (a : BitVec 4) (r : BitVec 7) (s : State) : Out :=
  s.startOwned p (fun _ s =>
    let k : Fin 2 := Fin.ofNat 2 sc.toNat
    let rows := r.toNat + 1
    let free := (s.mat s.cur).slotSt[k] = .free && (s.lsX .l).inflight.all (fun e => e.data != .aslot k 128)
    s.lsAccess .l .r [(s.ar .l a, 512 * rows)] none none false free q (.aslot k rows) id)

/-- WLD (R111). -/
def execWld (p q : BitVec 3) (d a : BitVec 4) (i : BitVec 12) (s : State) : Out :=
  s.startOwned p (fun _ s =>
    let o := s.ar .l d
    let n := 64 * (i.toNat + 1)
    s.lsAccess .l .r [(s.ar .l a, n)] (if o.toNat % 64 = 0 then none else some ⟨.align, 0, none⟩)
      (if o.toNat + n ≤ 2097152 then none else some ⟨.bound, 0, none⟩) false true q (.wbuf o.toNat) id)

/-- ZLD (R111). -/
def execZld (p q : BitVec 3) (k : BitVec 2) (a : BitVec 4) (r : BitVec 7) (s : State) : Out :=
  s.startOwned p (fun _ s => s.lsAccess .l .r [(s.ar .l a, 512 * (r.toNat + 1))] none none false true q (.z k.toFin) id)

/-- EST (R112). -/
def execEst (p q : BitVec 3) (d a : BitVec 4) (i : BitVec 12) (s : State) : Out :=
  s.start .s p (fun _ s =>
    let st := s.ar .s d
    s.lsAccess .s .w ((List.range (i.toNat + 1)).map (fun k => (s.ar .s a + BitVec.ofNat 64 k * st, 512)))
      (if st.toNat % 64 = 0 then none else some ⟨.align, writeBit true, none⟩) none st.msb true q (.chunks []) id)

/-! ## Performing the accesses -/

/-- A block of a load of L is read; `ahead`: it takes what was read ahead of it (R137). From then on no load takes an older value of its
location (R129). -/
def State.lsReadBlk (s : State) (t : Tile) (k j : Nat) (ahead : Bool) : State :=
  match (s.ls t false).inflight[k]? with
  | some e =>
    match e.blks[j]? with
    | some b =>
      if b.got.isSome then s else
        let got (s : State) (d : List Byte × Bool) : State := (s.fabricDone t b.loc).modLs t false (fun x =>
          { x with early := earlyBut x.early b.loc b.len,
                   inflight := x.inflight.modify k (fun e => { e with
                     blks := e.blks.modify j (fun b => { b with got := some d.1, poison := d.2 }) }) })
        match (if ahead then readEarly (s.ls t false).early b.loc b.len else none) with
        | some d => got s d
        | none => got (s.taskRead t b.loc b.len true false).2 ((s.taskRead t b.loc b.len true false).1, s.poisonedAt b.loc b.len)
    | none => s
  | none => s

def Loc.inSlice : Loc → Bool
  | .slice _ _ => true
  | _ => false
/-- Two locations are reached through one space code, BULK-STREAM apart from BULK. -/
def Loc.alike : Loc → Loc → Bool
  | .bulk _ _ _ _ x, .bulk _ _ _ _ y => x == y
  | _, _ => true

/-- An earlier load of L that has still to read a byte of block `j`, through the same space code, comes first (R129); the blocks `js` of
its micro-order are read with it. -/
def State.readsClear (s : State) (t : Tile) (k j : Nat) (js : List Nat) (b : Blk) : Bool :=
  let x := (s.ls t false).inflight
  ((x.take k).flatMap (·.blks) ++ (x[k]?.elim [] (fun e => ((List.range j).filter (!js.contains ·)).filterMap (e.blks[·]?)))).all
    (fun y => y.got.isSome || (y.done || !(y.loc.alike b.loc && y.loc.overlaps y.len b.loc b.len)))

/-- The blocks of micro-order `k` of L that are read together with block `j`: all its slice blocks, or block `j` alone. -/
def Inflight.together (e : Inflight) (j : Nat) : List Nat :=
  if (e.blks[j]?).any (fun b => b.loc.inSlice) then (List.range e.blks.length).filter (fun i => (e.blks[i]?).any (fun b => b.loc.inSlice))
  else [j]

/-- A load of L reads: all its slice blocks on one clock, once every bin that it reads is full, and it waits at home until then
(R103); else block `j`. `ahead`: blocks that were read ahead are taken so. -/
def State.lRead (s : State) (t : Tile) (k j : Nat) (ahead : Bool) : State :=
  match (s.ls t false).inflight[k]? with
  | some e =>
    let js := e.together j
    if e.store || !js.all (fun i => (e.blks[i]?).all (fun b => b.got.isSome || (s.readsClear t k i js b && s.fabricTurn t b.loc))) then s
    else if js.all (fun i => (e.blks[i]?).all (fun b => b.got.isSome || s.locFull b.loc b.len)) then js.foldl (fun s i => s.lsReadBlk t k i ahead) s
    else s.modLs t false (fun x => { x with inflight := x.inflight.modify k (fun e => { e with parked := true }) })
  | none => s

/-- Block `j` of micro-order `k` of L, once read, lands, when the effects of the earlier ones have landed (R108). -/
def Logic.lLand (g : Logic) (k j : Nat) : Logic :=
  match g.l.inflight[k]? with
  | some e =>
    match e.blks[j]? with
    | some b =>
      if b.done || (b.got.isNone || !((g.l.inflight.take k).all (fun e => e.blks.all (·.done)))) then g
      else
        let g := g.land e.data b
        { g with l := { g.l with inflight := g.l.inflight.modify k (fun e => { e with blks := e.blks.modify j (fun b => { b with done := true }) }) } }
    | none => g
  | none => g

/-- A load's data returns to L, and block `j` lands; for a frozen task the data stays in the landing buffer (R321). -/
def State.lLoad (s : State) (t : Tile) (k j : Nat) (ahead : Bool) : State :=
  let s := s.lRead t k j ahead
  if (s.tile t).freezing.isSome then s else s.modLogic t (fun g => (g.lLand k j).retire .l)

/-- The loads of a tile's C and L that wait for full bins at home read, those that can. -/
def State.readParked (s : State) (t : Tile) : State :=
  let s := (List.range (s.c t).ops.length).foldr (fun k (s : State) =>
    match (s.c t).ops[k]? with
    | some o => if o.parked && (s.cFull o && s.cReady t k o) then s.cPerform t k o false else s
    | none => s) s
  (List.range (s.ls t false).inflight.length).foldl (fun (s : State) k =>
    match (s.ls t false).inflight[k]? with
    | some e => if e.parked then (List.range e.blks.length).foldl (fun s j => s.lRead t k j false) s else s
    | none => s) s
/-- Bins have become full: the loads that wait for them at home read on this clock (R103, R105), those of frozen tasks among them. -/
def State.wakeBins (s : State) : State :=
  allTiles.foldl (fun (s : State) t =>
    (List.range (s.frozenAt t).length).foldl (fun s k => s.onFrozen t k (fun s => s.readParked t)) (s.readParked t)) s

/-- Block `j` of store `k` of S is performed at its home; its push waits its turn, and for the restore of a frozen task. -/
def State.sStore (s : State) (t : Tile) (k j : Nat) : State :=
  let s := s.sWrite t k j
  if (s.tile t).freezing.isSome then s else s.modLogic t (fun g => g.retire .s)

/-- LOAD_RESPONSE: data returns to C (access `ev.k`) or to L (micro-order `ev.k`, block `ev.j`), bit 0 of `ev.v`: as read ahead, of the task
that the tile holds, or of the tile's husk `ev.v[63:8]` − 1. -/
def execLoadResponse (s : State) : Out :=
  match s.curSq with
  | .c => .next (s.forLogic s.cur (wbits s.ev.v 8 56) (fun x => x.cTry s.cur s.ev.k true (s.ev.v.getLsbD 0)))
  | .l => .next (s.forLogic s.cur (wbits s.ev.v 8 56) (fun x => x.lLoad s.cur s.ev.k s.ev.j (s.ev.v.getLsbD 0)))
  | _ => .next s

/-- STORE_PERFORM: a store of C (access `ev.k`) or of S (micro-order `ev.k`, block `ev.j`) is performed at its home, for the task that the
tile holds, or for the tile's husk `ev.v[63:8]` − 1. -/
def execStorePerform (s : State) : Out :=
  match s.curSq with
  | .c => .next (s.forLogic s.cur (wbits s.ev.v 8 56) (fun x => x.cTry s.cur s.ev.k false false))
  | .s => .next (s.forLogic s.cur (wbits s.ev.v 8 56) (fun x => x.sStore s.cur s.ev.k s.ev.j))
  | _ => .next s

/-! ## Address registers (R106, R107) -/

/-- An address micro-order: it writes one address register. -/
def State.lsAddr (s : State) (p q : BitVec 3) (words : Nat) (d : BitVec 4) (f : Word → LsSt → Word) : Out :=
  s.start s.lsq p (fun v s => s.lsDone s.lsq words q 0 (fun x => x.setA d (f v x)))

def execAadd (p q : BitVec 3) (d a b : Reg) (s : State) : Out :=
  s.lsAddr p q 1 (low4 d) (fun _ x => x.areg (low4 a) + x.areg (low4 b))
def execAaddi (p q : BitVec 3) (d a : BitVec 4) (i : BitVec 12) (s : State) : Out := s.lsAddr p q 1 d (fun _ x => x.areg a + sx i)
/-- ASET is two words long. -/
def execAset (p q : BitVec 3) (d a : BitVec 4) (i : BitVec 12) (j : BitVec 32) (s : State) : Out :=
  s.lsAddr p q 2 d (fun _ x => (i.setWidth 64 <<< 52) ||| ((x.areg a &&& 0x000FFFFF00000000) ||| j.setWidth 64))
def execAmov (p q : BitVec 3) (d a : BitVec 4) (s : State) : Out := s.lsAddr p q 1 d (fun _ x => x.areg a)
def execAmovTok (p q : BitVec 3) (d : BitVec 4) (s : State) : Out := s.lsAddr p q 1 d (fun v _ => v)

/-- AWRAP: a k outside 6–27 raises BOUND. -/
def execAwrap (p q : BitVec 3) (d a : BitVec 4) (k : Reg) (s : State) : Out :=
  s.start s.lsq p (fun _ s =>
    if k.toNat < 6 || 27 < k.toNat then s.trapSeq s.lsq .bound 0 none
    else s.lsDone s.lsq 1 q 0 (fun x =>
      x.setA d (x.areg a + ((x.areg d - x.areg a) &&& BitVec.ofNat 64 (2 ^ k.toNat - 1)))))

/-- ASTEP: the stride applies at the end of the repeat (R60). -/
def State.lsStep (s : State) (p q : BitVec 3) (d : BitVec 4) (f : LsSt → Word) : Out :=
  s.start s.lsq p (fun _ s => s.lsDone s.lsq 1 q 0 (fun x => { x with stride := x.stride.set d.toFin (f x) }))
def execAstep (p q : BitVec 3) (d : BitVec 4) (i : BitVec 12) (s : State) : Out := s.lsStep p q d (fun _ => sx i * 64)
def execAstepReg (p q : BitVec 3) (d a : BitVec 4) (s : State) : Out := s.lsStep p q d (fun x => x.areg a)

/-! ## Bins (R105) -/

/-- The named bins, after the checks: the home tile, the first bin, the count. -/
def State.binRange (s : State) (u : Sq) (a : BitVec 4) (i : BitVec 12) : Except Fail (Tile × Nat × Nat) :=
  let ptr := s.ar u a
  let n := i.toNat + 1
  let b := wbits ptr 16 12
  if !s.spaceOk (s.partOf s.cur) sliceSpaces ptr 1 then .error ⟨.space, 0, some ptr⟩
  else if wbits ptr 0 16 ≠ 0 then .error ⟨.align, 0, some ptr⟩
  else if (s.tile (sliceHome s.cur ptr)).slim < b + n then .error ⟨.bound, 0, some ptr⟩
  else .ok (sliceHome s.cur ptr, b, n)

/-- Every earlier access of the sequencer has been performed. -/
def State.lsPerformed (s : State) (u : Sq) : Bool := (s.lsX u).inflight.all (fun e => e.blks.all (fun b => b.done || b.got.isSome))

/-- What C and L have read ahead in a range of bins is discarded. -/
def Logic.dropBins (g : Logic) (t : Tile) (b n : Nat) : Logic :=
  { g with c := { g.c with early := earlyBut g.c.early (.slice t (65536 * b)) (65536 * n) },
           l := { g.l with early := earlyBut g.l.early (.slice t (65536 * b)) (65536 * n) } }

/-- A BIN micro-order: its checks, its wait, its effect on the tile, what follows from it for loads, its token. -/
def State.lsBin (s : State) (p q : BitVec 3) (a : BitVec 4) (i : BitVec 12) (ready : State → Sq → TileSt → Nat → Nat → Bool)
    (after : State → Tile → Nat → Nat → State) (f : TileSt → Nat → Nat → TileSt) (tok : TileSt → Nat → Nat → Word) : Out :=
  s.start s.lsq p (fun _ s =>
    match s.binRange s.lsq a i with
    | .error e => s.failSeq s.lsq e
    | .ok (t, b, n) =>
      if ready s s.lsq (s.tile t) b n then
        let s' := s.modTile t (fun x => f x b n)
        (after s' t b n).lsDone s.lsq 1 q (tok (s.tile t) b n) id
      else s.seqWait s.lsq .other)

/-- Empty bins of a range. -/
def TileSt.emptyIn (x : TileSt) (b n : Nat) : Nat := (x.empty.filter (fun k => b ≤ k && k < b + n)).length

def execBfull (p q : BitVec 3) (a : BitVec 4) (i : BitVec 12) (s : State) : Out :=
  s.lsBin p q a i (fun s u _ _ _ => s.lsPerformed u) (fun s _ _ _ => s.wakeBins)
    (fun x b n => { x with empty := x.empty.filter (fun k => !(b ≤ k && k < b + n)) }) (fun _ _ _ => 0)
def execBempty (p q : BitVec 3) (a : BitVec 4) (i : BitVec 12) (s : State) : Out :=
  s.lsBin p q a i (fun s u _ _ _ => s.lsPerformed u) (fun s t b n => s.modLogic s.cur (fun g => g.dropBins t b n))
    (fun x b n => { x with empty := (List.range n).foldl (fun l k => insertRising (b + k) l) x.empty }) (fun _ _ _ => 0)
def execBwait (p q : BitVec 3) (a : BitVec 4) (i : BitVec 12) (s : State) : Out :=
  s.lsBin p q a i (fun _ _ x b n => x.emptyIn b n = 0) (fun s _ _ _ => s) (fun x _ _ => x) (fun _ _ _ => 0)
def execBtest (p q : BitVec 3) (a : BitVec 4) (i : BitVec 12) (s : State) : Out :=
  s.lsBin p q a i (fun _ _ _ _ _ => true) (fun s _ _ _ => s) (fun x _ _ => x) (fun x b n => BitVec.ofNat 64 (n - x.emptyIn b n))

/-! ## Stream registers (R115) -/

def State.setBind (s : State) (n : BitVec 3) (b : Option QBind) : State :=
  s.modVec s.cur (fun v => { v with q := v.q.set n.toFin b })

/-- QBIND: SPACE, ALIGN, then BOUND over the region; blocks written on the clock of binding have arrived. -/
def execQbind (p q : BitVec 3) (sc : BitVec 3) (a : BitVec 4) (i : BitVec 12) (s : State) : Out :=
  s.start .l p (fun _ s =>
    let ptr := s.ar .l a
    let n := 512 * (i.toNat + 1)
    match s.access s.cur localSpace .r ptr n 512 with
    | (.fail f, s) => s.failSeq .l f
    | (_, s) =>
      let off := sliceOff ptr
      let now := ((s.tile s.cur).wrote.filter (fun b => off ≤ 64 * b && 64 * b < off + n)).map (fun b => b - off / 64)
      (s.setBind sc (some { base := off, chunks := i.toNat + 1, pos := 0, arrived := now })).lsDone .l 1 q 0 id)
def execQfree (p q : BitVec 3) (sc : BitVec 3) (s : State) : Out :=
  s.start .l p (fun _ s => (s.setBind sc none).lsDone .l 1 q 0 id)

/-! ## Prefetch and LNOP (R113, R118) -/

/-- One line of a PFB: a request that would fault, or that is not in BULK, is dropped. -/
def State.prefetchLine (s : State) (ptr : Word) : State :=
  if s.spaceOk (s.partOf s.cur) (fun c => c = 4) ptr 256 then
    match s.place s.cur (s.partOf s.cur) .r ptr with
    | (.ok l, s) => (s.taskRead s.cur l 256 true false).2
    | (_, s) => s
  else s

/-- A micro-order that has pushed at once leaves nothing in flight: when nothing earlier is, it is finished. -/
def State.lsEnd (s : State) (u : Sq) : State := s.modLogic s.cur (fun g => g.retire u)

/-- PFB covers bytes a_a … a_a + 256 × lines − 1; it waits for nothing and pushes at once, when its queue has room. -/
def execPfb (p q : BitVec 3) (a : BitVec 4) (i : BitVec 12) (s : State) : Out :=
  s.start .l p (fun _ s =>
    let ptr := s.ar .l a
    let first := ptr &&& ~~~(255 : Word)
    let n := i.toNat + 1 + (if first = ptr then 0 else 1)
    let s := (List.range n).foldl (fun (s : State) k => s.prefetchLine (first + BitVec.ofNat 64 (256 * k))) s
    if (s.logic s.cur).canPush (pushQueue .l q) then
      ((s.issued .l 1).modLogic s.cur (fun g => g.push (pushQueue .l q) 0)).lsEnd .l
    else s.lsDone .l 1 q 0 id)

def execLnop (p q : BitVec 3) (s : State) : Out := s.start s.lsq p (fun _ s => s.lsDone s.lsq 1 q 0 id)

end Sys2Proof.Machine
end

