-- ==== Sys2Proof/Machine/Flags.lean ====
section
/-! DEFINITION. The sticky flags of YFFLAGS (R27), the element types of the vector unit (R150–R152), and how M issues: register
dependences, the order of its pushes (R182, R206). -/

namespace Sys2Proof.Machine

/-- A write of YFFLAGS clears the bits that are 1, but for flags raised on this clock (R28). -/
def VecSt.clearFlags (x : VecSt) (v : Word) : VecSt := { x with fflags := x.fflags &&& (~~~(v.extractLsb' 0 5) ||| x.fresh) }

/-! ## Element types (R152) -/

/-- A type's width, its floating-point format if it has one, whether it is signed. -/
def typeW (ty : Nat) : Nat :=
  match ty with
  | 0 | 1 | 9 | 10 => 8
  | 2 | 3 | 6 | 7 => 16
  | 11 | 14 => 4
  | 12 | 13 => 6
  | _ => 32
def typeFp (ty : Nat) : Option FpFmt :=
  match ty with
  | 6 => some fp16
  | 7 => some bf16
  | 8 => some fp32
  | 9 => some e4m3
  | 10 => some e5m2
  | 12 => some e3m2
  | 13 => some e2m3
  | 14 => some e2m1
  | _ => none
def typeSigned (ty : Nat) : Bool := ty = 0 || (ty = 2 || (ty = 4 || ty = 11))
/-- The range of an integer type. -/
def typeLo (ty : Nat) : Int := if typeSigned ty then -((2 : Int) ^ (typeW ty - 1)) else 0
def typeHi (ty : Nat) : Int := if typeSigned ty then (2 : Int) ^ (typeW ty - 1) - 1 else (2 : Int) ^ typeW ty - 1
/-- A pattern of an integer type as a number. -/
def typeInt (ty pat : Nat) : Int := if typeSigned ty then intSigned (typeW ty) pat else pat
/-- A number in an integer type (R31, R158). -/
def typeNarrow (ty : Nat) (sat : Bool) (x : Int) : Nat := intNarrow (typeW ty) (typeLo ty) (typeHi ty) sat x

/-! ## VCFG (R151) -/

def VecSt.ty (x : VecSt) : Nat := x.vcfg.toNat % 16
def VecSt.mode (x : VecSt) : Nat := x.vcfg.toNat / 16 % 4
def VecSt.sat (x : VecSt) : Bool := x.vcfg.getLsbD 6
def VecSt.zero (x : VecSt) : Bool := x.vcfg.getLsbD 7
/-- The element width and count. -/
def VecSt.w (x : VecSt) : Nat := typeW x.ty
def VecSt.lanes (x : VecSt) : Nat := 4096 / x.w

/-- A predicate; p7 is all-true (R54). -/
def VecSt.pr (x : VecSt) (k : Nat) : PReg := if k = 7 then BitVec.allOnes 1024 else vGet x.p k
def VecSt.on (x : VecSt) (k : BitVec 3) (j : Nat) : Bool := (x.pr k.toNat).getLsbD j
/-- p7 discards what is written. -/
def VecSt.setP (x : VecSt) (k : Nat) (v : PReg) : VecSt :=
  if k = 7 then x else { x with p := vSet x.p k v, ppoison := setMark x.ppoison k false }
def VecSt.vr (x : VecSt) (k : Nat) : VReg := vGet x.v k
def VecSt.setV (x : VecSt) (k : Nat) (v : VReg) (bad : Bool) : VecSt :=
  { x with v := vSet x.v (k % 32) v, poison := setMark x.poison (k % 32) bad }

/-! ## Dependences (R206) -/

/-- Registers that a micro-order reads and writes: v at 0–31, z at 32, k at 36, e at 40, p at 44. -/
structure Use where
  rd : BitVec 64
  wr : BitVec 64
  deriving DecidableEq, Repr

def regV (k : Nat) : BitVec 64 := 1#64 <<< (k % 32)
def regVs (k n : Nat) : BitVec 64 := (List.range n).foldl (fun a i => a ||| regV (k + i)) 0
def regZ (k : Nat) : BitVec 64 := 1#64 <<< (32 + k)
def regZs : BitVec 64 := 0xF00000000
def regK (k : Nat) : BitVec 64 := 1#64 <<< (36 + k)
def regE (k : Nat) : BitVec 64 := 1#64 <<< (40 + k)
def regP (k : Nat) : BitVec 64 := if k = 7 then 0 else 1#64 <<< (44 + k)

def Use.meets (a b : Use) : Bool := (a.wr &&& (b.rd ||| b.wr)) ||| (a.rd &&& b.wr) != 0

/-- The registers of a matrix operation that is not finished. -/
def MEntry.use (e : MEntry) : Use :=
  if e.done then ⟨0, 0⟩ else
  match e.act with
  | .none => ⟨0, 0⟩
  | .mma o => ⟨if o.kuse then regK o.kreg else 0, if o.shape = 0 then regZ o.z else regZs⟩
  | .scout o => ⟨0, if o.shape = 0 then regZ o.z else regZs⟩
  | .mzero z _ _ => ⟨0, regZ z⟩
  | .drain d => ⟨regZ d.z ||| (if d.raw || d.block.isSome then 0 else regE d.e), if d.dest = 1 then regVs d.vbase d.total else 0⟩
  | .slots _ => ⟨0, 0⟩

/-! ## Issue and retirement of M -/

/-- A micro-order of M has had its effect, or is accepted by the matrix engine: the next step, and its push in order. -/
def State.mPut (s : State) (q : BitVec 3) (tok : Word) (act : MAct) (done : Bool) : State :=
  let e : MEntry := { act := act, done := done, push := pushQueue .m q, tok := tok, run := (s.seq s.cur .m).run }
  (s.issued .m 1).modLogic s.cur (fun g => ({ g with m := { g.m with list := g.m.list ++ [e] } } : Logic).mRetire)
def State.mDone (s : State) (q : BitVec 3) (tok : Word) : State := s.mPut q tok .none true

/-- M issues a micro-order: it waits, before its pop, for the registers that an unfinished matrix operation holds (R182, R206). -/
def State.mIssue (s : State) (u : Use) (hold : Bool) (p : BitVec 3) (body : Word → State → State) : Out :=
  if (s.seq s.cur .m).started.isNone && (hold || (s.logic s.cur).m.list.any (fun e => e.use.meets u)) then
    .next (s.seqWait .m .other)
  else s.start .m p body

/-! ## Sources of a micro-order (R154) -/

/-- One source: a register group, or chunks of a stream register. -/
structure Src where
  stream : Bool
  reg : Nat
  k : Nat
  deriving DecidableEq, Repr

/-- Reading the sources: a stream that is unbound or ends, one whose chunk has not arrived, or the registers with the new read
positions and whether poison is among them. -/
inductive SrcRes where
  | bound
  | wait
  | ok (vs : List VReg) (x : VecSt) (bad : Bool)
  deriving DecidableEq, Repr

def QBind.here (b : QBind) (c : Nat) : Bool := (List.range 8).all (fun i => b.arrived.contains (8 * c + i))

def State.sources (s : State) (t : Tile) : List Src → VecSt → SrcRes
  | [], x => .ok [] x false
  | a :: r, x =>
    let next (vs : List VReg) (x : VecSt) (bad wait : Bool) : SrcRes :=
      match s.sources t r x with
      | .ok us x b => if wait then .wait else .ok (vs ++ us) x (b || bad)
      | e => e
    if a.stream then
      match vGet x.q a.reg with
      | none => .bound
      | some b =>
        if b.chunks < b.pos + a.k then .bound
        else
          let at_ (i : Nat) : Nat := b.base + 512 * (b.pos + i)
          next ((List.range a.k).map (fun i => vOfBytes (Mem.read (s.tile t).slice (at_ i) 512)))
            { x with q := vSet x.q a.reg (some { b with pos := b.pos + a.k }) }
            ((List.range a.k).any (fun i => s.poisonedAt (.slice t (at_ i)) 512))
            (!(List.range a.k).all (fun i => b.here (b.pos + i)))
    else
      next ((List.range a.k).map (fun i => x.vr (a.reg + i))) x
        ((List.range a.k).any (fun i => x.poison.getLsbD ((a.reg + i) % 32))) false

/-- Field a, with its stream bit. -/
def srcA (m : Bool) (r : Reg) (k : Nat) : Src := ⟨m, if m then r.toNat % 8 else r.toNat, k⟩
/-- The registers that sources read. -/
def srcUse (l : List Src) : BitVec 64 := l.foldl (fun a x => if x.stream then a else a ||| regVs x.reg x.k) 0

/-- What a vector micro-order comes to: the new registers, its flags, the value that it pushes. -/
structure VRes where
  x : VecSt
  flags : FFlags
  tok : Word

/-- A vector micro-order (R153, R156): dependences, pop, the checks of R157, its sources, then the effect, the flags and the push.
`arith`: poison in a source raises ECC, else it travels (R395). `ok`: the entry's own check; `pk`: the predicates it reads; `hold`
keeps it at issue, `rd`: other registers that it reads. -/
def State.vOpOn (s : State) (hold : Bool) (rd : BitVec 64) (p q : BitVec 3) (wr : BitVec 64) (pk : List Nat)
    (srcs : VecSt → List Src) (arith : Bool) (ok : VecSt → Bool) (eff : VecSt → List VReg → Bool → Word → VRes) : Out :=
  let sl := srcs (s.vec s.cur)
  let u : Use := ⟨rd ||| (srcUse sl ||| pk.foldl (fun a k => a ||| regP k) 0), wr⟩
  s.mIssue u hold p (fun tok s =>
    let x := s.vec s.cur
    if !ok x then s.trapSeq .m .bound 0 none
    else match s.sources s.cur sl x with
      | .bound => s.trapSeq .m .bound 0 none
      | .wait => s.seqWait .m .other
      | .ok vs x bad =>
        if (bad && arith) || pk.any (fun k => k != 7 && x.ppoison.getLsbD k) then s.trapSeq .m .ecc 0 none
        else
          let r := eff x vs bad tok
          (s.modVec s.cur (fun _ => r.x.raise r.flags)).mDone q r.tok)
def State.vOp (s : State) (p q : BitVec 3) (wr : BitVec 64) (pk : List Nat) (srcs : VecSt → List Src) (arith : Bool)
    (ok : VecSt → Bool) (eff : VecSt → List VReg → Bool → Word → VRes) : Out :=
  s.vOpOn false 0 p q wr pk srcs arith ok eff

end Sys2Proof.Machine
end

