-- ==== Sys2Proof/Machine/Engine.lean ====
section
/-! DEFINITION. The XCMD group and the copy engine: issue and its checks, the events of a command's life, segments, collectives,
tier moves, the copy budget, and the encoders' end of a frame (R210–R233, R240–R243, R308). -/

namespace Sys2Proof.Machine

/-! ## Checks at issue (R217, R218, R220) -/

/-- A pointer of a command over its extent, the spaces it may be in, its alignment, and whether it is written. -/
structure PtrReq where
  ptr : Word
  n : Nat
  allow : Nat → Bool
  align : Nat
  write : Bool

/-- The tiles of the MCAST group that a pointer names, in the table of the task's instance (R272). -/
def Inst.groupTiles (i : Inst) (ptr : Word) : Option (List Tile) :=
  match i.graph.bind (·.groups) with
  | some g =>
    let m := g.getD (wbits ptr 28 8) 0
    if m = 0 then none
    else some (((List.range 64).filter (fun r => m.getLsbD r)).map (fun r => i.tileOf (BitVec.ofNat 8 r)))
  | none => none
def State.mcastTiles (s : State) (t : Tile) (ptr : Word) : Option (List Tile) := (s.instOf t).bind (fun i => i.groupTiles ptr)

/-- The SPACE check of a command's pointer (R98, R221, R272). -/
def State.reqSpace (s : State) (t : Tile) (r : PtrReq) : Bool :=
  s.spaceOk (s.partOf t) r.allow r.ptr r.n && (spaceOf r.ptr != 2 || (s.mcastTiles t r.ptr).isSome)
/-- The BOUND check: an MCAST range in every member slice. -/
def State.reqBound (s : State) (t : Tile) (r : PtrReq) : Bool :=
  if spaceOf r.ptr = 2 then ((s.mcastTiles t r.ptr).getD []).all (fun u => s.binsOk u (sliceOff r.ptr) r.n)
  else s.boundOk t r.ptr r.n

/-- The flags that a sync word names lie on tiles of the partition (R220). -/
def State.flagHomesOk (s : State) (t : Tile) (w : Word) : Bool :=
  let x := s.part (s.partOf t)
  (!w.getLsbD 44 || x.has (Fin.ofNat 64 (wbits w 38 6))) && (!w.getLsbD 63 || x.has (Fin.ofNat 64 (wbits w 57 6)))

/-- The first pointer that fails a check. -/
def firstReq (k : TrapKind) (ok : PtrReq → Bool) (rs : List PtrReq) : Option Fail :=
  (rs.find? (fun r => !ok r)).map (fun r => ⟨k, writeBit r.write, some r.ptr⟩)

/-- The pointer checks of a command in the kind order of R100; `mis`: another operand breaks its alignment. -/
def State.reqFail (s : State) (t : Tile) (sync : Word) (rs : List PtrReq) (mis : Bool) : Option Fail :=
  match firstReq .space (s.reqSpace t) rs with
  | some f => some f
  | none =>
    if !s.flagHomesOk t sync then some ⟨.space, 0, none⟩
    else match firstReq .align (fun r => r.ptr.toNat % r.align = 0) rs with
      | some f => some f
      | none => if mis then some ⟨.align, 0, none⟩ else firstReq .bound (s.reqBound t) rs

/-- The sync word breaks a limit (R217, R218, R220). -/
def syncBad (w : Word) (o : BitVec 2) (fillOk : Bool) : Bool :=
  wbits w 24 2 = 3 || ((w.getLsbD 44 && !acquires o) || ((w.getLsbD 63 && !releases o) || (w.getLsbD 23 && !fillOk)))

/-- What the issue of a command needs. -/
structure CmdReq where
  func : BitVec 5
  sync : Word
  src : Word
  dst : Word
  block : List Byte
  /-- A field breaks its limits. -/
  bad : Bool
  reqs : List PtrReq
  mis : Bool
  /-- For XCOLL, its group and rank. -/
  join : Option (Nat × Nat)

/-- The member's k-th XCOLL on the group joins the k-th instance (R226). -/
def State.joinColl (s : State) (t : Tile) (g rank : Nat) : State :=
  s.modPart (s.partOf t) (fun x =>
    let k := ((x.collCount.find? (fun e => e.1 = g && e.2.1 = t)).map (·.2.2)).getD 0 + 1
    { x with collCount := (g, t, k) :: x.collCount.filter (fun e => !(e.1 = g && e.2.1 = t)),
             collJoined := (g, k, rank, s.cmdNo + 1) :: x.collJoined })

/-- The command takes a queue entry and its number, and the instruction is done (R210, R219). -/
def State.takeEntry (s : State) (p : PendingCmd) : State :=
  let s := match p.join with
    | some (g, rank) => s.joinColl s.cur g rank
    | none => s
  let x := s.copy s.cur
  let c : Cmd := { seq := x.counter + 1, id := s.cmdNo + 1, gen := x.gen, cls := (s.task s.cur).elim 0 (·.cls), func := p.func, ord := p.ord,
                   scope := p.scope, sync := p.sync, src := p.src, dst := p.dst, block := p.block, st := .waiting, elem := 0, seg := 0,
                   stop := none, discarded := false, lifted := false, acquired := false, fills := [], base := 0, noPlane := none }
  (({ s with cmdNo := s.cmdNo + 1 } : State).modCopy s.cur (fun x => { x with q := x.q ++ [c], counter := x.counter + 1 })).cDone p.d
    (BitVec.ofNat 64 (x.counter + 1)) false

/-- Takes a queue entry, waits for one, or answers all ones under nowait (R210, R219, R220). -/
def State.enqueueCmd (s : State) (nowait : BitVec 1) (p : PendingCmd) : State :=
  if (s.logic s.cur).copyUsed < 32 then s.takeEntry p
  else if nowait = 1 then s.cDone p.d (BitVec.allOnes 64) false
  else s.modC s.cur (fun c => { c with wait := .entry p, stall := 0 })

/-- The instruction that waits for an entry takes one. -/
def State.entryFree (s : State) (p : PendingCmd) : State := if (s.logic s.cur).copyUsed < 32 then s.takeEntry p else s

/-- Steps 3 to 5 of R220. -/
def State.command (s : State) (d : Reg) (sc : BitVec 3) (o : BitVec 2) (nowait : BitVec 1) (r : CmdReq) : State :=
  if r.bad then s.trapC .bound 0 none
  else match s.reqFail s.cur r.sync r.reqs r.mis with
    | some f => s.failC f
    | none => s.enqueueCmd nowait { d := d, ord := o, scope := sc, func := r.func, sync := r.sync, src := r.src, dst := r.dst,
                                    block := r.block, join := r.join }

/-- Issues an instruction that reads registers for an engine: C's accesses are performed first. -/
def State.cEngine (s : State) (ctl regs : List Reg) (body : State → State) : Out :=
  s.cIssueCtl ctl regs (fun s => if (s.c s.cur).ops.isEmpty then body s else s.cRetry false)

/-- The `n` bytes at a location, and whether they hold poison, as C reads them: each aligned 64-byte block at its home, or as C's load path
read it ahead (R137). -/
def State.blockRead (s : State) (l : Loc) (n : Nat) : List Byte × Bool :=
  let one (i : Nat) : List Byte × Bool :=
    let k := l.plus (64 * i)
    (readEarly (s.c s.cur).early k 64).getD (s.homeBytes k 64, s.poisonedAt k 64)
  ((List.range (n / 64)).flatMap (fun i => (one i).1), (List.range (n / 64)).any (fun i => (one i).2))

/-- Reads the `n` bytes of a block that a LOCAL pointer names: SPACE, ALIGN 64, BOUND; an empty bin waits; poison raises ECC (R220). -/
def State.cBlock (s : State) (ptr : Word) (n : Nat) (body : List Byte → State → State) : State :=
  match s.access s.cur localSpace .r ptr n 64 with
  | (.ok l, s) =>
    if !s.locFull l n then s.cRetry false
    else if (s.blockRead l n).2 then s.trapC .ecc 0 (some ptr)
    else body (s.blockRead l n).1 s
  | (.fail f, s) => s.failC f
  | (.noPlane _ _, s) => s
def State.cBlockCmd (s : State) (d a : Reg) (body : List Byte → State → State) : Out :=
  s.cEngine [a] [d] (fun s => s.cBlock (s.rs a) 64 body)

/-! ## The instructions (R219, R222–R226, R231, R233, R241) -/

/-- XCOPY (R222). -/
def execXcopy (d a b : Reg) (sc : BitVec 3) (o : BitVec 2) (n : BitVec 1) (s : State) : Out :=
  s.cEngine [d, a, b] [] (fun s =>
    let w := s.rs d
    let len := wbits w 0 23
    s.command d sc o n
      { func := 0, sync := w, src := s.rs a, dst := s.rs b, block := [], bad := syncBad w o (spaceOf (s.rs b) ≤ 2), mis := false,
        reqs := [⟨s.rs a, len, vectorSpaces, 1, false⟩, ⟨s.rs b, len, fun c => vectorSpaces c || c = 2, 1, true⟩], join := none })

/-- XGATH and XSCAT (R223). -/
def State.cGather (s : State) (func : BitVec 5) (d a : Reg) (sc : BitVec 3) (o : BitVec 2) (n : BitVec 1) : Out :=
  s.cBlockCmd d a (fun b s =>
    let e := argBits b 0 23
    let cnt := fieldAt b 32 4
    let src := wordAt b 8 8
    let dst := wordAt b 16 8
    let all := cnt * e
    let bad := e % 64 ≠ 0 || (e = 0 || (cnt = 0 || (65536 < cnt || (!zeroAt b 36 4 || !zeroAt b 48 16))))
    s.command d sc o n
      { func := func, sync := w0 b, src := src, dst := dst, block := b, bad := bad || syncBad (w0 b) o (spaceOf dst ≤ 2),
        mis := fieldAt b 40 8 % 64 ≠ 0,
        reqs := [⟨src, if func = 1 then e else all, vectorSpaces, 64, false⟩, ⟨dst, if func = 1 then all else e, vectorSpaces, 64, true⟩,
                 ⟨wordAt b 24 8, 4 * cnt, localSpace, 4, false⟩], join := none })
def execXgath (d a : Reg) (sc : BitVec 3) (o : BitVec 2) (n : BitVec 1) (s : State) : Out := s.cGather 1 d a sc o n
def execXscat (d a : Reg) (sc : BitVec 3) (o : BitVec 2) (n : BitVec 1) (s : State) : Out := s.cGather 2 d a sc o n

/-- The fields of an XCOLL block (R226). -/
def collOp (b : List Byte) : Nat := argBits b 0 4
def collFn (b : List Byte) : Nat := argBits b 4 2
def collTy (b : List Byte) : Nat := argBits b 6 4
def collCount (b : List Byte) : Nat := fieldAt b 24 4
def collGroup (b : List Byte) : Nat := fieldAt b 28 2
def collRoot (b : List Byte) : Nat := fieldAt b 30 2
def collSize (b : List Byte) : Nat := typeW (collTy b) / 8
/-- Elements that a member of a group of `N` reads and writes (R227). -/
def collIn (b : List Byte) : Nat := if collOp b = 4 then 0 else collCount b
def collOut (b : List Byte) (N : Nat) : Nat :=
  match collOp b with
  | 1 => collCount b / N
  | 2 => collCount b * N
  | 4 => 0
  | _ => collCount b

/-- The members of a group, none when it is not defined. -/
def PartSt.group (x : PartSt) (g : Nat) : List Member := ((x.collGroups.find? (fun e => e.1 = g)).map (·.2)).getD []
/-- The rank of a tile of this device. -/
def State.rankOf (s : State) (l : List Member) (t : Tile) : Option Nat := l.findIdx? (fun m => m.dev = s.fabric.own && m.tile = t)

/-- XCOLL (R226–R228). -/
def execXcoll (d a : Reg) (sc : BitVec 3) (o : BitVec 2) (n : BitVec 1) (s : State) : Out :=
  s.cBlockCmd d a (fun b s =>
    let l := (s.part (s.partOf s.cur)).group (collGroup b)
    let rank := s.rankOf l s.cur
    let N := l.length
    let bad := 4 < collOp b || (2 < collFn b || (!(collTy b = 4 || (collTy b = 7 || collTy b = 8)) || (argBits b 10 13 ≠ 0 ||
      ((collCount b = 0 && collOp b ≠ 4) || (255 < collGroup b || (!zeroAt b 32 32 || (rank.isNone ||
      ((collOp b = 1 && collCount b % N ≠ 0) || (collOp b = 3 && N ≤ collRoot b)))))))))
    s.command d sc o n
      { func := 3, sync := w0 b, src := wordAt b 8 8, dst := wordAt b 16 8, block := b, bad := bad || syncBad (w0 b) o false, mis := false,
        reqs := [⟨wordAt b 8 8, collIn b * collSize b, vectorSpaces, 4, false⟩,
                 ⟨wordAt b 16 8, collOut b N * collSize b, vectorSpaces, 4, true⟩],
        join := some (collGroup b, rank.getD 0) })

/-- XPREF, XPIN and XUNPIN (R231). -/
def State.cGrains (s : State) (func : BitVec 5) (d a : Reg) (sc : BitVec 3) (o : BitVec 2) (n : BitVec 1) : Out :=
  s.cEngine [d, a] [] (fun s =>
    let w := s.rs d
    let k := wbits w 0 23
    s.command d sc o n
      { func := func, sync := w, src := s.rs a, dst := 0, block := [], bad := k = 0 || syncBad w o false, mis := false,
        reqs := [⟨s.rs a, 0x10000 * k, fun c => c = 4, 0x10000, false⟩], join := none })
def execXpref (d a : Reg) (sc : BitVec 3) (o : BitVec 2) (n : BitVec 1) (s : State) : Out := s.cGrains 4 d a sc o n
def execXpin (d a : Reg) (sc : BitVec 3) (o : BitVec 2) (n : BitVec 1) (s : State) : Out := s.cGrains 6 d a sc o n
def execXunpin (d a : Reg) (sc : BitVec 3) (o : BitVec 2) (n : BitVec 1) (s : State) : Out := s.cGrains 7 d a sc o n

/-- XLAYER (R233). -/
def execXlayer (d : Reg) (sc : BitVec 3) (o : BitVec 2) (n : BitVec 1) (s : State) : Out :=
  s.cEngine [d] [] (fun s =>
    let w := s.rs d
    let ok := match (s.part (s.partOf s.cur)).layers[wbits w 12 4]? with
      | some y => wbits w 0 12 < y.layers
      | none => false
    s.command d sc o n
      { func := 5, sync := w, src := 0, dst := 0, block := [], bad := !ok || (wbits w 16 7 ≠ 0 || syncBad w o false), mis := false,
        reqs := [], join := none })

/-- XGEN (R224). -/
def execXgen (d a : Reg) (s : State) : Out :=
  s.cIssueCtl [a] [d] (fun s =>
    let v := s.rs a
    if wbits v 16 48 ≠ 0 then s.trapC .bound 0 none
    else (s.modCopy s.cur (fun x => { x with gen := v.extractLsb' 0 16 })).cDone d ((s.gen s.cur).setWidth 64) false)

/-- A command has completed. -/
def CopySt.isDone (x : CopySt) (n : Nat) : Bool := n ≤ x.done || x.retired.contains n

/-- XWAITC (R224). -/
def execXwaitc (d a : Reg) (sc : BitVec 3) (o : BitVec 2) (s : State) : Out :=
  s.cIssueCtl [a] [d] (fun s =>
    let n := (s.rs a).toNat
    if (s.copy s.cur).counter < n then s.trapC .bound 0 none
    else if (s.copy s.cur).isDone n then (s.acquireIf s.cur o sc).cDone d (BitVec.ofNat 64 (s.copy s.cur).done) false
    else s.cRetry false)

/-- The STATE of XQSTAT: a command that has finished and whose token waits has not completed (R213). -/
def CmdSt.code : CmdSt → Nat
  | .waiting => 1 | .acquiring => 1 | .running => 2 | .suspended => 2 | .finished => 2 | .stopped => 3

/-- XQSTAT (R224). -/
def execXqstat (d a : Reg) (s : State) : Out :=
  s.cIssueCtl [a] [d] (fun s =>
    let n := (s.rs a).toNat
    let x := s.copy s.cur
    if x.counter < n then s.trapC .bound 0 none
    else
      let st := (x.q.find? (fun c => c.seq = n)).elim 0 (fun c => c.st.code)
      let disc := x.discarded.contains n || x.q.any (fun c => c.seq = n && c.discarded)
      s.cDone d (BitVec.ofNat 64 (x.gen.toNat * 65536 + (if disc then 256 else 0) + st * 64 + (32 - (s.logic s.cur).copyUsed))) false)

/-- EGSUB (R241). -/
def execEgsub (d a : Reg) (sc : BitVec 3) (o : BitVec 2) (n : BitVec 1) (s : State) : Out :=
  s.cBlockCmd d a (fun b s =>
    let lev := argBits b 13 5
    let x := s.part (s.partOf s.cur)
    let bad := argBits b 18 5 ≠ 0 || (4 < argBits b 6 3 + argBits b 9 3 || ((24 ≤ lev && lev ≤ 30) ||
      (egWidth b % 2 ≠ 0 || (egWidth b < 16 || (4096 < egWidth b || (egHeight b % 2 ≠ 0 || (egHeight b < 16 || (2304 < egHeight b ||
      ((argBits b 5 1 = 0 && 255 < fieldAt b 12 4) || (fieldAt b 24 4 < 4096 || (fieldAt b 30 2 = 0 || (240 < fieldAt b 30 2 ||
      (!zeroAt b 36 4 || (egMask b = 0 || egMask b &&& ~~~x.tiles ≠ 0))))))))))))))
    let bulk (c : Nat) : Bool := c = 4
    s.command d sc o n
      { func := 11, sync := w0 b, src := 0, dst := wordAt b 16 8, block := b, bad := bad || syncBad (w0 b) o false, mis := false,
        reqs := ⟨wordAt b 16 8, fieldAt b 24 4, bulk, 64, true⟩ :: ((if egKey b then [] else [⟨wordAt b 48 8, egRecon b, bulk, 1, false⟩]) ++
          [⟨wordAt b 56 8, egRecon b, bulk, 1, true⟩]), join := none })

/-! ## A command's life (R211, R213, R216, R218) -/

def CopySt.cmd (x : CopySt) (n : Nat) : Option Cmd := x.q.find? (fun c => c.seq = n)
def State.modCmd (s : State) (t : Tile) (n : Nat) (f : Cmd → Cmd) : State :=
  s.modCopy t (fun x => { x with q := x.q.map (fun c => if c.seq = n then f c else c) })

/-- The command of an identity, on the tile whose logic holds it. -/
def State.findCmd (s : State) (id : Nat) : Option (Tile × Cmd) :=
  allTiles.findSome? (fun t => ((s.copy t).q.find? (fun c => c.id = id)).map (fun c => (t, c)))

/-- Elements of a gather or scatter, bytes of an element. -/
def Cmd.count (c : Cmd) : Nat := fieldAt c.block 32 4
def Cmd.arg (c : Cmd) : Nat := wbits c.sync 0 23
/-- The command acts on grains (R216). -/
def Cmd.grains (c : Cmd) : Bool := c.func = 4 || (c.func = 6 || c.func = 7)

/-- The status word of a command's trap (R216). -/
def Cmd.status (c : Cmd) (side : Bool) : Word :=
  let e := if c.grains then c.elem / 4096 else c.elem
  let g := if c.grains then c.elem % 4096 else c.seg
  BitVec.ofNat 64 (e % 65536 * 2 ^ 48 + g % 4096 * 2 ^ 36 + (if side then 2 ^ 35 else 0) + c.func.toNat * 2 ^ 30 + c.seq % 2 ^ 29)
/-- A fault met by a command. -/
def State.failCmd (s : State) (t : Tile) (c : Cmd) (side : Bool) (f : Fail) : State :=
  s.trapCmd t c.seq f.kind (c.status side) f.addr (f.status.getLsbD 16)

/-- No part of the command's own work remains; tier moves that it waits for stand in the partition's list. -/
def State.cmdOver (s : State) (t : Tile) (c : Cmd) : Bool :=
  let moving := (s.part (s.partOf t)).moves.any (fun m => m.cmd = some c.id)
  c.discarded ||
  if c.func = 0 then c.arg ≤ 4096 * c.seg
  else if c.func = 1 || c.func = 2 then c.count ≤ c.elem
  else if c.grains then c.arg ≤ c.elem && !moving
  else 1 ≤ c.elem && !moving

/-- A command is in ACQUIRING, RUNNING or SUSPENDED. -/
def CmdSt.active : CmdSt → Bool
  | .acquiring => true | .running => true | .suspended => true | _ => false

/-- A command that starts waits at its acquire flag, as FWAIT does, and a frame takes its place in its encoder's start order (R218,
R241). -/
def State.registered (s : State) (c : Cmd) : State :=
  let home : Tile := Fin.ofNat 64 (wbits c.sync 38 6)
  let f := wbits c.sync 26 12
  let s := if c.sync.getLsbD 44 then
      { s with flagWaits := { cmd := c.id, home := home, flag := f, hit := (s.tile home).flag f } :: s.flagWaits }
    else s
  if c.func = 11 then s.modEnc (egEnc c.block) (fun e => { e with starts := e.starts ++ [c.id] }) else s

/-- COMMAND_START of command `ev.k` (R211, R140). -/
def execCommandStart (s : State) : Out :=
  let x := s.copy s.cur
  match x.cmd s.ev.k with
  | some c =>
    let older := x.q.any (fun y => y.gen = c.gen && (y.seq < c.seq && y.st != .finished))
    if (s.tile s.cur).runs && (c.st = .waiting && (!older && (x.q.filter (fun y => y.st.active)).length < 4)) then
      .next ((s.modCmd s.cur c.seq (fun c => { c with st := .acquiring, lifted := !s.unlifted s.cur })).registered c)
    else .next s
  | none => .next s

/-- An acquire of the copy engine orders L's loads behind a token of E2L (R130). -/
def State.forgetIf (s : State) (t : Tile) (yes : Bool) : State := if yes then s.modLs t false (fun x => { x with early := [] }) else s

/-- COMMAND_ACQUIRE of command `ev.k`: its acquire flag, where it names one, has read 1 since the command started (R218). A submitted frame then waits for its
encoder (R241). -/
def execCommandAcquire (s : State) : Out :=
  match (s.copy s.cur).cmd s.ev.k with
  | some c =>
    let av := c.sync.getLsbD 44
    let flag := s.flagWaits.any (fun m => m.cmd = c.id && m.hit)
    if (s.tile s.cur).runs && (c.st = .acquiring && (!c.acquired && (!av || flag))) then
      .next (((({ s with flagWaits := s.flagWaits.filter (fun m => m.cmd != c.id) } : State).forgetIf s.cur (acquires c.ord))).modCmd s.cur c.seq (fun c =>
        { c with acquired := true, st := if c.func = 11 then .acquiring else .running,
                 lifted := c.lifted || (acquires c.ord && (!av || 1 ≤ c.scope.toNat)) }))
    else .next s
  | none => .next s

/-- Sets a bin full (R103). -/
def State.setFull (s : State) (key : Nat) : State :=
  s.modTile (Fin.ofNat 64 key) (fun x => { x with empty := x.empty.filter (fun b => b != key / 64) })

/-- The largest number up to which every command has completed. -/
def doneFrom (r : List Nat) : Nat → Nat → Nat
  | 0, d => d
  | n + 1, d => if r.contains (d + 1) then doneFrom r n (d + 1) else d
/-- A command's entry retires (R213). -/
def CopySt.retire (x : CopySt) (c : Cmd) : CopySt :=
  let r := insertRising c.seq x.retired
  let d := doneFrom r r.length x.done
  { x with q := x.q.filter (fun y => y.seq != c.seq), done := d, retired := r.filter (fun n => d < n),
           discarded := if c.discarded then c.seq :: x.discarded else x.discarded }

/-- The queue that TOK names. -/
def Cmd.tok (c : Cmd) : Option (Fin 12) :=
  match wbits c.sync 24 2 with
  | 1 => some 10
  | 2 => some 11
  | _ => none
/-- Step 4 and 5 of R213: the token, when its queue has room, then the entry retires. -/
def State.pushOrWait (s : State) (t : Tile) (c : Cmd) : State :=
  match c.tok with
  | some q =>
    if s.tokRoom t q then (s.pushTok t q (BitVec.ofNat 64 c.seq)).modCopy t (fun x => x.retire c)
    else s.modCmd t c.seq (fun c => { c with st := .finished })
  | none => s.modCopy t (fun x => x.retire c)

/-- The completion of a command (R213): the bins still to be set full, the release flag, the token. -/
def State.completeCmd (s : State) (t : Tile) (c : Cmd) : State :=
  let s := if c.discarded || c.fills.isEmpty then s else (c.fills.foldl State.setFull s).wakeBins
  let s := if c.sync.getLsbD 63 then s.setFlag (Fin.ofNat 64 (wbits c.sync 57 6)) (wbits c.sync 45 12) true else s
  s.pushOrWait t c

/-- COMMAND_COMPLETE of command `ev.k` (R213). -/
def execCommandComplete (s : State) : Out :=
  match (s.copy s.cur).cmd s.ev.k with
  | some c =>
    .next (if (s.tile s.cur).runs && (c.st = .running && s.cmdOver s.cur c) then s.completeCmd s.cur c else s)
  | none => .next s

/-- COMPLETION_TOKEN_PUSH of command `ev.k` (R213). -/
def execCompletionTokenPush (s : State) : Out :=
  match (s.copy s.cur).cmd s.ev.k with
  | some c => .next (if (s.tile s.cur).runs && c.st = .finished then s.pushOrWait s.cur c else s)
  | none => .next s

/-! ## Data of a segment (R212, R221) -/

/-- The pieces of a range, each within one page. -/
def State.placeRange (s : State) (t : Tile) (need : Need) (ptr : Word) (n : Nat) : Res (List (Loc × Nat)) × State :=
  if n = 0 then (.ok [], s) else
  let cuts := if spaceOf ptr < 4 then [(wbits ptr 0 48, n)] else cutsOf (wbits ptr 0 48) n
  match s.placeAll t (s.partOf t) need (cuts.map (fun (a, _) => ptr + BitVec.ofNat 64 (a - wbits ptr 0 48))) with
  | (.ok ls, s) => (.ok (ls.zip (cuts.map (·.2))), s)
  | (.fail f, s) => (.fail f, s)
  | (.noPlane a w, s) => (.noPlane a w, s)

/-- The bytes of pieces with the poison marks of the blocks that hold them; `lifted`: home values. -/
def State.readPieces (s : State) (t : Tile) (lifted : Bool) : List (Loc × Nat) → List (Byte × Bool) × State
  | [] => ([], s)
  | (l, n) :: r =>
    let bs := match l with
      | .bulk _ _ pa _ _ => if lifted then Mem.read s.bulk pa n else s.bulkSnap t pa n
      | _ => s.homeBytes l n
    let marked := bs.zipIdx.map (fun (e : Byte × Nat) => (e.1, s.poisonedAt (l.plus e.2) 1))
    let rest := (s.fabricDone t l).readPieces t lifted r
    (marked ++ rest.1, rest.2)

/-- The address of a location at its home. -/
def Loc.addr : Loc → Nat
  | .slice _ x => x | .sync _ x => x | .bulk _ _ pa _ _ => pa | .host _ b _ => b | .fabric _ _ x => x

/-- Writes marked bytes at a location, each aligned 64-byte block with its own mark (R395). -/
def State.writeMarked (s : State) (by_ : Option Tile) (l : Loc) (bs : List (Byte × Bool)) : State :=
  let s := match by_ with
    | some t => s.ownWrite t l bs.length
    | none => s
  if bs.all (fun e => !e.2) then s.homeWrite by_ l (bs.map (·.1)) false
  else (unitsOf 64 l.addr bs.length).foldl (fun s k =>
    let o := 64 * k - l.addr
    let n := 64 * (k + 1) - max l.addr (64 * k)
    let part := (bs.drop o).take n
    s.homeWrite by_ (l.plus o) (part.map (·.1)) (part.any (·.2))) s

/-- Writes marked bytes into pieces. -/
def State.writeAt (s : State) (t : Tile) : List (Loc × Nat) → List (Byte × Bool) → State
  | [], _ => s
  | (l, n) :: r, bs => ((s.writeMarked (some t) l (bs.take n)).fabricDone t l).writeAt t r (bs.drop n)

/-- How a segment goes. -/
inductive SegRes where
  | done (s : State)
  /-- It cannot begin yet. -/
  | wait
  /-- A fault on the read or the write side. -/
  | fail (side : Bool) (f : Fail) (s : State)
  /-- No live plane reaches the device; whether for a write. -/
  | noPlane (a : Word) (w : Bool) (s : State)

/-- The destinations of a write: one, or one for each member of an MCAST group. -/
def State.targets (s : State) (t : Tile) (ptr : Word) : List Word :=
  if spaceOf ptr = 2 then
    ((s.mcastTiles t ptr).getD []).map (fun u => BitVec.ofNat 64 (2 ^ 60 + u.val * 2 ^ 28 + sliceOff ptr))
  else [ptr]
def State.placeTargets (s : State) (t : Tile) (n : Nat) : List Word → Res (List (List (Loc × Nat))) × State
  | [] => (.ok [], s)
  | p :: ps =>
    match s.placeRange t .w p n with
    | (.ok l, s) =>
      match s.placeTargets t n ps with
      | (.ok r, s) => (.ok (l :: r), s)
      | (.fail f, s) => (.fail f, s)
      | (.noPlane a w, s) => (.noPlane a w, s)
    | (.fail f, s) => (.fail f, s)
    | (.noPlane a w, s) => (.noPlane a w, s)

/-- Adds the bins of written pieces to those to be set full, and sets full the ones whose last byte lies below `limit`. -/
def fillKeys (ls : List (Loc × Nat)) (keys : List Nat) : List Nat :=
  ls.foldl (fun keys e => match e.1 with
    | .slice u o => (unitsOf 0x10000 o e.2).foldl (fun k b => insertRising (64 * b + u.val) k) keys
    | _ => keys) keys

/-- Copies one segment: every page of both sides placed, all bytes read, then written (R212, R222). `next`: the command after it. -/
def State.copySegment (s : State) (t : Tile) (c : Cmd) (src dst : Word) (n : Nat) (next : Cmd → Cmd) (limit : Nat) : SegRes :=
  match s.placeRange t .r src n with
  | (.fail f, s) => .fail false f s
  | (.noPlane a w, s) => .noPlane a w s
  | (.ok ls, s) =>
    if !ls.all (fun e => s.locFull e.1 e.2) then .wait
    else match s.placeTargets t n (s.targets t dst) with
      | (.fail f, s) => .fail true f s
      | (.noPlane a w, s) => .noPlane a w s
      | (.ok ds, s) =>
        let r := s.readPieces t c.lifted ls
        let s := ds.foldl (fun s d => s.writeAt t d r.1) r.2
        let keys := if c.sync.getLsbD 23 then fillKeys ds.flatten c.fills else c.fills
        let ready := keys.filter (fun k => (k / 64 + 1) * 0x10000 ≤ limit)
        let s := if ready.isEmpty then s else (ready.foldl State.setFull s).wakeBins
        .done (s.modCmd t c.seq (fun c => next { c with fills := keys.filter (fun k => limit < (k / 64 + 1) * 0x10000) }))

/-- The next segment of an XCOPY; MCAST bins lie at one offset in every member. -/
def State.xcopySegment (s : State) (t : Tile) (c : Cmd) : SegRes :=
  let o := 4096 * c.seg
  let n := min 4096 (c.arg - o)
  let p := BitVec.ofNat 64 o
  s.copySegment t c (c.src + p) (c.dst + p) n (fun c => { c with seg := c.seg + 1 }) (sliceOff c.dst + o + n)

/-- Index `i` of a gather's or scatter's list. -/
def Cmd.listAt (c : Cmd) (i : Nat) : Nat := sliceOff (wordAt c.block 24 8) + 4 * i

/-- The first byte of a range that R98 refuses: its first byte, or the first one outside the window. -/
def State.spaceFault (s : State) (t : Tile) (ptr : Word) : Word :=
  if !s.spaceOk (s.partOf t) vectorSpaces ptr 1 then ptr
  else if spaceOf ptr ≤ 2 then ptr + BitVec.ofNat 64 (0x10000000 - sliceOff ptr)
  else ptr + BitVec.ofNat 64 (2 ^ 48 - wbits ptr 0 48)
/-- The first byte of a slice range in a bin that R102 closes. -/
def State.boundFault (s : State) (t : Tile) (ptr : Word) : Word :=
  ptr + BitVec.ofNat 64 (0x10000 * (s.tile (sliceHome t ptr)).slim - sliceOff ptr)

/-- The next segment of an XGATH or XSCAT; the index is read, and the address that it gives checked, when the element begins (R223). -/
def State.gatherSegment (s : State) (t : Tile) (c : Cmd) : SegRes :=
  let scat := c.func = 2
  let off := BitVec.ofNat 64 (4096 * c.seg)
  let n := min 4096 (c.arg - 4096 * c.seg)
  let lin (b : Word) : Word := b + BitVec.ofNat 64 (c.elem * c.arg) + off
  let next (base : Word) (c : Cmd) : Cmd :=
    if c.arg ≤ 4096 * (c.seg + 1) then { c with elem := c.elem + 1, seg := 0 } else { c with seg := c.seg + 1, base := base }
  let go (base : Word) : SegRes :=
    if scat then s.copySegment t c (lin c.src) (base + off) n (next base) 0
    else s.copySegment t c (base + off) (lin c.dst) n (next base) (sliceOff c.dst + c.elem * c.arg + 4096 * c.seg + n)
  if c.seg ≠ 0 then go c.base
  else
    let la := c.listAt c.elem
    if !s.locFull (.slice t la) 4 then .wait
    else if s.poisonedAt (.slice t la) 4 then .fail false ⟨.ecc, 0, some (wordAt c.block 24 8 + BitVec.ofNat 64 (4 * c.elem))⟩ s
    else
      let base := (if scat then c.dst else c.src) + BitVec.ofNat 64 (Mem.num (s.tile t).slice la 4) * wordAt c.block 40 8
      if !s.spaceOk (s.partOf t) vectorSpaces base c.arg then .fail scat ⟨.space, 0, some (s.spaceFault t base)⟩ s
      else if !s.boundOk t base c.arg then .fail scat ⟨.bound, 0, some (s.boundFault t base)⟩ s
      else go base

/-! ## Collectives (R227, R228) -/

/-- The elements of `size` bytes. -/
def elemsOf (size : Nat) (bs : List Byte) (n : Nat) : List Nat := (List.range n).map (fun i => fieldAt bs (size * i) size)

/-- The reduction of one element of every contribution. -/
def collReduce (fn ty : Nat) (xs : List Nat) : Nat :=
  match typeFp ty with
  | some f =>
    let vs := xs.map f.read
    if fn = 0 then (f.deliver 0 false (fpSum 0 vs)).1
    else match vs with
      | v :: r => (f.deliver 0 false (r.foldl (fpPick (fn = 1)) v)).1
      | [] => 0
  | none =>
    let vs := xs.map (typeInt ty)
    let z : Int := match vs with
      | v :: r => if fn = 0 then r.foldl (· + ·) v else r.foldl (fun a b => if fn = 1 then max a b else min a b) v
      | [] => 0
    typeNarrow ty false z

/-- What the member of rank `j` receives (R227); data that is only moved keeps its poison marks (R395). -/
def collResult (b : List Byte) (xs : List (List (Byte × Bool))) (j : Nat) : List (Byte × Bool) :=
  let size := collSize b
  let n := collCount b
  let cols := xs.map (fun x => elemsOf size (x.map (·.1)) n)
  let red (i : Nat) : List (Byte × Bool) :=
    (leBytes size (collReduce (collFn b) (collTy b) (cols.map (fun x => x.getD i 0)))).map (fun b => (b, false))
  match collOp b with
  | 0 => (List.range n).flatMap red
  | 1 => (List.range (n / xs.length)).flatMap (fun i => red (j * (n / xs.length) + i))
  | 2 => xs.flatten
  | 3 => xs.getD (collRoot b) []
  | _ => []

/-- The fields that every member must share with rank 0. -/
def collShape (b : List Byte) : Nat × Nat × Nat × Nat × Nat := (collOp b, collFn b, collTy b, collCount b, collRoot b)

/-- A member of an instance that joined from this device, with its command. -/
structure Joined where
  rank : Nat
  tile : Tile
  cmd : Cmd
  src : List (Loc × Nat)
  dst : List (Loc × Nat)

/-- The members of this device that joined instance `k` of a group with a command that runs. -/
def State.joined (s : State) (x : PartSt) (g k : Nat) : List Joined :=
  x.collJoined.filterMap (fun e =>
    if e.1 = g && e.2.1 = k then
      match s.findCmd e.2.2.2 with
      | some (t, c) => if (s.tile t).runs && c.st = .running then some ⟨e.2.2.1, t, c, [], []⟩ else none
      | none => none
    else none)

/-- Segments of a member's data: what it reads or what it receives, whichever is longer (R212). -/
def Cmd.collSegs (c : Cmd) (N : Nat) : Nat := (max (collIn c.block) (collOut c.block N) * collSize c.block + 4095) / 4096
/-- The command at the segment of a faulting byte of a range that begins at `base`. -/
def Cmd.atByte (c : Cmd) (base : Word) (f : Fail) : Cmd :=
  { c with seg := match f.addr with
      | some a => (a - base).toNat / 4096
      | none => 0 }
/-- A member waits for a plane to a device (R384). -/
def State.awaitPlaneCmd (s : State) (t : Tile) (c : Cmd) (a : Word) (w : Bool) : State :=
  s.modCmd t c.seq (fun k => { k with noPlane := some (a, w, (c.noPlane.map (·.2.2)).getD s.dtime) })
/-- The address of the first poisoned byte of a member's contribution, whole 64-byte blocks counted. -/
def State.poisonPtr (s : State) (ptr : Word) : List (Loc × Nat) → Word
  | [] => ptr
  | (l, n) :: r =>
    match (unitsOf 64 l.addr n).find? (fun k => s.poisonedAt (l.plus (max l.addr (64 * k) - l.addr)) 1) with
    | some k => ptr + BitVec.ofNat 64 (max l.addr (64 * k) - l.addr)
    | none => s.poisonPtr (ptr + BitVec.ofNat 64 n) r

/-- Places the data of every member; a member whose page fails stops with its fault. -/
def State.placeJoined (s : State) (N : Nat) : List Joined → List Joined × Bool × State
  | [] => ([], true, s)
  | m :: ms =>
    let b := m.cmd.block
    let here : Option (Joined) × State :=
      match s.placeRange m.tile .r m.cmd.src (collIn b * collSize b) with
      | (.ok ls, s) =>
        match s.placeRange m.tile .w m.cmd.dst (collOut b N * collSize b) with
        | (.ok ds, s) => (some { m with src := ls, dst := ds }, s)
        | (.fail f, s) => (none, s.failCmd m.tile (m.cmd.atByte m.cmd.dst f) true f)
        | (.noPlane a w, s) => (none, s.awaitPlaneCmd m.tile m.cmd a w)
      | (.fail f, s) => (none, s.failCmd m.tile (m.cmd.atByte m.cmd.src f) false f)
      | (.noPlane a w, s) => (none, s.awaitPlaneCmd m.tile m.cmd a w)
    match here with
    | (some j, s) =>
      let rest := s.placeJoined N ms
      (j :: rest.1, rest.2.1, rest.2.2)
    | (none, s) =>
      let rest := s.placeJoined N ms
      (rest.1, false, rest.2.2)

/-- The contribution of rank `r`: its source as its command reads it, or free bytes for a member of another device. -/
def State.contributions (s : State) (n : Nat) (js : List Joined) : Nat → Nat → List (List (Byte × Bool)) × State
  | 0, _ => ([], s)
  | k + 1, r =>
    match js.find? (fun j => j.rank = r) with
    | some j =>
      let x := s.readPieces j.tile j.cmd.lifted j.src
      let rest := x.2.contributions n js k (r + 1)
      (x.1 :: rest.1, rest.2)
    | none =>
      let rest := s.drawn.contributions n js k (r + 1)
      ((s.freeBytes n).map (fun b => (b, false)) :: rest.1, rest.2)

/-- A member's command stops with a fatal BOUND, unless an earlier member's end has ended it. -/
def State.failJoined (s : State) (js : List Joined) : State :=
  js.foldl (fun s j => if ((s.copy j.tile).cmd j.cmd.seq).isSome then s.failCmd j.tile j.cmd false ⟨.bound, 0, none⟩ else s) s

/-- A member's segments start one by one; a collective is performed once every member of this device has joined, runs and has started
them all: all sources are read, then every destination is written. Whether the members of other devices agree with rank 0, and what they contribute, is a free choice. -/
def State.collSegment (s : State) (t : Tile) (c : Cmd) : SegRes :=
  let p := s.partOf t
  let x := s.part p
  let g := collGroup c.block
  let l := x.group g
  match x.collJoined.find? (fun e => e.1 = g && e.2.2.2 = c.id) with
  | none => .wait
  | some e =>
    let k := e.2.1
    let js := s.joined x g k
    if c.seg < c.collSegs l.length then .done (s.modCmd t c.seq (fun c => { c with seg := c.seg + 1 })) else
    let local_ := (l.filter (fun m => m.dev = s.fabric.own)).length
    if js.length < local_ || !js.all (fun j => j.cmd.collSegs l.length ≤ j.cmd.seg) then .wait
    else
      let lead := (js.find? (fun j => j.rank = 0)).elim c (·.cmd)
      let far := local_ < l.length
      let agree := js.all (fun j => collShape j.cmd.block == collShape lead.block) && (!far || s.freeBelow 2 = 0)
      let s := if far then s.drawn else s
      if !agree then .done (s.failJoined js)
      else
        let r := s.placeJoined l.length js
        if !r.2.1 then .done r.2.2
        else
          let s := r.2.2
          if !r.1.all (fun j => j.src.all (fun y => s.locFull y.1 y.2)) then .wait
          else
            let bad := if collOp c.block ≤ 1 then r.1.find? (fun j => j.src.any (fun y => s.poisonedAt y.1 y.2)) else none
            match bad with
            | some j =>
              let f : Fail := ⟨.ecc, 0, some (s.poisonPtr j.cmd.src j.src)⟩
              .done (s.failCmd j.tile (j.cmd.atByte j.cmd.src f) false f)
            | none =>
              let xs := s.contributions (collIn c.block * collSize c.block) r.1 l.length 0
              let s := r.1.foldl (fun s j =>
                (s.writeAt j.tile j.dst (collResult j.cmd.block xs.1 j.rank)).modCmd j.tile j.cmd.seq
                  (fun c => { c with elem := 1 })) xs.2
              .done (s.modPart p (fun x => { x with collJoined := x.collJoined.filter (fun e => !(e.1 = g && e.2.1 = k)) }))

/-! ## Tiers (R229–R233) -/

/-- How a grain stands in the bulk table: mapped, not present, malformed. XPREF and XUNPIN skip a malformed one as one that is not mapped
(the model's choice: R231 is silent). -/
def State.grainWalk (s : State) (p : PartId) (g : Nat) : WalkRes := walkFrom s.bulk (0x10000 * g) 3 (s.tableRoot p false)
def State.grainMapped (s : State) (p : PartId) (g : Nat) : Bool :=
  match s.grainWalk p g with
  | .leaf _ _ _ => true
  | _ => false

/-- Asks the tier hardware for a promotion, unless the grain is resident, which then keeps its place (the
model's choice: R230 is silent). -/
def PartSt.promote (x : PartSt) (g : Nat) (cmd : Option Nat) (pin : Bool) : PartSt :=
  if x.resident.contains g then x else { x with moves := x.moves ++ [{ grain := g, cmd := cmd, pin := pin }] }

/-- The next grain of XPREF, XPIN or XUNPIN. -/
def State.grainSegment (s : State) (t : Tile) (c : Cmd) : SegRes :=
  let p := s.partOf t
  let x := s.part p
  let g := wbits c.src 16 32 + c.elem
  let ptr := c.src + BitVec.ofNat 64 (0x10000 * c.elem)
  let pins := ((x.pins.find? (fun e => e.1 = g)).map (·.2)).getD 0
  let next (s : State) : SegRes := .done (s.modCmd t c.seq (fun c => { c with elem := c.elem + 1 }))
  if c.arg ≤ c.elem then .wait
  else if c.func = 6 then
    if pins = 255 || (pins = 0 && x.q0 ≤ x.pins.length) then .fail false ⟨.bound, 0, some ptr⟩ s
    else match s.grainWalk p g with
      | .leaf _ _ _ => next (s.modPart p (fun x => { x with pins := addPin g true x.pins }.promote g (some c.id) true))
      | .np l => .fail false ⟨.xlateNp, xlateStatus l false false, some ptr⟩ s
      | .malformed l => .fail false ⟨.xlatePerm, xlateStatus l true false, some ptr⟩ s
  else if !s.grainMapped p g then next s
  else if c.func = 4 then next (s.modPart p (fun x => x.promote g (some c.id) false))
  else next (s.modPart p (fun x => { x with pins := addPin g false x.pins }))

/-- Reads `n` bytes at a BULK address for a command. -/
def State.readBulkFor (s : State) (t : Tile) (c : Cmd) (va n : Nat) : Except (Res Unit) (List Byte) × State :=
  match s.placeRange t .r (BitVec.ofNat 64 (4 * 2 ^ 60 + va % 2 ^ 48)) n with
  | (.ok ls, s) =>
    let r := s.readPieces t c.lifted ls
    if r.1.any (·.2) then (.error (.fail ⟨.ecc, 0, some (BitVec.ofNat 64 (4 * 2 ^ 60 + va))⟩), r.2) else (.ok (r.1.map (·.1)), r.2)
  | (.fail f, s) => (.error (.fail f), s)
  | (.noPlane a w, s) => (.error (.noPlane a w), s)

/-- The grains of a range record, none when it is malformed (R232). -/
def rangeGrains (r : List Byte) : Option (List Nat) :=
  let va := fieldAt r 0 8
  let n := fieldAt r 8 4
  if va % 0x10000 ≠ 0 || (!zeroAt r 12 4 || 2 ^ 48 < va + 0x10000 * n) then none
  else some ((List.range n).map (fun i => va / 0x10000 + i))

/-- The grains of a layer. -/
def State.layerGrains (s : State) (t : Tile) (c : Cmd) (y : LayerSched) (layer : Nat) : Except (Res Unit) (List Nat) × State :=
  match s.readBulkFor t c (y.base + 16 * layer) 16 with
  | (.error e, s) => (.error e, s)
  | (.ok r, s) =>
    let va := fieldAt r 0 8
    let n := fieldAt r 8 4
    if 2 ^ 48 < va + 16 * n || !zeroAt r 12 4 then
      (.error (.fail ⟨.bound, 0, some (BitVec.ofNat 64 (4 * 2 ^ 60 + y.base + 16 * layer))⟩), s)
    else match s.readBulkFor t c va (16 * n) with
      | (.error e, s) => (.error e, s)
      | (.ok l, s) =>
        match (List.range n).mapM (fun i => rangeGrains ((l.drop (16 * i)).take 16)) with
        | some gs => (.ok gs.flatten, s)
        | none =>
          let i := ((List.range n).findIdx? (fun i => (rangeGrains ((l.drop (16 * i)).take 16)).isNone)).getD 0
          (.error (.fail ⟨.bound, 0, some (BitVec.ofNat 64 (4 * 2 ^ 60 + va + 16 * i))⟩), s)
def State.allLayers (s : State) (t : Tile) (c : Cmd) (y : LayerSched) : List Nat → Except (Res Unit) (List (List Nat)) × State
  | [] => (.ok [], s)
  | l :: ls =>
    match s.layerGrains t c y l with
    | (.error e, s) => (.error e, s)
    | (.ok g, s) =>
      match s.allLayers t c y ls with
      | (.error e, s) => (.error e, s)
      | (.ok r, s) => (.ok (g :: r), s)

/-- The layers of the hot set of layer L (R233). Layers beyond the last are left out, so that the last layer's set is empty (the model's
reading of the cap). -/
def LayerSched.hotLayers (y : LayerSched) (l : Nat) : List Nat :=
  if y.wrap then [l, (l + 1) % y.layers, (l + 2) % y.layers] else [l, l + 1, l + 2].filter (fun k => k < y.layers)

/-- XLAYER: the hot set is set, and every grain of layer L + 1, then of layer L + 2, is asked for. -/
def State.layerSegment (s : State) (t : Tile) (c : Cmd) : SegRes :=
  let p := s.partOf t
  let k := wbits c.sync 12 4
  if 1 ≤ c.elem then .wait
  else match (s.part p).layers[k]? with
    | none => .fail false ⟨.bound, 0, none⟩ s
    | some y =>
      match s.allLayers t c y (y.hotLayers (wbits c.sync 0 12)) with
      | (.error (.fail f), s) => .fail false f s
      | (.error (.noPlane a w), s) => .noPlane a w s
      | (.error (.ok _), _) => .wait
      | (.ok gs, s) =>
        let s := s.modPart p (fun x =>
          let x := { x with layers := x.layers.modify k (fun y => { y with hot := gs.flatten }) }
          let x := (gs.getD 1 []).foldl (fun x g => if s.grainMapped p g then x.promote g (some c.id) false else x) x
          (gs.getD 2 []).foldl (fun x g => if s.grainMapped p g then x.promote g none false else x) x)
        .done (s.modCmd t c.seq (fun c => { c with elem := 1 }))

/-- The least recently promoted grain that is neither pinned nor in a hot set (R230, R233). -/
def PartSt.victim (x : PartSt) : Option Nat :=
  x.resident.find? (fun g => !(x.pins.any (fun e => e.1 = g)) && !(x.layers.any (fun y => y.hot.contains g)))

/-- The grains that can be resident: Q0 of them, in the backing bins of the partition's tiles (R102, R229). -/
def PartSt.tier0 (x : PartSt) : Nat := min x.q0 (x.tileList.length * (3968 - x.slim))

/-- A move can be finished: XPIN's waits until its grain can be resident, another is skipped when no grain can give way. -/
def PartSt.canMove (x : PartSt) (m : TierMove) : Bool :=
  x.resident.contains m.grain || (x.resident.length < x.tier0 || (x.victim.isSome || !m.pin))

/-- The grain becomes resident, in place of the victim where the quota is full. -/
def PartSt.finishMove (x : PartSt) (m : TierMove) : PartSt :=
  if x.resident.contains m.grain then x
  else if x.resident.length < x.tier0 then { x with resident := x.resident ++ [m.grain] }
  else match x.victim with
    | some v => { x with resident := x.resident.filter (fun g => g != v) ++ [m.grain] }
    | none => x

/-- GRAIN_MOVE in partition `ev.p`; none is made while a stack is in self-refresh (R392). -/
def execGrainMove (s : State) : Out :=
  let x := s.part s.ev.p
  if s.pf.selfRefresh ≠ 0 then .next s else
  match x.moves.findIdx? x.canMove with
  | some k =>
    .next (match x.moves[k]? with
      | some m => s.modPart s.ev.p (fun x => { x.finishMove m with moves := x.moves.eraseIdx k })
      | none => s)
  | none => .next s

/-! ## SEGMENT (R211, R212, R214) -/

/-- What the command does next is a segment that draws on the copy budget: a collective that has started its segments, and a barrier,
draw nothing more (R214). -/
def State.drawsNext (s : State) (t : Tile) (c : Cmd) : Bool :=
  c.func.toNat ≤ 2 || (c.func = 3 && c.seg < c.collSegs ((s.part (s.partOf t)).group (collGroup c.block)).length)
/-- The budget holds the next segment of the command back. -/
def Budget.holds (b : Budget) (draws : Bool) (c : Cmd) : Bool := draws && (b.refill ≠ 0 && (c.cls ≠ 0 && b.count ≤ 0))
/-- A segment starts: one unit, never below minus one refill. -/
def Budget.debit (b : Budget) (draws : Bool) : Budget :=
  if draws && b.refill ≠ 0 then { b with count := max (-(b.refill : Int)) (b.count - 1) } else b

/-- The next segment of a command. -/
def State.segmentOf (s : State) (t : Tile) (c : Cmd) : SegRes :=
  match c.func.toNat with
  | 0 => s.xcopySegment t c
  | 1 => s.gatherSegment t c
  | 2 => s.gatherSegment t c
  | 3 => s.collSegment t c
  | 5 => s.layerSegment t c
  | 11 => .wait
  | _ => s.grainSegment t c

/-- Serves the first of the commands whose turn it is that has a segment to do. -/
def State.serve (s : State) (t : Tile) : List Cmd → State
  | [] => s
  | c :: r =>
    let p := s.partOf t
    let draws := s.drawsNext t c
    if (s.part p).budget.holds draws c then (s.modCmd t c.seq (fun c => { c with st := .suspended })).serve t r
    else
      let turn (s : State) : State := s.modCopy t (fun x => { x with served := c.seq })
      let paid := s.modPart p (fun x => { x with budget := x.budget.debit draws })
      match (paid.modCmd t c.seq (fun c => { c with st := .running, noPlane := none })).segmentOf t { c with st := .running } with
      | .wait => s.serve t r
      | .done s => turn s
      | .fail side f s => (turn s).failCmd t c side f
      | .noPlane a w _ =>
        (s.awaitPlaneCmd t c a w).serve t r

/-- SEGMENT: the tile's copy engine serves its running commands round-robin in sequence order. -/
def execSegment (s : State) : Out :=
  let x := s.copy s.cur
  let due := x.q.filter (fun c => (c.st = .running || c.st = .suspended) && !s.cmdOver s.cur c)
  let order := due.filter (fun c => x.served < c.seq) ++ due.filter (fun c => c.seq ≤ x.served)
  .next (if (s.tile s.cur).runs then s.serve s.cur order else s)

/-- The suspended commands of a logic resume. -/
def CopySt.resume (x : CopySt) : CopySt :=
  { x with q := x.q.map (fun c => if c.st = .suspended then { c with st := .running } else c) }

/-- BUDGET_WINDOW of partition `ev.p` (R308, R214). -/
def execBudgetWindow (s : State) : Out :=
  let b := (s.part s.ev.p).budget
  if b.refill ≠ 0 && (b.window ≠ 0 && b.began + 1000 * b.window ≤ s.dtime) then
    let count := min (b.count + b.refill) b.refill
    let s := s.modPart s.ev.p (fun x => { x with budget := { b with count := count, began := b.began + 1000 * b.window } })
    .next (if 0 < count then
      (s.part s.ev.p).tileList.foldl (fun s t => s.modTile t (fun y => { y with
        logic := { y.logic with copy := y.logic.copy.resume },
        husks := vecOf 2 (fun i => (vGet y.husks i).map (fun h => { h with logic := { h.logic with copy := h.logic.copy.resume } })) })) s
      else s)
  else .next s

/-! ## Encoders (R240–R243) -/

/-- ENCODER_ACCEPT of command `ev.k`, the first of its encoder's start order: the encoder's frame queue has room. -/
def execEncoderAccept (s : State) : Out :=
  match (s.copy s.cur).cmd s.ev.k with
  | some c =>
    let e := egEnc c.block
    if (s.tile s.cur).runs && (c.func = 11 && (c.st = .acquiring && (c.acquired && (s.encs[e].frames.length < 16 && s.encs[e].starts.head? = some c.id)))) then
      .next (((s.modCmd s.cur c.seq (fun c => { c with st := .running })).modEnc e (fun x =>
        { x with starts := x.starts.drop 1, frames := x.frames ++ [EncFrame.mk c.id c.block] })).encTake e)
    else .next s
  | none => .next s

/-- The bytes that an encoder writes for a frame: STATUS, OBUs, reconstruction. -/
def encOutput (x : EncSt) (b ref : List Byte) : Nat × List Byte × List Byte :=
  let room := fieldAt b 24 4 - 64
  let obus := av1Stream b x.pixels ref
  let recon := Config.av1Recon b x.pixels ref
  if x.mismatch || (!egKey b && x.broken) then (2, [], [])
  else if room < obus.length then (1, obus.take room, [])
  else (0, obus, (recon ++ List.replicate (egRecon b) 0).take (egRecon b))

/-- The header of a frame-ring slot (R243). -/
def slotHeader (n status frameno dtime : Nat) : List Byte :=
  leBytes 4 n ++ leBytes 1 status ++ leBytes 3 0 ++ leBytes 8 frameno ++ leBytes 8 dtime ++ List.replicate 40 0

/-- The head frame of an encoder is done: OBUs, header and reconstruction are written and its command completes; a page that fails
stops the command. -/
def State.finishFrame (s : State) (e : Fin 8) (f : EncFrame) (t : Tile) (c : Cmd) : State :=
  let b := f.block
  let ref := if egKey b then (.ok [], s) else s.readBulkFor t c (wbits (wordAt b 48 8) 0 48) (egRecon b)
  match ref with
  | (.error (.fail x), s) => s.failCmd t c false x
  | (.error _, s) => s
  | (.ok r, s) =>
    let out := encOutput s.encs[e] b r
    match s.placeRange t .w (wordAt b 16 8) (64 + out.2.1.length) with
    | (.fail x, s) => s.failCmd t c true x
    | (.noPlane _ _, s) => s
    | (.ok ls, s) =>
      match s.placeRange t .w (wordAt b 56 8) out.2.2.length with
      | (.fail x, s) => s.failCmd t c true x
      | (.noPlane _ _, s) => s
      | (.ok rs, s) =>
        let clean (l : List Byte) : List (Byte × Bool) := l.map (fun b => (b, false))
        let s := s.writeAt t ls (clean (slotHeader out.2.1.length out.1 (fieldAt b 32 4) s.dtime ++ out.2.1))
        let s := s.writeAt t rs (clean out.2.2)
        let s := s.modEnc e (fun x => { x with
          frames := x.frames.drop 1, broken := out.1 ≠ 0, pixels := [], chunksDone := 0, mismatch := false, blocksDone := 0 })
        (s.completeCmd t c).encTake e

/-- FRAME_ENCODED of encoder `ev.k`: every block of its head frame has arrived. A head frame whose task is frozen holds its
encoder up (the model's choice: R243 is silent). -/
def execFrameEncoded (s : State) : Out :=
  let e : Fin 8 := Fin.ofNat 8 s.ev.k
  let x := s.encs[e]
  match x.frames with
  | f :: _ =>
    match s.findCmd f.cmd with
    | some (t, c) =>
      .next (if (s.tile t).runs && (c.st = .running && x.blocksDone = (egBlocks f.block).length) then s.finishFrame e f t c else s)
    | none => .next s
  | [] => .next s

end Sys2Proof.Machine
end

