-- ==== Sys2Proof/Machine/Kv.lean ====
section
/-! DEFINITION. The KV unit: the pool's tables, the KV group, and the scrub engine (R234–R239). -/

namespace Sys2Proof.Machine

/-! ## The pool (R234, R235) -/

/-- A pool descriptor, and the VA at which it stands. -/
structure KvPool where
  at_ : Nat
  base : Nat
  nblk : Nat
  size : Nat
  slots : Nat
  tab : Nat
  hat : Nat
  deriving DecidableEq, Repr

/-- The pool of a partition; YKVPOOL = 0 names none. -/
def State.kvPool (s : State) (p : PartId) : Option KvPool :=
  let a := wbits ((s.part p).ctx[(4 : Fin 8)]) 6 42 * 64
  if a = 0 then none
  else some { at_ := a, base := s.hwNum p a 8, nblk := s.hwNum p (a + 8) 4, size := 0x10000 * 2 ^ s.hwNum p (a + 12) 1,
              slots := 2 ^ s.hwNum p (a + 13) 1, tab := s.hwNum p (a + 16) 8, hat := s.hwNum p (a + 24) 8 }

def kvNone : Nat := 0xFFFFFFFF
def KvPool.entry (k : KvPool) (b : Nat) : Nat := k.tab + 16 * b

/-- Fields of the inverted table (R235). -/
def State.kvSeq (s : State) (p : PartId) (k : KvPool) (b : Nat) : Nat := s.hwNum p (k.entry b) 4
def State.kvLblk (s : State) (p : PartId) (k : KvPool) (b : Nat) : Nat := s.hwNum p (k.entry b + 4) 3
def State.kvSt (s : State) (p : PartId) (k : KvPool) (b : Nat) : Nat := s.hwNum p (k.entry b + 7) 1
def State.kvRefs (s : State) (p : PartId) (k : KvPool) (b : Nat) : Nat := s.hwNum p (k.entry b + 8) 2
def State.kvNext (s : State) (p : PartId) (k : KvPool) (b : Nat) : Nat := s.hwNum p (k.entry b + 12) 4
def State.kvHead (s : State) (p : PartId) (k : KvPool) : Nat := s.hwNum p (k.at_ + 32) 4

/-- The anchor-table slots of a key's window, as VAs. -/
def KvPool.window (k : KvPool) (sq lb : Nat) : List Nat :=
  let h := ((sq * 2654435761) ^^^ (lb * 2246822507)) % 2 ^ 32
  (List.range 8).map (fun i => k.hat + 4 * ((h + i) % k.slots))

/-- A block holds a key. -/
def State.kvHolds (s : State) (p : PartId) (k : KvPool) (sq lb b : Nat) : Bool :=
  b < k.nblk && (s.kvSt p k b = 1 && (s.kvSeq p k b = sq && s.kvLblk p k b = lb))

/-- The walk of the overflow list. -/
def State.kvWalk (s : State) (p : PartId) (k : KvPool) (sq lb : Nat) : Nat → Nat → Option Nat
  | 0, _ => none
  | n + 1, b =>
    if k.nblk ≤ b then none
    else if s.kvHolds p k sq lb b then some b
    else s.kvWalk p k sq lb n (s.kvNext p k b)

/-- Lookup (R235). -/
def State.kvFind (s : State) (p : PartId) (k : KvPool) (sq lb : Nat) : Option Nat :=
  match ((k.window sq lb).map (fun a => s.hwNum p a 4)).find? (s.kvHolds p k sq lb) with
  | some b => some b
  | none => s.kvWalk p k sq lb (k.nblk + 1) (s.kvHead p k)

/-- Insert: the lowest empty slot of the window, else the head of the overflow list. -/
def State.kvInsert (s : State) (p : PartId) (k : KvPool) (sq lb b : Nat) : State :=
  match (k.window sq lb).find? (fun a => s.hwNum p a 4 = kvNone) with
  | some a => s.hwWrite p a (leBytes 4 b)
  | none => (s.hwWrite p (k.entry b + 12) (leBytes 4 (s.kvHead p k))).hwWrite p (k.at_ + 32) (leBytes 4 b)

/-- The overflow entry before a block. -/
def State.kvBefore (s : State) (p : PartId) (k : KvPool) (b : Nat) : Nat → Nat → Option Nat
  | 0, _ => none
  | n + 1, x => if k.nblk ≤ x then none else if s.kvNext p k x = b then some x else s.kvBefore p k b n (s.kvNext p k x)

/-- Removal of a MAPPED block's key: its slot is emptied, or it is unlinked from the overflow list. -/
def State.kvRemove (s : State) (p : PartId) (k : KvPool) (b : Nat) : State :=
  match (k.window (s.kvSeq p k b) (s.kvLblk p k b)).find? (fun a => s.hwNum p a 4 = b) with
  | some a => s.hwWrite p a (leBytes 4 kvNone)
  | none =>
    let after := leBytes 4 (s.kvNext p k b)
    let s' := s.hwWrite p (k.entry b + 12) (leBytes 4 kvNone)
    if s.kvHead p k = b then s'.hwWrite p (k.at_ + 32) after
    else match s.kvBefore p k b (k.nblk + 1) (s.kvHead p k) with
      | some x => s'.hwWrite p (k.entry x + 12) after
      | none => s'

/-- Writes owner, logical block and state. -/
def State.kvOwn (s : State) (p : PartId) (k : KvPool) (b sq lb st : Nat) : State :=
  s.hwWrite p (k.entry b) (leBytes 4 sq ++ leBytes 3 lb ++ leBytes 1 st)
def State.kvSetRefs (s : State) (p : PartId) (k : KvPool) (b n : Nat) : State := s.hwWrite p (k.entry b + 8) (leBytes 2 n)

/-- The clean pool, with its count in the descriptor. -/
def State.kvClean (s : State) (p : PartId) (k : KvPool) (l : List Nat) : State :=
  (s.modPart p (fun x => { x with clean := l })).hwWrite p (k.at_ + 36) (leBytes 4 l.length)

/-! ## KVALLOC and its waiters (R237, R238) -/

/-- The already-mapped code. -/
def kvMapped : Word := 0xFFFFFFFFFFFFFFFE

/-- Gives the oldest clean block to a key, for the task of a tile. -/
def State.kvTake (s : State) (t : Tile) (p : PartId) (k : KvPool) (sq lb b : Nat) (rest : List Nat) : State :=
  let s := s.hwWrite p (k.entry b) (leBytes 4 sq ++ leBytes 3 lb ++ leBytes 1 1 ++ leBytes 2 1 ++ leBytes 1 p.val ++ leBytes 1 0 ++ leBytes 4 kvNone)
  ((s.kvInsert p k sq lb b).kvClean p k rest).dropLines t p (k.base + b * k.size) k.size

/-- A KVALLOC that waits ends with a value, wherever its task stands (R239). -/
def State.kvAnswer (s : State) (p : PartId) (w : KvWait) (v : Word) : State :=
  (s.modPart p (fun x => { x with kvWaiters := x.kvWaiters.erase w })).endWaits p (fun g =>
    g.owner = w.owner && (match g.c.wait with
      | .kv _ sq lb => sq = w.seq && lb = w.lblk
      | _ => false)) v

/-- Serves the waiters: one whose key is mapped gets the code, the others the clean blocks in turn (R238). -/
def State.kvServe (s : State) (p : PartId) (k : KvPool) : List KvWait → State
  | [] => s
  | w :: r =>
    if (s.kvFind p k w.seq w.lblk).isSome then (s.kvAnswer p w kvMapped).kvServe p k r
    else match (s.part p).clean with
      | b :: rest => ((s.kvTake w.tile p k w.seq w.lblk b rest).kvAnswer p w (BitVec.ofNat 64 b)).kvServe p k r
      | [] => s.kvServe p k r
def State.kvWake (s : State) (p : PartId) (k : KvPool) : State := s.kvServe p k (s.part p).kvWaiters

/-- A KVALLOC joins the waiters: by the clock on which it began to wait, those of one clock by tile (R238). -/
def KvWait.join (w : KvWait) : List KvWait → List KvWait
  | [] => [w]
  | x :: r => if w.since = x.since && w.tile.val < x.tile.val then w :: x :: r else x :: w.join r

/-- What a lookup reads: the window's slots, the entries of the blocks that they name, the overflow list's entries. -/
def State.kvChain (s : State) (p : PartId) (k : KvPool) : Nat → Nat → List (Nat × Nat)
  | 0, _ => []
  | n + 1, b => if k.nblk ≤ b then [] else (k.entry b, 16) :: s.kvChain p k n (s.kvNext p k b)
def State.kvKeyReads (s : State) (p : PartId) (sq lb : Nat) (k : KvPool) : List (Nat × Nat) :=
  (k.window sq lb).map (fun a => (a, 4)) ++
    ((((k.window sq lb).map (fun a => s.hwNum p a 4)).filter (fun b => b < k.nblk)).map (fun b => (k.entry b, 16)) ++
      s.kvChain p k (k.nblk + 1) (s.kvHead p k))
/-- The first poisoned range among the descriptor and what an operation reads of the tables (R395). -/
def State.kvPoisoned (s : State) (p : PartId) (k : KvPool) (reads : List (Nat × Nat)) : Option Nat :=
  (((k.at_, 40) :: reads).find? (fun r => s.hwPoisoned p r.1 r.2)).map (·.1)

/-- A KV-group instruction: BOUND without a pool (R236), or for a bad operand; a poisoned table raises ECC (R395); BOUND for a block that is
in no state to be operated on. -/
def State.kvOp (s : State) (badKey : Bool) (reads : PartId → KvPool → List (Nat × Nat)) (bad : KvPool → Bool)
    (body : PartId → KvPool → State → State) : State :=
  let p := s.partOf s.cur
  match s.kvPool p with
  | none => s.trapC .bound 0 none
  | some k =>
    if badKey then s.trapC .bound 0 none
    else match s.kvPoisoned p k (reads p k) with
      | some va => s.trapC .ecc 0 (some (BitVec.ofNat 64 (0x4000000000000000 + va)))
      | none => if bad k then s.trapC .bound 0 none else body p k s
/-- What an operation on a block reads of the tables: its entry, where it is a block. -/
def KvPool.blkRead (k : KvPool) (b : Nat) : List (Nat × Nat) := if b < k.nblk then [(k.entry b, 16)] else []

/-- A sequence and a logical block that KVALLOC and KVLOOK take. -/
def kvKeyBad (sq lb : Word) (unmap : Bool) : Bool :=
  wbits sq 32 32 ≠ 0 || ((!unmap && sq.toNat = kvNone) || 2 ^ 24 ≤ lb.toNat)

/-- The acquire at PART that every KVALLOC is (R237). -/
def State.kvDone (s : State) (d : Reg) (v : Word) : State := (s.acquire s.cur 2).cDone d v false

/-- KVALLOC (R237, R238). -/
def execKvalloc (d a b : Reg) (n : BitVec 1) (s : State) : Out :=
  s.cIssueCtl [a, b] [d] (fun s => s.kvOp (kvKeyBad (s.rs a) (s.rs b) false)
      (fun p => s.kvKeyReads p (s.rs a).toNat (s.rs b).toNat) (fun _ => false) (fun p k s =>
    let sq := (s.rs a).toNat
    let lb := (s.rs b).toNat
    if (s.kvFind p k sq lb).isSome then s.kvDone d kvMapped
    else match (s.part p).clean with
      | x :: rest => (s.kvTake s.cur p k sq lb x rest).kvDone d (BitVec.ofNat 64 x)
      | [] =>
        if n = 1 then s.kvDone d (BitVec.allOnes 64)
        else
          let w : KvWait := { owner := (s.logic s.cur).owner, tile := s.cur, seq := sq, lblk := lb, since := s.ck }
          (s.modC s.cur (fun c => { c with wait := .kv d sq lb, stall := 0 })).modPart p (fun x => { x with kvWaiters := w.join x.kvWaiters })))

/-- A block operand: a block of the pool that is MAPPED or HELD. -/
def State.kvHeld (s : State) (p : PartId) (k : KvPool) (b : Word) : Bool :=
  b.toNat < k.nblk && (s.kvSt p k b.toNat = 1 || s.kvSt p k b.toNat = 2)

/-- KVFREE: C's earlier accesses are performed first. -/
def execKvfree (d a : Reg) (s : State) : Out :=
  s.cEngine [a] [d] (fun s =>
    let b := (s.rs a).toNat
    s.kvOp false (fun _ k => k.blkRead b) (fun k => !(s.kvHeld (s.partOf s.cur) k (s.rs a)) || s.kvRefs (s.partOf s.cur) k b = 0) (fun p k s =>
      let n := s.kvRefs p k b - 1
      let s := s.kvSetRefs p k b n
      let s :=
        if n = 0 then
          let s := if s.kvSt p k b = 1 then s.kvRemove p k b else s
          let s := s.hwWrite p (k.entry b + 7) (leBytes 1 3)
          { s with scrubq := s.scrubq ++ [(p, b)] }
        else s
      s.cDone d (BitVec.ofNat 64 n) false))

/-- KVREF. -/
def execKvref (d a : Reg) (s : State) : Out :=
  s.cIssueCtl [a] [d] (fun s =>
    let b := (s.rs a).toNat
    s.kvOp false (fun _ k => k.blkRead b) (fun k => !(s.kvHeld (s.partOf s.cur) k (s.rs a)) || s.kvRefs (s.partOf s.cur) k b = 65535) (fun p k s =>
      let n := s.kvRefs p k b + 1
      (s.kvSetRefs p k b n).cDone d (BitVec.ofNat 64 n) false))

/-- KVLOOK. -/
def execKvlook (d a b : Reg) (s : State) : Out :=
  s.cIssueCtl [a, b] [d] (fun s => s.kvOp (kvKeyBad (s.rs a) (s.rs b) false)
      (fun p => s.kvKeyReads p (s.rs a).toNat (s.rs b).toNat) (fun _ => false) (fun p k s =>
    s.cDone d (match s.kvFind p k (s.rs a).toNat (s.rs b).toNat with
      | some x => BitVec.ofNat 64 x
      | none => BitVec.allOnes 64) false))

/-- KVMAP; a KVALLOC that waits for the key it maps ends. -/
def execKvmap (d a b : Reg) (s : State) : Out :=
  s.cIssueCtl [d, a, b] [] (fun s =>
    s.kvOp (kvKeyBad (s.rs a) (s.rs b) true)
      (fun p k => k.blkRead (s.rs d).toNat ++ s.kvKeyReads p (s.rs a).toNat (s.rs b).toNat k) (fun k => !(s.kvHeld (s.partOf s.cur) k (s.rs d)))
      (fun p k s =>
      let x := (s.rs d).toNat
      let sq := (s.rs a).toNat
      let lb := (s.rs b).toNat
      let clear (s : State) : State := if s.kvSt p k x = 1 then s.kvRemove p k x else s
      if sq = kvNone then ((clear s).kvOwn p k x kvNone 0 2).cDone d 0 false
      else match s.kvFind p k sq lb with
        | some y => s.cDone d (if y = x then 0 else kvMapped) false
        | none => ((((clear s).kvInsert p k sq lb x).kvOwn p k x sq lb 1).cDone d 0 false).kvWake p k))

/-- SCRUB: of the blocks that reached SCRUB the oldest is zeroed, becomes CLEAN and joins the clean pool; waiters are served (R238). None while a
stack is in self-refresh (R392). -/
def execScrub (s : State) : Out :=
  if s.pf.selfRefresh ≠ 0 then .next s else
  match s.scrubq with
  | (p, b) :: r =>
    let s : State := { s with scrubq := r }
    .next (match s.kvPool p with
      | some k =>
        let s := s.hwWrite p (k.base + b * k.size) (List.replicate k.size 0)
        let s := s.hwWrite p (k.entry b + 7) (leBytes 1 0)
        (s.kvClean p k ((s.part p).clean ++ [b])).kvWake p k
      | none => s)
  | [] => .next s

end Sys2Proof.Machine
end

