-- ==== Sys2Proof/Machine/Control.lean ====
section
/-! DEFINITION. C's integer instructions, branches, the token queues and the steering of tables (R67–R97). -/

namespace Sys2Proof.Machine

/-! ## Integer arithmetic (R69–R73) -/

/-- An instruction that reads registers and writes d; the result of poisoned operands is poisoned (R395). -/
def State.cAlu (s : State) (d : Reg) (srcs : List Reg) (v : State → Word) : Out :=
  s.cIssue (d :: srcs) (fun s => s.cDone d (v s) (s.cPoisoned srcs))

/-- The shift count: the low six bits. -/
def shOf (b : Word) : Nat := b.toNat % 64

/-- Quotient rounded toward zero; all ones for a zero divisor; −2⁶³ ÷ −1 gives −2⁶³ (R69, R70). -/
def divS (a b : Word) : Word := if b = 0 then BitVec.allOnes 64 else a.sdiv b
def divU (a b : Word) : Word := if b = 0 then BitVec.allOnes 64 else a / b
def remS (a b : Word) : Word := if b = 0 then a else a.srem b
def remU (a b : Word) : Word := if b = 0 then a else a % b

/-- Leading zero bits, 0–64. -/
def clz64 (a : Word) : Word := if a = 0 then 64 else BitVec.ofNat 64 (63 - Nat.log2 a.toNat)
/-- Trailing zero bits, 0–64. -/
def ctz64 (a : Word) : Word := if a = 0 then 64 else BitVec.ofNat 64 (Nat.log2 (a &&& (0 - a)).toNat)
/-- One bits. -/
def popc (a : Nat) (n : Nat) : Nat := ((List.range n).filter (fun i => a.testBit i)).length

/-- The funnel shifts (R69): the 128-bit pair moves by sh. -/
def fshlVal (d a b : Word) : Word := ((d ++ a) <<< shOf b).extractLsb' 64 64
def fshrVal (d a b : Word) : Word := ((a ++ d) >>> shOf b).extractLsb' 0 64

/-- BEXTV (R73): the shift fills with zeros. -/
def bextvVal (a b : Word) : Word := (a >>> wbits b 0 6) &&& BitVec.ofNat 64 (2 ^ (wbits b 6 6 + 1) - 1)
/-- BEXT. -/
def bextVal (a : Word) (p l : BitVec 6) : Word := (a >>> p.toNat) &&& BitVec.ofNat 64 (2 ^ (l.toNat + 1) - 1)
/-- BINS. -/
def binsVal (d a : Word) (p l : BitVec 6) : Word :=
  let m := BitVec.ofNat 64 (2 ^ (l.toNat + 1) - 1) <<< p.toNat
  (d &&& ~~~m) ||| ((a <<< p.toNat) &&& m)

def execAdd (d a b : Reg) (s : State) : Out := s.cAlu d [a, b] (fun s => s.rs a + s.rs b)
def execSub (d a b : Reg) (s : State) : Out := s.cAlu d [a, b] (fun s => s.rs a - s.rs b)
def execAnd (d a b : Reg) (s : State) : Out := s.cAlu d [a, b] (fun s => s.rs a &&& s.rs b)
def execOr (d a b : Reg) (s : State) : Out := s.cAlu d [a, b] (fun s => s.rs a ||| s.rs b)
def execXor (d a b : Reg) (s : State) : Out := s.cAlu d [a, b] (fun s => s.rs a ^^^ s.rs b)
def execShl (d a b : Reg) (s : State) : Out := s.cAlu d [a, b] (fun s => s.rs a <<< shOf (s.rs b))
def execShr (d a b : Reg) (s : State) : Out := s.cAlu d [a, b] (fun s => s.rs a >>> shOf (s.rs b))
def execSar (d a b : Reg) (s : State) : Out := s.cAlu d [a, b] (fun s => (s.rs a).sshiftRight (shOf (s.rs b)))
def execMin (d a b : Reg) (s : State) : Out :=
  s.cAlu d [a, b] (fun s => if (s.rs a).toInt ≤ (s.rs b).toInt then s.rs a else s.rs b)
def execMax (d a b : Reg) (s : State) : Out :=
  s.cAlu d [a, b] (fun s => if (s.rs a).toInt ≤ (s.rs b).toInt then s.rs b else s.rs a)
def execMinu (d a b : Reg) (s : State) : Out :=
  s.cAlu d [a, b] (fun s => if (s.rs a).toNat ≤ (s.rs b).toNat then s.rs a else s.rs b)
def execMaxu (d a b : Reg) (s : State) : Out :=
  s.cAlu d [a, b] (fun s => if (s.rs a).toNat ≤ (s.rs b).toNat then s.rs b else s.rs a)
def execSlt (d a b : Reg) (s : State) : Out := s.cAlu d [a, b] (fun s => if (s.rs a).toInt < (s.rs b).toInt then 1 else 0)
def execSltu (d a b : Reg) (s : State) : Out := s.cAlu d [a, b] (fun s => if (s.rs a).toNat < (s.rs b).toNat then 1 else 0)
def execSeq (d a b : Reg) (s : State) : Out := s.cAlu d [a, b] (fun s => if s.rs a = s.rs b then 1 else 0)
def execMul (d a b : Reg) (s : State) : Out := s.cAlu d [a, b] (fun s => s.rs a * s.rs b)
def execMulh (d a b : Reg) (s : State) : Out :=
  s.cAlu d [a, b] (fun s => BitVec.ofInt 64 ((s.rs a).toInt * (s.rs b).toInt / 2 ^ 64))
def execDiv (d a b : Reg) (s : State) : Out := s.cAlu d [a, b] (fun s => divS (s.rs a) (s.rs b))
def execDivu (d a b : Reg) (s : State) : Out := s.cAlu d [a, b] (fun s => divU (s.rs a) (s.rs b))
def execRem (d a b : Reg) (s : State) : Out := s.cAlu d [a, b] (fun s => remS (s.rs a) (s.rs b))
def execRemu (d a b : Reg) (s : State) : Out := s.cAlu d [a, b] (fun s => remU (s.rs a) (s.rs b))
def execClz (d a : Reg) (s : State) : Out := s.cAlu d [a] (fun s => clz64 (s.rs a))
def execCtz (d a : Reg) (s : State) : Out := s.cAlu d [a] (fun s => ctz64 (s.rs a))
def execPopc (d a : Reg) (s : State) : Out := s.cAlu d [a] (fun s => BitVec.ofNat 64 (popc (s.rs a).toNat 64))
/-- FSHL and FSHR read the old d. -/
def execFshl (d a b : Reg) (s : State) : Out := s.cAlu d [a, b, d] (fun s => fshlVal (s.rs d) (s.rs a) (s.rs b))
def execFshr (d a b : Reg) (s : State) : Out := s.cAlu d [a, b, d] (fun s => fshrVal (s.rs d) (s.rs a) (s.rs b))
def execSextb (d a : Reg) (s : State) : Out := s.cAlu d [a] (fun s => sx ((s.rs a).extractLsb' 0 8))
def execSexth (d a : Reg) (s : State) : Out := s.cAlu d [a] (fun s => sx ((s.rs a).extractLsb' 0 16))
def execSextw (d a : Reg) (s : State) : Out := s.cAlu d [a] (fun s => sx ((s.rs a).extractLsb' 0 32))

/-! ### Immediates (R71, R72) and bit fields (R73) -/

def execAddi (d a : Reg) (i : BitVec 16) (s : State) : Out := s.cAlu d [a] (fun s => s.rs a + sx i)
def execAndi (d a : Reg) (i : BitVec 16) (s : State) : Out := s.cAlu d [a] (fun s => s.rs a &&& sx i)
def execOri (d a : Reg) (i : BitVec 16) (s : State) : Out := s.cAlu d [a] (fun s => s.rs a ||| sx i)
def execXori (d a : Reg) (i : BitVec 16) (s : State) : Out := s.cAlu d [a] (fun s => s.rs a ^^^ sx i)
def execShli (d a : Reg) (i : BitVec 16) (s : State) : Out := s.cAlu d [a] (fun s => s.rs a <<< i.toNat)
def execShri (d a : Reg) (i : BitVec 16) (s : State) : Out := s.cAlu d [a] (fun s => s.rs a >>> i.toNat)
def execSari (d a : Reg) (i : BitVec 16) (s : State) : Out := s.cAlu d [a] (fun s => (s.rs a).sshiftRight i.toNat)
def execSlti (d a : Reg) (i : BitVec 16) (s : State) : Out :=
  s.cAlu d [a] (fun s => if (s.rs a).toInt < (sx i).toInt then 1 else 0)
def execLi (d : Reg) (i : BitVec 21) (s : State) : Out := s.cAlu d [] (fun _ => sx i)
/-- LIW and LIHW are two words long. -/
def execLiw (d : Reg) (i : BitVec 32) (s : State) : Out :=
  s.cIssue [d] (fun s => (s.modC s.cur (fun c => c.putP d (sx i) false)).cNextTo ((s.c s.cur).pc + 8))
def execLihw (d : Reg) (i : BitVec 32) (s : State) : Out :=
  s.cIssue [d] (fun s =>
    (s.modC s.cur (fun c => c.putP d (i ++ (s.rs d).extractLsb' 0 32) (s.cPoisoned [d]))).cNextTo ((s.c s.cur).pc + 8))
def execBext (d a : Reg) (p l : BitVec 6) (s : State) : Out := s.cAlu d [a] (fun s => bextVal (s.rs a) p l)
def execBins (d a : Reg) (p l : BitVec 6) (s : State) : Out := s.cAlu d [a, d] (fun s => binsVal (s.rs d) (s.rs a) p l)
def execBextv (d a b : Reg) (s : State) : Out := s.cAlu d [a, b] (fun s => bextvVal (s.rs a) (s.rs b))

/-! ## Branches (R55, R56, R74, R75) -/

/-- Goes on at a target; a target in another space raises SPACE at its first word. -/
def State.cJump (s : State) (pc : Word) : State :=
  (s.modC s.cur (fun c => { c with spaceBad := spaceOf pc != spaceOf c.pc })).cNextTo pc

/-- A conditional branch; its operands are control fields (R395). -/
def State.cBranch (s : State) (a b : Reg) (off : BitVec 16) (cond : Word → Word → Bool) : Out :=
  s.cIssueCtl [a, b] [] (fun s => if cond (s.rs a) (s.rs b) then s.cJump (blockTarget (s.c s.cur).pc off) else s.cNext)

def execBeq (a b : Reg) (o : BitVec 16) (s : State) : Out := s.cBranch a b o (fun x y => x = y)
def execBne (a b : Reg) (o : BitVec 16) (s : State) : Out := s.cBranch a b o (fun x y => x != y)
def execBlt (a b : Reg) (o : BitVec 16) (s : State) : Out := s.cBranch a b o (fun x y => x.toInt < y.toInt)
def execBge (a b : Reg) (o : BitVec 16) (s : State) : Out := s.cBranch a b o (fun x y => y.toInt ≤ x.toInt)
def execBltu (a b : Reg) (o : BitVec 16) (s : State) : Out := s.cBranch a b o (fun x y => x.toNat < y.toNat)
def execBgeu (a b : Reg) (o : BitVec 16) (s : State) : Out := s.cBranch a b o (fun x y => y.toNat ≤ x.toNat)
def execJ (o : BitVec 26) (s : State) : Out := .next (s.cJump (blockTarget (s.c s.cur).pc o))
/-- JAL links into s31. -/
def execJal (o : BitVec 26) (s : State) : Out :=
  s.cIssue [31] (fun s => (s.setS s.cur 31 (nextBlock (s.c s.cur).pc)).cJump (blockTarget (s.c s.cur).pc o))
/-- JR raises ALIGN for a target that is not at a block: no link, the PC unchanged. -/
def execJr (d a : Reg) (s : State) : Out :=
  s.cIssueCtl [a] [d] (fun s =>
    if wbits (s.rs a) 0 6 ≠ 0 then s.trapC .align 0 (some (s.rs a))
    else (s.setS s.cur d (nextBlock (s.c s.cur).pc)).cJump (s.rs a))
/-- LOOP (R75): with s0 the result is all ones, and it branches. -/
def execLoop (a : Reg) (o : BitVec 16) (s : State) : Out :=
  s.cIssueCtl [a] [] (fun s =>
    let v := s.rs a - 1
    let s := s.setS s.cur a v
    if v ≠ 0 then s.cJump (blockTarget (s.c s.cur).pc o) else s.cNext)

/-! ## Token queues (R81–R85) -/

/-- TKPUT: everything that C did before it is performed first (R82, R130); then it waits for room. A token
is a count or an address for the sequencer that takes it, and carries no poison: a poisoned operand raises ECC here (R395). -/
def execTkput (a b : Reg) (s : State) : Out :=
  s.cIssueCtl [a] [] (fun s =>
    if !(s.c s.cur).ops.isEmpty then s.cRetry false
    else if s.tokRoom s.cur (tkQueue b) then (s.pushTok s.cur (tkQueue b) (s.rs a)).cNext
    else s.cRetry true)
/-- What C's pop of a token orders (R82, R130): its later loads take no value read before it, and a pop of M2C orders the flags that
M has raised before C's next write of YFFLAGS (R28). -/
def Logic.afterPop (g : Logic) (q : Fin 12) : Logic :=
  { g with c := { g.c with early := [] }, vec := if q = 8 then { g.vec with fresh := 0 } else g.vec }

/-- TKGET waits for a token. -/
def execTkget (d b : Reg) (s : State) : Out :=
  s.cIssue [d] (fun s =>
    match s.toks s.cur (tkQueue b) with
    | [] => s.cRetry true
    | v :: r => ((s.setToks s.cur (tkQueue b) r).modLogic s.cur (fun g => g.afterPop (tkQueue b))).cDone d v false)
/-- TKCNT samples the count. -/
def execTkcnt (d b : Reg) (s : State) : Out :=
  s.cAlu d [] (fun s => BitVec.ofNat 64 (s.toks s.cur (tkQueue b)).length)
/-- TKRESET keeps the oldest tokens or appends zeros (R85). -/
def execTkreset (d a b : Reg) (s : State) : Out :=
  s.cIssueCtl [a] [d] (fun s =>
    if wbits (s.rs a) 8 56 ≠ 0 then s.trapC .bound 0 none
    else
      let old := s.toks s.cur (tkQueue b)
      let n := wbits (s.rs a) 0 8
      (s.setToks s.cur (tkQueue b) (old.take n ++ List.replicate (n - old.length) 0)).cDone d (BitVec.ofNat 64 old.length) false)

/-! ## Steering tables (R88–R95) -/

/-- Enqueues a start-queue entry, or waits for a slot (R61, R86). -/
def State.enqueue (s : State) (u : Sq) (e : StartEntry) : State :=
  if (s.seq s.cur u).startq.length < 4 then (s.modSeq s.cur u (fun x => { x with startq := x.startq ++ [e] })).cNext
  else s.cRetry true

/-- TRUN (R59): ALIGN, SPACE, BOUND, then the slot. -/
def execTrun (d a b : Reg) (s : State) : Out :=
  s.cIssueCtl [a, b] [] (fun s =>
    let base := s.rs a
    let len := wbits (s.rs b) 0 12 + 1
    if wbits base 0 6 ≠ 0 then s.trapC .align 0 (some base)
    else if !s.spaceOk (s.partOf s.cur) fetchSpaces base (4 * len) then s.trapC .space 0 (some base)
    else if wbits (s.rs b) 28 36 ≠ 0 then s.trapC .bound 0 none
    else s.enqueue (target d) (.run base len (wbits (s.rs b) 12 16 + 1) []))
/-- TBASE: an address write; b names the address register. -/
def execTbase (d a b : Reg) (s : State) : Out :=
  s.cIssueCtl [a] [] (fun s => s.enqueue (target d) (.addr (Fin.ofNat 16 b.toNat) (s.rs a)))
/-- TSTOP (R91). -/
def execTstop (d : Reg) (s : State) : Out := .next (s.modLogic s.cur (fun g => g.tstop (target d))).cNext
/-- TWAIT (R92). -/
def execTwait (d : Reg) (s : State) : Out :=
  .next (if (s.logic s.cur).idle (target d) then s.cNext else s.cRetry false)
/-- TCUT (R93). -/
def execTcut (d a : Reg) (s : State) : Out :=
  s.cIssue [d] (fun s =>
    let q := (s.seq s.cur (target a)).startq
    let runs := (q.filter (fun e => match e with | .run _ _ _ _ => true | _ => false)).length
    (s.modSeq s.cur (target a) (fun x => { x with startq := [] })).cDone d
      (BitVec.ofNat 64 (runs + 8 * (q.length - runs))) false)

/-- The sample of TSTAT (R94). -/
def SeqSt.sample (x : SeqSt) : Word :=
  let b (k : Nat) (v : Bool) : Nat := if v then 2 ^ k else 0
  let jst := match x.run with
    | some r => r.j % 65536 * 4096 + r.step % 4096
    | none => 0
  BitVec.ofNat 64 (b 36 x.stop.isSome + b 35 x.stopping + b 34 (x.wait = .push) + b 33 (x.wait = .pop) + b 32 x.run.isSome +
    x.startq.length * 2 ^ 28 + jst)
def execTstat (d a : Reg) (s : State) : Out := s.cAlu d [] (fun s => (s.seq s.cur (target a)).sample)

/-- SETN (R95): a count write into M's start queue; d names the count register. -/
def execSetn (d a : Reg) (s : State) : Out :=
  s.cIssueCtl [a] [] (fun s =>
    let v := s.rs a
    if wbits v 0 10 ≤ 512 && (wbits v 16 10 ≤ 512 && (wbits v 10 6 = 0 && wbits v 26 38 = 0)) then
      s.enqueue .m (.count (Fin.ofNat 8 d.toNat) v)
    else s.trapC .bound 0 none)

end Sys2Proof.Machine
end

