-- ==== Sys2Proof/Machine/Graph.lean ====
section
/-! DEFINITION. Graph objects: reading and checking one (R269–R273), footprints (R274), and Tiller's order (R279, R280). -/

namespace Sys2Proof.Machine

/-! ## Reads of the scheduler and the front end -/

/-- Reads a range through a BULK or HOST pointer with the partition's translation; none when a check, a translation or the data
fails. -/
def State.ptrRead (s : State) (p : PartId) (ptr : Word) (n : Nat) : Option (List Byte) × State :=
  if !s.spaceOk p (fun c => c = 4 || c = 7) ptr n then (none, s) else
    let cuts := cutsOf (wbits ptr 0 48) n
    match s.placeAll (s.part p).home p .r (cuts.map (fun (a, _) => BitVec.ofNat 64 (spaceOf ptr * 2 ^ 60 + a))) with
    | (.ok ls, s) =>
      let ps := ls.zip cuts
      if ps.any (fun e => s.poisonedAt e.1 e.2.2) then (none, s)
      else (some (ps.flatMap (fun e => s.homeBytes e.1 e.2.2)), s)
    | (_, s) => (none, s)

/-- Reads several ranges. -/
def State.ptrReads (s : State) (p : PartId) : List (Word × Nat) → Option (List (List Byte)) × State
  | [] => (some [], s)
  | (ptr, n) :: r =>
    match s.ptrRead p ptr n with
    | (some bs, s) =>
      match s.ptrReads p r with
      | (some l, s) => (some (bs :: l), s)
      | (none, s) => (none, s)
    | (none, s) => (none, s)

/-! ## The object (R269–R273) -/

def bulkOnly (c : Nat) : Bool := c = 4
/-- A BULK pointer to `n` bytes of an alignment. -/
def State.bulkPtr (s : State) (p : PartId) (ptr : Word) (n align : Nat) : Bool :=
  s.spaceOk p bulkOnly ptr n && ptr.toNat % align = 0

/-- The task record in 64 bytes (R270). -/
def TaskRec.ofBytes (b : List Byte) : TaskRec :=
  { entry := wordAt b 0 8, param := wordAt b 8 8, ltab := wordAt b 16 8, mtab := wordAt b 24 8, stab := wordAt b 32 8,
    cost := fieldAt b 40 4, deps := fieldAt b 44 2, tile := BitVec.ofNat 8 (fieldAt b 46 1), attr := BitVec.ofNat 8 (fieldAt b 47 1),
    succ := ((List.range 4).map (fun i => fieldAt b (48 + 2 * i) 2)).filter (fun n => n != 0xFFFF), wdog := fieldAt b 56 4 }

def TaskRec.cls (r : TaskRec) : Nat := bitsOf r.attr.toNat 0 2
def TaskRec.mayfr (r : TaskRec) : Bool := r.attr.getLsbD 2
def TaskRec.super (r : TaskRec) : Bool := r.attr.getLsbD 3

/-- A relative tile lies in a footprint. -/
def inFoot (cols rows rel : Nat) : Bool := rel < 64 && (rel % 8 < cols && rel / 8 < rows)

/-- The fields of a record keep R270, in a footprint. -/
def State.recOk (s : State) (p : PartId) (cols rows : Nat) (b : List Byte) : Bool :=
  let r := TaskRec.ofBytes b
  s.spaceOk p fetchSpaces r.entry 64 && (r.entry.toNat % 64 = 0 && (1 ≤ r.cost && (bitsOf r.attr.toNat 4 4 = 0 &&
    (zeroAt b 60 4 && inFoot cols rows r.tile.toNat))))

/-- Every successor names a record of the phase on the same tile. -/
def succOk (rs : List TaskRec) (r : TaskRec) : Bool :=
  r.succ.all (fun n => match rs[n]? with
    | some x => x.tile = r.tile
    | none => false)

/-- At most 64 records on one tile. -/
def spreadOk (rs : List TaskRec) : Bool := (List.range 64).all (fun t => (rs.filter (fun r => r.tile.toNat = t)).length ≤ 64)

/-- The exchange entry in 16 bytes (R271). -/
def ExchEntry.ofBytes (b : List Byte) : ExchEntry :=
  { soff := fieldAt b 0 4, doff := fieldAt b 4 4, stile := BitVec.ofNat 8 (fieldAt b 8 1), dest := BitVec.ofNat 8 (fieldAt b 9 1),
    mc := (fieldAt b 10 1).testBit 0, flits := fieldAt b 12 2, t0 := fieldAt b 14 2 }

/-- A range of exchanged bytes lies in the graph's bins. -/
def exchInBins (bin0 nbins off flits : Nat) : Bool := 0x10000 * bin0 ≤ off && off + 512 * flits ≤ 0x10000 * (bin0 + nbins)

/-- An exchange entry keeps R271 and R273. A destination outside the footprint, and an undefined group, leave the graph's bins. -/
def exchOk (g : Graph) (b : List Byte) : Bool :=
  let e := ExchEntry.ofBytes b
  inFoot g.fcols g.frows e.stile.toNat && ((if e.mc then (g.groups.getD []).getD e.dest.toNat 0 != 0 else inFoot g.fcols g.frows e.dest.toNat) &&
    (e.soff % 64 = 0 && (e.doff % 64 = 0 && (fieldAt b 10 1 ≤ 1 && (fieldAt b 11 1 = 0 && (1 ≤ e.flits &&
    (exchInBins g.bin0 g.nbins e.soff e.flits && exchInBins g.bin0 g.nbins e.doff e.flits)))))))

/-- The graph header keeps R269 and R273. -/
def State.headerOk (s : State) (p : PartId) (b : List Byte) : Bool :=
  fieldAt b 0 4 = 0x52475849 && (1 ≤ fieldAt b 4 2 && (fieldAt b 4 2 ≤ 4096 && (1 ≤ fieldAt b 6 1 && (fieldAt b 6 1 ≤ 8 &&
    (1 ≤ fieldAt b 7 1 && (fieldAt b 7 1 ≤ 8 && (s.bulkPtr p (wordAt b 8 8) (32 * fieldAt b 4 2) 64 &&
    ((fieldAt b 16 8 = 0 || s.bulkPtr p (wordAt b 16 8) 2048 64) && (1 ≤ fieldAt b 26 2 && (fieldAt b 26 2 ≤ 3968 && zeroAt b 28 36))))))))))

/-- A phase table entry keeps them. -/
def State.phaseOk (s : State) (p : PartId) (b : List Byte) : Bool :=
  1 ≤ fieldAt b 8 4 && (fieldAt b 8 4 ≤ 4096 && (s.bulkPtr p (wordAt b 0 8) (64 * fieldAt b 8 4) 64 && (fieldAt b 24 4 ≤ 65536 &&
    ((fieldAt b 24 4 = 0 || s.bulkPtr p (wordAt b 16 8) (16 * fieldAt b 24 4) 16) && zeroAt b 28 4))))

/-- Pieces of `size` bytes. -/
def piecesOf (size n : Nat) (b : List Byte) : List (List Byte) := (List.range n).map (fun i => (b.drop (size * i)).take size)

/-- The phases from their table entries and the bytes of their records and exchange tables; none when one breaks the checks. -/
def State.phasesOf (s : State) (p : PartId) (g : Graph) : List (List Byte × List Byte × List Byte) → Option (List GPhase)
  | [] => some []
  | (e, recs, xs) :: r =>
    let rb := piecesOf 64 (fieldAt e 8 4) recs
    let xb := piecesOf 16 (fieldAt e 24 4) xs
    let rs := rb.map TaskRec.ofBytes
    if rb.all (s.recOk p g.fcols g.frows) && (rs.all (succOk rs) && (spreadOk rs && xb.all (exchOk g))) then
      (s.phasesOf p g r).map (fun l => { tasks := rs, xlen := fieldAt e 12 4, exch := xb.map ExchEntry.ofBytes } :: l)
    else none

/-- Reads and checks a whole graph object (R273). -/
def State.readGraph (s : State) (p : PartId) (ptr : Word) : Option Graph × State :=
  if !s.bulkPtr p ptr 64 64 then (none, s) else
  match s.ptrRead p ptr 64 with
  | (none, s) => (none, s)
  | (some h, s) =>
    if !s.headerOk p h then (none, s) else
    let n := fieldAt h 4 2
    let hasG := fieldAt h 16 8 ≠ 0
    match s.ptrReads p ((wordAt h 8 8, 32 * n) :: (if hasG then [(wordAt h 16 8, 2048)] else [])) with
    | (none, s) => (none, s)
    | (some l, s) =>
      let es := piecesOf 32 n (l.getD 0 [])
      let gb := l.getD 1 []
      let groups := if hasG then some ((List.range 256).map (fun i => wordAt gb (8 * i) 8)) else none
      let g : Graph := { fcols := fieldAt h 6 1, frows := fieldAt h 7 1, bin0 := fieldAt h 24 2, nbins := fieldAt h 26 2,
                         groups := groups, phases := [] }
      let masksOk := (groups.getD []).all (fun m => (List.range 64).all (fun r => !m.getLsbD r || inFoot g.fcols g.frows r))
      if !(es.all (s.phaseOk p) && masksOk) then (none, s) else
      match s.ptrReads p (es.map (fun e => (wordAt e 0 8, 64 * fieldAt e 8 4))) with
      | (none, s) => (none, s)
      | (some rs, s) =>
        match s.ptrReads p ((es.filter (fun e => fieldAt e 24 4 ≠ 0)).map (fun e => (wordAt e 16 8, 16 * fieldAt e 24 4))) with
        | (none, s) => (none, s)
        | (some xs, s) =>
          let xs := (es.foldl (fun (acc : List (List Byte) × List (List Byte)) e =>
            if fieldAt e 24 4 = 0 then (acc.1 ++ [[]], acc.2) else (acc.1 ++ [acc.2.headD []], acc.2.tail)) (([] : List (List Byte)), xs)).1
          match s.phasesOf p g (es.zip (rs.zip xs)) with
          | some ph => (some { g with phases := ph }, s)
          | none => (none, s)

/-! ## Footprints (R274) -/

def Inst.fcols (i : Inst) : Nat := i.graph.elim 1 (·.fcols)
def Inst.frows (i : Inst) : Nat := i.graph.elim 1 (·.frows)
/-- The absolute tiles of a rectangle. -/
def rectTiles (col row cols rows : Nat) : List Tile :=
  allTiles.filter (fun t => col ≤ t.val % 8 && (t.val % 8 < col + cols && (row ≤ t.val / 8 && t.val / 8 < row + rows)))
/-- The footprint of a placed instance. -/
def Inst.tiles (i : Inst) : List Tile := rectTiles i.col0 i.row0 i.fcols i.frows
/-- The instance holds its tiles. -/
def Inst.placed (i : Inst) : Bool :=
  match i.st with
  | .running => true
  | .exchange _ _ _ => true
  | _ => false

/-- Bin ranges of two instances are disjoint. -/
def binsDisjoint (a b : Inst) : Bool :=
  match a.graph, b.graph with
  | some g, some h => g.bin0 + g.nbins ≤ h.bin0 || h.bin0 + h.nbins ≤ g.bin0
  | _, _ => false

/-- A tile is free for an instance: in the partition, ON, not closed, and held by no placed instance but, for class 0, by instances
of class 1–3 whose bins are disjoint from its own. -/
def State.tileFree (s : State) (p : PartId) (i : Inst) (t : Tile) : Bool :=
  let x := s.part p
  x.has t && (!x.closed.getLsbD t.val && ((s.tile t).pwr = .on && x.insts.all (fun j =>
    !(j.placed && (x.inWorld j && j.tiles.contains t)) || (i.cls = 0 && (j.cls ≠ 0 && binsDisjoint i j)))))

/-- The first origin, in increasing tile id, at which a predicate holds of every tile of the rectangle. -/
def originFor (g : Graph) (ok : Tile → Bool) : Option (Nat × Nat) :=
  (allTiles.find? (fun t => t.val % 8 + g.fcols ≤ 8 && (t.val / 8 + g.frows ≤ 8 &&
    (rectTiles (t.val % 8) (t.val / 8) g.fcols g.frows).all ok))).map (fun t => (t.val % 8, t.val / 8))

/-! ## Routes and the exchange step (R10, R138, R275) -/

/-- The output of a tile's router toward a neighbour: 0 east, 1 west, 2 south, 3 north; whether it has a link (R9, R10). -/
def hasLink (t e : Nat) : Bool :=
  match e with
  | 0 => t % 8 < 7
  | 1 => 0 < t % 8
  | 2 => t / 8 < 7
  | _ => 0 < t / 8
/-- The outputs, as 4t + e, that a route takes: along the row, then along the column. -/
def routeOuts (a b : Tile) : List Nat :=
  let row := a.val / 8
  let ca := a.val % 8
  let cb := b.val % 8
  let rb := b.val / 8
  (List.range (cb - ca)).map (fun i => 4 * (8 * row + ca + i)) ++ (List.range (ca - cb)).map (fun i => 4 * (8 * row + ca - i) + 1) ++
    (List.range (rb - row)).map (fun i => 4 * (8 * (row + i) + cb) + 2) ++ (List.range (row - rb)).map (fun i => 4 * (8 * (row - i) + cb) + 3)
/-- The tiles that a route passes, its ends among them. -/
def routeTiles (a b : Tile) : List Nat := a.val :: b.val :: (routeOuts a b).map (· / 4)

/-- The tiles at which an exchange entry lands. -/
def Inst.exchTargets (i : Inst) (e : ExchEntry) : List Tile :=
  if e.mc then
    let m := ((i.graph.bind (·.groups)).getD []).getD e.dest.toNat 0
    ((List.range 64).filter (fun r => m.getLsbD r)).map (fun r => i.tileOf (BitVec.ofNat 8 r))
  else [i.tileOf e.dest]

/-- The first step clock from `c` on at which a partition owns the slot of an output, slot s being that of the clocks s modulo 64 of the
step, and no earlier flit has claimed it; `c` itself where the partition owns no slot. -/
def freeSlotFrom (own : Word) (taken : List Nat) : Nat → Nat → Nat
  | 0, c => c
  | n + 1, c => if own = 0 || (own.getLsbD (c % 64) && !taken.contains c) then c else freeSlotFrom own taken n (c + 1)

/-- The slots claimed so far: output, step clock. -/
abbrev Claims := List (Nat × Nat)

/-- A flit on the outputs of one target's route from the clock `c` on: the next reserved slot of each. `mine`: where the same flit has
passed already on its way to other targets. The clock on which it arrives. -/
def hopFlit (slots : List Word) (taken : Claims) : List Nat → Nat → Claims → Nat × Claims
  | [], c, mine => (c, mine)
  | o :: r, c, mine =>
    match mine.find? (fun e => e.1 = o) with
    | some e => hopFlit slots taken r (e.2 + 1) mine
    | none =>
      let used := (taken.filter (fun e => e.1 = o)).map (·.2)
      let k := freeSlotFrom (slots.getD o 0) used (64 * (used.length + 2)) c
      hopFlit slots taken r (k + 1) ((o, k) :: mine)

/-- Flit `k` of an entry: on the first link from T0 on, the slots of the entry's earlier flits being claimed; committed in all targets on
the clock on which it reaches the last of them. Within one tile one flit moves on each clock. -/
def planFlit (slots : List Word) (src : Tile) (dsts : List Tile) (e : ExchEntry) (k : Nat) (taken : Claims) : Flit × Claims :=
  let w := dsts.foldl (fun (acc : Nat × Claims) t =>
    let outs := routeOuts src t
    if outs = [] then (max acc.1 (e.t0 + k), acc.2)
    else
      let r := hopFlit slots taken outs e.t0 acc.2
      (max acc.1 (r.1 - 1), r.2)) (0, [])
  let first := (w.2.map (·.2)).foldl min w.1
  ({ leave := first, land := w.1, src := src, soff := e.soff + 512 * k, dsts := dsts, doff := e.doff + 512 * k, data := none }, w.2 ++ taken)

/-- The flits of a phase's exchange table, in table order (R275). -/
def planFlits (slots : List Word) (i : Inst) (es : List ExchEntry) : List Flit :=
  (es.foldl (fun (acc : List Flit × Claims) e =>
    (List.range e.flits).foldl (fun (acc : List Flit × Claims) k =>
      let r := planFlit slots (i.tileOf e.stile) (i.exchTargets e) e k acc.2
      (acc.1 ++ [r.1], r.2)) acc) (([] : List Flit), ([] : Claims))).1

/-- The current phase of an instance. -/
def Inst.curPhase (i : Inst) : Option GPhase := i.graph.bind (fun g => g.phases[i.phase]?)

/-- The clock on which the next flit of an exchange step leaves or lands, or on which the step ends. -/
def Inst.exchDue (i : Inst) : Option Nat :=
  match i.st with
  | .exchange fired flits ends =>
    some (fired + 16 + (flits.map (fun f => if f.data.isNone then f.leave else f.land)).foldl min (if flits.isEmpty then ends else flits.foldl (fun n f => max n f.land) 0))
  | _ => none

/-! ## Instances -/

/-- Joins the launch queue (R274, R293); the number of the new instance. -/
def State.launch (s : State) (p : PartId) (ptr iparam : Word) (dl cls : Nat) (src : InstSrc) (world : Option VfId) : Nat × State :=
  let n := (s.part p).instNo + 1
  let i : Inst :=
    { no := n, graphPtr := ptr, graph := none, cls := cls, dl := dl, iparam := iparam, src := src, launched := s.ck, world := world,
      col0 := 0, row0 := 0, phase := 0, st := .queued, posted := [], live := [],
      barriers := Vector.replicate 8 { count := 0, arrived := [] }, snap := [], own := [] }
  (n, s.modPart p (fun x => { x with insts := x.insts ++ [i], instNo := n }))

/-- Instances in the launch queue. -/
def PartSt.queueLen (x : PartSt) : Nat := (x.insts.filter (fun i => i.st = .queued)).length

/-- Lexicographic order of keys. -/
def lexLt : List Int → List Int → Bool
  | a :: as, b :: bs => a < b || (a = b && lexLt as bs)
  | _, _ => false

/-- The least element by a key. -/
def leastBy {α : Type} (key : α → List Int) : List α → Option α
  | [] => none
  | a :: r =>
    match leastBy key r with
    | some b => some (if lexLt (key b) (key a) then b else a)
    | none => some a

/-- The rank of a queued instance (R274). -/
def Inst.rank (i : Inst) : List Int := [i.cls, if i.dl = 0 then 1 else 0, i.dl, i.launched, i.no]

/-- Sorts by a key. -/
def insertBy {α : Type} (key : α → List Int) (a : α) : List α → List α
  | [] => [a]
  | b :: r => if lexLt (key a) (key b) then a :: b :: r else b :: insertBy key a r
def sortBy {α : Type} (key : α → List Int) : List α → List α
  | [] => []
  | a :: r => insertBy key a (sortBy key r)

/-! ## Tiller's order (R279, R280) -/

/-- Slack in ns of a task with a run time: DL − DTIME − ⌈rem × tck⌉; 2⁶³ − 1 without a deadline. -/
def State.slackOf (s : State) (dl cost u : Nat) : Int :=
  if dl = 0 then 0x7FFFFFFFFFFFFFFF
  else (dl : Int) - (s.dtime : Int) - (((cost - u) * ckTime s.pf.eff + 23) / 24 : Nat)

/-- The slack of a task of an instance. -/
def State.taskSlack (s : State) (p : PartId) (n cost u : Nat) : Int := s.slackOf ((s.inst p n).elim 0 (·.dl)) cost u

/-- The keys of a record, with the two that break ties. -/
def State.tillerKey (s : State) (p : PartId) (r : TillerRec) : List Int :=
  [if r.cls = 0 then 0 else 1, s.taskSlack p r.inst r.rc.cost r.u / 256, r.cls, r.age, r.inst, r.idx]

/-- READY, frozen tasks included. -/
def TillerRec.isReady (r : TillerRec) : Bool :=
  match r.st with
  | .ready => true
  | .frozen _ => true
  | _ => false
/-- The records that Tiller holds, at most 64; the others wait until it has room. -/
def TileSt.tillerIn (x : TileSt) : List TillerRec := x.tiller.take 64
/-- The head of a tile's order. -/
def State.tillerHead (s : State) (t : Tile) : Option TillerRec :=
  leastBy (s.tillerKey (s.tile t).part) ((s.tile t).tillerIn.filter (·.isReady))
/-- The record of the running task, with its run time as it stands. -/
def State.runningRec (s : State) (t : Tile) : Option TillerRec :=
  match s.task t with
  | some k => ((s.tile t).tiller.find? (fun r => r.inst = k.inst && r.idx = k.idx)).map (fun r => { r with u := k.u })
  | none => none
/-- A READY task ranks ahead of the running one. -/
def State.headAhead (s : State) (t : Tile) : Bool :=
  match s.tillerHead t, s.runningRec t with
  | some h, some r => lexLt (s.tillerKey (s.tile t).part h) (s.tillerKey (s.tile t).part r)
  | _, _ => false

/-- Changes one record in a tile's Tiller. -/
def TileSt.modRec (x : TileSt) (inst idx : Nat) (f : TillerRec → TillerRec) : TileSt :=
  { x with tiller := x.tiller.map (fun r => if r.inst = inst && r.idx = idx then f r else r) }

/-- Loads a record into a tile's Tiller (R275, R290). -/
def State.loadRec (s : State) (i : Inst) (idx : Nat) (r : TaskRec) : State :=
  s.modTile (i.tileOf r.tile) (fun x => { x with tiller := x.tiller ++ [
    { inst := i.no, idx := idx, rc := r, deps := r.deps, st := if r.deps = 0 then .ready else .waiting, age := s.ck,
      cls := max r.cls i.cls, u := 0 }] })

/-- A phase of an instance begins: the snapshot of R136 is taken and the records are loaded (R275 step 1). -/
def State.beginPhase (s : State) (p : PartId) (n phase : Nat) : State :=
  let s := s.modInst p n (fun i =>
    let i := { i with phase := phase, st := .running, posted := [], snap := s.bulk, own := [],
                      barriers := Vector.replicate 8 { count := 0, arrived := [] } }
    { i with live := List.range i.records.length })
  match s.inst p n with
  | some i => i.records.zipIdx.foldl (fun s e => s.loadRec i e.2 e.1) s
  | none => s

end Sys2Proof.Machine
end

