-- ==== Sys2Proof/Machine/Task.lean ====
section
/-! DEFINITION. The TASK group on C; the scheduler's and Tiller's events: placement, exchange, phases, preload, dispatch,
pre-emption, watchdogs (R274–R283, R288–R297). -/

namespace Sys2Proof.Machine

/-! ## The end of a task and of a phase (R275, R277, R291) -/

/-- A successor's count falls by one; at zero the record becomes READY (R277). -/
def TillerRec.lower (now : Nat) (r : TillerRec) : TillerRec :=
  if r.deps = 1 then { r with deps := 0, st := (if r.st = .waiting then .ready else r.st), age := (if r.st = .waiting then now else r.age) }
  else { r with deps := r.deps - 1 }

/-- The footprint barrier fires: line buffers are invalidated, the PHARR barriers reset, and the exchange step begins (R275 steps 2 to 4). -/
def State.fireBarrier (s : State) (p : PartId) (n : Nat) : State :=
  let s := match s.inst p n with
    | some i => i.tiles.foldl State.emptyLines s
    | none => s
  s.modInst p n (fun i =>
    let flits := planFlits (s.part p).slots i (i.curPhase.elim [] (·.exch))
    let after := flits.foldl (fun n f => max n (f.land + 1)) 0
    { i with st := .exchange s.ck flits (max (i.curPhase.elim 0 (·.xlen)) after), barriers := Vector.replicate 8 { count := 0, arrived := [] } })

/-- TASKEND of the tile's task, its waits being over. -/
def State.endTask (s : State) (t : Tile) : State :=
  match s.task t with
  | some k =>
    let s := s.modTile t (fun x =>
      let x := { x with tiller := x.tiller.filter (fun r => !(r.inst = k.inst && r.idx = k.idx)) }
      k.rc.succ.foldl (fun x n => x.modRec k.inst n (TillerRec.lower s.ck)) x)
    let s := s.dropTask t
    let s := s.modInst k.part k.inst (fun i => { i with live := i.live.filter (fun n => n != k.idx) })
    match s.inst k.part k.inst with
    | some i => if i.live = [] && i.graph.isSome then s.fireBarrier k.part k.inst else s
    | none => s
  | none => s

/-- TASKEND (R291): it waits until L, M and S are idle, no command and no pass is left and C's accesses are performed. -/
def execTaskend (s : State) : Out :=
  let g := s.logic s.cur
  if g.idle .l && (g.idle .m && (g.idle .s && (g.copy.q.isEmpty && (g.rachis.pass.isNone && g.c.ops.isEmpty)))) then
    .next (s.endTask s.cur)
  else .next (s.cRetry false)

/-! ## TASKPOST, TASKYLD, GLAUNCH, SLACK (R290–R294) -/

/-- TASKPOST (R290); the block is read once C's accesses are performed (R129). -/
def execTaskpost (d a : Reg) (s : State) : Out :=
  s.cBlockCmd d a (fun b s =>
    match s.task s.cur, s.instOf s.cur with
    | some k, some i =>
      let r := TaskRec.ofBytes b
      let room := (s.tile (i.tileOf r.tile)).tiller.length < 64 && i.posted.length < 256
      if r.deps = 0 && (r.succ = [] && (s.recOk k.part i.fcols i.frows b && room)) then
        let n := i.records.length
        let s := s.modInst k.part k.inst (fun i => { i with posted := i.posted ++ [r], live := i.live ++ [n] })
        (s.loadRec i n r).cDone d (BitVec.ofNat 64 n) false
      else s.trapC .bound 0 none
    | _, _ => s.trapC .bound 0 none)

/-- A free image slot of a tile: it holds no husk, and no freeze fills it (R318). -/
def TileSt.freeSlot (x : TileSt) : Option (Fin 2) :=
  (List.finRange 2).find? (fun i => (x.husks[i]).isNone && !x.freezing.any (fun f => f.slot = some i))

/-- The clocks of a tile's logic stop; the husk goes to a slot (R318). -/
def State.startFreeze (s : State) (t : Tile) (slot : Fin 2) (by_ : Option Tile) : State :=
  s.modTile t (fun x => { x with freezing := some { slot := some slot, at_ := s.dtime, by_ := by_ } })

/-- TASKYLD (R292). -/
def execTaskyld (d : Reg) (s : State) : Out :=
  s.cIssue [d] (fun s =>
    match s.task s.cur, (s.tile s.cur).freeSlot with
    | some k, some slot =>
      if k.rc.mayfr && s.headAhead s.cur then
        (s.modC s.cur (fun c => { c with wait := .yielded d, stall := 0 })).startFreeze s.cur slot none
      else s.cDone d 0 false
    | _, _ => s.cDone d 0 false)

/-- The checks of a launch block in the kind order of R100 (R293). -/
def State.launchFail (s : State) (b : List Byte) : Option Fail :=
  let p := s.partOf s.cur
  let dv := (fieldAt b 25 1).testBit 0
  let st := wordAt b 32 8
  if (dv && !(fieldAt b 28 1 < 64 && (s.part p).has (Fin.ofNat 64 (fieldAt b 28 1)))) then some ⟨.space, 0, none⟩
  else if st ≠ 0 && !s.spaceOk p fetchSpaces st 8 then some ⟨.space, writeBit true, some st⟩
  else if st.toNat % 8 ≠ 0 then some ⟨.align, writeBit true, some st⟩
  else if 3 < fieldAt b 24 1 || (1 < fieldAt b 25 1 || (5 < fieldAt b 29 1 || (!zeroAt b 30 2 || (!zeroAt b 40 24 ||
    (dv && 4095 < fieldAt b 26 2))))) then some ⟨.bound, 0, none⟩
  else none

/-- GLAUNCH (R293); the block is read once C's accesses are performed (R129). -/
def execGlaunch (d a : Reg) (s : State) : Out :=
  s.cBlockCmd d a (fun b s =>
    match s.launchFail b with
    | some f => s.failC f
    | none =>
      let p := s.partOf s.cur
      if 256 ≤ (s.part p).queueLen then s.cDone d (BitVec.allOnes 64) false
      else
        let src : InstSrc := .program ((fieldAt b 25 1).testBit 0) (Fin.ofNat 64 (fieldAt b 28 1)) (fieldAt b 26 2)
          (BitVec.ofNat 3 (fieldAt b 29 1)) (wordAt b 32 8) s.cur
        let r := s.launch p (wordAt b 0 8) (wordAt b 8 8) (fieldAt b 16 8) (fieldAt b 24 1) src (s.worldOfTask s.cur)
        r.2.cDone d (BitVec.ofNat 64 (r.1 % 2 ^ 32)) false)

/-- SLACK (R294). -/
def execSlack (d : Reg) (s : State) : Out :=
  s.cAlu d [] (fun s =>
    match s.task s.cur with
    | some k => BitVec.ofInt 64 (s.taskSlack k.part k.inst k.rc.cost k.u)
    | none => 0)

/-! ## Streams (R289, R295–R297) -/

/-- The stream that an operand names, in the task's partition. -/
def State.streamOf (s : State) (v : Word) : Option Stream :=
  if v.toNat < 1024 then (s.part (s.partOf s.cur)).stream v.toNat else none

/-- The sample of RUNG (R295). -/
def Stream.sample (st : Stream) : Word :=
  BitVec.ofNat 64 (st.overrun % 2 ^ 32 * 2 ^ 32 + st.rise % 8 * 512 + (if st.pend.isSome then 256 else 0) + (st.pend.getD 0) % 8 * 8 +
    st.rung % 8)

/-- RUNG (R295). -/
def execRung (d a b : Reg) (s : State) : Out :=
  s.cIssueCtl [a, b] [d] (fun s =>
    let v := s.rs b
    match s.streamOf (s.rs a) with
    | none => s.trapC .bound 0 none
    | some st =>
      if wbits v 3 60 ≠ 0 || (v.getLsbD 63 && st.nrung ≤ wbits v 0 3) then s.trapC .bound 0 none
      else if v.getLsbD 63 then
        let st := { st with pend := some (wbits v 0 3) }
        (s.modStream (s.partOf s.cur) (s.rs a).toNat (fun _ => st)).cDone d st.sample false
      else s.cDone d st.sample false)

/-- FRMACQ (R296): PROD − CONS is taken modulo 2⁶⁴. -/
def execFrmacq (d a : Reg) (s : State) : Out :=
  s.cIssueCtl [a] [d] (fun s =>
    match s.streamOf (s.rs a) with
    | none => s.trapC .bound 0 none
    | some st =>
      let p := s.partOf s.cur
      let cons := BitVec.ofNat 64 (s.hwNum p (st.ringVa + 16) 8)
      let prod := BitVec.ofNat 64 st.prod
      let n := (s.rs a).toNat
      let s := s.acquire s.cur 5
      if (prod - cons).toNat < st.nslot then
        ((s.hwWrite p st.ringVa (leBytes 8 (st.prod + 1))).modStream p n (fun st => { st with prod := st.prod + 1 })).cDone d prod false
      else s.cDone d (BitVec.allOnes 64) false)

/-- FRMCOMMIT (R297): its release waits for C's earlier accesses. -/
def execFrmcommit (d a b : Reg) (s : State) : Out :=
  s.cIssueCtl [a, b] [d] (fun s =>
    match s.streamOf (s.rs a) with
    | none => s.trapC .bound 0 none
    | some st =>
      let p := s.partOf s.cur
      let n := (s.rs a).toNat
      let f := (s.rs b).toNat
      if f ≠ st.commit || st.prod ≤ f then s.trapC .bound 0 none
      else if !(s.c s.cur).ops.isEmpty then s.cRetry false
      else ((s.hwWrite p (st.ringVa + 8) (leBytes 8 (f + 1))).modStream p n (fun st => { st with commit := f + 1 })).cDone d
        (BitVec.ofNat 64 (f + 1)) false)

/-! ## Placement (R273, R274) -/

/-- Refuses a queued instance: status 1 malformed, 2 unplaceable. -/
def State.refuse (s : State) (p : PartId) (i : Inst) (status : Nat) : State :=
  (s.modPart p (fun x => { x with insts := x.insts.filter (fun y => y.no != i.no) })).signalEnd p i status

/-- One queued instance: read and checked if it is not yet, then placed if its footprint is free. -/
def State.tryPlace (s : State) (p : PartId) (n : Nat) : State :=
  match s.inst p n with
  | none => s
  | some i =>
    let r : Option Graph × State := match i.graph with
      | some g => (some g, s)
      | none => s.readGraph p i.graphPtr
    match r with
    | (none, s) => s.refuse p i 1
    | (some g, s) =>
      let s := s.modInst p n (fun i => { i with graph := some g })
      let i := { i with graph := some g }
      if (originFor g (fun t => (s.part p).has t)).isNone then s.refuse p i 2
      else match originFor g (s.tileFree p i) with
        | none => s
        | some (c, r) => (s.modInst p n (fun i => { i with col0 := c, row0 := r, st := .running })).beginPhase p n 0

/-- PLACEMENT in partition `ev.p`: the scheduler walks the queue in rank order (R274). A world that is switched out places nothing, nor a VF
whose FLR has been latched (R373). -/
def execPlacement (s : State) : Out :=
  let p := s.ev.p
  let x := s.part p
  if s.pf.dchange || (s.pf.d3hot || x.switch.isSome) then .next s
  else .next ((sortBy Inst.rank (x.insts.filter (fun i => i.st = .queued && (x.inWorld i && !i.world.any (fun f => (s.vf f).flr))))).foldl (fun s i => s.tryPlace p i.no) s)

/-! ## The exchange step (R138, R275) -/

/-- The step clock: clock 0 is 16 ck after the barrier fires. -/
def stepClock (now fired : Nat) : Nat := now - (fired + 16)

/-- A flit leaves: its bytes are read at the source, each block with its poison mark. -/
def State.leaveFlit (s : State) (c : Nat) (f : Flit) : Flit :=
  if f.data.isNone && f.leave ≤ c then
    { f with data := some ((List.range 8).map (fun b =>
        (s.homeBytes (.slice f.src (f.soff + 64 * b)) 64, s.poisonedAt (.slice f.src (f.soff + 64 * b)) 64))) }
  else f
/-- A flit lands in every target. -/
def State.landFlit (s : State) (f : Flit) : State :=
  f.dsts.foldl (fun s t => (f.data.getD []).zipIdx.foldl (fun (s : State) e => s.writeSlice t (f.doff + 64 * e.2) e.1.1 e.1.2) s) s

/-- EXCHANGE_LANDING on instance `ev.k` of partition `ev.p`: the flits whose step clock has come leave, and those whose landing clock has
come land, in table order; a landing later than XLEN counts an overrun (R138, R275, R422). -/
def execExchangeLanding (s : State) : Out :=
  let p := s.ev.p
  match s.inst p s.ev.k with
  | some i =>
    match i.st with
    | .exchange fired flits ends =>
      if fired + 16 ≤ s.ck then
        let c := stepClock s.ck fired
        let flits := flits.map (s.leaveFlit c)
        let due := flits.filter (fun f => f.data.isSome && f.land ≤ c)
        let late := (due.filter (fun f => i.curPhase.elim 0 (·.xlen) < f.land)).length
        let s := due.foldl State.landFlit s
        let s := s.modInst p i.no (fun i => { i with st := .exchange fired (flits.filter (fun f => !(f.data.isSome && f.land ≤ c))) ends })
        .next (if late = 0 then s else s.modPart p (fun x => { x with exovr := min 0xFFFFFFFFFFFFFFFF (x.exovr + late) }))
      else .next s
    | _ => .next s
  | none => .next s

/-- PHASE_RECORD_LOAD: at step clock max(XLEN, last landing + 1) the next phase begins, or the instance ends (R275 step 5). -/
def execPhaseRecordLoad (s : State) : Out :=
  let p := s.ev.p
  match s.inst p s.ev.k with
  | some i =>
    match i.st, i.graph with
    | .exchange fired [] ends, some g =>
      if fired + 16 + ends ≤ s.ck then
        .next (if i.phase + 1 < g.phases.length then s.beginPhase p i.no (i.phase + 1) else s.endInstance p i.no 0)
      else .next s
    | _, _ => .next s
  | none => .next s

/-! ## Tiller (R278, R281, R282) -/

/-- PRELOAD: the head of the order is in the shadow bank (R281). -/
def execPreload (s : State) : Out :=
  .next (s.modTile s.ev.t (fun x => { x with shadow := (s.tillerHead s.ev.t).map (fun r => (r.inst, r.idx)) }))

/-- The owner of a task, for R278 and R117: partition, world, instance. -/
def State.ownerOf (s : State) (p : PartId) (n : Nat) : PartId × Nat × Nat :=
  (p, ((s.inst p n).bind (·.world)).elim 0 (fun f => f.val + 1), n)

/-- What the change of owner does on a tile: matrix memories of another partition or world are zeroed (R278), and the line buffer of
another instance is emptied (R117). -/
def TileSt.changeOwner (x : TileSt) (o : PartId × Nat × Nat) : TileSt :=
  let same := match x.lastOwner with
    | some q => q.1 = o.1 && q.2.1 = o.2.1
    | none => false
  let x := if same then x else { x with logic := { x.logic with mat := MatSt.reset } }
  { x with lastOwner := some o, lines := if x.lastOwner = some o then x.lines else [] }

/-- The registers a task starts with (R278). -/
def startRegs (i : Inst) (r : TaskRec) : Vector Word 32 :=
  vecOf 32 (fun k => match k with
    | 1 => r.param
    | 2 => r.ltab
    | 3 => r.mtab
    | 4 => r.stab
    | 5 => BitVec.ofNat 64 (i.no % 2 ^ 32)
    | 6 => i.iparam
    | 7 => BitVec.ofNat 64 (i.col0 % 8 + i.row0 % 8 * 8 + (i.fcols - 1) % 8 * 256 + (i.frows - 1) % 8 * 2048)
    | _ => 0)

/-- The task's state when it starts. -/
def TileSt.dispatch (x : TileSt) (i : Inst) (r : TillerRec) (p : PartId) (home : Bool) : TileSt :=
  let g := x.logic.cleared
  { (x.modRec r.inst r.idx (fun r => { r with st := .running })) with
    shadow := none,
    logic := { g with c := { CSt.reset with s := startRegs i r.rc, pc := r.rc.entry },
                      task := some { part := p, inst := r.inst, idx := r.idx, rc := r.rc, cls := r.cls, super := r.rc.super && home,
                                     u := 0, lifted := false } } }

/-- The tile can take the task at the head of its order: it is ON, runs none, has the head preloaded, and no world switch is in progress
(R325). -/
def State.canStart (s : State) (t : Tile) : Option TillerRec :=
  let x := s.tile t
  if x.pwr = .on && (x.freezing.isNone && (x.logic.task.isNone && (x.logic.copy.q.isEmpty && (s.part x.part).switch.isNone))) then
    (s.tillerHead t).filter (fun r => x.shadow = some (r.inst, r.idx))
  else none

/-- DISPATCH on tile `ev.t` (R278, R281). -/
def execDispatch (s : State) : Out :=
  let t := s.ev.t
  let p := (s.tile t).part
  match s.canStart t with
  | some r =>
    match r.st, s.inst p r.inst with
    | .ready, some i =>
      let o := s.ownerOf p r.inst
      .next (s.modTile t (fun x => (x.changeOwner o).dispatch i r p ((s.part p).home = t)))
    | _, _ => .next s
  | none => .next s

/-- TILLER_FREEZE: a READY class-0 task freezes a running task of class 1–3 with MAYFR, when a slot is free (R282). -/
def execTillerFreeze (s : State) : Out :=
  let t := s.ev.t
  let x := s.tile t
  match s.task t, x.freeSlot with
  | some k, some slot =>
    .next (if x.runs && (k.cls ≠ 0 && (k.rc.mayfr && x.tillerIn.any (fun r => r.isReady && r.cls = 0))) then
      s.startFreeze t slot none else s)
  | _, _ => .next s

/-! ## Watchdogs (R283, R288) -/

/-- TASK_WATCHDOG: u has passed WDOG × 1,024 (R283). -/
def execTaskWatchdog (s : State) : Out :=
  let t := s.ev.t
  match s.task t with
  | some k =>
    .next (if (s.tile t).runs && (k.rc.wdog ≠ 0 && (1024 * k.rc.wdog < k.u && s.trapTurn t .tile 0)) then (s.trapWatchdog t (s.logic t)).endTaskOf t 3 else s)
  | none => .next s

/-- The logic that a task which has not started would start with, as its record gives it. -/
def TillerRec.unstarted (r : TillerRec) (p : PartId) : Logic :=
  { Logic.reset with
    c := { CSt.reset with pc := r.rc.entry },
    task := some { part := p, inst := r.inst, idx := r.idx, rc := r.rc, cls := r.cls, super := false, u := r.u, lifted := false } }
/-- The logic of every task of an instance, by increasing tile: running, in husks wherever they stand, and waiting in Tiller. -/
def State.tasksOf (s : State) (p : PartId) (n : Nat) : List (Tile × Logic) :=
  let away : List Husk := (s.part p).moved.map (·.2.2) ++ ((s.part p).saved.flatMap (fun w => w.husks.map (·.2)) ++ (s.bodies.map (·.2)).filter (fun h => h.part = p))
  let waits := (s.part p).saved.flatMap (fun w => w.tillers)
  allTiles.flatMap (fun t =>
    let x := s.tile t
    let recs := (if x.part = p then x.tiller else []) ++ (waits.filter (fun e => e.1 = t)).flatMap (·.2)
    ((if x.logic.task.any (fun k => k.isOf p n) then [x.logic] else []) ++
      (((x.husks.toList.filterMap id ++ away.filter (fun h => h.tile = t)).filter (fun h => h.isOf p n)).map (·.logic) ++
        (recs.filter (fun r => r.inst = n && (r.st = .waiting || r.st = .ready))).map (fun r => r.unstarted p))).map (fun g => (t, g)))

/-- STREAM_WATCHDOG on the instance `ev.k` of a stream: each task takes a WATCHDOG trap and the instance ends with status 3 (R288). -/
def execStreamWatchdog (s : State) : Out :=
  let p := s.ev.p
  match s.inst p s.ev.k with
  | some i =>
    match i.src with
    | .stream k =>
      match (s.part p).stream k with
      | some st =>
        if i.placed && (st.wdns ≠ 0 && (i.dl + st.wdns ≤ s.dtime && (s.tasksOf p i.no).all (fun e => s.trapTurn e.1 .tile 0))) then
          .next (((s.tasksOf p i.no).foldl (fun s e => s.trapWatchdog e.1 e.2) s).endInstance p i.no 3)
        else .next s
      | none => .next s
    | _ => .next s
  | none => .next s

/-! ## Firings (R286, R287) -/

/-- When an entry is due, with its index. -/
def PartSt.firings (x : PartSt) : List (Nat × Nat × TtEntry) :=
  x.tt.zipIdx.map (fun e => (x.ttEpoch + e.1.next * x.ttCyc + e.1.off, e.2, e.1))
/-- The entry due next; of two due at one time, the one earlier in the table (R299). -/
def PartSt.nextFiring (x : PartSt) : Option (Nat × Nat × TtEntry) :=
  if x.ttCyc = 0 then none else leastBy (fun e => [(e.1 : Int), (e.2.1 : Int)]) x.firings

/-- The ladder's move at a frame boundary (R287). -/
def Stream.ladder (st : Stream) : Stream :=
  let st' := match st.pend with
    | some r => { st with rung := r, rise := 0, pend := none }
    | none =>
      if st.ended.any (fun x => x < 0) || st.skipped then { st with rung := min (st.rung + 1) (st.nrung - 1), rise := 0 }
      else if st.ended = [] then st
      else if st.ended.all (fun x => (st.period : Int) < 4 * x) then
        if st.rise = 7 then { st with rung := st.rung - 1, rise := 0 } else { st with rise := st.rise + 1 }
      else { st with rise := 0 }
  { st' with ended := [], skipped := false }

/-- A boundary of a stream at a time: the ladder moves, then the launch, or the skip when an instance is pending or running, the
queue is full, or the device is in D3hot (R286, R393). -/
def State.boundary (s : State) (p : PartId) (k due : Nat) : State :=
  match (s.part p).stream k with
  | some st =>
    if st.destroying.isSome || st.vf.any (fun f => (s.vf f).flr) then s else
      let st := st.ladder
      let busy := (s.part p).insts.any (fun i => i.src = .stream k)
      if busy || (s.pf.d3hot || 256 ≤ (s.part p).queueLen) then
        s.modStream p k (fun _ => { st with overrun := (st.overrun + 1) % 2 ^ 32, skipped := true })
      else
        let g := (st.rungs.getD st.rung (0, 0)).1
        ((s.modStream p k (fun _ => st)).launch p g st.iparam (due + st.deadoff) st.cls (.stream k) st.vf).2
  | none => s

/-- FIRING in partition `ev.p`: the entry that is due fires (R286). -/
def execFiring (s : State) : Out :=
  let p := s.ev.p
  match (s.part p).nextFiring with
  | some (due, k, e) =>
    .next (if due ≤ s.dtime then
      (s.modPart p (fun x => { x with tt := x.tt.modify k (fun e => { e with next := e.next + 1 }) })).boundary p e.stream due else s)
  | none => .next s

end Sys2Proof.Machine
end

