-- ==== Sys2Proof/Machine/System.lean ====
section
/-! DEFINITION. The SYS group but for the husk moves: supervisor calls, TRAPRET, the Y registers, IDLE, HALT, the trap queue, FREEZE
and EVPOST (R301–R317, R327, R328, R333–R342). -/

namespace Sys2Proof.Machine

/-! ## Privilege (R301, R302) -/

/-- Issues an instruction of level S: below S it raises BOUND with PRIV before any operand check. -/
def State.cSuper (s : State) (ctl regs : List Reg) (body : State → State) : Out :=
  if s.atS s.cur then s.cIssueCtl ctl regs body else .next (s.trapC .bound privBit none)

/-! ## SVC, BRKPT, HALT (R334, R338) -/

/-- SVC stops C with a record of s_a and s_b. -/
def execSvc (d a b : Reg) (s : State) : Out :=
  s.cIssue [d, a, b] (fun s =>
    (s.trapC .svc (s.rs b) (some (s.rs a))).modC s.cur (fun c => { c with stop := c.stop.map (fun x => { x with dst := d }) }))
/-- BRKPT. -/
def execBrkpt (s : State) : Out := .next (s.trapC .brkpt 0 none)
/-- HALT ends the instance with status 4 and no record. -/
def execHalt (s : State) : Out := .next (s.endTaskOf s.cur 4)

/-! ## TRAPRET (R317, R335) -/

/-- A TRAPRET has resolved the stopped trap of a frozen task; it takes effect on restore (R335). -/
def Logic.resolved (g : Logic) (u : TrapUnit) (x : Stop) : Bool :=
  g.flits.any (fun e => match e with
    | .trapret v tid _ _ => v = u && tid = x.tid
    | _ => false)
/-- The stopped traps of a logic that are to be resolved and whose records have been posted, with their units. -/
def Logic.stops (g : Logic) : List (TrapUnit × Stop) :=
  let one (u : TrapUnit) (x : Option Stop) : List (TrapUnit × Stop) := match x with
    | some x => if x.latched || g.resolved u x then [] else [(u, x)]
    | none => []
  one (if g.c.stop.any (·.move) then .copy else .c) g.c.stop ++ (one .l g.l.seq.stop ++ (one .m g.m.seq.stop ++ (one .s g.s.seq.stop ++
    (g.copy.q.flatMap (fun c => one .copy c.stop) ++ (g.rachis.pass.elim [] (·.stops)).flatMap (fun e => one .rachis (some e.2))))))

/-- What a handle names: TILE, UNIT and TID of a record's HDR. -/
structure Handle where
  tile : Nat
  unit : Nat
  tid : Nat
def Handle.of (v : Word) : Handle := { tile := wbits v 8 6, unit := wbits v 16 3, tid := wbits v 24 16 }
def Handle.names (h : Handle) (e : TrapUnit × Stop) : Bool :=
  e.1.code = h.unit && (e.2.tile.val = h.tile && e.2.tid.toNat = h.tid)
def Logic.trapOf (g : Logic) (h : Handle) : Option (TrapUnit × Stop) := g.stops.find? h.names

/-- Every logic of a partition's tasks, and whether it is frozen: on the tiles, and in husks. -/
def State.logicsOf (s : State) (p : PartId) : List (Logic × Bool) :=
  (s.part p).tileList.map (fun t => ((s.tile t).logic, (s.tile t).freezing.isSome)) ++ (s.allHusks p).map (fun h => (h.logic, true))
/-- Changes every one of them; `f` is told whether it is frozen. -/
def State.mapLogics (s : State) (p : PartId) (f : Bool → Logic → Logic) : State :=
  ((s.part p).tileList.foldl (fun (s : State) t => s.modTile t (fun x => { x with logic := f x.freezing.isSome x.logic })) s).mapHusks p
    (fun h => { h with logic := f true h.logic })

/-- A stopped sequencer goes on; a TSTOP that came while it was stopped takes effect now (R97). -/
def Logic.restart (g : Logic) (u : Sq) (f : SeqSt → SeqSt) : Logic :=
  let stopping := (g.seq u).stopping
  let g := g.modSeq u f
  if stopping then (g.modSeq u (fun x => { x with stopping := false })).tstop u else g

/-- REPLAY in a logic: the unit goes on at the named word or segment; C goes on after an SVC or BRKPT. A push that waited goes on
waiting, its counter at 0. -/
def Logic.replay (g : Logic) (u : TrapUnit) (x : Stop) (v : Word) : Logic :=
  let seq (q : SeqSt) : SeqSt := { q with stop := none, stall := 0, wait := if x.status.getLsbD 1 then .push else .none }
  match u with
  | .c =>
    match x.kind with
    | .svc => { g with c := ({ g.c with stop := none, pc := g.c.pc + 4, stall := 0 } : CSt).putP x.dst v false }
    | .brkpt => { g with c := { g.c with stop := none, pc := g.c.pc + 4, stall := 0 } }
    | _ => { g with c := { g.c with stop := none, stall := 0 } }
  | .l => g.restart .l seq
  | .m => g.restart .m seq
  | .s => g.restart .s seq
  | .copy =>
    if g.c.stop = some x then { g with c := { g.c with stop := none } } else
    { g with copy := { g.copy with q := g.copy.q.map (fun c =>
        if c.stop = some x then { c with st := .running, stop := none, noPlane := none } else c) } }
  | .rachis => { g with rachis := { g.rachis with pass := g.rachis.pass.map (fun p => { p with stops := p.stops.filter (fun e => e.2 != x) }) } }
  | .tile => g

/-- DISCARD in a logic: the command completes with no further write (R216); the pass ends with END = 3 (R265). A move of a husk leaves a
value of its own in its register. -/
def Logic.discard (g : Logic) (u : TrapUnit) (x : Stop) (v : Word) : Logic :=
  match u with
  | .copy =>
    if g.c.stop = some x then { g with c := ({ g.c with stop := none, pc := g.c.pc + 4 } : CSt).putP x.dst v false } else
    { g with copy := { g.copy with q := g.copy.q.map (fun c =>
        if c.stop = some x then { c with st := .running, stop := none, discarded := true } else c) } }
  | .rachis => g.endPass 3
  | _ => g

/-- The action fits the trap (R317). -/
def actionFits (act : Nat) (e : TrapUnit × Stop) : Bool :=
  match act with
  | 0 => e.2.replay
  | 1 => e.1 = .copy || e.1 = .rachis
  | 2 => true
  | _ => false

/-- The command that a discarded copy trap belongs to: the engines forget it. -/
def Logic.cmdOfTrap (g : Logic) (x : Stop) : List Nat := (g.copy.q.filter (fun c => c.stop = some x)).map (·.id)

/-- The action on a logic that runs. -/
def Logic.act (g : Logic) (e : TrapUnit × Stop) (act : Nat) (v : Word) : Logic :=
  match act with
  | 0 => g.replay e.1 e.2 v
  | 1 => g.discard e.1 e.2 v
  | _ => g
/-- The action on the logic that holds the trap: at once, or logged for a frozen task (R335). What a DISCARD leaves in the register of a
husk move is a free value. -/
def State.resolveTrap (s : State) (p : PartId) (h : Handle) (g : Logic) (frozen : Bool) (e : TrapUnit × Stop) (act : Nat) (v : Word) : State :=
  let v := if act = 1 then Config.freeWord s.freeCount else v
  let s := if act = 1 then s.drawn else s
  if frozen then s.mapLogics p (fun z y => if z && (y.trapOf h).isSome then y.addFlit (.trapret e.1 e.2.tid act v) else y)
  else if act = 2 then (match g.task with
    | some k => s.endInstance p k.inst 4
    | none => s)
  else
    (s.forgetCommands p (if act = 1 && e.1 = .copy then g.cmdOfTrap e.2 else [])).mapLogics p (fun _ y =>
      if (y.trapOf h).isSome then y.act e act v else y)

/-- TRAPRET: SPACE on the tile, BOUND on the action, BOUND for a handle or a pairing that does not fit (R335). -/
def execTrapret (d a b : Reg) (s : State) : Out :=
  s.cSuper [a, b] [d] (fun s =>
    let p := s.partOf s.cur
    let h := Handle.of (s.rs a)
    if !(s.part p).has (Fin.ofNat 64 h.tile) then s.trapC .space 0 none
    else if wbits (s.rs b) 2 62 ≠ 0 then s.trapC .bound 0 none
    else match (s.logicsOf p).findSome? (fun g => (g.1.trapOf h).map (fun e => (g, e))) with
      | some (g, e) =>
        let act := wbits (s.rs b) 0 2
        if !actionFits act e then s.trapC .bound 0 none
        else
          let s := s.resolveTrap p h g.1 g.2 e act (s.rs d)
          if (s.task s.cur).isSome then s.cNext else s
      | none => s.trapC .bound 0 none)

/-! ## The Y registers (R303–R310) -/

/-- The lowest levels that may read and write a register: 0 T, 1 S, none: no task. Outside the table, none. -/
def yLevels (n : Nat) : Option (Option Nat × Option Nat) :=
  match n with
  | 0x000 => some (some 0, none)
  | 0x001 => some (some 0, none)
  | 0x002 => some (some 0, none)
  | 0x003 => some (some 0, some 0)
  | 0x004 => some (some 0, some 1)
  | 0x005 => some (some 0, none)
  | 0x006 => some (some 0, none)
  | 0x010 => some (some 1, none)
  | 0x011 => some (some 1, some 1)
  | 0x012 => some (some 1, none)
  | 0x013 => some (some 0, none)
  | 0x014 => some (some 1, none)
  | 0x015 => some (none, some 1)
  | n => if 0x020 ≤ n && n ≤ 0x027 then some (some 1, none) else none

/-- How an access at a level ends: none when it may go on, else the status word of its BOUND. -/
def yRefuse (level : Option Nat) (super : Bool) : Option Word :=
  match level with
  | none => some 0
  | some 0 => none
  | some _ => if super then none else some privBit

/-- YREV (R304): TLREV 0x01, STEP 0xB0. -/
def yrev : Nat := 0x01B0

/-- The value of a register as C of the current tile reads it. -/
def State.yValue (s : State) (n : Nat) : Word :=
  let t := s.cur
  let x := s.part (s.partOf t)
  match n with
  | 0x000 => BitVec.ofNat 64 yrev
  | 0x001 => BitVec.ofNat 64 ((s.tile t).slim % 4096 * 2 ^ 32 + x.home.val * 2 ^ 16 + (s.partOf t).val * 2 ^ 8 + t.val)
  | 0x002 => BitVec.ofNat 64 s.dtime
  | 0x003 => (s.vec t).fflags.setWidth 64
  | 0x004 => (s.tile t).tokLim.setWidth 64
  | 0x005 => if s.atS t then 1 else 0
  | 0x006 => BitVec.ofNat 64 ((if s.pf.trip then 4 else 0) + s.pf.eff.toNat)
  | 0x010 => x.trapq
  | 0x011 => BitVec.ofNat 64 (x.lost % 65536 * 2 ^ 48 + x.tail.toNat * 2 ^ 16 + x.head.toNat)
  | 0x012 => x.tqflag
  | 0x013 => BitVec.ofNat 64 ((BitVec.ofInt 24 x.budget.count).toNat * 2 ^ 40 + x.budget.window % 65536 * 2 ^ 24 + x.budget.refill % 2 ^ 23)
  | 0x014 => BitVec.ofNat 64 x.exovr
  | n => vGet x.ctx (n - 0x020)

/-- A read of YTQSTAT clears LOST (R4, R307). -/
def State.afterYrd (s : State) (n : Nat) : State :=
  if n = 0x011 then s.modPart (s.partOf s.cur) (fun x => { x with lost := 0 }) else s

/-- The register number of fields a and b. -/
def yNumber (a b : Reg) : Nat := a.toNat * 32 + b.toNat

/-- YRD (R303, R336). -/
def execYrd (d a b : Reg) (s : State) : Out :=
  let n := yNumber a b
  let fail := match yLevels n with
    | some (r, _) => yRefuse r (s.atS s.cur)
    | none => some 0
  match fail with
  | some st => .next (s.trapC .bound st none)
  | none => s.cIssue [d] (fun s => (s.cDone d (s.yValue n) false).afterYrd n)

/-- What a write does (R4, R27, R87, R307, R309). -/
def State.yWrite (s : State) (n : Nat) (v : Word) : State :=
  match n with
  | 0x003 => (s.modVec s.cur (fun x => x.clearFlags v)).cNext
  | 0x004 => (s.modTile s.cur (fun x => { x with tokLim := v.extractLsb' 0 32 })).cNext
  | 0x011 => (if v.getLsbD 32 then s.modPart (s.partOf s.cur) (fun x => { x with rescan := true }) else s).cNext
  | 0x015 => s.modC s.cur (fun c => { c with wait := .tlbInv v, stall := 0 })
  | _ => s.cNext

/-- YWR: d is its source (R333, R336). -/
def execYwr (d a b : Reg) (s : State) : Out :=
  let n := yNumber a b
  let fail := match yLevels n with
    | some (_, w) => yRefuse w (s.atS s.cur)
    | none => some 0
  match fail with
  | some st => .next (s.trapC .bound st none)
  | none => s.cIssueCtl [d] [] (fun s => s.yWrite n (s.rs d))

/-- A cached leaf maps a byte of a page of a table, or any leaf of the table goes (R309). -/
def TbEntry.hit (e : TbEntry) (p : PartId) (host all : Bool) (page : Nat) : Bool :=
  e.part = p && (e.host == host && (all || (e.va ≤ page && page < e.va + e.size)))

/-- Removes leaves from every buffer; the line buffers that the removal reaches are emptied (R117, R126, R309). -/
def State.invalidate (s : State) (p : PartId) (host all : Bool) (page : Nat) : State :=
  { s with
    dieTb := s.dieTb.filter (fun e => !e.hit p host all page),
    tiles := vecOf 64 (fun i =>
      let x := vGet s.tiles i
      { x with tb := x.tb.filter (fun e => !e.hit p host all page),
               lines := if x.part = p then [] else x.lines }) }

/-- YTLBINV: the removal that a YWR of tile `ev.t` waits for is complete everywhere, and the YWR completes (R309). -/
def execYtlbinv (s : State) : Out :=
  match (s.c s.cur).wait with
  | .tlbInv v =>
    .next (if (s.tile s.cur).runs then
      (s.invalidate (s.partOf s.cur) (v.getLsbD 62) (v.getLsbD 63) (wbits v 16 32 * 65536)).cNext else s)
  | _ => .next s

/-! ## The trap queue (R316, R339) -/

/-- Marks a stop's record as posted. -/
def Stop.post (x : Stop) (t : Tile) (tid : BitVec 16) : Stop := if x.tile = t && x.tid = tid then { x with latched := false } else x
def SeqSt.post (q : SeqSt) (t : Tile) (tid : BitVec 16) : SeqSt := { q with stop := q.stop.map (fun x => x.post t tid) }
def Logic.post (g : Logic) (t : Tile) (tid : BitVec 16) : Logic :=
  { g with
    c := { g.c with stop := g.c.stop.map (fun x => x.post t tid) },
    l := { g.l with seq := g.l.seq.post t tid }, m := { g.m with seq := g.m.seq.post t tid }, s := { g.s with seq := g.s.seq.post t tid },
    copy := { g.copy with q := g.copy.q.map (fun c => { c with stop := c.stop.map (fun x => x.post t tid) }) },
    rachis := { g.rachis with pass := g.rachis.pass.map (fun p => { p with stops := p.stops.map (fun e => (e.1, e.2.post t tid)) }) } }

/-- Sets LATE in a record. -/
def lateRecord (b : List Byte) : List Byte := leBytes 8 (fieldAt b 0 8 ||| 0x8000) ++ b.drop 8

/-- A tile's latched records are posted, oldest first, under the room rule; those that find no room stay. -/
def State.postLatched (s : State) (p : PartId) (t : Tile) : List Latched → State
  | [] => s
  | l :: r =>
    let free := (s.part p).trapFree
    if (if l.fatal then free > 0 else free > 2) then
      let tid := BitVec.ofNat 16 (bitsOf (fieldAt l.rec_ 0 8) 24 16)
      (((s.enqueueTrap p (lateRecord l.rec_)).modTile t (fun x => { x with latch := x.latch.erase l })).mapLogics p
        (fun _ g => g.post t tid)).postLatched p t r
    else s.postLatched p t r

/-- RESCAN in partition `ev.p`, once RESCAN has been written (R316). -/
def execRescan (s : State) : Out :=
  let p := s.ev.p
  if (s.part p).rescan then
    .next ((s.part p).tileList.foldl (fun (s : State) t => s.postLatched p t (s.tile t).latch) (s.modPart p (fun x => { x with rescan := false })))
  else .next s

/-- TQPOP (R339): a poisoned entry lands poisoned (R395). -/
def execTqpop (d a : Reg) (s : State) : Out :=
  s.cSuper [a] [d] (fun s =>
    if !(s.c s.cur).ops.isEmpty then s.cRetry false
    else match s.access s.cur localSpace .w (s.rs a) 64 64 with
      | (.ok l, s) =>
        let p := s.partOf s.cur
        let x := s.part p
        if x.head = x.tail then s.cDone d 0 false
        else
          let e := x.trapEntry x.head
          let rec_ := (s.hwRead p e 64).getD (List.replicate 64 0)
          let s := ((s.hwTouch p e 64).homeWrite (some s.cur) l rec_ (s.hwPoisoned p e 64)).modPart p (fun x => { x with head := x.head + 1 })
          (s.acquire s.cur 2).cDone d (BitVec.ofNat 64 (x.tail - x.head).toNat) false
      | (.fail f, s) => s.failC f
      | (.noPlane _ _, s) => s)

/-! ## IDLE (R337) -/

/-- IDLE waits. -/
def execIdle (d a : Reg) (s : State) : Out :=
  s.cIssueCtl [a] [d] (fun s => s.modC s.cur (fun c => { c with wait := .idle d (s.rs a).toNat s.ck 0 none, stall := 0 }))

/-- IDLE_WAKE: the events of the clock on which it woke (R337). -/
def execIdleWake (s : State) : Out :=
  match (s.c s.cur).wait with
  | .idle d limit since seen first =>
    let due : Option Nat := if limit ≠ 0 && since + limit ≤ s.ck then some (since + limit) else none
    let at_ : Option Nat := match due, first with
      | some a, some b => some (min a b)
      | some a, none => some a
      | none, b => b
    let rank := s.headAhead s.cur && (at_.isNone || at_ = some s.ck)
    let bits := (if due.isSome && due = at_ then 1 else 0) + (if first.isSome && first = at_ then seen.toNat else 0) + (if rank then 4 else 0)
    .next (if (s.tile s.cur).runs && bits ≠ 0 then s.cDone d (BitVec.ofNat 64 bits) false else s)
  | _ => .next s

/-! ## FREEZE (R340) -/

/-- FREEZE: SPACE, then BOUND; C waits until the save ends. -/
def execFreeze (d a : Reg) (s : State) : Out :=
  s.cSuper [a] [d] (fun s =>
    let t : Tile := Fin.ofNat 64 (wbits (s.rs a) 0 6)
    if !(s.part (s.partOf s.cur)).has t || t = s.cur then s.trapC .space 0 none
    else if wbits (s.rs a) 6 58 ≠ 0 then s.trapC .bound 0 none
    else match s.task t, (s.tile t).freeSlot with
      | some k, some slot =>
        if (s.tile t).runs && k.rc.mayfr then
          (s.modC s.cur (fun c => { c with wait := .freeze t slot d, stall := 0 })).startFreeze t slot (some s.cur)
        else s.cDone d (BitVec.allOnes 64) false
      | _, _ => s.cDone d (BitVec.allOnes 64) false)

/-! ## Evictions (R327, R328, R342) -/

/-- The block of R327 keeps its fields. -/
def State.evictOk (s : State) (p : PartId) (b : List Byte) (hostOnly : Bool) : Bool :=
  let x := s.part p
  let tiles := wordAt b 0 8
  let report := wordAt b 16 8
  let dv := (fieldAt b 27 1).testBit 0
  tiles ≠ 0 && ((tilesOf tiles).all (fun t => x.has t) &&
    ((report = 0 || (s.spaceOk p (if hostOnly then (fun c => c = 4 || c = 7) else fetchSpaces) report 64 && report.toNat % 64 = 0)) &&
    (fieldAt b 27 1 ≤ 1 && (fieldAt b 28 1 ≤ 5 && (zeroAt b 29 35 &&
    (!dv || (fieldAt b 24 2 ≤ 4095 && (fieldAt b 26 1 < 64 && x.has (Fin.ofNat 64 (fieldAt b 26 1))))))))))

/-- Posts an eviction: its number, or none when it is rejected (R328). Its tiles close to placement at once. -/
def State.postEviction (s : State) (p : PartId) (b : List Byte) (by_ : Tile) (host : Option (VfId × QueueId × Nat)) : Option Nat × State :=
  if fieldAt b 8 8 < s.dtime + 60000 then (none, s)
  else
    let n := (s.part p).evNo + 1
    let e : Eviction :=
      { no := n, tiles := wordAt b 0 8, deadline := fieldAt b 8 8, report := wordAt b 16 8, dv := (fieldAt b 27 1).testBit 0,
        dtile := Fin.ofNat 64 (fieldAt b 26 1), dflag := fieldAt b 24 2, scope := BitVec.ofNat 3 (fieldAt b 28 1), t0 := s.dtime,
        decided := false, plan := [], by_ := by_, host := host }
    (some n, s.modPart p (fun x => { x with evictions := x.evictions ++ [e], evNo := n, closed := x.closed ||| wordAt b 0 8 }))

/-- EVPOST (R342); the block is read once C's accesses are performed (R129). -/
def execEvpost (d a : Reg) (s : State) : Out :=
  s.cSuper [a] [d] (fun s =>
    if !(s.c s.cur).ops.isEmpty then s.cRetry false
    else s.cBlock (s.rs a) 64 (fun b s =>
      let p := s.partOf s.cur
      if !s.evictOk p b false then s.trapC .bound 0 none
      else
        let r := s.postEviction p b s.cur none
        r.2.cDone d (match r.1 with | some n => BitVec.ofNat 64 n | none => BitVec.allOnes 64) false))

end Sys2Proof.Machine
end

