-- ==== Sys2Proof/Machine/Husk.lean ====
section
/-! DEFINITION. Freezing a task into a husk and restoring it, the bytes of a husk, its moves between slots and memory, and the
world switch (R318–R322, R325, R326, R340, R341). -/

namespace Sys2Proof.Config

/-- The bytes of one section of a husk body (R319 gives what it holds, not its layout): section id, logic. -/
opaque huskSection : Nat → Machine.Logic → List Byte
/-- The logic that a body holds when no tile of this device wrote it; none when it holds none. -/
opaque huskLogic : List Byte → Option Machine.Logic

end Sys2Proof.Config

namespace Sys2Proof.Machine

/-! ## The bytes of a husk (R319) -/

/-- The eight sections of a body. -/
def huskSections (g : Logic) : List (List Byte) := (List.range 8).map (fun i => Config.huskSection (i + 1) g)
/-- The body; a husk is at most 2,883,584 bytes long (R15). -/
def huskBody (g : Logic) : List Byte := ((huskSections g).flatten).take 2883328
/-- 64 bytes of SHAKE256. -/
def digest64 (b : List Byte) : List Byte := shake256 64 b
/-- The section entries: ID, OFFSET from the header, LENGTH. -/
def sectEntries : List (List Byte) → Nat → Nat → List Byte
  | [], _, _ => []
  | b :: r, id, off => leBytes 4 id ++ (leBytes 4 off ++ (leBytes 4 b.length ++ (leBytes 4 0 ++ sectEntries r (id + 1) (off + b.length))))
/-- Header and body. -/
def Husk.bytes (h : Husk) : List Byte :=
  let body := huskBody h.logic
  leBytes 4 0x4B535548 ++ leBytes 2 1 ++ leBytes 2 h.rev.toNat ++ leBytes 1 h.tile.val ++ leBytes 1 h.part.val ++ leBytes 1 h.cls ++
    leBytes 1 0 ++ leBytes 4 h.inst ++ leBytes 8 h.clocks ++ leBytes 8 h.dtime ++ leBytes 4 body.length ++ leBytes 28 0 ++
    sectEntries (huskSections h.logic) 1 256 ++ digest64 body ++ body

/-- HUSKLOAD's result code for a header, 0 when it passes: MAGIC, VER, REV, PART, sections (R320, R341). -/
def headCode (p : PartId) (h : List Byte) : Nat :=
  if fieldAt h 0 4 ≠ 0x4B535548 || fieldAt h 4 2 ≠ 1 then 4
  else if fieldAt h 6 2 ≠ yrev then 1
  else if fieldAt h 9 1 ≠ p.val then 4
  else if (List.range 8).any (fun i => fieldAt h (64 + 16 * i + 4) 4 < 256 ||
      256 + fieldAt h 32 4 < fieldAt h (64 + 16 * i + 4) 4 + fieldAt h (64 + 16 * i + 8) 4) then 4
  else 0
/-- The code for header and body: the digest last. -/
def huskCode (p : PartId) (h body : List Byte) : Nat :=
  if headCode p h ≠ 0 then headCode p h else if (h.drop 192).take 64 ≠ digest64 body then 2 else 0

/-- The husk in bytes that no tile of this device wrote. -/
def huskFrom (h body : List Byte) : Option Husk :=
  (Config.huskLogic body).map (fun g =>
    { logic := g, rev := BitVec.ofNat 16 (fieldAt h 6 2), tile := Fin.ofNat 64 (fieldAt h 8 1), part := Fin.ofNat 40 (fieldAt h 9 1),
      cls := fieldAt h 10 1, inst := fieldAt h 12 4, clocks := fieldAt h 16 8, dtime := fieldAt h 24 8 })
/-- The husk in header and body bytes: the one that left a slot as these bytes, or what they hold. -/
def State.huskOf (s : State) (h body : List Byte) : Option Husk :=
  ((s.bodies.find? (fun (e : List Byte × Husk) => e.1 = h ++ body)).map (·.2)).orElse (fun _ => huskFrom h body)

/-! ## The image slots (R11, R318) -/

/-- Where slot `i` starts in a slice: bins 3,968–4,031 and 4,032–4,095. -/
def imageAt (i : Nat) : Nat := 0xF800000 + 0x400000 * i
/-- Bytes in a slot's image area, with the poison marks of their blocks; no dirty bit is set (R104). -/
def TileSt.putImage (x : TileSt) (i : Nat) (bs : List Byte) (bad : List Nat) : TileSt :=
  { x with slice := Mem.write x.slice (imageAt i) bs,
           poison := bad.foldl (fun l k => insertRising (imageAt i / 64 + k) l) (poisonAfter x.poison (imageAt i) bs.length false) }
/-- The bytes of the husk in a slot. -/
def TileSt.image (x : TileSt) (i : Nat) : List Byte := Mem.read x.slice (imageAt i) (256 + Mem.num x.slice (imageAt i + 32) 4)
/-- Their poisoned blocks, counted from the start. -/
def TileSt.imagePoison (x : TileSt) (i : Nat) : List Nat :=
  (x.poison.filter (fun b => imageAt i ≤ 64 * b && 64 * b < imageAt i + (x.image i).length)).map (fun b => b - imageAt i / 64)
/-- The husk in a slot, with the poison of its image. -/
def State.slotHusk (s : State) (t : Tile) (i : Fin 2) : Option Husk :=
  ((s.tile t).husks[i]).map (fun h => { h with poison := (s.tile t).imagePoison i.val })
/-- A husk is streamed into a slot. -/
def State.putHusk (s : State) (t : Tile) (i : Fin 2) (h : Husk) : State :=
  s.modTile t (fun x => ({ x with husks := x.husks.set i (some { h with poison := [] }) } : TileSt).putImage i.val h.bytes h.poison)

/-! ## Freezing (R318) -/

/-- The husk of a tile's task as it stands; its DTIME is that of the freeze. -/
def State.makeHusk (s : State) (t : Tile) (k : TaskCtl) : Husk :=
  { logic := s.logic t, rev := BitVec.ofNat 16 yrev, tile := t, part := k.part, cls := k.cls, inst := k.inst,
    clocks := (s.tile t).clocks, dtime := (s.tile t).freezing.elim s.dtime (·.at_) }

/-- The task of a tile goes into a slot; its registrations at homes are in the husk (R79); its record is frozen in Tiller. -/
def State.saveTo (s : State) (t : Tile) (k : TaskCtl) (slot : Fin 2) : State :=
  (((s.unwatch t).dropReqs t).modTile t (fun x =>
    { x.modRec k.inst k.idx (fun r => { r with st := .frozen slot, u := k.u }) with
      logic := x.logic.cleared, freezing := none })).putHusk t slot (s.makeHusk t k)

/-- HUSK_SAVE on tile `ev.t`: the husk has been streamed into the slot that its freeze fills; a FREEZE that waits for it ends
(R318, R340). -/
def execHuskSave (s : State) : Out :=
  let t := s.ev.t
  match (s.tile t).freezing, s.task t with
  | some f, some k =>
    match f.slot with
    | some slot =>
      let p := s.partOf t
      let s := s.saveTo t k slot
      .next (if f.by_.isSome then s.endWaits p (fun g => g.freezes t) (BitVec.ofNat 64 slot.val) else s)
    | none => .next s
  | _, _ => .next s

/-! ## Restoring (R320, R321) -/

/-- A location in a slice of the old tile is one of the new tile's: LOCAL names the tile the task runs on. -/
def Loc.rehome (old new : Tile) : Loc → Loc
  | .slice t x => .slice (if t = old then new else t) x
  | l => l
def Inflight.rehome (old new : Tile) (e : Inflight) : Inflight :=
  { e with blks := e.blks.map (fun b => { b with loc := b.loc.rehome old new }) }
def CWait.rehome (old new : Tile) : CWait → CWait
  | .word l d since o sc => .word (l.rehome old new) d since o sc
  | w => w
/-- The logic of a task that goes on on another tile. -/
def Logic.rehome (g : Logic) (old new : Tile) : Logic :=
  if old = new then g else
  { g with
    c := { g.c with ops := g.c.ops.map (fun o => { o with loc := o.loc.rehome old new }), wait := g.c.wait.rehome old new },
    l := { g.l with inflight := g.l.inflight.map (Inflight.rehome old new) },
    s := { g.s with inflight := g.s.inflight.map (Inflight.rehome old new) },
    copy := { g.copy with q := g.copy.q.map (fun c =>
      { c with fills := c.fills.map (fun k => if k % 64 = old.val then 64 * (k / 64) + new.val else k) }) } }

/-- The waits of C on restore: FWAIT reads the flag again, IDLE wakes, TASKYLD ends with 1 (R79, R80, R292, R337). -/
def State.thawC (s : State) (c : CSt) : CSt :=
  match c.wait with
  | .flag _ _ _ _ _ => { c with wait := .retry false }
  | .idle _ _ _ _ _ => { c with wait := c.wait.note 16 s.ck }
  | .yielded d => { c.putP d 1 false with pc := c.pc + 4, wait := .none }
  | _ => c

/-- The stopped trap that a resolution names. -/
def Logic.stopOf (g : Logic) (u : TrapUnit) (tid : BitVec 16) : Option Stop :=
  (({ g with flits := [] } : Logic).stops.find? (fun e => e.1 = u && e.2.tid = tid)).map (·.2)
/-- One logged flit, or one resolved trap, takes effect on restore (R321, R335). -/
def Logic.take (g : Logic) (e : Landing) : Logic :=
  match e with
  | .trapret u tid act v => (g.stopOf u tid).elim g (fun x => g.act (u, x) act v)
  | e => g.deliver e
/-- The log of a husk is delivered in arrival order; the pushes that its stores and loads have earned follow. -/
def Logic.thaw (g : Logic) : Logic :=
  let g := { g.flits.foldl Logic.take g with flits := [] }
  let g := if g.l.inflight.isEmpty then g else g.retire .l
  if g.s.inflight.isEmpty then g else g.retire .s
/-- A TRAPRET with action END waits in the log. -/
def Logic.ends (g : Logic) : Bool := g.flits.any (fun e => match e with
  | .trapret _ _ act _ => act = 2
  | _ => false)
/-- The commands that a TRAPRET in the log discards: the engines forget them. -/
def Logic.dropped (g : Logic) : List Nat := g.flits.flatMap (fun e => match e with
  | .trapret .copy tid 1 _ => (g.stopOf .copy tid).elim [] g.cmdOfTrap
  | _ => [])

/-- A restored WAITA is woken (R80). -/
def State.wakeWord (s : State) (t : Tile) : State :=
  match (s.c t).wait with
  | .word l _ _ _ _ => { s with monitors := { waiter := t, watch := .block l.block, hit := true } :: s.monitors }
  | _ => s

/-- Restores a husk on a tile: every section, the line buffer and the translation buffer emptied, the log delivered, the waits woken; the
record runs. A task whose trap a TRAPRET has ended meanwhile ends here (R335). -/
def State.restore (s : State) (t : Tile) (h : Husk) : State :=
  let g := h.logic.rehome h.tile t
  let home := (s.part h.part).home = t
  let s := s.forgetCommands h.part g.dropped
  let f := (({ g with c := s.thawC g.c } : Logic).forget).thaw
  let f : Logic := { f with task := f.task.map (fun (k : TaskCtl) => { k with super := k.rc.super && home }) }
  let owner := s.ownerOf h.part h.inst
  let s := (s.modTile t (fun x =>
    { (match f.task with
        | some k => x.modRec k.inst k.idx (fun r => { r with st := .running })
        | none => x) with
      logic := f, tb := [], lines := [], shadow := none, freezing := none, lastOwner := some owner })).wakeWord t
  if g.ends then s.endTaskOf t 4 else s

/-- A husk passes the checks of R320 on a tile; one that holds a poisoned block does not. -/
def State.huskFits (s : State) (t : Tile) (h : Husk) : Bool := h.rev.toNat = yrev && (h.part = (s.tile t).part && h.poison = [])
/-- A restore on a tile, or, where it is refused, the end of the task (R320). -/
def State.restoreOr (s : State) (t : Tile) (h : Husk) : State :=
  if s.huskFits t h then s.restore t h else match h.logic.task with
    | some k => s.endInstance k.part k.inst 4
    | none => s

/-- HUSK_RESTORE on tile `ev.t`: the head of the order is a frozen task; a restore that is refused ends it (R281, R320). -/
def execHuskRestore (s : State) : Out :=
  let t := s.ev.t
  match s.canStart t with
  | some r =>
    match r.st with
    | .frozen slot =>
      match s.slotHusk t slot with
      | some h =>
        if s.huskFits t h then
          .next ((s.modTile t (fun x => { x with husks := x.husks.set slot none })).restore t h)
        else .next (s.endInstance (s.tile t).part r.inst 4)
      | none => .next s
    | _ => .next s
  | none => .next s

/-! ## Moves of husks (R341) -/

/-- A husk becomes bytes in memory: the husk behind them is kept, for what lands meanwhile (R321). -/
def State.keepBody (s : State) (h : Husk) (bs : List Byte) : State := { s with bodies := (bs, h) :: s.bodies }

/-- Bytes with the poison marks of their blocks. -/
def markBytes (bs : List Byte) (bad : List Nat) : List (Byte × Bool) := bs.zipIdx.map (fun e => (e.1, bad.contains (e.2 / 64)))
/-- The poisoned blocks among marked bytes. -/
def markedBlocks (bs : List (Byte × Bool)) : List Nat :=
  (bs.zipIdx.filter (fun e => e.1.2)).foldl (fun l e => insertRising (e.2 / 64) l) []

/-- A fault of the copy of a husk move, `off` bytes from its start, with the faults of R216 (R341): the record names the copy engine; C
stops, and waits on after a REPLAY. FUNC and SEQ of its status word, which name a command, are free. -/
def State.huskFault (s : State) (d : Reg) (off : Nat) (side : Bool) (f : Fail) : State :=
  if !s.trapTurn s.cur .copy 0 then s else
  let v := BitVec.ofNat 64 (off / 4096 % 4096 * 2 ^ 36 + (if side then 2 ^ 35 else 0)) ||| (Config.freeWord s.freeCount &&& 0x7DFFFFFFF)
  let r := (s.drawn.cDrain s.cur).postTrap s.cur .copy f.kind v f.addr (s.gen s.cur) (f.status.getLsbD 16)
  if r.1.replay then r.2.modC s.cur (fun c => { c with stop := some { r.1 with dst := d, move := true }, wait := .none, stall := 0 })
  else r.2.endTaskOf s.cur 4
/-- The offset of a faulting address from the start of a copy. -/
def Fail.offset (f : Fail) (ptr : Word) : Nat := ((f.addr.getD ptr) - ptr).toNat

/-- HUSKSAVE (R341): SPACE, ALIGN, BOUND for an empty slot, then the translation of 4 MiB for writing. -/
def execHusksave (d a b : Reg) (s : State) : Out :=
  s.cSuper [a, b] [d] (fun s =>
    let p := s.partOf s.cur
    let t : Tile := Fin.ofNat 64 (wbits (s.rs a) 0 6)
    let slot : Fin 2 := if (s.rs a).getLsbD 8 then 1 else 0
    let ptr := s.rs b
    if !(s.c s.cur).ops.isEmpty then s.cRetry false
    else if !(s.part p).has t then s.trapC .space 0 none
    else if !s.spaceOk p bulkOnly ptr 0x400000 then s.trapC .space (writeBit true) (some ptr)
    else if ptr.toNat % 64 ≠ 0 then s.trapC .align (writeBit true) (some ptr)
    else match s.slotHusk t slot with
      | none => s.trapC .bound 0 none
      | some h =>
        match s.placeRange s.cur .w ptr 0x400000 with
        | (.fail f, s) => s.huskFault d (f.offset ptr) true f
        | (.noPlane _ _, s) => s
        | (.ok _, s) =>
          let bs := (s.tile t).image slot.val
          match (s.keepBody { h with poison := [] } bs).placeRange s.cur .w ptr bs.length with
          | (.ok ls, s) =>
            let s := s.writeAt s.cur ls (markBytes bs h.poison)
            let mine (inst idx : Nat) : Bool := h.logic.task.any (fun k => inst = k.inst && idx = k.idx)
            let s := s.modTile t (fun x =>
              ({ x with husks := x.husks.set slot none,
                        shadow := x.shadow.filter (fun y => !mine y.1 y.2),
                        tiller := x.tiller.filter (fun y => !mine y.inst y.idx) } : TileSt).sendAway h)
            s.cDone d (BitVec.ofNat 64 bs.length) false
          | (.fail f, s) => s.huskFault d (f.offset ptr) true f
          | (.noPlane _ _, s) => s)

/-- A husk joins a tile's slot, as these bytes, and its task the tile's Tiller as a frozen READY task. -/
def State.addHusk (s : State) (t : Tile) (slot : Fin 2) (h : Husk) (bs : List (Byte × Bool)) : State :=
  let h : Husk := { h with tile := t, logic := h.logic.rehome h.tile t, poison := [] }
  s.modTile t (fun x =>
    ({ x with husks := x.husks.set slot (some h),
              tiller := x.tiller ++ (match h.logic.task with
                | some k => [{ inst := k.inst, idx := k.idx, rc := k.rc, deps := 0, st := .frozen slot, age := s.ck, cls := k.cls, u := k.u }]
                | none => []) } : TileSt).putImage slot.val (bs.map (·.1)) (markedBlocks bs))

/-- An accepted husk is loaded: what its old tile logged for it comes with it (R321). -/
def State.loadHusk (s : State) (t : Tile) (slot : Fin 2) (h : Husk) (bs : List (Byte × Bool)) : State :=
  let r := s.collect h
  ({ r.2 with bodies := r.2.bodies.filter (fun e => e.1 != bs.map (·.1)) } : State).addHusk t slot r.1 bs

/-- HUSKLOAD (R341). A restore on another tile waits until the old one has received every response owed (R321). -/
def execHuskload (d a b : Reg) (s : State) : Out :=
  s.cSuper [a, b] [d] (fun s =>
    let p := s.partOf s.cur
    let t : Tile := Fin.ofNat 64 (wbits (s.rs b) 0 6)
    let ptr := s.rs a
    if !(s.c s.cur).ops.isEmpty then s.cRetry false
    else if !(s.part p).has t then s.trapC .space 0 none
    else if !s.spaceOk p bulkOnly ptr 256 then s.trapC .space 0 (some ptr)
    else if ptr.toNat % 64 ≠ 0 then s.trapC .align 0 (some ptr)
    else match s.placeRange s.cur .r ptr 256 with
      | (.fail f, s) => s.huskFault d (f.offset ptr) false f
      | (.noPlane _ _, s) => s
      | (.ok ls, s) =>
        let h := (s.readPieces s.cur true ls).1
        let hb := h.map (·.1)
        let n := min (fieldAt hb 32 4) 2883328
        match markedBlocks h with
        | k :: _ => s.huskFault d (64 * k) false ⟨.ecc, 0, some (ptr + BitVec.ofNat 64 (64 * k))⟩
        | [] =>
        if headCode p hb ≠ 0 then s.cDone d (BitVec.ofNat 64 (headCode p hb)) false
        else if !s.spaceOk p bulkOnly ptr (256 + n) then s.trapC .space 0 (some ptr)
        else match s.placeRange s.cur .r (ptr + 256) n with
          | (.fail f, s) => s.huskFault d (f.offset ptr) false f
          | (.noPlane _ _, s) => s
          | (.ok ls, s) =>
            let bs := (s.readPieces s.cur true ls).1
            let body := bs.map (·.1)
            let code := huskCode p hb body
            if code ≠ 0 then s.cDone d (BitVec.ofNat 64 code) false
            else match s.huskOf hb body, (s.tile t).freeSlot with
              | none, _ => s.cDone d 4 false
              | _, none => s.cDone d 3 false
              | some x, some slot =>
                if x.tile ≠ t && x.logic.owed then s.cRetry false
                else (s.loadHusk t slot x (h ++ bs)).cDone d 0 false)

/-! ## World switch (R325, R326) -/

/-- The bins of a tile that are dirty and belong to tasks. -/
def TileSt.dirtyBins (x : TileSt) : List Nat := x.dirty.filter (fun b => b < x.slim)
/-- A bin as it is saved. -/
def TileSt.saveBin (x : TileSt) (t : Tile) (b : Nat) : SavedBin :=
  { tile := t, bin := b, data := Mem.slice x.slice (0x10000 * b) 0x10000,
    poison := (x.poison.filter (fun k => 1024 * b ≤ k && k < 1024 * (b + 1))).map (fun k => k - 1024 * b), full := !x.empty.contains b }
/-- A bin is put back; its dirty bit clears. `bits`: its full/empty bit comes with it. -/
def State.loadBin (s : State) (e : SavedBin) (bits : Bool) : State :=
  s.modTile e.tile (fun x =>
    { x with slice := Mem.place x.slice (0x10000 * e.bin) 0x10000 e.data, dirty := x.dirty.filter (fun b => b != e.bin),
             poison := e.poison.foldl (fun l k => insertRising (1024 * e.bin + k) l)
               (x.poison.filter (fun k => k < 1024 * e.bin || 1024 * (e.bin + 1) ≤ k)),
             empty := if !bits then x.empty else if e.full then x.empty.filter (fun b => b != e.bin) else insertRising e.bin x.empty })

/-- The husks of a tile: those in its slots and the running task's. -/
def State.tileHusks (s : State) (t : Tile) : List Husk :=
  (List.finRange 2).filterMap (s.slotHusk t) ++ (match s.task t with
    | some k => [s.makeHusk t k]
    | none => [])

/-- One tile's part of a world is saved and leaves the tile: husks, dirty bins, Tiller records. -/
def State.saveTile (s : State) (w : SavedWorld) (t : Tile) : SavedWorld × State :=
  let hs := s.tileHusks t
  let x := s.tile t
  let dirty := x.dirtyBins
  let w : SavedWorld :=
    { w with husks := w.husks ++ hs.map (fun h => (t, h)),
             bins := dirty.map (x.saveBin t) ++ w.bins.filter (fun e => !(e.tile = t && dirty.contains e.bin)),
             tillers := w.tillers ++ [(t, x.tiller.map (fun r => { r with u := ((s.task t).filter (fun k => k.inst = r.inst && k.idx = r.idx)).elim r.u (·.u) }))] }
  (w, ((s.unwatch t).dropReqs t).modTile t (fun x => { x with
    logic := x.logic.cleared, husks := Vector.replicate 2 none, tiller := [], shadow := none, freezing := none,
    dirty := x.dirty.filter (fun b => x.slim ≤ b) }))

/-- The world that is switched in leaves the partition (steps 1 and 2). -/
def State.worldOut (s : State) (p : PartId) : State :=
  let v := (s.part p).world
  let old : SavedWorld := ((s.part p).saved.find? (fun w => w.vf = v)).getD { vf := v, husks := [], bins := [], tillers := [] }
  let r := (s.part p).tileList.foldl (fun (acc : SavedWorld × State) t => acc.2.saveTile acc.1 t)
    (({ old with husks := [], tillers := [] } : SavedWorld), s)
  r.2.modPart p (fun x => { x with saved := r.1 :: x.saved.filter (fun w => w.vf != v), world := none })

/-- A saved husk goes back: to the slot that its record names, or, if its task ran, into the tile. -/
def State.huskBack (s : State) (t : Tile) (h : Husk) : State :=
  match h.logic.task.bind (fun k => (s.tile t).tiller.find? (fun r => r.inst = k.inst && r.idx = k.idx)) with
  | some r => match r.st with
    | .frozen slot => s.putHusk t slot h
    | _ => s.restoreOr t h
  | none => s

/-- A world comes back to the partition (steps 3 and 4): its bins, its Tiller records, its husks. -/
def State.worldIn (s : State) (p : PartId) (v : Option VfId) : State :=
  let s := s.modPart p (fun x => { x with world := v })
  match (s.part p).saved.find? (fun w => w.vf = v) with
  | some w =>
    let s := w.bins.foldl (fun s e => s.loadBin e false) s
    let s := w.tillers.foldl (fun (s : State) e => s.modTile e.1 (fun x => { x with tiller := e.2 })) s
    let s := w.husks.foldl (fun s e => s.huskBack e.1 e.2) s
    s.modPart p (fun x => { x with saved := x.saved.map (fun y => if y.vf = v then { y with husks := [], tillers := [] } else y) })
  | none => s

/-- No exchange step of the world that is in is in progress (R322). -/
def State.exchanged (s : State) (p : PartId) : Bool :=
  let x := s.part p
  x.insts.all (fun i => !(x.inWorld i && (match i.st with | .exchange _ _ _ => true | _ => false)))
/-- Nor a freeze, nor a world switch. -/
def State.switchable (s : State) (p : PartId) : Bool :=
  let x := s.part p
  x.switch.isNone && (s.exchanged p && x.tileList.all (fun t => (s.tile t).freezing.isNone))

/-- Every tile of a partition that runs a task is frozen; the husks leave their tiles (R325, R326). -/
def State.freezeAll (s : State) (p : PartId) : State :=
  (s.part p).tileList.foldl (fun (s : State) t => s.modTile t (fun x =>
    if x.logic.task.isSome then { x with freezing := some { slot := none, at_ := s.dtime, by_ := none } } else x)) s

/-- A world switch may begin: the slice of the world in force is over, and nothing else holds the partition. -/
def State.maySwitch (s : State) (p : PartId) (f : VfId) : Bool :=
  let x := s.part p
  (s.vf f).part = some p && (!(s.vf f).flr && (x.world ≠ some f && (x.switch.isNone && ((x.world.isNone || x.sliceEnd ≤ s.dtime) &&
    (x.tileList.all (fun t => (s.tile t).freezing.isNone) && (!s.pf.d3hot && (!s.pf.dchange &&
      (!s.inTrial 0 && !x.migration.any (fun m => m.vf = f && m.stopped)))))))))

/-- S + Rt of a VF's previous switch, and 20 µs: the shortest slice of its next one (R325). -/
def PartSt.floorOf (x : PartSt) (f : VfId) : Nat := (x.costs.find? (fun e => e.1 = f)).elim 0 (fun e => e.2 + 20000)

/-- The world of the VF that comes in is restored; its slice begins, raised to the floor where it is shorter. -/
def State.endSwitch (s : State) (p : PartId) (w : Switch) (save : Nat) : State :=
  let floor := (s.part p).floorOf w.to_
  let cost := save + (s.dtime - w.began)
  (s.worldIn p (some w.to_)).modPart p (fun x => { x with
    switch := none, sliceEnd := s.dtime + max w.slice floor,
    floored := if w.slice < floor then w.to_ :: x.floored.filter (fun g => g != w.to_) else x.floored,
    costs := (w.to_, cost) :: x.costs.filter (fun e => e.1 != w.to_) })

/-- WORLD_SWITCH of partition `ev.p` (R325): to VF `ev.f` with a programmed slice of `ev.v` ns, it begins with the freeze; once no exchange
step is in progress, the world that is in is saved; then the other comes in. -/
def execWorldSwitch (s : State) : Out :=
  let p := s.ev.p
  match (s.part p).switch with
  | none =>
    .next (if s.maySwitch p s.ev.f then
      (s.freezeAll p).modPart p (fun x => { x with switch := some { to_ := s.ev.f, slice := s.ev.v.toNat, began := s.dtime, save := none } })
    else s)
  | some w =>
    match w.save with
    | none =>
      .next (if s.exchanged p then
        (s.worldOut p).modPart p (fun x => { x with switch := some { w with save := some (s.dtime - w.began), began := s.dtime } })
      else s)
    | some n => .next (s.endSwitch p w n)

end Sys2Proof.Machine
end

