-- ==== Sys2Proof/Machine/Thresher.lean ====
section
/-! DEFINITION. Thresher: the choice for each work queue, checkpoints and their records, escalation, and the restore of a
checkpointed instance (R327–R332). -/

namespace Sys2Proof.Machine

/-! ## The terms (R329) -/

/-- The Tiller records of an instance on a tile, each with its run time as it stands. -/
def State.recsOn (s : State) (p : PartId) (n : Nat) (t : Tile) : List TillerRec :=
  if (s.tile t).part = p then
    ((s.tile t).tiller.filter (fun r => r.inst = n)).map (fun r =>
      { r with u := ((s.task t).filter (fun k => k.inst = n && k.idx = r.idx)).elim r.u (·.u) })
  else []

def listSum (l : List Nat) : Nat := l.foldl (· + ·) 0
def listMax (l : List Nat) : Nat := l.foldl max 0

/-- Fin in ck: what is left of the current phase on its longest tile, and the later phases. -/
def State.finCk (s : State) (p : PartId) (i : Inst) : Nat :=
  let now := listMax (allTiles.map (fun t => listSum ((s.recsOn p i.no t).map (fun r => r.rc.cost - r.u))))
  let later := ((i.graph.elim [] (·.phases)).drop (i.phase + 1)).map (fun ph =>
    listMax ((List.range 64).map (fun r => listSum ((ph.tasks.filter (fun x => x.tile.toNat = r)).map (·.cost)))) + ph.xlen)
  now + listSum later

/-- The husks that a checkpoint of an instance takes from a tile: those in its slots, those that had to leave them (R326), the running
task's. -/
def State.husksOf (s : State) (p : PartId) (n : Nat) (t : Tile) : List Husk :=
  (((s.part p).moved.filter (fun e => e.1 = t)).map (·.2.2) ++ s.tileHusks t).filter (fun h => h.isOf p n)
/-- Its dirty task bins there, in the graph's range. -/
def State.binsOf (s : State) (i : Inst) (t : Tile) : List Nat :=
  match i.graph with
  | some g => (s.tile t).dirtyBins.filter (fun b => g.bin0 ≤ b && b < g.bin0 + g.nbins)
  | none => []
/-- The slot whose husk is the older, when both are held. -/
def TileSt.older (x : TileSt) : Option (Fin 2) :=
  match x.husks[(0 : Fin 2)], x.husks[(1 : Fin 2)] with
  | some a, some b => some (if a.dtime ≤ b.dtime then 0 else 1)
  | _, _ => none
/-- The husk of another queue that has to make room when the running task of an instance is frozen on a tile (R326). -/
def State.mover (s : State) (p : PartId) (n : Nat) (t : Tile) : Option (Fin 2 × Husk) :=
  if (s.task t).any (fun k => k.isOf p n) then
    (s.tile t).older.bind (fun i => ((s.slotHusk t i).filter (fun h => !h.isOf p n)).map (fun h => (i, h)))
  else none
/-- The bytes that a checkpoint moves from a tile at 256 B/ck; a husk that makes room moves at four times that rate. -/
def State.moveBytes (s : State) (p : PartId) (i : Inst) (t : Tile) : Nat :=
  listSum ((s.husksOf p i.no t).map (fun h => h.bytes.length)) + 65536 * (s.binsOf i t).length +
    ((s.mover p i.no t).elim 0 (fun e => e.2.bytes.length) + 3) / 4

def up64 (n : Nat) : Nat := (n + 63) / 64 * 64
/-- A queue's bytes (R331). -/
def State.queueBytes (s : State) (p : PartId) (i : Inst) : Nat :=
  64 + 32 * i.tiles.length + listSum (i.tiles.map (fun t =>
    listSum ((s.husksOf p i.no t).map (fun h => up64 h.bytes.length)) + up64 (8 * (s.binsOf i t).length) + 65536 * (s.binsOf i t).length)) +
    up64 (8 * i.live.length)

/-- The choice for one queue (R329); `sofar`: the queues chosen CHECKPOINT before it. -/
def State.chooseFor (s : State) (p : PartId) (e : Eviction) (sofar : List Inst) (i : Inst) : Choice :=
  let tck := ckTime s.pf.eff
  let dmax := listMax (i.tiles.map (fun t => s.moveBytes p i t + listSum ((sofar.filter (fun j => j.tiles.contains t)).map (fun j => s.moveBytes p j t))))
  let a := s.ckptVa p
  if 24 * s.dtime + s.finCk p i * tck + 24 * 5000 ≤ 24 * e.deadline then .complete
  else if !s.hwPoisoned p a 64 && 24 * s.dtime + (dmax + 255) / 256 * tck + 24 * 1500 ≤ 24 * e.deadline &&
      s.hwNum p (a + 8) 8 + s.queueBytes p i + listSum (sofar.map (s.queueBytes p)) ≤ 65536 * s.hwNum p (a + 4) 4 then .checkpoint
  else .discard

/-- The instance has records on a tile, or will have them in a later phase. -/
def State.onTile (s : State) (p : PartId) (i : Inst) (t : Tile) : Bool :=
  s.recsOn p i.no t ≠ [] ||
    (i.placed && ((i.graph.elim [] (·.phases)).drop (i.phase + 1)).any (fun ph => ph.tasks.any (fun r => i.tileOf r.tile = t)))
/-- The work queues of an eviction in Thresher's order: the instances on a named tile. -/
def State.workQueues (s : State) (p : PartId) (e : Eviction) : List Inst :=
  sortBy (fun i => [(i.cls : Int), (i.no : Int)]) ((s.part p).insts.filter (fun i => (tilesOf e.tiles).any (s.onTile p i)))

def State.planFor (s : State) (p : PartId) (e : Eviction) : List Inst → List Inst → List Plan
  | [], _ => []
  | i :: r, sofar =>
    let c := s.chooseFor p e sofar i
    { inst := i.no, choice := c, esc := false, settled := none } :: s.planFor p e r (if c = .checkpoint then sofar ++ [i] else sofar)

/-! ## Carrying out (R330) -/

def State.modEviction (s : State) (p : PartId) (n : Nat) (f : Eviction → Eviction) : State :=
  s.modPart p (fun x => { x with evictions := x.evictions.map (fun e => if e.no = n then f e else e) })

/-- A husk that makes room moves to the checkpoint area, to the end of it, where no record reaches; its record stays in Tiller (R326). -/
def State.makeRoom (s : State) (p : PartId) (t : Tile) (i : Fin 2) (h : Husk) : State :=
  let a := s.ckptVa p
  let at_ := 65536 * s.hwNum p (a + 4) 4 - 0x400000 * ((s.part p).moved.length + 1)
  let s := if s.hwNum p (a + 8) 8 ≤ at_ then s.hwWrite p (a + at_) ((s.tile t).image i.val) else s
  (s.modTile t (fun x => ({ x with husks := x.husks.set i none } : TileSt).sendAway h)).modPart p (fun y => { y with moved := y.moved ++ [(t, i, h)] })
/-- Husks that made room on a tile come back to their slots, with what landed for them meanwhile. -/
def State.comeBack (s : State) (p : PartId) (t : Tile) : State :=
  ((s.part p).moved.filter (fun e => e.1 = t)).foldl (fun (s : State) e =>
    if ((s.tile t).husks[e.2.1]).isSome then s else
      let r := s.collect e.2.2
      (r.2.putHusk t e.2.1 r.1).modPart p (fun y => { y with moved := y.moved.filter (fun z => !(z.1 = t && z.2.1 = e.2.1)) })) s

/-- The tasks of a queue on a tile are frozen and leave it: husks and Tiller records (R326). -/
def State.extract (s : State) (p : PartId) (n : Nat) (k : Parked) (t : Tile) : Parked × State :=
  let hs := s.husksOf p n t
  let rs := s.recsOn p n t
  let mine := (s.task t).any (fun k => k.isOf p n)
  let s := match s.mover p n t with
    | some (i, h) => s.makeRoom p t i h
    | none => s
  let s := if mine then (((s.endFreeze t).unwatch t).dropReqs t).modTile t (fun x => { x with logic := x.logic.cleared, freezing := none }) else s
  let s := s.modPart p (fun y => { y with moved := y.moved.filter (fun e => !(e.1 = t && e.2.2.isOf p n)) })
  ({ k with husks := k.husks ++ hs.map (fun h => (t, h)), tillers := k.tillers ++ rs.map (fun r => (t, r)) },
   s.modTile t (fun x =>
     let x : TileSt := { x with
       husks := vecOf 2 (fun i => (vGet x.husks i).filter (fun h => !h.isOf p n)),
       away := x.away.filter (fun a => !hs.any (fun h => a.isOf h)),
       tiller := if x.part = p then x.tiller.filter (fun r => r.inst != n) else x.tiller,
       shadow := x.shadow.filter (fun r => r.1 != n) }
     hs.foldl TileSt.sendAway x))

/-- An instance is parked, once no exchange step of it is in progress (R322). -/
def State.park (s : State) (p : PartId) (n : Nat) : State :=
  match (s.inst p n).map (fun i => i.st) with
  | some PhaseSt.running =>
    let r := allTiles.foldl (fun (acc : Parked × State) t => acc.2.extract p n acc.1 t)
      (({ inst := n, written := false, husks := [], bins := [], tillers := [] } : Parked), s)
    (r.2.modInst p n (fun i => { i with st := .parked })).modPart p (fun x => { x with parked := x.parked ++ [r.1] })
  | _ => s

/-- The queues that eviction `e` discards or checkpoints are named by the evictions that are not yet decided and name one of their tiles:
each is settled once, and both reports name it (R343). -/
def State.nameElsewhere (s : State) (p : PartId) (e : Eviction) (plan : List Plan) : State :=
  let named (q : Plan) (y : Eviction) : Bool :=
    (s.inst p q.inst).any (fun i => (tilesOf y.tiles).any (s.onTile p i)) && y.plan.all (fun z => z.inst ≠ q.inst)
  s.modPart p (fun x => { x with evictions := x.evictions.map (fun y =>
    if y.decided || y.no = e.no then y else { y with plan := y.plan ++ plan.filter (fun q => named q y) }) })

/-- THRESHER_DECISION on eviction `ev.k` of partition `ev.p`: every queue is decided; the discards end, the checkpoints are frozen
(R329, R330). -/
def execThresherDecision (s : State) : Out :=
  let p := s.ev.p
  match (s.part p).evictions.find? (fun e => e.no = s.ev.k) with
  | some e =>
    if e.decided then .next s
    else
      let plan := s.planFor p e ((s.workQueues p e).filter (fun i => e.plan.all (fun q => q.inst ≠ i.no))) []
      let s := s.modEviction p e.no (fun e => { e with decided := true, plan := e.plan ++ plan })
      let s := s.nameElsewhere p e (plan.filter (fun q => q.choice ≠ .complete))
      let s := plan.foldl (fun (s : State) q =>
        match q.choice with
        | .complete => s
        | .checkpoint => s.park p q.inst
        | .discard => s.endInstance p q.inst 4) s
      .next (s.reportDone p)
  | none => .next s

/-! ## Checkpoint records (R331) -/

/-- A bin's bytes, with their poison marks. -/
def SavedBin.bytes (b : SavedBin) : List (Byte × Bool) := markBytes (Mem.read b.data 0 0x10000) b.poison
/-- Bytes that carry no mark. -/
def plain (b : List Byte) : List (Byte × Bool) := b.map (fun x => (x, false))
def pad64 (b : List (Byte × Bool)) : List (Byte × Bool) := b ++ List.replicate (up64 b.length - b.length) (0, false)

/-- The parts of one tile, laid from an offset: its husks, its bin list, its bins; and its tile entry. -/
def tileParts (i : Inst) (k : Parked) (t : Tile) (off : Nat) : List Byte × List (Byte × Bool) :=
  let hs := (k.husks.filter (fun e => e.1 = t)).map (fun e => pad64 (markBytes e.2.bytes e.2.poison))
  let bs := k.bins.filter (fun b => b.tile = t)
  let hb := hs.flatten
  let lb := pad64 (plain (bs.flatMap (fun b => leBytes 2 b.bin ++ (leBytes 1 (if b.full then 1 else 0) ++ leBytes 5 0))))
  let rel := t.val % 8 - i.col0 + 8 * (t.val / 8 - i.row0)
  (leBytes 1 t.val ++ leBytes 1 rel ++ leBytes 1 hs.length ++ leBytes 1 0 ++ leBytes 4 bs.length ++ leBytes 8 off ++
     leBytes 8 (off + hb.length) ++ leBytes 8 0,
   hb ++ (lb ++ bs.flatMap (fun b => pad64 b.bytes)))

/-- The task-state list. -/
def taskStates (i : Inst) (k : Parked) : List Byte :=
  i.live.flatMap (fun n =>
    let r := k.tillers.find? (fun e => e.2.idx = n)
    let started := k.husks.any (fun h => h.2.logic.task.any (fun x => x.idx = n))
    leBytes 2 n ++ (leBytes 2 (r.elim 0 (fun e => e.2.deps)) ++ (leBytes 1 (if started then 1 else 0) ++ leBytes 3 0)))

/-- The instance record, laid at an offset from the area's start. -/
def Inst.record (i : Inst) (k : Parked) (off : Nat) : List (Byte × Bool) :=
  let tiles := i.tiles
  let start := off + 64 + up64 (32 * tiles.length)
  let body := tiles.foldl (fun (acc : List Byte × List (Byte × Bool)) t =>
    let r := tileParts i k t (start + acc.2.length)
    (acc.1 ++ r.1, acc.2 ++ r.2)) (([] : List Byte), ([] : List (Byte × Bool)))
  let stream := match i.src with
    | .stream n => n
    | _ => 0xFFFFFFFF
  plain (leBytes 4 i.no ++ leBytes 2 i.phase ++ leBytes 1 i.cls ++ leBytes 1 tiles.length ++ leBytes 8 i.graphPtr.toNat ++ leBytes 8 i.dl ++
    leBytes 4 stream ++ leBytes 4 i.live.length ++ leBytes 8 (start + body.2.length) ++ leBytes 1 (i.col0 + 8 * i.row0) ++ leBytes 23 0) ++
    (pad64 (plain body.1) ++ (body.2 ++ pad64 (plain (taskStates i k))))

/-- Marked bytes are written to a bulk range as hardware does; a poisoned block lands poisoned (R395). -/
def State.hwWriteMarked (s : State) (p : PartId) (va : Nat) (bs : List (Byte × Bool)) : State :=
  let s := s.hwWrite p va (bs.map (·.1))
  (markedBlocks bs).foldl (fun (s : State) k => match s.hwPieces p (va + 64 * k) 64 with
    | some ((a, _) :: _) => { s with bulkPoison := insertRising (a / 64) s.bulkPoison }
    | _ => s) s

/-- The responses owed to an instance's frozen tasks have come. -/
def Parked.quiet (k : Parked) : Bool := k.husks.all (fun e => !e.2.logic.owed)

/-- CHECKPOINT_DONE of instance `ev.j` in eviction `ev.k` of partition `ev.p`: its record is complete, FREE and NREC rise, the
bins written are clean, the husks that made room come back, the queue is settled (R331, R104). An instance that an exchange step kept from
being frozen is frozen first. -/
def execCheckpointDone (s : State) : Out :=
  let p := s.ev.p
  let n := s.ev.j
  let due := (s.part p).evictions.any (fun e => e.no = s.ev.k && e.plan.any (fun q => q.inst = n && (q.choice = .checkpoint && q.settled.isNone)))
  match s.inst p n, (s.part p).parked.find? (fun k => k.inst = n) with
  | some i, some k =>
    if !due || (k.written || !k.quiet) then .next s
    else
      let bins := i.tiles.flatMap (fun t => (s.binsOf i t).map ((s.tile t).saveBin t))
      let r := k.husks.foldl (fun (acc : List (Tile × Husk) × State) e =>
        let c := acc.2.collect e.2
        (acc.1 ++ [(e.1, c.1)], c.2)) (([] : List (Tile × Husk)), s)
      let s := r.2
      let k := { k with bins := bins, husks := r.1, written := true }
      let a := s.ckptVa p
      let free := s.hwNum p (a + 8) 8
      let bytes := i.record k free
      let s := s.hwWriteMarked p (a + free) bytes
      let s := s.hwWrite p (a + 8) (leBytes 8 (free + bytes.length))
      let s := s.hwWrite p (a + 16) (leBytes 4 (s.hwNum p (a + 16) 4 + 1))
      let s := bins.foldl (fun (s : State) b => s.modTile b.tile (fun x => { x with dirty := x.dirty.filter (fun c => c != b.bin) })) s
      let s := i.tiles.foldl (fun (s : State) t => s.comeBack p t) s
      let s := s.modPart p (fun x => { x with parked := x.parked.map (fun y => if y.inst = n then k else y) })
      .next (s.settle p n)
  | some _, none => .next (if due then s.park p n else s)
  | _, _ => .next s

/-- ESCALATION of eviction `ev.k` of partition `ev.p`: the COMPLETE queues that have not ended by DEADLINE − 10,000 ns are discarded
(R330). -/
def execEscalation (s : State) : Out :=
  let p := s.ev.p
  match (s.part p).evictions.find? (fun e => e.no = s.ev.k) with
  | some e =>
    if e.decided && e.deadline ≤ s.dtime + 10000 then
      let late := e.plan.filter (fun q => q.choice = .complete && q.settled.isNone)
      let s := s.modEviction p e.no (fun e => { e with plan := e.plan.map (fun q =>
        if q.choice = .complete && q.settled.isNone then { q with esc := true } else q) })
      let s := s.nameElsewhere p e (late.map (fun q => { q with choice := .discard, esc := false }))
      .next (late.foldl (fun (s : State) q => s.endInstance p q.inst 4) s)
    else .next s
  | none => .next s

/-! ## Restoring a checkpointed instance (R330, R331) -/

/-- One Tiller record of a parked instance on its new tile, with its husk: a task that ran goes on; a frozen one takes a free slot. -/
def State.unparkRec (s : State) (p : PartId) (n : Nat) (k : Parked) (t : Tile) (r : TillerRec) : State :=
  if (s.inst p n).isNone then s else
  match (k.husks.find? (fun e => e.2.isOf p n && e.2.logic.task.any (fun x => x.idx = r.idx))).map (·.2), r.st with
  | some h, .frozen _ =>
    match (s.tile t).freeSlot with
    | some slot => (s.modTile t (fun x => { x with tiller := x.tiller ++ [{ r with st := .frozen slot }] })).putHusk t slot
        { h with tile := t, logic := h.logic.rehome h.tile t }
    | none => s
  | some h, _ => (s.modTile t (fun x => { x with tiller := x.tiller ++ [r] })).restoreOr t h
  | none, _ => s.modTile t (fun x => { x with tiller := x.tiller ++ [r] })

/-- Granary restores a checkpointed instance, whose record is complete, at an origin whose tiles are free and empty, its bins first; its
record is consumed. -/
def State.unpark (s : State) (p : PartId) (n col row : Nat) : State :=
  match s.inst p n, (s.part p).parked.find? (fun k => k.inst = n) with
  | some i, some k =>
    let tiles := rectTiles col row i.fcols i.frows
    let x := s.part p
    let ok := i.st = .parked && (k.written && (x.inWorld i && (x.switch.isNone && (!s.pf.d3hot && (!s.pf.dchange &&
      (col + i.fcols ≤ 8 && (row + i.frows ≤ 8 && tiles.all (fun t => s.tileFree p i t &&
      ((s.task t).isNone && ((s.tile t).freezing.isNone && ((s.tile t).husks.toList.all (·.isNone))))))))))))
    if !ok then s
    else
      let at_ (t : Tile) : Tile := Fin.ofNat 64 ((t.val / 8 - i.row0 + row) * 8 + (t.val % 8 - i.col0 + col))
      let s := s.modInst p n (fun i => { i with col0 := col, row0 := row, st := .running })
      let s := k.bins.foldl (fun (s : State) b => s.loadBin { b with tile := at_ b.tile } true) s
      let s := (s.dropRecord p).modPart p (fun x => { x with parked := x.parked.filter (fun y => y.inst != n) })
      k.tillers.foldl (fun (s : State) e => s.unparkRec p n k (at_ e.1) e.2) s
  | _, _ => s

end Sys2Proof.Machine
end

