-- ==== Sys2Proof/Machine/MemMap.lean ====
section
/-! DEFINITION. Granary's edits of the page tables for MEM-MAP: new leaves and tables, splitting a 2 MiB leaf, unmapping, rights,
the counts of grains and the structures that must stay mapped (R122, R123, R369, R421). -/

namespace Sys2Proof.Machine

/-- Bulk memory is zeroed; its marks go. -/
def State.zeroBulk (s : State) (a n : Nat) : State :=
  { s with bulk := Mem.clear s.bulk a n, bulkPoison := s.bulkPoison.filter (fun b => 64 * b < a || a + n ≤ 64 * b) }
/-- A fresh zeroed table of 4 KiB. -/
def State.newTable (s : State) : Nat × State :=
  let a := (s.heap + 4095) / 4096 * 4096
  (a, ({ s with heap := a + 4096, tables := s.tables + 1 } : State).zeroBulk a 4096)
def State.putEntry (s : State) (a e : Nat) : State := { s with bulk := Mem.write s.bulk a (leBytes 8 e) }

/-- The 32 leaves of 64 KiB that stand for a 2 MiB leaf. -/
def State.splitInto (s : State) (table e : Nat) : State :=
  (List.range 32).foldl (fun s i => s.putEntry (table + 8 * i) (entryAddr e + 0x10000 * i + e % 128)) s

/-- Goes `n` levels down from a table of a level, making tables where there are none and splitting a leaf that is met. -/
def State.ptDown (s : State) (va : Nat) : Nat → Nat → Nat → Nat × State
  | 0, table, _ => (table, s)
  | n + 1, table, level =>
    let a := table + 8 * bitsOf va (levelShift level) (levelWidth level)
    let e := Mem.num s.bulk a 8
    if e.testBit 0 && !e.testBit 1 then s.ptDown va n (entryAddr e) (level - 1)
    else
      let r := s.newTable
      let s := if e.testBit 0 then r.2.splitInto r.1 e else r.2
      (s.putEntry a (r.1 + 1)).ptDown va n r.1 (level - 1)

/-- Writes the leaf of a page: V, L and the rights (R123). -/
def State.putLeaf (s : State) (p : PartId) (host : Bool) (va pa rights : Nat) (wide : Bool) : State :=
  let lo := if wide then 1 else 0
  let r := s.ptDown va (3 - lo) (s.tableRoot p host) 3
  r.2.putEntry (r.1 + 8 * bitsOf va (levelShift lo) (levelWidth lo)) (pa + 3 + 4 * rights)

/-- Maps `n` grains of 64 KiB in order, with 2 MiB leaves wherever both addresses and the length allow. -/
def State.mapRange (s : State) (p : PartId) (host : Bool) (rights : Nat) : Nat → Nat → Nat → Nat → State
  | 0, _, _, _ => s
  | fuel + 1, va, pa, n =>
    if n = 0 then s
    else if va % 0x200000 = 0 && (pa % 0x200000 = 0 && 32 ≤ n) then
      (s.putLeaf p host va pa rights true).mapRange p host rights fuel (va + 0x200000) (pa + 0x200000) (n - 32)
    else (s.putLeaf p host va pa rights false).mapRange p host rights fuel (va + 0x10000) (pa + 0x10000) (n - 1)

/-- Edits the leaf of each mapped page of a range; a 2 MiB leaf that the range covers in part is split first. -/
def State.editPages (s : State) (p : PartId) (host : Bool) (va n : Nat) (f : Nat → Nat) : State :=
  (List.range n).foldl (fun (s : State) i =>
    let a := va + 0x10000 * i
    match walkFrom s.bulk a 3 (s.tableRoot p host) with
    | .leaf e at_ l =>
      if l = 0 then s.putEntry at_ (f e)
      else
        let base := a / 0x200000 * 0x200000
        if va ≤ base && base + 0x200000 ≤ va + 0x10000 * n then (if a = base then s.putEntry at_ (f e) else s)
        else
          let r := s.ptDown a 3 (s.tableRoot p host) 3
          let at_ := r.1 + 8 * bitsOf a 16 5
          r.2.putEntry at_ (f (Mem.num r.2.bulk at_ 8))
    | _ => s) s

/-- Mapped grains among `n` from an address. -/
def State.mappedIn (s : State) (p : PartId) (host : Bool) (va n : Nat) : Nat :=
  ((List.range n).filter (fun i => match walkFrom s.bulk (va + 0x10000 * i) 3 (s.tableRoot p host) with
    | .leaf _ _ _ => true
    | _ => false)).length

/-- Grains that a table of a level maps. -/
def grainsOf (m : Mem) : Nat → Nat → Nat
  | level, table => (List.range (2 ^ levelWidth level)).foldl (fun n i =>
      let e := Mem.num m (table + 8 * i) 8
      if !e.testBit 0 || entryBad e level then n
      else if e.testBit 1 then n + leafSize level / 0x10000
      else match level with
        | 0 => n
        | l + 1 => n + grainsOf m l (entryAddr e)) 0

/-- The structures of R421 in use: VA and length. -/
def State.structures (s : State) (p : PartId) : List (Nat × Nat) :=
  let x := s.part p
  let tq := if 4 ≤ wbits x.trapq 48 4 then [(wbits x.trapq 6 42 * 64, 64 * 2 ^ wbits x.trapq 48 4)] else []
  let kv := match s.kvPool p with
    | some k => [(k.at_, 64), (k.tab, 16 * k.nblk), (k.hat, 4 * k.slots)]
    | none => []
  let a := s.ckptVa p
  let ck := if a = 0 then [] else [(a, 65536 * s.hwNum p (a + 4) 4)]
  tq ++ (kv ++ (ck ++ x.streams.map (fun e => (e.2.ringVa, 64))))
/-- A range of whole pages holds a page of one of them. -/
def State.holdsStructure (s : State) (p : PartId) (va len : Nat) : Bool :=
  (s.structures p).any (fun r => r.2 ≠ 0 && (r.1 / 0x10000 * 0x10000 < va + len && va < r.1 + r.2))

/-- Cached leaves of a range leave every buffer (R309). -/
def State.invalidateRange (s : State) (p : PartId) (host : Bool) (va len : Nat) : State :=
  let hit (e : TbEntry) : Bool := e.part = p && (e.host == host && (e.va < va + len && va < e.va + e.size))
  { s with
    dieTb := s.dieTb.filter (fun e => !hit e),
    tiles := vecOf 64 (fun i =>
      let x := vGet s.tiles i
      { x with tb := x.tb.filter (fun e => !hit e), lines := if x.part = p then [] else x.lines }) }

/-- The pages that the leaves of a range map: address, grains. -/
def State.pagesIn (s : State) (p : PartId) (va n : Nat) : List (Nat × Nat) :=
  (List.range n).filterMap (fun i =>
    let a := va + 0x10000 * i
    match walkFrom s.bulk a 3 (s.tableRoot p false) with
    | .leaf e _ 0 => some (entryAddr e, 1)
    | .leaf e _ _ =>
      let base := a / 0x200000 * 0x200000
      if va ≤ base && base + 0x200000 ≤ va + 0x10000 * n then (if a = base then some (entryAddr e, 32) else none)
      else some (entryAddr e + a % 0x200000, 1)
    | _ => none)

/-- Unmaps a range: its leaves go, its grains leave tier 0; the pages of a bulk range are free again. -/
def State.unmapRange (s : State) (p : PartId) (host : Bool) (va n : Nat) : State :=
  let free := if host then [] else s.pagesIn p va n
  let s := (s.editPages p host va n (fun _ => 0)).invalidateRange p host va (0x10000 * n)
  if host then s else
    ({ s with freePages := s.freePages ++ free } : State).modPart p (fun x =>
      { x with resident := x.resident.filter (fun g => g < va / 0x10000 || va / 0x10000 + n ≤ g) })

/-- A page of 64 KiB, or of 2 MiB: a freed one, or the next. It is zeroed before its use (R369). -/
def State.takePage (s : State) (wide : Bool) : Nat × State :=
  let k := if wide then 32 else 1
  let r : Nat × State := match s.freePages.find? (fun e => e.2 = k) with
    | some e => (e.1, { s with freePages := s.freePages.erase e })
    | none => match if wide then none else s.freePages.find? (fun e => e.2 = 32) with
      | some e => (e.1, { s with freePages := s.freePages.erase e ++ (List.range 31).map (fun i => (e.1 + 0x10000 * (i + 1), 1)) })
      | none =>
        let a := (s.heap + 0x10000 * k - 1) / (0x10000 * k) * (0x10000 * k)
        (a, { s with heap := a + 0x10000 * k })
  (r.1, r.2.zeroBulk r.1 (0x10000 * k))

/-- Maps `n` grains in order to fresh pages, with 2 MiB leaves wherever the range allows. -/
def State.takeRange (s : State) (p : PartId) (rights : Nat) : Nat → Nat → Nat → State
  | 0, _, _ => s
  | fuel + 1, va, n =>
    if n = 0 then s
    else
      let wide := va % 0x200000 = 0 && 32 ≤ n
      let r := s.takePage wide
      let k := if wide then 32 else 1
      (r.2.putLeaf p false va r.1 rights wide).takeRange p rights fuel (va + 0x10000 * k) (n - k)

/-- Maps a bulk range to fresh zeroed grains. -/
def State.allocRange (s : State) (p : PartId) (rights va n : Nat) : State :=
  (s.unmapRange p false va n).takeRange p rights n va n

/-! ## The room in tier 1 (R7, R16) -/

/-- The HBM4E stacks that are up: each holds 48 GiB (R7, R387). -/
def State.stacksUp (s : State) : Nat :=
  ((List.range 8).filter (fun k => !(s.granary.ctrls[(Fin.ofNat 27 (k + 1) : CtrlId)]).held)).length
/-- What the partitions' mapped grains and the tables take, in pages of 4 KiB. -/
def State.tier1Used (s : State) : Nat :=
  16 * (((List.finRange 40).filter (fun p => (s.part p).inUse)).map (fun p => grainsOf s.bulk 3 (s.tableRoot p false))).foldl (· + ·) 0 + s.tables
/-- Tier 1, or the space of bulk physical addresses, holds no more. -/
def State.tier1Full (s : State) : Bool := 12582912 * s.stacksUp < s.tier1Used || 2 ^ 52 < s.heap

end Sys2Proof.Machine
end

