-- ==== Sys2Proof/Machine/HostQ.lean ====
section
/-! DEFINITION. Launch queues: notifies, enabling, reading records, their operations and completions; host accesses through BAR2;
MSI-X (R364–R372). -/

namespace Sys2Proof.Machine

/-- The PF's BARs can be reached: the PF is in D0 (R392), and the host port is up (R387). -/
def State.pfReachable (s : State) : Bool := !s.pf.d3hot && (!s.pf.cold && s.hostUp)

/-! ## Queue pages (R366, R367) -/

def State.queue (s : State) (f : VfId) (q : QueueId) : Queue := (s.vf f).queues[q]
def State.modQueue (s : State) (f : VfId) (q : QueueId) (g : Queue → Queue) : State :=
  s.modVf f (fun x => { x with queues := x.queues.set q (g x.queues[q]) })
/-- A VF takes accesses to its BARs: bound, in no FLR (R365, R374), and the host port is up (R387). -/
def State.vfLive (s : State) (f : VfId) : Bool := (s.vf f).part.isSome && (!(s.vf f).flr && s.hostUp)
/-- Tier 1 is served: no stack is in self-refresh (R392). Which stack holds an address, the spec does not give: while one is in it, every
tier-1 access of the host, of other devices and of the launch front end waits. -/
def State.tier1Up (s : State) : Bool := s.pf.selfRefresh = 0

/-- The ring's records. -/
def Queue.size (y : Queue) : Nat := 2 ^ y.log2n.toNat
/-- A HOST or BULK base with bits 5:0 zero. -/
def baseOk (v : Word) : Bool := (spaceOf v = 4 || spaceOf v = 7) && wbits v 0 6 = 0
/-- The address of a ring's slot. -/
def slotAt (base : Word) (size n : Nat) (idx : BitVec 16) : Word := base + BitVec.ofNat 64 (size * (idx.toNat % n))

/-- Reads up to `k` records from the read position to TAIL; a slot that cannot be read stops the front end and sets ERR. -/
def State.readRecs (s : State) (p : PartId) (f : VfId) (q : QueueId) : Nat → State
  | 0 => s
  | k + 1 =>
    let y := s.queue f q
    if y.rd = y.tail then s
    else match s.ptrRead p (slotAt y.base 64 y.size y.rd) 64 with
      | (some bs, s) =>
        (s.modQueue f q (fun y => { y with pend := y.pend ++ [{ idx := y.rd, bytes := bs, st := .read }], rd := y.rd + 1 })).readRecs p f q k
      | (none, s) => s.modQueue f q (fun y => { y with err := true, blocked := true })

/-- The front end reads what it may: not while controller 0 is in trial (R358, R367). -/
def State.frontEnd (s : State) (f : VfId) (q : QueueId) : State :=
  let y := s.queue f q
  match (s.vf f).part with
  | some p => if y.en && (s.vfLive f && (s.tier1Up && (!y.blocked && !s.inTrial 0))) then s.readRecs p f q (y.tail - y.rd).toNat else s
  | none => s

/-- NOTIFY with the written value `ev.v` (R367). -/
def execNotify (s : State) : Out :=
  let f := s.ev.f
  let q := s.ev.q
  let y := s.queue f q
  let tail : BitVec 16 := s.ev.v.extractLsb' 0 16
  if !s.vfLive f then .next s
  else if !y.en || (y.size < (tail - y.head).toNat || (tail - y.head).toNat < (y.rd - y.head).toNat) then
    .next (s.modQueue f q (fun y => { y with err := true }))
  else .next ((s.modQueue f q (fun y => { y with tail := tail, blocked := false })).frontEnd f q)

/-- A write of one clears ERR. -/
def Queue.clearErr (y : Queue) (v : Word) : Queue := if v.getLsbD 62 then { y with err := false } else y

/-- QUEUE_ENABLE: QCTL written with EN = 1 (R366). A disable that has not yet taken effect takes none. -/
def execQueueEnable (s : State) : Out :=
  let v := s.ev.v
  if !s.vfLive s.ev.f then .next s
  else .next (s.modQueue s.ev.f s.ev.q (fun y =>
    let y := y.clearErr v
    if y.en then y
    else
      let y := { y with log2n := v.extractLsb' 0 4 }
      if 2 ≤ y.log2n.toNat && (y.log2n.toNat ≤ 12 && (baseOk y.base && baseOk y.cbase)) then { y with en := true, disabling := false }
      else { y with err := true }))

/-- QUEUE_DISABLE: QCTL written with EN = 0. -/
def execQueueDisable (s : State) : Out :=
  let v := s.ev.v
  if !s.vfLive s.ev.f then .next s
  else .next (s.modQueue s.ev.f s.ev.q (fun y =>
    let y := y.clearErr v
    if y.en then { y with en := false, disabling := true } else { y with log2n := v.extractLsb' 0 4 }))

/-- QUEUE_DISABLE_DONE: every record read has completed. -/
def execQueueDisableDone (s : State) : Out :=
  let y := s.queue s.ev.f s.ev.q
  .next (if y.disabling && y.pend = [] then
    s.modQueue s.ev.f s.ev.q (fun y => { y with head := 0, tail := 0, rd := 0, disabling := false, blocked := false }) else s)

/-! ## The operations (R368, R369) -/

/-- The record's operation has begun. -/
def State.startRecord (s : State) (f : VfId) (q : QueueId) (idx : BitVec 16) : State :=
  s.modQueue f q (fun y => { y with pend := y.pend.map (fun r => if r.idx = idx && r.st = .read then { r with st := .started } else r) })

/-- The operation may begin: in a trial of controller 0 Granary writes no table, so that only launches and evictions begin (R358). -/
def State.mayOperate (s : State) (b : List Byte) : Bool :=
  s.tier1Up && (!s.inTrial 0 || (fieldAt b 0 1 = 3 || (fieldAt b 0 1 = 5 || (fieldAt b 0 1 = 0 || 6 < fieldAt b 0 1))))

/-- The operation of the next record of the queue, when it is of the kind asked for. A record whose common fields break R368
completes with status 17. -/
def State.operate (s : State) (kind : List Byte → Bool) (body : PartId → BitVec 16 → List Byte → State → State) : Out :=
  let f := s.ev.f
  let q := s.ev.q
  match (s.vf f).part, (s.queue f q).pend.find? (fun r => r.st = .read) with
  | some p, some r =>
    if (s.vf f).flr || (!kind r.bytes || !s.mayOperate r.bytes) then .next s
    else
      let s := s.startRecord f q r.idx
      if 3 < fieldAt r.bytes 1 1 || fieldAt r.bytes 2 2 ≠ 0 then .next (s.endRecord f q r.idx.toNat 17 0)
      else .next (body p r.idx r.bytes s)
  | _, _ => .next s

/-- Ends the operation of the current record. -/
def State.finish (s : State) (idx : BitVec 16) (status : Nat) (value : Nat) : State :=
  s.endRecord s.ev.f s.ev.q idx.toNat status (BitVec.ofNat 64 value)

def opIs (n : Nat) (b : List Byte) : Bool := fieldAt b 0 1 = n
/-- A HOST or BULK pointer to `n` bytes. -/
def State.hostPtr (s : State) (p : PartId) (v : Word) (n : Nat) : Bool := s.spaceOk p (fun c => c = 4 || c = 7) v n

/-- The descriptor of a stream keeps R284. -/
def State.streamOk (s : State) (p : PartId) (d : List Byte) : Bool :=
  let per := fieldAt d 0 8
  let nr := fieldAt d 32 1
  1000 ≤ per && (per ≤ 2 ^ 40 && (1 ≤ fieldAt d 8 8 && (fieldAt d 8 8 ≤ per && (s.bulkPtr p (wordAt d 16 8) 64 64 &&
    (1 ≤ fieldAt d 24 4 && (fieldAt d 24 4 ≤ 256 && (4096 ≤ fieldAt d 28 4 && (fieldAt d 28 4 % 64 = 0 && (1 ≤ nr && (nr ≤ 8 &&
    (fieldAt d 33 1 < nr && (fieldAt d 34 1 ≤ 3 && (fieldAt d 35 1 = 0 && (fieldAt d 36 4 ≤ 65535 &&
    (s.bulkPtr p (wordAt d 40 8) (0x10000 * fieldAt d 36 4) 0x10000 &&
    ((List.range 8).all (fun i => zeroAt d (64 + 16 * i + 12) 4 && (nr ≤ i || s.hostPtr p (wordAt d (64 + 16 * i) 8) 64))))))))))))))))))

/-- The stream of a descriptor; PROD and COMMIT go on from its control block (R285). -/
def State.streamFrom (s : State) (p : PartId) (d : List Byte) (f : VfId) : Stream :=
  let ring := wordAt d 16 8
  { period := fieldAt d 0 8, deadoff := fieldAt d 8 8, ring := ring, nslot := fieldAt d 24 4, slotsz := fieldAt d 28 4,
    nrung := fieldAt d 32 1, cls := fieldAt d 34 1, nanch := fieldAt d 36 4, anch := wordAt d 40 8, wdns := fieldAt d 48 8,
    iparam := wordAt d 56 8, rungs := (List.range 8).map (fun i => (wordAt d (64 + 16 * i) 8, fieldAt d (64 + 16 * i + 8) 4)),
    rung := fieldAt d 33 1, rise := 0, overrun := 0, pend := none, ended := [], skipped := false,
    prod := s.hwNum p (wbits ring 0 48) 8, commit := s.hwNum p (wbits ring 0 48 + 8) 8, vf := some f, destroying := none }

/-- The anchors can be pinned as XPIN pins (R231): mapped, no count beyond 255, no more pinned grains than the quota. -/
def State.anchorsFit (s : State) (p : PartId) (gs : List Nat) : Bool :=
  let x := s.part p
  let fresh := (gs.filter (fun g => !x.pins.any (fun e => e.1 = g))).length
  gs.all (fun g => s.grainMapped p g && ((x.pins.find? (fun e => e.1 = g)).elim 0 (·.2)) < 255) && x.pins.length + fresh ≤ x.q0

/-- STREAM_CREATE (R284, R369, R421). -/
def execStreamCreate (s : State) : Out :=
  s.operate (opIs 1) (fun p idx b s =>
    let n := fieldAt b 8 4
    if 1024 ≤ n || (!zeroAt b 12 4 || (!zeroAt b 24 40 || !s.hostPtr p (wordAt b 16 8) 192)) then s.finish idx 17 0
    else match s.ptrRead p (wordAt b 16 8) 192 with
      | (none, s) => s.finish idx 19 0
      | (some d, s) =>
        if !s.streamOk p d then s.finish idx 17 0
        else
          let st := s.streamFrom p d s.ev.f
          if ((s.part p).stream n).isSome || ((s.hwPieces p st.ringVa 64).isNone || !s.anchorsFit p st.anchors) then s.finish idx 18 0
          else if s.hwPoisoned p st.ringVa 64 then s.finish idx 19 0
          else
            let s := s.modPart p (fun x =>
              let x := { x with streams := x.streams ++ [(n, st)] }
              st.anchors.foldl (fun (x : PartSt) g => ({ x with pins := addPin g true x.pins } : PartSt).promote g none true) x)
            s.finish idx 0 0)

/-- STREAM_DESTROY (R369): an instance that is pending or running runs to its end first. -/
def execStreamDestroy (s : State) : Out :=
  s.operate (opIs 2) (fun p idx b s =>
    let n := fieldAt b 8 4
    if 1024 ≤ n || !zeroAt b 12 52 then s.finish idx 17 0
    else match (s.part p).stream n with
      | none => s.finish idx 18 0
      | some st =>
        if st.destroying.isSome then s.finish idx 18 0
        else
          let s := s.modStream p n (fun st => { st with destroying := some (s.ev.f, s.ev.q, idx.toNat) })
          if (s.part p).insts.any (fun i => i.src = .stream n) then s else s.freeStream p n)

/-- GRAPH_LAUNCH (R369, R370). -/
def execGraphLaunch (s : State) : Out :=
  s.operate (opIs 3) (fun p idx b s =>
    if 3 < fieldAt b 32 1 || (!zeroAt b 33 31 || !s.hostPtr p (wordAt b 8 8) 64) then s.finish idx 17 0
    else if 256 ≤ (s.part p).queueLen then s.finish idx 18 0
    else (s.launch p (wordAt b 8 8) (wordAt b 16 8) (fieldAt b 24 8) (fieldAt b 32 1) (.host s.ev.f s.ev.q idx.toNat) (some s.ev.f)).2)

/-- The common form of the MEM-MAP modes; a mode beyond the table is malformed. One that would take more than tier 1 holds is refused, as
one beyond the quota is (the model's choice). -/
def State.memMap (s : State) (mode : Nat) (host : Bool) (body : PartId → BitVec 16 → Nat → Nat → Nat → Nat → State → State) : Out :=
  s.operate (fun b => opIs 4 b && (fieldAt b 32 1 = mode || 4 < fieldAt b 32 1)) (fun p idx b s =>
    let va := fieldAt b 8 8
    let len := fieldAt b 16 8
    let target := fieldAt b 24 8
    let bad := 4 < fieldAt b 32 1 || (7 < fieldAt b 33 1 || (!zeroAt b 34 30 || (va % 65536 ≠ 0 || (len % 65536 ≠ 0 || 2 ^ 48 < va + len))))
    if bad || (host && (mode = 2 && (target % 65536 ≠ 0 || 2 ^ 52 < target + len))) then s.finish idx 17 0
    else
      let s' := body p idx va (len / 65536) target (fieldAt b 33 1) s
      if s'.tier1Full && s.tier1Used < s'.tier1Used then s.finish idx 18 0 else s')

/-- MEM_MAP_ALLOC: within Q1, and no structure of R421 in the range. -/
def execMemMapAlloc (s : State) : Out :=
  s.memMap 0 false (fun p idx va n _ rights s =>
    let after := grainsOf s.bulk 3 (s.tableRoot p false) - s.mappedIn p false va n + n
    if (s.part p).q1 < after || s.holdsStructure p va (0x10000 * n) then s.finish idx 18 0
    else (s.allocRange p rights va n).finish idx 0 n)
/-- MEM_MAP_FREE. -/
def execMemMapFree (s : State) : Out :=
  s.memMap 1 false (fun p idx va n _ _ s =>
    if s.holdsStructure p va (0x10000 * n) then s.finish idx 18 0
    else (s.unmapRange p false va n).finish idx 0 (s.mappedIn p false va n))
/-- MEM_MAP_HWIN. -/
def execMemMapHwin (s : State) : Out :=
  s.memMap 2 true (fun p idx va n target rights s =>
    ((s.unmapRange p true va n).mapRange p true rights n va target n).finish idx 0 n)
/-- MEM_MAP_HUNMAP. -/
def execMemMapHunmap (s : State) : Out :=
  s.memMap 3 true (fun p idx va n _ _ s => (s.unmapRange p true va n).finish idx 0 (s.mappedIn p true va n))
/-- MEM_MAP_PROTECT: the rights of every mapped leaf of the range. -/
def execMemMapProtect (s : State) : Out :=
  s.memMap 4 false (fun p idx va n _ rights s =>
    let s' := s.editPages p false va n (fun e => e / 32 * 32 + e % 4 + 4 * rights)
    (s'.invalidateRange p false va (0x10000 * n)).finish idx 0 (s.mappedIn p false va n))

/-- EVICT: as EVPOST; the record ends with Thresher's report, or at once on rejection (R369). -/
def execEvict (s : State) : Out :=
  s.operate (opIs 5) (fun p idx b s =>
    if !zeroAt b 16 48 || !s.hostPtr p (wordAt b 8 8) 64 then s.finish idx 17 0
    else match s.ptrRead p (wordAt b 8 8) 64 with
      | (none, s) => s.finish idx 19 0
      | (some d, s) =>
        if !s.evictOk p d true then s.finish idx 17 0
        else
          let r := s.postEviction p d (s.part p).home (some (s.ev.f, s.ev.q, idx.toNat))
          if r.1.isNone then s.finish idx 18 0 else r.2)

/-- UNKNOWN_OP: status 16, whatever the record's other fields (R368). -/
def execUnknownOp (s : State) : Out :=
  let f := s.ev.f
  let q := s.ev.q
  match (s.vf f).part, (s.queue f q).pend.find? (fun r => r.st = .read) with
  | some _, some r =>
    .next (if !(s.vf f).flr && (fieldAt r.bytes 0 1 = 0 || 6 < fieldAt r.bytes 0 1) then
      (s.startRecord f q r.idx).endRecord f q r.idx.toNat 16 0 else s)
  | _, _ => .next s

/-! ## Completion (R370, R371) -/

/-- Writes through a HOST or BULK pointer; whether it was made. The host may complete a write with an error (R370): a free choice. -/
def State.ptrWrite (s : State) (p : PartId) (ptr : Word) (bs : List Byte) : Bool × State :=
  if !s.hostPtr p ptr bs.length then (false, s) else
    match s.placeAll (s.part p).home p .w [ptr] with
    | (.ok [l], s) =>
      if spaceOf ptr = 7 && !(s.hostUp && s.freeBelow 2 = 0) then (false, s.drawn)
      else (true, (if spaceOf ptr = 7 then s.drawn else s).homeWrite none l bs false)
    | (_, s) => (false, s)

/-- Writes a longer range, page by page, up to the first page that fails. -/
def State.ptrWrites (s : State) (p : PartId) (ptr : Word) : List Byte → List (Nat × Nat) → Bool × State
  | _, [] => (true, s)
  | bs, (a, n) :: r =>
    match s.ptrWrite p (BitVec.ofNat 64 (spaceOf ptr * 2 ^ 60 + a)) (bs.take n) with
    | (true, s) => s.ptrWrites p ptr (bs.drop n) r
    | (false, s) => (false, s)

/-- The completion entry of a record. -/
def completionEntry (b : List Byte) (status : Nat) (value : Word) (idx : BitVec 16) (n : Nat) : List Byte :=
  (b.drop 4).take 4 ++ (leBytes 1 (fieldAt b 0 1) ++ (leBytes 1 status ++ (leBytes 1 (idx.toNat / n % 2) ++ (leBytes 1 0 ++ leBytes 8 value.toNat))))

/-- HEAD moves past the completed records at the front. -/
def advanceHead : List PendRec → BitVec 16 → BitVec 16 × List PendRec
  | r :: rs, h => if r.st = .completed then advanceHead rs (h + 1) else (h, r :: rs)
  | [], h => (h, [])

/-- RECORD_COMPLETE of the record with index `ev.k`: the entry, the vector, HEAD (R371). An entry that cannot be written is dropped and
sets ERR (R370). -/
def execRecordComplete (s : State) : Out :=
  let f := s.ev.f
  let q := s.ev.q
  let y := s.queue f q
  match (s.vf f).part, y.pend.find? (fun r => r.idx.toNat = s.ev.k) with
  | some p, some r =>
    match r.st with
    | .ended status value =>
      if (s.vf f).flr then .next s
      else
        let fl := fieldAt r.bytes 1 1
        let w := if fl.testBit 0 then s.ptrWrite p (slotAt y.cbase 16 y.size r.idx) (completionEntry r.bytes status value r.idx y.size) else (true, s)
        let s := if w.1 then w.2 else w.2.modQueue f q (fun y => { y with err := true })
        let s := if fl.testBit 1 then s.sendMsix (f.val + 1) 0 else s
        .next (s.modQueue f q (fun y =>
          let r := advanceHead (y.pend.map (fun e => if e.idx = r.idx then { e with st := .completed } else e)) y.head
          { y with head := r.1, pend := r.2 }))
    | _ => .next s
  | _, _ => .next s

/-! ## BAR2 and MSI-X (R371, R372) -/

/-- Places the pages of a host access; none when one fails. -/
def State.placeBar (s : State) (p : PartId) (need : Need) : List (Nat × Nat) → Option (List (Loc × Nat)) × State
  | [] => (some [], s)
  | (a, n) :: r =>
    match s.translate none p false a need with
    | (.ok pa l, s) =>
      match s.placeBar p need r with
      | (some ls, s) => (some ((.bulk p a pa l true, n) :: ls), s)
      | (none, s) => (none, s)
    | (_, s) => (none, s)

/-- BAR2_READ of `ev.k` bytes at offset `ev.v` (R372). It waits while a stack is in self-refresh (R392). -/
def execBar2Read (s : State) : Out :=
  let o := s.ev.v.toNat
  if !s.tier1Up then .next s else
  match (s.vf s.ev.f).part with
  | some p =>
    if !s.vfLive s.ev.f || 2 ^ 36 < o + s.ev.k then .next { s with bar2Data := none }
    else match s.placeBar p .r (cutsOf o s.ev.k) with
      | (some ls, s) => .next { s with bar2Data := some (ls.flatMap (fun e => s.homeBytes e.1 e.2)) }
      | (none, s) => .next { s with bar2Data := none }
  | none => .next { s with bar2Data := none }

/-- BAR2_WRITE of `ev.bytes` at offset `ev.v`. -/
def execBar2Write (s : State) : Out :=
  let o := s.ev.v.toNat
  if !s.tier1Up then .next s else
  match (s.vf s.ev.f).part with
  | some p =>
    if !s.vfLive s.ev.f || 2 ^ 36 < o + s.ev.bytes.length then .next s
    else match s.placeBar p .w (cutsOf o s.ev.bytes.length) with
      | (some ls, s) =>
        .next ((ls.foldl (fun (acc : State × List Byte) e =>
          (acc.1.homeWrite none e.1 (acc.2.take e.2) false, acc.2.drop e.2)) (s, s.ev.bytes)).1)
      | (none, s) => .next s
  | none => .next s

/-- VECTOR_UNMASK of vector `ev.j` of function `ev.k` (0 the PF): a pending message is sent once. -/
def execVectorUnmask (s : State) : Out :=
  let v : Fin 4 := Fin.ofNat 4 s.ev.j
  let un (m : Msix) : Msix := { m with masked := false, pending := false }
  if !(if s.ev.k = 0 then s.pfReachable else s.hostUp) then .next s
  else if s.ev.k = 0 then
    let p := s.pf.msix[v].pending
    let s := s.modPf (fun x => { x with msix := x.msix.set v (un x.msix[v]) })
    .next (if p then s.sendMsix 0 v else s)
  else
    let f : VfId := Fin.ofNat 256 (s.ev.k - 1)
    if (s.vf f).flr then .next s
    else
      let p := (s.vf f).msix[v].pending
      let s := s.modVf f (fun x => { x with msix := x.msix.set v (un x.msix[v]) })
      .next (if p then s.sendMsix (f.val + 1) v else s)

end Sys2Proof.Machine
end

