-- ==== Sys2Proof/Machine/Migrate.lean ====
section
/-! DEFINITION. Migration of a VF's world between devices, and function-level reset (R373–R376). -/

namespace Sys2Proof.Machine

/-- What the peer's STOP left in the checkpoint area: REV, husks and bins by tile, Tiller records, streams, instances. -/
structure Arrival where
  rev : Nat
  husks : List (Tile × Husk)
  bins : List (Tile × Nat × List Byte × Bool)
  tillers : List (Tile × List TillerRec)
  streams : List (Nat × Stream)
  insts : List Inst
  deriving DecidableEq, Repr

end Sys2Proof.Machine

namespace Sys2Proof.Config

/-- What a checkpoint area's bytes hold when a migration has filled it from a device (R375 gives the contents, not their layout);
none when they are no such image. -/
opaque arrival : Nat → List Byte → Option Machine.Arrival
/-- What a STOP sends to the peer's checkpoint area: the husks, the stream entries, the open queue state, the instances (R375 gives the
contents, not their layout). -/
opaque stopImage : Machine.SavedWorld → List (Nat × Machine.Stream) → List Machine.Queue → List Machine.Inst → List Byte

end Sys2Proof.Config

namespace Sys2Proof.Machine

/-! ## The records (R375, R376) -/

/-- A MIGRATE record of a phase; a PHASE beyond the table is malformed. -/
def State.migrate (s : State) (phase : Nat) (body : PartId → BitVec 16 → List Byte → State → State) : Out :=
  s.operate (fun b => opIs 6 b && (fieldAt b 8 1 = phase || 4 < fieldAt b 8 1)) (fun p idx b s =>
    if 4 < fieldAt b 8 1 || !zeroAt b 9 7 then s.finish idx 17 0 else body p idx b s)

/-- The migration of the record's VF. -/
def State.migrating (s : State) (p : PartId) : Option Migration := (s.part p).migration.filter (fun m => m.vf = s.ev.f)
/-- Bytes of the bitmap: 64 bits for each ⌈SPAN ÷ 4,194,304⌉ word, then 4,096 bits for each tile. -/
def bitmapBytes (words tiles : Nat) : Nat := 8 * words + 512 * tiles

/-- Bits set in bytes. -/
def popcount (bs : List Byte) : Nat := bs.foldl (fun n b => n + ((List.range 8).filter (fun i => b.getLsbD i)).length) 0

/-- Eight pages as a byte of the bitmap. -/
def State.mappedByte (s : State) (p : PartId) (span k : Nat) : Byte :=
  BitVec.ofNat 8 ((List.range 8).foldl (fun n i =>
    if 0x10000 * (8 * k + i) < span && s.grainMapped p (8 * k + i) then n + 2 ^ i else n) 0)

/-- MIGRATE_START: the bitmap marks the mapped pages, and logging starts. -/
def execMigrateStart (s : State) : Out :=
  s.migrate 0 (fun p idx b s =>
    let span := fieldAt b 24 8
    let dev := fieldAt b 32 10
    let rp := fieldAt b 42 6
    let words := (span + 4194303) / 4194304
    let n := bitmapBytes words (s.part p).tileList.length
    if !zeroAt b 48 16 || (span % 65536 ≠ 0 || (2 ^ 48 < span || (1023 < dev || (39 < rp || !s.hostPtr p (wordAt b 16 8) n)))) then
      s.finish idx 17 0
    else if (s.part p).migration.isSome || !((s.domEntry p dev).any (fun e => e.rpart = rp && grants e.rights .w)) then s.finish idx 18 0
    else
      let map := (List.range (8 * words)).map (s.mappedByte p span) ++ List.replicate (512 * (s.part p).tileList.length) 0
      let r := s.ptrWrites p (wordAt b 16 8) map (cutsOf (wbits (wordAt b 16 8) 0 48) map.length)
      if !r.1 then r.2.finish idx 19 0
      else
        let m : Migration := { vf := s.ev.f, bmap := wordAt b 16 8, span := span, dev := dev, part := rp, stopped := false, round := none }
        (r.2.modPart p (fun x => { x with migration := some m })).finish idx 0 (popcount map))

/-- 64 bytes of bulk memory as hardware reads them, with their poison mark; none when they are not mapped. -/
def State.bulkBlock (s : State) (p : PartId) (va : Nat) : Option (List Byte × Bool) :=
  (s.hwRead p va 64).map (fun bs => (bs, s.hwPoisoned p va 64))
/-- 64 bytes of a task bin of a VF's world: in its tile, or where a switch has saved them. -/
def State.binBlock (s : State) (p : PartId) (f : VfId) (t : Tile) (b k : Nat) : List Byte × Bool :=
  let x := s.part p
  match if x.world = some f then none else
      (x.saved.find? (fun w => w.vf = some f)).bind (fun w => w.bins.find? (fun e => e.tile = t && e.bin = b)) with
  | some e => (Mem.read e.data (64 * k) 64, e.poison.contains k)
  | none => (Mem.read (s.tile t).slice (0x10000 * b + 64 * k) 64, (s.tile t).poison.contains (1024 * b + k))

/-- Bytes go to bulk memory of the peer: another device's, or, where the peer is this device, another partition's. -/
def State.sendPage (s : State) (m : Migration) (va : Nat) (bs : List Byte) (poison : Bool) : State :=
  if m.dev = s.fabric.own then
    match s.translate none (Fin.ofNat 40 m.part) false va .w with
    | (.ok pa l, s) => s.homeWrite none (.bulk (Fin.ofNat 40 m.part) va pa l true) bs poison
    | (_, s) => s
  else s.modFab (fun f => f.remoteWrite (remoteAt m.dev va) bs poison)
/-- A shipment leaves for the peer. -/
def State.ship (s : State) (m : Migration) (x : Shipment) : State := s.modFab (fun f => { f with outbox := (m.dev, m.part, x) :: f.outbox })

/-- Block `k` of the page or bin of a bit is read and goes to the peer. -/
def State.copyBlock (s : State) (p : PartId) (m : Migration) (bit k : Nat) : State :=
  if bit < 64 * m.pageWords then
    match s.bulkBlock p (0x10000 * bit + 64 * k) with
    | some d => s.sendPage m (0x10000 * bit + 64 * k) d.1 d.2
    | none => s
  else
    let j := bit - 64 * m.pageWords
    match (s.part p).tileList[j / 4096]? with
    | some t =>
      let d := s.binBlock p m.vf t (j % 4096) k
      s.ship m (.bin (j / 4096) (j % 4096) k (d.1.map (fun b => (b, d.2))))
    | none => s

/-- What a round sets down for its next move. -/
def State.setRound (s : State) (p : PartId) (m : Migration) (r : Option Round) : State :=
  s.modPart p (fun x => { x with migration := some { m with round := r } })

/-- The round is over: a ROUND answers with the pages and bins copied; a STOP sends the world's husks, the VF's streams and queues, and
answers with the bytes sent, those of the pages and bins among them. -/
def State.endRound (s : State) (p : PartId) (m : Migration) (r : Round) : State :=
  if !r.stop then (s.setRound p m none).finish r.idx 0 r.done
  else
    let x := s.part p
    let w := (x.saved.find? (fun w => w.vf = some m.vf)).getD { vf := some m.vf, husks := [], bins := [], tillers := [] }
    let img := Config.stopImage { w with bins := [] } (x.streams.filter (fun e => e.2.vf = some m.vf)) (s.vf m.vf).queues.toList
      (x.insts.filter (fun i => i.world = some m.vf))
    ((s.ship m (.image img)).setRound p { m with stopped := true } none).finish r.idx 0 (0x10000 * r.done + img.length)

/-- The set bits of a word of the bitmap. -/
def wordBits (w : Nat) (bs : List Byte) : List Nat := ((List.range 64).filter (fun i => (leNat bs).testBit i)).map (fun i => 64 * w + i)

/-- One move of a round: the next block of the page or bin in hand is copied; else the next word of the bitmap is fetched and cleared as
one; else the round is over (R376). It waits while no live plane reaches the peer. -/
def State.roundMove (s : State) (p : PartId) (m : Migration) (r : Round) : State :=
  match r.todo with
  | bit :: rest =>
    if m.dev ≠ s.fabric.own && ((s.domEntry p m.dev).map s.livePlanes).getD [] = [] then s
    else
      (s.copyBlock p m bit r.blk).setRound p m (some (if r.blk < 1023 then { r with blk := r.blk + 1 }
        else { r with todo := rest, blk := 0, done := r.done + 1 }))
  | [] =>
    if r.word < m.pageWords + 64 * (s.part p).tileList.length then
      let at_ := m.bmap + BitVec.ofNat 64 (8 * r.word)
      match s.ptrRead p at_ 8 with
      | (some bs, s) =>
        match s.ptrWrite p at_ (List.replicate 8 0) with
        | (true, s) => s.setRound p m (some { r with word := r.word + 1, todo := wordBits r.word bs })
        | (false, s) => (s.setRound p m none).finish r.idx 19 0
      | (none, s) => (s.setRound p m none).finish r.idx 19 0
    else s.endRound p m r

/-- The round of the current record goes on, if there is one. -/
def State.currentRound (s : State) (stop : Bool) : Option (PartId × Migration × Round) :=
  (s.vf s.ev.f).part.bind (fun p => (s.migrating p).bind (fun m =>
    (m.round.filter (fun r => r.q = s.ev.q && r.stop == stop)).map (fun r => (p, m, r))))
/-- A round of the VF's migration is going on. -/
def State.roundRuns (s : State) : Bool := ((s.vf s.ev.f).part.bind s.migrating).any (fun m => m.round.isSome)
/-- A round begins. -/
def Round.start (q : QueueId) (idx : BitVec 16) (stop : Bool) : Round :=
  { q := q, idx := idx, word := 0, todo := [], blk := 0, done := 0, stop := stop }

/-- MIGRATE_ROUND: it begins, or makes its next move. -/
def execMigrateRound (s : State) : Out :=
  match s.currentRound false with
  | some (p, m, r) => .next (s.roundMove p m r)
  | none =>
    if s.roundRuns then .next s
    else s.migrate 1 (fun p idx b s =>
      if !zeroAt b 16 48 then s.finish idx 17 0
      else match s.migrating p with
        | none => s.finish idx 18 0
        | some m => s.setRound p m (some (Round.start s.ev.q idx false)))

/-- MIGRATE_STOP: the world leaves for good, the last round is made, and the VF's state goes to the peer. The record waits while an exchange
step or a freeze is in progress (R322). -/
def execMigrateStop (s : State) : Out :=
  let waits := match (s.vf s.ev.f).part with
    | some p => (s.part p).world = some s.ev.f && !s.switchable p
    | none => false
  match s.currentRound true with
  | some (p, m, r) => .next (s.roundMove p m r)
  | none =>
    if waits || s.roundRuns then .next s
    else s.migrate 2 (fun p idx b s =>
      if !zeroAt b 16 48 then s.finish idx 17 0
      else match s.migrating p with
        | none => s.finish idx 18 0
        | some m =>
          if m.stopped then s.finish idx 18 0
          else
            let s := if (s.part p).world = some s.ev.f then s.worldOut p else s
            s.setRound p { m with stopped := true } (some (Round.start s.ev.q idx true)))

/-- MIGRATE_RESUME on the target. -/
def execMigrateResume (s : State) : Out :=
  s.migrate 3 (fun p idx b s =>
    if !zeroAt b 16 16 || (1023 < fieldAt b 32 10 || !zeroAt b 42 22) then s.finish idx 17 0
    else
      let va := s.ckptVa p
      match if va = 0 then none else (s.hwRead p va (65536 * s.hwNum p (va + 4) 4)).bind (Config.arrival (fieldAt b 32 10)) with
      | none => s.finish idx 18 0
      | some a =>
        if a.rev ≠ yrev then s.finish idx 18 0
        else
          let f := s.ev.f
          let bins := a.bins.map (fun e => (SavedBin.mk e.1 e.2.1 (Mem.write [] 0 (e.2.2.1.take 0x10000)) [] e.2.2.2))
          let free := (s.part p).world.isNone || (s.part p).world = some f
          let w : SavedWorld := { vf := some f, husks := a.husks, bins := if free then [] else bins, tillers := a.tillers }
          let insts := a.insts.map (fun (i : Inst) => { i with world := some f })
          let s := s.modPart p (fun x => { x with
            saved := w :: x.saved.filter (fun y => y.vf != some f),
            insts := x.insts.filter (fun i => !insts.any (fun j => j.no = i.no)) ++ insts,
            instNo := insts.foldl (fun n i => max n i.no) x.instNo,
            streams := x.streams.filter (fun e => !a.streams.any (fun y => y.1 = e.1)) ++
              a.streams.map (fun e => (e.1, { e.2 with vf := some f, destroying := none })) })
          let s := if free then (bins.foldl (fun s e => s.loadBin e true) s).worldIn p (some f) else s
          s.finish idx 0 a.husks.length)

/-- Logging stops. -/
def State.endLogging (s : State) (p : PartId) : State := s.modPart p (fun x => { x with migration := none })
/-- A migration ends; after STOP the world comes back from its own husks: at once, or, when another world is in, by a switch that begins
now. -/
def State.cancelMigration (s : State) (p : PartId) (m : Migration) : State :=
  let s := s.endLogging p
  if !m.stopped then s
  else if (s.part p).world.isNone then s.worldIn p (some m.vf)
  else if s.maySwitch p m.vf then
    (s.freezeAll p).modPart p (fun x => { x with switch := some { to_ := m.vf, slice := x.floorOf m.vf, began := s.dtime, save := none } })
  else s

/-- MIGRATE_CANCEL: it waits for a round that is going on, and after STOP until the VF's world can be switched in. -/
def execMigrateCancel (s : State) : Out :=
  let waits := match (s.vf s.ev.f).part with
    | some p => (s.migrating p).any (fun m => m.stopped && ((s.part p).world.isSome && !(s.endLogging p).maySwitch p m.vf))
    | none => false
  if waits || s.roundRuns then .next s
  else s.migrate 4 (fun p idx b s =>
    if !zeroAt b 16 48 then s.finish idx 17 0
    else match s.migrating p with
      | none => s.finish idx 18 0
      | some m => (s.cancelMigration p m).finish idx 0 0)

/-! ## Function-level reset (R373, R374) -/

/-- The latch of an FLR: records that have not completed are dropped with no entry, the VF's instances are discarded, its migration
is cancelled; evictions that it asked for run on, without their entries and without writes to its host memory. -/
def State.latchFlr (s : State) (f : VfId) : State :=
  let s := s.modVf f (fun x => { x with flr := true, queues := x.queues.map (fun q => { q with pend := [], rd := q.tail }) })
  match (s.vf f).part with
  | some p =>
    let s := s.modPart p (fun x => { x with evictions := x.evictions.map (fun e =>
      let mine := e.host.any (fun h => h.1 = f)
      { e with host := e.host.filter (fun h => h.1 != f),
               report := if spaceOf e.report = 7 && (mine || s.worldOfTask e.by_ = some f) then 0 else e.report }) })
    let s := match (s.part p).migration with
      | some m => if m.vf = f then s.cancelMigration p m else s
      | none => s
    ((s.part p).insts.filter (fun i => i.world = some f)).foldl (fun (s : State) i => s.endInstance p i.no 4) s
  | none => s

/-- The completion of an FLR: streams destroyed, queue pages and the MSI-X table at their reset values. -/
def State.endFlr (s : State) (f : VfId) : State :=
  let s := match (s.vf f).part with
    | some p => ((s.part p).streams.filter (fun (e : Nat × Stream) => e.2.vf = some f)).foldl (fun (s : State) (e : Nat × Stream) => s.freeStream p e.1) s
    | none => s
  s.modVf f (fun x => { x with flr := false, queues := VfSt.reset.queues, msix := VfSt.reset.msix })

/-- An FLR of a VF is latched: during a trial of controller 0 its work is handled after the trial (R360). -/
def State.latch (s : State) (f : VfId) : State :=
  if (s.vf f).flr then s
  else if s.inTrial 0 then s.modVf f (fun x => { x with flr := true })
  else s.latchFlr f

/-- FLR of VF `ev.f`. -/
def execFlr (s : State) : Out := .next (s.latch s.ev.f)
/-- FLR_DONE: not before the end of a trial of controller 0. -/
def execFlrDone (s : State) : Out :=
  .next (if (s.vf s.ev.f).flr && !s.inTrial 0 then (s.latchFlr s.ev.f).endFlr s.ev.f else s)
/-- An FLR of the PF: that of every VF, and the PF's MSI-X table as at reset (R363 gives the PF the capability and no more; PCI Express
gives the rest). -/
def State.pfFlr (s : State) : State :=
  ((List.finRange 256).foldl State.latch s).modPf (fun x => { x with msix := PfSt.reset.msix })

end Sys2Proof.Machine
end

