-- ==== Sys2Proof/Machine/Mailbox.lean ====
section
/-! DEFINITION. The PF's registers and mailbox: register writes with no row of their own, the commands, attestation, partitions,
bindings and the domain map (R4, R324, R361, R362, R366, R371, R377–R381). -/

namespace Sys2Proof.Config

/-- The domain map that the bytes of host memory from an address hold (R381 gives an entry's contents, not its layout): host
memory, address, entries. -/
opaque domainMap : Machine.Mem → Nat → Nat → List Machine.DomEntry

end Sys2Proof.Config

namespace Sys2Proof.Machine

/-! ## Writes of registers with no row of their own -/

/-- Changes an entry of an MSI-X table: function 0 is the PF. -/
def State.modMsix (s : State) (fn : Fin 257) (k : Fin 4) (g : Msix → Msix) : State :=
  if fn.val = 0 then (if s.pfReachable then s.modPf (fun x => { x with msix := x.msix.set k (g x.msix[k]) }) else s)
  else
    let f : VfId := Fin.ofNat 256 (fn.val - 1)
    if (s.vf f).flr || !s.hostUp then s else s.modVf f (fun x => { x with msix := x.msix.set k (g x.msix[k]) })

/-- A queue page takes a write of QBASE or CBASE: the VF is live, and EN reads 0 (R366). -/
def State.pageWrite (s : State) (f : VfId) (q : QueueId) (g : Queue → Queue) : State :=
  if s.vfLive f && !(s.queue f q).en then s.modQueue f q g else s

/-- REGISTER_WRITE of `ev.v` to `ev.reg`. -/
def execRegisterWrite (s : State) : Out :=
  let v := s.ev.v
  .next (match s.ev.reg with
  | .qbase f q => s.pageWrite f q (fun y => { y with base := v })
  | .cbase f q => s.pageWrite f q (fun y => { y with cbase := v })
  | .mbarg k => if s.pfReachable then s.modPf (fun x => { x with mbargs := x.mbargs.set k v }) else s
  | .mbcmd =>
    if s.pfReachable && !s.pf.busy then s.modPf (fun x => { x with mbcmd := v.extractLsb' 0 8, busy := true, mbResult := none }) else s
  | .hbmsr =>
    if s.pf.dchange then s.modPf (fun x => { x with pwrerr := 4 })
    else if s.pfReachable then s.modPf (fun x => { x with hbmsr := v.extractLsb' 0 8 }) else s
  | .msixAddr f k => s.modMsix f k (fun m => { m with addr := v })
  | .msixData f k => s.modMsix f k (fun m => { m with data := v.extractLsb' 0 32 })
  | .msixMask f k => s.modMsix f k (fun m => { m with masked := true })
  | .readOnly => s)

/-! ## Commands (R377, R378) -/

/-- MBARG `k`. -/
def State.mbarg (s : State) (k : Nat) : Word := vGet s.pf.mbargs k

/-- Performs the pending command when it is the one asked for: not while controller 0 is in trial, nor while an IMAGE waits for its
verification. In recovery only IMAGE and ATTEST are served (R387). -/
def State.mbox (s : State) (code : Nat) (body : State → State) : Out :=
  let x := s.pf
  let due := x.busy && (x.mbcmd.toNat = code && (x.mbResult.isNone && ((x.ready || x.recov) && (!s.inTrial 0 &&
    s.granary.ctrls.toList.all (fun c => !c.mbWaits)))))
  if !due then .next s
  else if x.recov && (code ≠ 1 && code ≠ 4) then .next (s.mbResult 2)
  else .next (body s)

/-- A mailbox pointer to `n` bytes: its host bus address. -/
def rawHost (ptr : Word) (n : Nat) : Option Nat :=
  if wbits ptr 60 4 = 7 && (wbits ptr 48 12 = 0 && wbits ptr 0 48 + n ≤ 2 ^ 48) then some (wbits ptr 0 48) else none
/-- The host serves Granary's own read or write; as a free choice it answers with an error. -/
def State.rawServes (s : State) : Bool × State := (s.hostUp && s.freeBelow 2 = 0, s.drawn)
/-- Reads through a mailbox pointer; RESULT 1 for its layout, 3 for a fault on it. -/
def State.rawRead (s : State) (ptr : Word) (n : Nat) : Except Nat (List Byte) × State :=
  match rawHost ptr n with
  | none => (.error 1, s)
  | some a => match s.rawServes with
    | (true, s) => (.ok (Mem.read s.host a n), s)
    | (false, s) => (.error 3, s)

/-- MAILBOX_DONE (R377). -/
def execMailboxDone (s : State) : Out :=
  match s.pf.busy, s.pf.mbResult with
  | true, some r =>
    .next ((s.modPf (fun x => { x with busy := false, last := x.mbcmd, result := BitVec.ofNat 8 r, mbResult := none })).sendMsix 0 3)
  | _, _ => .next s

/-- UNKNOWN_CMD: no action, RESULT 1. -/
def execUnknownCmd (s : State) : Out :=
  let c := s.pf.mbcmd.toNat
  if c = 0 || 8 < c then
    (if s.pf.recov then .next (if s.pf.busy && s.pf.mbResult.isNone then s.mbResult 1 else s) else s.mbox c (fun s => s.mbResult 1))
  else .next s

/-- IMAGE: the image goes into the idle bank and is verified. A bank that is ACTIVE takes none (code 3); while a trial or a verification
runs the command does not fit (code 12). -/
def execImage (s : State) : Out :=
  s.mbox 1 (fun s =>
    if 26 < (s.mbarg 0).toNat then s.mbResult 1
    else
      let c : CtrlId := Fin.ofNat 27 (s.mbarg 0).toNat
      let n := (s.mbarg 2).toNat
      if bankBytes c < n then s.mbResult 1
      else match s.rawRead (s.mbarg 1) n with
        | (.error e, s) => s.mbResult e
        | (.ok img, s) => match s.rawRead (s.mbarg 3) 57 with
          | (.error e, s) => s.mbResult e
          | (.ok key, s) =>
            if (s.ctrl c).idleSt = .active then (s.modCtrl c (fun x => { x with err := 3 })).mbResult 19
            else if (s.ctrl c).trial.isSome || (s.ctrl c).verifying then (s.modCtrl c CtrlSt.misfit).mbResult 28
            else s.modCtrl c (fun x => { (x.loadIdle img key).setIdleSt .invalid with verifying := true, mbWaits := true }))

/-- A command on a controller that answers with the controller's ERR when it is refused. -/
def State.ctrlCommand (s : State) (c : CtrlId) (op : State → State) : State :=
  let old := (s.ctrl c).err
  let s := op (s.modCtrl c (fun x => { x with err := 0 }))
  let e := (s.ctrl c).err
  (s.modCtrl c (fun x => { x with err := if e = 0 then old else e })).mbResult (if e = 0 then 0 else 16 + e)

/-- SWITCH; the running firmware's handover record, when the event carries one, is written as LIVE first (R356). -/
def execSwitch (s : State) : Out :=
  s.mbox 2 (fun s =>
    if 26 < (s.mbarg 0).toNat then s.mbResult 1
    else
      let c : CtrlId := Fin.ofNat 27 (s.mbarg 0).toNat
      let s := if s.ev.bytes = [] then s else s.modCtrl c (fun x => { x with live := s.ev.bytes })
      s.ctrlCommand c (fun s => s.ucmdSwitch c))
/-- ABORT. -/
def execAbort (s : State) : Out :=
  s.mbox 3 (fun s =>
    if 26 < (s.mbarg 0).toNat then s.mbResult 1
    else
      let c : CtrlId := Fin.ofNat 27 (s.mbarg 0).toNat
      s.ctrlCommand c (fun s => s.ucmdAbort c))

/-! ## Attestation (R361, R362) -/

/-- The entry of a controller: its running bank. -/
def CtrlSt.report (x : CtrlSt) (c : CtrlId) : List Byte :=
  let img := x.running
  leBytes 1 c.val ++ (leBytes 1 (if x.run then 1 else 0) ++ (leBytes 1 x.runSt.code ++ (leBytes 1 0 ++ (leBytes 2 (fieldAt img 6 2) ++
    (leBytes 2 0 ++ (leBytes 4 (fieldAt img 8 4) ++ (leBytes 4 0 ++ imageDigest img)))))))
def State.digests (s : State) : List (List Byte) := s.granary.ctrls.toList.map (fun x => imageDigest x.running)
/-- The 2,450 bytes of a report. -/
def State.attestation (s : State) (nonce : List Byte) : List Byte :=
  let body := leBytes 4 0x54534C41 ++ (leBytes 2 1 ++ (leBytes 2 yrev ++ (leBytes 8 s.dtime ++ (nonce ++ (List.replicate 48 0 ++
    ((List.finRange 27).flatMap (fun c => (s.ctrl c).report c) ++ List.replicate 48 0))))))
  body ++ aliasSign s.digests body

/-- ATTEST. -/
def execAttest (s : State) : Out :=
  s.mbox 4 (fun s =>
    let chain := certChain s.digests
    match s.rawRead (s.mbarg 0) 64, rawHost (s.mbarg 1) 2450, rawHost (s.mbarg 2) chain.length with
    | (.ok nonce, s), some r, some b =>
      if (s.mbarg 3).toNat < chain.length then s.mbResult 1
      else match s.rawServes with
        | (true, s) => { s with host := Mem.write (Mem.write s.host r (s.attestation nonce)) b chain }.mbResult 0
        | (false, s) => s.mbResult 3
    | (.error e, s), some _, some _ => s.mbResult e
    | (_, s), _, _ => s.mbResult 1)

/-! ## Partitions (R324, R379) -/

/-- The slots in a partition block. -/
def blockSlots (b : List Byte) : List Word := (List.range 256).map (fun i => wordAt b (64 + 8 * i) 8)

/-- The other partitions in use. -/
def State.others (s : State) (p : PartId) : List PartSt := ((List.finRange 40).filter (fun q => q != p)).map s.part |>.filter (·.inUse)

/-- A block is a configuration that R102, R308, R324 and R379 allow. -/
def State.blockOk (s : State) (p : PartId) (b : List Byte) : Bool :=
  let mask := wordAt b 0 8
  let ts := tilesOf mask
  let slots := blockSlots b
  let own (i : Nat) : Word := slots.getD i 0
  zeroAt b 11 1 && (zeroAt b 25 39 && (fieldAt b 8 2 ≤ 3968 && (fieldAt b 10 1 < 64 &&
    ((mask = 0 || mask.getLsbD (fieldAt b 10 1)) && (fieldAt b 20 3 < 2 ^ 23 && ((fieldAt b 20 3 = 0 || fieldAt b 23 2 ≠ 0) &&
    ((List.range 256).all (fun i => own i = 0 || hasLink (i / 4) (i % 4)) &&
    ((s.others p).all (fun q => q.tiles &&& mask = 0 && (List.range 256).all (fun i => q.slots.getD i 0 &&& own i = 0)) &&
    ts.all (fun a => ts.all (fun c => (routeOuts a c).all (fun i => own i ≠ 0)))))))))))

/-- The tile holds a task, a husk, a copy command or a pass (R324, R391). -/
def TileSt.held (x : TileSt) : Bool :=
  x.logic.task.isSome || (x.tiller ≠ [] || (x.husks.toList.any (·.isSome) || (x.logic.copy.q ≠ [] || x.logic.rachis.pass.isSome)))

/-- Configures a partition from a block. -/
def State.configure (s : State) (p : PartId) (b : List Byte) : State :=
  let mask := wordAt b 0 8
  let old := (s.part p).tiles
  let slim := fieldAt b 8 2
  let refill := fieldAt b 20 3
  let s := s.modPart p (fun x => { x with
    inUse := mask ≠ 0, tiles := mask, slim := slim, home := Fin.ofNat 64 (fieldAt b 10 1), q0 := fieldAt b 12 4, q1 := fieldAt b 16 4,
    slots := blockSlots b, exovr := 0,
    budget := { count := refill, window := fieldAt b 23 2, refill := refill, began := s.dtime } })
  { s with tiles := vecOf 64 (fun i =>
      let x := vGet s.tiles i
      if mask.getLsbD i then
        { x with part := p, slim := slim, dirty := x.dirty.filter (fun k => slim ≤ k), tb := [], lines := [] }
      else if old.getLsbD i then { x with part := 0, slim := 0, tb := [], lines := [] } else x) }

/-- PART. -/
def execPart (s : State) : Out :=
  s.mbox 5 (fun s =>
    if 39 < (s.mbarg 1).toNat then s.mbResult 1
    else
      let p : PartId := Fin.ofNat 40 (s.mbarg 1).toNat
      match s.rawRead (s.mbarg 0) 2112 with
      | (.error e, s) => s.mbResult e
      | (.ok b, s) =>
        if !s.blockOk p b then s.mbResult 1
        else if (s.part p).insts ≠ [] || (s.part p).tileList.any (fun t => (s.tile t).held) then s.mbResult 2
        else (s.configure p b).mbResult 0)

/-! ## Bindings and the domain map -/

/-- The VF that MBARG0 names, 1–256. -/
def State.mbVf (s : State) : Option VfId :=
  let n := (s.mbarg 0).toNat
  if 1 ≤ n && n ≤ 256 then some (Fin.ofNat 256 (n - 1)) else none

/-- BIND: the VF is bound; when no world of the partition is switched in, its world is. -/
def execBind (s : State) : Out :=
  s.mbox 6 (fun s =>
    match s.mbVf with
    | none => s.mbResult 1
    | some f =>
      if 39 < (s.mbarg 1).toNat then s.mbResult 1
      else
        let p : PartId := Fin.ofNat 40 (s.mbarg 1).toNat
        if (s.vf f).part.isSome then s.mbResult 2
        else
          let s := s.modVf f (fun x => { x with part := some p })
          (if (s.part p).world.isNone then s.worldIn p (some f) else s).mbResult 0)

/-- UNBIND: the outcomes of an FLR, then the VF is unbound. It waits for a switch to the VF's world. -/
def execUnbind (s : State) : Out :=
  s.mbox 7 (fun s =>
    match s.mbVf with
    | none => s.mbResult 1
    | some f =>
      match (s.vf f).part with
      | none => s.mbResult 2
      | some p =>
        if (s.part p).switch.any (fun w => w.to_ = f) then s else
        let s := (s.latchFlr f).endFlr f
        let s := s.modPart p (fun x => { x with
          world := if x.world = some f then none else x.world, costs := x.costs.filter (fun e => e.1 != f),
          saved := x.saved.filter (fun w => w.vf != some f), floored := x.floored.filter (fun g => g != f) })
        (s.modVf f (fun x => { x with part := none })).mbResult 0)

/-- DOMAIN. -/
def execDomain (s : State) : Out :=
  s.mbox 8 (fun s =>
    match rawHost (s.mbarg 0) 0 with
    | none => s.mbResult 1
    | some a => match s.rawServes with
      | (true, s) => (s.modFab (fun f => { f with domain := (Config.domainMap s.host a (s.mbarg 1).toNat).take (s.mbarg 1).toNat })).mbResult 0
      | (false, s) => s.mbResult 3)

end Sys2Proof.Machine
end

