-- ==== Sys2Proof/Machine/Fabric.lean ====
section
/-! DEFINITION. The fabric: serving another device's request, reissue, lost ports, no plane, kept results (R380–R385). -/

namespace Sys2Proof.Machine

/-- The need of a request. -/
def FabNeed : FabricOp → Need
  | .load _ => .r
  | .store _ _ => .w
  | .amo _ _ _ => .rw
  | .flag .test _ _ => .r
  | .flag _ _ _ => .rw
  | .coll _ => .r

/-- Bytes at a location with the poison mark of each (R395). -/
def State.markedAt (s : State) (l : Loc) (n : Nat) : List Bool := (List.range n).map (fun i => s.poisonedAt (l.plus i) 1)

/-- A request is answered. -/
def State.fabAnswer (s : State) (a : FabAnswer) : State := s.modFab (fun f => { f with answer := a })
/-- A result is answered, and kept for a request that is issued again (R383). -/
def State.fabResult (s : State) (r : FabricRequest) (n : Nat) (v : Word) (bad : Bool) : State :=
  (s.modFab (fun f => { f with kept := { source := r.source, tag := r.tag, value := v, poison := bad, at_ := s.dtime } :: f.kept })).fabAnswer
    (.data (leBytes n v.toNat) (List.replicate n bad))

/-- A flag operation that comes through the fabric, performed at its home (R77, R139, R380). -/
def State.fabFlag (s : State) (r : FabricRequest) (fn : FlagFn) (home : Tile) (bit : Nat) : State :=
  if !(s.part r.part).has home || 0x1000 ≤ bit then s.fabAnswer .refused
  else
    let old : Word := if (s.tile home).flag bit then 1 else 0
    let s := match fn with
      | .set => s.setFlag home bit true
      | .clr => s.setFlag home bit false
      | .test => s
      | .tas => s.setFlag home bit true
    s.fabResult r 1 old false

/-- FABRIC_REQUEST_SERVE: the offset goes through the named partition's bulk table, and the request is served as BULK-STREAM, with the poison
of its blocks (R381, R395); an atomic or a flag operation that has been served before answers with its kept result (R383). It waits while a
stack is in self-refresh (R392). -/
def execFabricRequestServe (s : State) : Out :=
  match s.ev.fabric with
  | none => .next s
  | some r =>
    .next (
      if !s.tier1Up then s else
      let once := match r.op with
        | .amo _ _ _ => true
        | .flag _ _ _ => true
        | _ => false
      match (s.fabric.kept.find? (fun k => k.source = r.source && k.tag = r.tag)).filter (fun _ => once), r.op with
      | some k, op =>
        let n := match op with
          | .amo _ _ _ => 8
          | _ => 1
        s.fabAnswer (.data (leBytes n k.value.toNat) (List.replicate n k.poison))
      | none, .flag fn home bit => s.fabFlag r fn home bit
      | none, op =>
        match s.translate none r.part false r.offset (FabNeed op) with
        | (.np _, s) => s.fabAnswer .notPresent
        | (.perm _ _, s) => s.fabAnswer .refused
        | (.ecc, s) => s.fabAnswer .poisonedTable
        | (.ok pa l, s) =>
          let loc : Loc := .bulk r.part r.offset pa l true
          match op with
          | .load n => s.fabAnswer (.data (s.homeBytes loc n) (s.markedAt loc n))
          | .coll n => s.fabAnswer (.data (s.homeBytes loc n) (s.markedAt loc n))
          | .store bs bad => (s.homeWrite none loc bs bad).fabAnswer (.data [] [])
          | .amo o b e =>
            let m := wordAt (s.homeBytes loc 8) 0 8
            let bad := s.poisonedAt loc 8
            let s := match amoNew o m b e with
              | some v => s.homeWrite none loc (leBytes 8 v.toNat) false
              | none => s
            s.fabResult r 8 m bad
          | .flag _ _ _ => s)

/-- The live planes of a request's device. -/
def State.planesFor (s : State) (t : Tile) (dev : Nat) : List Nat := ((s.domEntry (s.partOf t) dev).map s.livePlanes).getD []

/-- FABRIC_REISSUE of request `ev.k`: unanswered for 20 µs, or its plane lost, it goes on another live plane. Which one is free. It keeps its
place, ahead of every later request to the page. -/
def execFabricReissue (s : State) : Out :=
  match s.fabric.reqs[s.ev.k]? with
  | none => .next s
  | some r =>
    let others := (s.planesFor r.tile r.dev).filter (fun p => p ≠ r.plane)
    let due := r.sent + 20000 ≤ s.dtime || !s.fabric.ports.getLsbD r.plane
    match due, others[s.freeBelow (max 1 others.length)]? with
    | true, some p =>
      .next (s.drawn.modFab (fun f => { f with reqs := f.reqs.set s.ev.k { r with plane := p, sent := s.dtime } }))
    | _, _ => .next s

/-- PORT_LOST: port `ev.k` counts as lost (R380, R383). -/
def execPortLost (s : State) : Out :=
  let k := s.ev.k
  .next (if k < 16 && s.fabric.ports.getLsbD k then
    (s.modFab (fun f => { f with ports := f.ports &&& ~~~(1#16 <<< k) })).sendMsix 0 3 else s)

/-- A device that no live plane has reached for 1 ms. -/
def State.planeless (s : State) (t : Tile) (a : Word) (since : Nat) : Bool :=
  since + 1000000 ≤ s.dtime && s.planesFor t (wbits a 48 10) = []

/-- FABRIC_NO_PLANE on the current tile, for the unit `ev.u`; `m` stands for the copy engine, whose command is the one with sequence
number `ev.k`: a FABRIC trap with RETRY (R384). -/
def execFabricNoPlane (s : State) : Out :=
  let t := s.cur
  let go (a : Word) (w : Bool) (since : Nat) (f : State → Word → State) : Out :=
    .next (if (s.tile t).runs && s.planeless t a since then f s (retryBit ||| writeBit w) else s)
  match s.ev.u with
  | .c => match (s.c t).wait with
    | .noPlane a w since => go a w since (fun s v => s.trapC .fabric v (some a))
    | _ => .next s
  | .m => match (s.copy t).q.find? (fun c => c.seq = s.ev.k) with
    | some c => match c.noPlane, c.st with
      | some (a, w, since), .running => go a w since (fun s _ => s.failCmd t c w ⟨.fabric, retryBit, some a⟩)
      | _, _ => .next s
    | none => .next s
  | u => match (s.seq t u).wait with
    | .noPlane a w since => go a w since (fun s v => s.trapSeq u .fabric v (some a))
    | _ => .next s

/-- ATOMIC_RESULT_EXPIRY of kept result `ev.k`: 2 ms have passed. -/
def execAtomicResultExpiry (s : State) : Out :=
  match s.fabric.kept[s.ev.k]? with
  | some k => .next (if k.at_ + 2000000 ≤ s.dtime then s.modFab (fun f => { f with kept := f.kept.eraseIdx s.ev.k }) else s)
  | none => .next s

end Sys2Proof.Machine
end

