-- ==== Sys2Proof/Machine/Power.lean ====
section
/-! DEFINITION. Bring-up, clock levels and the thermal trip, tile and device power states, scrubbing and the error counters
(R386–R396). -/

namespace Sys2Proof.Machine

/-! ## Bring-up (R352, R386, R387) -/

def CtrlSt.bankSt (x : CtrlSt) (b : Bool) : BankSt := if b then x.stB else x.stA
def CtrlSt.setBankSt (x : CtrlSt) (b : Bool) (st : BankSt) : CtrlSt := if b then { x with stB := st } else { x with stA := st }
/-- Checks 1 to 7 on a bank. -/
def CtrlSt.bankCode (x : CtrlSt) (c : CtrlId) (b : Bool) : Nat :=
  if b then imageCode7 c x.keyB x.bankB else imageCode7 c x.keyA x.bankA

/-- The bank last recorded ACTIVE; true for B. The other bank than one found in TRIAL. -/
def CtrlSt.recorded (x : CtrlSt) : Bool :=
  if x.stA = .active then false else if x.stB = .active then true else if x.stA = .trial then true else if x.stB = .trial then false else x.run

/-- What the bank store keeps of a controller; a bank found in TRIAL has fallen back. -/
def CtrlSt.kept (x : CtrlSt) : CtrlSt :=
  let fell := x.stA = .trial || x.stB = .trial
  let st (b : BankSt) : BankSt := if b = .trial then .invalid else b
  { CtrlSt.reset with
    bankA := x.bankA, bankB := x.bankB, keyA := x.keyA, keyB := x.keyB, live := x.live, base := x.base, run := x.recorded,
    stA := st x.stA, stB := st x.stB, err := if fell then 11 else 0, falls := if fell then 1 else 0 }

/-- Step 2 of R386 for one controller; the heartbeats of the image that it boots count from then (R359). -/
def CtrlSt.bringUp (x : CtrlSt) (c : CtrlId) : CtrlSt :=
  let b := x.recorded
  let x := x.kept
  let c1 : Nat := x.bankCode c b
  if c1 = 0 then { x.setBankSt b .active with run := b, beat := some 0 }
  else
    let x := { x.setBankSt b .invalid with err := c1 }
    let c2 : Nat := x.bankCode c (!b)
    if c2 = 0 then { x.setBankSt (!b) .active with run := !b, beat := some 0 }
    else { x.setBankSt (!b) .invalid with err := c2, run := b, held := true }

/-- What outlives a reset: the agenda, the free values, host memory and what the host was sent, the other devices' memory, the bank store;
`ctrl` gives each controller. -/
def State.wiped (s : State) (ctrl : CtrlSt → CtrlId → CtrlSt) : State :=
  { State.reset with
    cur := s.cur, curSq := s.curSq, curCore := s.curCore, ev := s.ev,
    schedule := s.schedule, idlePick := s.idlePick, freeCount := s.freeCount, host := s.host, sent := s.sent,
    fabric := { FabricSt.reset with own := s.fabric.own, remote := s.fabric.remote, poison := s.fabric.poison },
    granary := { GranarySt.reset with bank := s.granary.bank,
                                      ctrls := vecOf 27 (fun i => ctrl (vGet s.granary.ctrls i) (Fin.ofNat 27 i)) } }

/-- The bring-up, from step 1 to step 6, or to recovery. -/
def State.bringUp (s : State) : State :=
  let fell := s.granary.ctrls.toList.any (fun x => x.stA = .trial || x.stB = .trial)
  let s := s.wiped CtrlSt.bringUp
  let up := !(s.ctrl 0).held
  let s := s.modPf (fun x => { x with tj := Config.resetTj, ready := up, recov := !up })
  let s := s.modFab (fun f => { f with ports := (List.range 16).foldl (fun (m : BitVec 16) k =>
    if (s.ctrl (Fin.ofNat 27 (10 + k))).held then m &&& ~~~(1#16 <<< k) else m) (BitVec.allOnes 16) })
  let s := if up then s.bootCtrl 0 else s
  if fell then s.sendMsix 0 2 else s

/-- RESET: power-good or a fundamental reset. -/
def execReset (s : State) : Out := .next s.bringUp

/-- D3COLD: everything is lost but the fuses and the bank store (R393). -/
def execD3cold (s : State) : Out :=
  let s := s.wiped (fun x _ => { x with trial := none, beat := none, verifying := false, mbWaits := false })
  let s := s.modGran (fun g => { g with cores := Vector.replicate 8 (GCore.reset false) })
  .next (s.modPf (fun x => { x with cold := true }))

/-! ## Clock level and the trip (R388–R390) -/

/-- The junction's temperature is sensed: the thermal controller is not held (R387). -/
def State.sensed (s : State) : Bool := !(s.ctrl 26).held
/-- THERMAL_TRIP: the junction has reached 105 °C. -/
def execThermalTrip (s : State) : Out :=
  .next (if s.sensed && (105 ≤ s.pf.tj.toNat && (!s.pf.trip && !s.pf.cold)) then (s.modPf (fun x => { x with trip := true })).sendMsix 0 3 else s)
/-- TRIPCLR: a PWRCTL write with TRIPCLR = 1. -/
def execTripclr (s : State) : Out :=
  .next (if s.pfReachable && s.pf.tj.toNat < 95 then s.modPf (fun x => { x with trip := false }) else s)
/-- LEVEL: a PWRCTL write of LEVEL `ev.v`; 3 is ignored. -/
def execLevel (s : State) : Out :=
  let l : BitVec 2 := s.ev.v.extractLsb' 0 2
  .next (if s.pfReachable && l ≠ 3 then s.modPf (fun x => { x with level := l }) else s)
/-- EFF_CHANGE: EFF = LEVEL without a trip, 0 with one. -/
def execEffChange (s : State) : Out := .next (s.modPf (fun x => { x with eff := if x.trip then 0 else x.level }))

/-! ## Tile states (R391) -/

/-- The logic of a tile loses its power. Tiller and the trap latch are no part of it (R318). -/
def TileSt.logicOff (x : TileSt) : TileSt :=
  { x with logic := Logic.reset, tb := [], lines := [], shadow := none, freezing := none, tokLim := 0x01000000, lastOwner := none,
           egress := Vector.replicate 8 [] }
/-- The slice of a tile that was OFF is zeroed, its bits full; its sync space comes up as at reset. -/
def TileSt.sliceOff (x : TileSt) : TileSt := { x with slice := [], empty := [], dirty := [], poison := [], sync := [] }

def pwrOf (n : Nat) : TilePwr := if n = 0 then .on else if n = 1 then .gated else if n = 2 then .retain else .off
/-- The code for tile `t` in a register's value. -/
def pwrCode (v : Word) (t : Tile) : Nat := wbits v (2 * (t.val % 32)) 2
/-- The tiles of register `k`. -/
def regTiles (k : Nat) : List Tile := allTiles.filter (fun t => t.val / 32 = k)

/-- A tile goes to the state of a code. A return to ON takes its time: TILE_WAKE ends it. -/
def TileSt.power (x : TileSt) (n : Nat) : TileSt :=
  if n = 0 then { x with waking := x.pwr ≠ .on }
  else
    let x := if x.pwr = .off && n ≠ 3 then x.sliceOff else x
    let x := if 2 ≤ n then x.logicOff else x
    { x with pwr := pwrOf n, waking := false }

/-- The code that refuses a write of a TILEPWR register, 0 when it is taken. -/
def State.pwrRefusal (s : State) (k : Nat) (v : Word) : Nat :=
  let old := vGet s.pf.tilepwr k
  let goes (t : Tile) (p : Nat → Nat → Bool) : Bool := p (pwrCode old t) (pwrCode v t)
  let busy := (regTiles k).any (fun t => goes t (fun o n => o = 0 && n ≠ 0) && (s.tile t).held)
  let offs := (regTiles k).filter (fun t => goes t (fun o n => o ≠ 3 && n = 3))
  let used := ((List.finRange 40).map s.part).filter (·.inUse)
  if busy then 1
  else if offs.any (fun t => used.any (fun x => x.has t)) then 2
  else if offs.any (fun t => used.any (fun x => x.tileList.any (fun a => x.tileList.any (fun b => (routeTiles a b).contains t.val)))) then 3
  else 0

/-- TILEPWR: register `ev.k` is written with `ev.v`; a refusal changes nothing of the register. -/
def execTilepwr (s : State) : Out :=
  let k := s.ev.k % 2
  let v := s.ev.v
  if !s.pfReachable then .next s
  else
    let code := s.pwrRefusal k v
    if code ≠ 0 then .next (s.modPf (fun x => { x with pwrerr := BitVec.ofNat 8 code }))
    else
      let old := vGet s.pf.tilepwr k
      let s := (regTiles k).foldl (fun (s : State) t =>
        if pwrCode old t = pwrCode v t then s else s.modTile t (fun x => x.power (pwrCode v t))) s
      .next (s.modPf (fun x => { x with tilepwr := vSet x.tilepwr k v }))

/-- The slot of the task that D3hot froze while it ran: its record still runs. -/
def TileSt.heldOver (x : TileSt) : Option (Fin 2) :=
  (List.finRange 2).find? (fun i => (x.husks[i]).any (fun h =>
    x.tiller.any (fun r => r.st = .running && h.logic.task.any (fun k => k.inst = r.inst && k.idx = r.idx))))

/-- The held-over task of a tile goes on, once a husk that had to make room is back in its slot (R326, R393). -/
def State.carryOn (s : State) (t : Tile) : State :=
  match (s.tile t).heldOver with
  | none => s
  | some i => match s.slotHusk t i with
    | some h => ((s.modTile t (fun x => { x with husks := x.husks.set i none })).comeBack (s.tile t).part t).restoreOr t h
    | none => s

/-- TILE_WAKE on tile `ev.t`: it is ON. After D3hot its task goes on. -/
def execTileWake (s : State) : Out :=
  let t := s.ev.t
  if !(s.tile t).waking then .next s
  else .next ((s.modTile t (fun x => { (if x.pwr = .off then x.sliceOff else x) with pwr := .on, waking := false })).carryOn t)

/-- PWRERR_READ: the code is returned and cleared. -/
def execPwrerrRead (s : State) : Out :=
  .next (if s.pfReachable then s.modPf (fun x => { x with readData := x.pwrerr.setWidth 64, pwrerr := 0 }) else s)

/-! ## D3hot (R392, R393) -/

/-- The running task of a tile is frozen; with both slots taken, the older husk moves to the checkpoint area first (R326). Its record
goes on running, for the return to D0. -/
def State.freezeOver (s : State) (t : Tile) : State :=
  match s.task t with
  | none => s
  | some k =>
    let save (s : State) (i : Fin 2) : State :=
      (s.saveTo t k i).modTile t (fun x => x.modRec k.inst k.idx (fun y => { y with st := .running }))
    match (s.tile t).freeSlot, (s.tile t).older with
    | some i, _ => save s i
    | none, some i => match s.slotHusk t i with
      | some h => save (s.makeRoom (s.tile t).part t i h) i
      | none => s
    | none, none => s

/-- D3HOT_ENTRY: placement stops; once no exchange step and no freeze is in progress, every running task is frozen, every tile enters
RETAIN, and the armed stacks enter self-refresh. -/
def execD3hotEntry (s : State) : Out :=
  if s.pf.d3hot || (s.pf.cold || allTiles.any (fun t => (s.tile t).waking)) then .next s
  else
    let s := s.modPf (fun x => { x with dchange := true })
    if !((List.finRange 40).all (fun p => !(s.part p).inUse || s.switchable p)) then .next s
    else
      let s := allTiles.foldl (fun (s : State) t => (s.freezeOver t).modTile t (fun x => x.power 2)) s
      .next (s.modPf (fun x => { x with d3hot := true, dchange := false, selfRefresh := x.hbmsr,
                                        tilepwr := Vector.replicate 2 0xAAAAAAAAAAAAAAAA }))

/-- D0_RETURN: the stacks leave self-refresh and every tile is on its way to ON; the change ends when all have woken and their tasks
are restored, and placement resumes. -/
def execD0Return (s : State) : Out :=
  if s.pf.d3hot then
    let s := allTiles.foldl (fun (s : State) t => s.modTile t (fun x => x.power 0)) s
    .next (s.modPf (fun x => { x with d3hot := false, dchange := true, selfRefresh := 0, tilepwr := Vector.replicate 2 0 }))
  else if s.pf.dchange && allTiles.all (fun t => !(s.tile t).waking && (s.tile t).heldOver.isNone) then
    .next (s.modPf (fun x => { x with dchange := false }))
  else .next s

/-! ## Errors (R394–R396) -/

/-- The counters saturate. -/
def bump (n : Nat) : Nat := min 0xFFFFFFFF (n + 1)

/-- A parity error in a tile's logic: it is counted; a task there takes a fatal ECC trap, and an instance of a stream rolls back. -/
def State.softError (s : State) (t : Tile) : State :=
  let rolled := match s.task t with
    | some k => match s.inst k.part k.inst with
      | some i => match i.src with
        | .stream _ => true
        | _ => false
      | none => false
    | none => false
  let s := s.modPf (fun x => { x with esoftLogic := bump x.esoftLogic, esoftRolled := if rolled then bump x.esoftRolled else x.esoftRolled })
  match s.task t with
  | some _ => ((s.postTrap t .tile .ecc 0 none (s.gen t) false).2).endTaskOf t 4
  | none => s

/-- PATROL_SCRUB of one place, with what it finds there; an error in tile logic shows when the logic uses the word (R394, R395). -/
def execPatrolScrub (s : State) : Out :=
  .next (match s.ev.scrub, s.ev.found with
  | _, .clean => s
  | .slice _ _, .corrected => s.modPf (fun x => { x with ecorrSlice := bump x.ecorrSlice })
  | .slice t b, .uncorrectable =>
    if b < 0x400000 then (s.modTile t (fun x => { x with poison := insertRising b x.poison })).modPf (fun x => { x with epoisSlice := bump x.epoisSlice }) else s
  | .hbm _, .corrected => s.modPf (fun x => { x with ecorrHbm := bump x.ecorrHbm })
  | .hbm b, .uncorrectable =>
    { s with bulkPoison := insertRising b s.bulkPoison }.modPf (fun x => { x with epoisHbm := bump x.epoisHbm })
  | .granary _, .corrected => s
  | .granary b, .uncorrectable => s.modGran (fun g => { g with poison := insertRising b g.poison })
  | .logic _, .corrected => s
  | .logic t, .uncorrectable => s.softError t)

/-- ERROR_COUNTER_READ of counter `ev.k`: 0 ECORR, 1 EPOIS, 2 ESOFT. -/
def execErrorCounterRead (s : State) : Out :=
  let two (hi lo : Nat) : Word := BitVec.ofNat 64 (hi * 2 ^ 32 + lo)
  .next (if !s.pfReachable then s else s.modPf (fun x =>
    match s.ev.k with
    | 0 => { x with readData := two x.ecorrHbm x.ecorrSlice, ecorrHbm := 0, ecorrSlice := 0 }
    | 1 => { x with readData := two x.epoisHbm x.epoisSlice, epoisHbm := 0, epoisSlice := 0 }
    | 2 => { x with readData := two x.esoftRolled x.esoftLogic, esoftRolled := 0, esoftLogic := 0 }
    | _ => x))

end Sys2Proof.Machine
end

