-- ==== Sys2Proof/Machine/HostRead.lean ====
section
/-! DEFINITION. What the host reads: the PCI Express capabilities, the registers of the PF, the queue pages, the MSI-X tables
(R3, R4, R363–R366, R371, R374, R377, R388, R396). -/

namespace Sys2Proof.Machine

/-! ## Capabilities (R363, R364) -/

/-- A field of the capabilities; 1 for a capability that the port presents, 0 for one that it does not support. A BAR that the table does
not name is absent. -/
def pciField : PciField → Word
  | .totalVfs => 256
  | .firstVfOffset => 1
  | .vfStride => 1
  | .ari => 1
  | .aer => 1
  | .flr => 1
  | .ats => 0
  | .pri => 0
  | .pasid => 0
  | .atomicCompleter => 0
  | .msixTableSize => 4
  | .msixTableBar => 4
  | .msixTableOffset => 0
  | .msixPbaBar => 4
  | .msixPbaOffset => 0x800
  | .pfBarSize 0 => 0x10000
  | .pfBarSize 4 => 0x1000
  | .pfBarSize _ => 0
  | .vfBarSize 0 => 0x40000
  | .vfBarSize 2 => 0x1000000000
  | .vfBarSize 4 => 0x1000
  | .vfBarSize _ => 0

/-! ## Registers -/

/-- PF BAR0 at an offset: the mailbox (R377), the power registers (R388). Write-only and reserved bits read zero, and so does every other
offset (R3, R4). -/
def PfSt.reg (x : PfSt) (off : Nat) : Word :=
  match off with
  | 0x008 => vGet x.mbargs 0
  | 0x010 => vGet x.mbargs 1
  | 0x018 => vGet x.mbargs 2
  | 0x020 => vGet x.mbargs 3
  | 0x028 => (if x.busy then 1#1 else 0) ++ (0 : BitVec 47) ++ x.last ++ x.result
  | 0x100 => x.level.setWidth 64
  | 0x108 => (0 : BitVec 48) ++ x.tj ++ (0 : BitVec 4) ++ (if x.recov then 1#1 else 0) ++ (if x.ready then 1#1 else 0) ++ x.eff
  | 0x110 => vGet x.tilepwr 0
  | 0x118 => vGet x.tilepwr 1
  | 0x120 => x.hbmsr.setWidth 64
  | _ => 0

/-- A queue page at an offset (R366). -/
def Queue.reg (y : Queue) (off : Nat) : Word :=
  match off with
  | 0x000 => (0 : BitVec 32) ++ y.head ++ y.tail
  | 0x008 => y.base
  | 0x010 => (if y.en then 1#1 else 0) ++ (if y.err then 1#1 else 0) ++ (0 : BitVec 58) ++ y.log2n
  | 0x018 => y.cbase
  | _ => 0

/-- The four vectors' pending bits. -/
def pendingBits (m : Vector Msix 4) : Word :=
  BitVec.ofNat 64 ((List.finRange 4).foldl (fun n k => if m[k].pending then n + 2 ^ k.val else n) 0)
/-- BAR4 at an offset: the MSI-X table, an entry's address, then its data and its mask bit, and the PBA (R364). -/
def msixReg (m : Vector Msix 4) (off : Nat) : Word :=
  if off < 64 then
    let e := m[(Fin.ofNat 4 (off / 16))]
    if off % 16 = 0 then e.addr else (0 : BitVec 31) ++ (if e.masked then 1#1 else 0) ++ e.data
  else if off = 0x800 then pendingBits m
  else 0

/-- The host reads a register: RC fields clear (R4). The BARs of the PF answer in D0 (R392), those of a VF outside its FLR (R374); an
unbound VF's BAR0 reads as all ones (R365). -/
def State.hostRead (s : State) (r : HostRead) : State :=
  let pf (s : State) (v : Word) : State := { s with hostData := if s.pfReachable then some v else none }
  match r with
  | .config x => { s with hostData := if s.hostUp && !s.pf.cold then some (pciField x) else none }
  | .pfBar0 off =>
    let rc (out : Out) : State := match out with
      | .next s => pf s s.pf.readData
      | _ => s
    match off with
    | 0x128 => rc (execPwrerrRead s)
    | 0x140 => rc (execErrorCounterRead ({ s with ev := { s.ev with k := 0 } } : State))
    | 0x148 => rc (execErrorCounterRead ({ s with ev := { s.ev with k := 1 } } : State))
    | 0x150 => rc (execErrorCounterRead ({ s with ev := { s.ev with k := 2 } } : State))
    | _ => pf s (s.pf.reg off)
  | .pfBar4 off => pf s (msixReg s.pf.msix off)
  | .vfBar0 f off =>
    if (s.vf f).flr || !s.hostUp then { s with hostData := none }
    else if (s.vf f).part.isNone then { s with hostData := some (BitVec.allOnes 64) }
    else { s with hostData := some ((s.queue f (Fin.ofNat 64 (off / 4096))).reg (off % 4096)) }
  | .vfBar4 f off =>
    { s with hostData := if (s.vf f).flr || !s.hostUp then none else some (msixReg (s.vf f).msix off) }

end Sys2Proof.Machine
end

