-- ==== Sys2Proof/Machine/Agenda.lean ====
section
/-! DEFINITION. Which agent moves next: fetching and decoding for C, for the step tables of L, M and S, for Rachis and for
Granary (R53, R55, R57, R58); the clock pass (R5, R86, R306, R312); the other moves of the agenda. -/

namespace Sys2Proof.Machine

/-- What a move comes to: an instruction to execute at a state, or a state. -/
inductive Move where
  | run (i : Instr) (s : State)
  | done (s : State)

/-! ## Fetch -/

/-- How a fetch ends; `wait`: a store that stands before a completed FENCE with an acquire has still to be performed there (R57). -/
inductive Fetched (α : Type) where
  | ok (a : α)
  | fail (f : Fail)
  | wait

/-- A store of C that code must see has still to change some byte of a range (R57). -/
def State.fencedAt (s : State) (t : Tile) (l : Loc) (n : Nat) : Bool :=
  (s.c t).ops.any (fun o => o.fenced && o.loc.overlaps o.width l n)

/-- The `n` bytes of code or table at a pointer, for the tile's task, or the failed check. -/
def State.codeBytes (s : State) (t : Tile) (ptr : Word) (n : Nat) : Fetched (List Byte) × State :=
  match s.access t fetchSpaces .x ptr n 1 with
  | (.ok l, s) =>
    if s.fencedAt t l n then (.wait, s)
    else if s.poisonedAt l n then (.fail ⟨.ecc, 0, some ptr⟩, s)
    else match l with
      | .bulk _ _ pa _ _ => (.ok (s.bulkFor t pa n), s)
      | l => (.ok (s.homeBytes l n), s)
  | (.fail f, s) => (.fail f, s)
  | (.noPlane a _, s) => (.fail ⟨.space, 0, some a⟩, s)

/-- A word of four little-endian bytes. -/
def wordAt32 (bs : List Byte) (o : Nat) : W32 := BitVec.ofNat 32 (fieldAt bs o 4)

/-- The 64-byte block of an address. -/
def blockOf (pc : Word) : Word := pc &&& ~~~(63 : Word)

/-- C drops a block fetched ahead. -/
def State.unfetch (s : State) (t : Tile) (b : Word) : State :=
  s.modC t (fun c => { c with fetched := c.fetched.filter (fun e => e.1 != b) })

/-- The word at C's PC and the word after it in the block: from a block fetched ahead, whose fault is reported now and the block
dropped, or from memory as it stands (R55, R57). -/
def State.fetchC (s : State) (t : Tile) : Fetched (W32 × Option W32) × State :=
  let c := s.c t
  let o := wbits c.pc 0 6
  let cut (bs : List Byte) : W32 × Option W32 := (wordAt32 bs o, if o = 60 then none else some (wordAt32 bs (o + 4)))
  if c.spaceBad then (.fail ⟨.space, 0, some c.pc⟩, s)
  else match c.fetched.find? (fun e => e.1 = blockOf c.pc) with
    | some (_, .bytes bs) => (.ok (cut bs), s)
    | some (_, .fault f) => (.fail f, s.unfetch t (blockOf c.pc))
    | none =>
      match s.codeBytes t (blockOf c.pc) 64 with
      | (.ok bs, s) => (.ok (cut bs), s)
      | (.fail f, s) => (.fail f, s)
      | (.wait, s) => (.wait, s)

/-- C can issue: nothing stops it and it waits for nothing but its own issue. -/
def CSt.canIssue (c : CSt) : Bool :=
  c.stop.isNone &&
  match c.wait with
  | .none => true
  | .retry _ => true
  | .noPlane _ _ _ => true
  | _ => false

/-- The tile's C issues, or takes the queue entry that it waits for; a load of it that waits for a full bin stalls it (R76, R103). -/
def State.moveC (s : State) (t : Tile) : Move :=
  if !((s.tile t).runs && !s.binStall t) then .done s
  else if !(s.c t).canIssue then
    match (s.c t).wait with
    | .entry p => .done (if (s.c t).stop.isNone then s.entryFree p else s)
    | _ => .done s
  else match s.fetchC t with
    | (.wait, s) => .done s
    | (.fail f, s) => .done (s.failC f)
    | (.ok (w, nxt), s) =>
      match decode .c w nxt with
      | .ok i => .run i s
      | .error _ => .run (.illegal w) s

/-- The map of a sequencer's words. -/
def mapOf : Sq → IMap
  | .c => .c
  | .l => .l
  | .m => .m
  | .s => .s

/-- The word of step `n` of a run as memory holds it (R58). -/
def State.tableWord (s : State) (t : Tile) (base : Word) (n : Nat) : Fetched W32 × State :=
  match s.codeBytes t (base + BitVec.ofNat 64 (4 * n)) 4 with
  | (.ok bs, s) => (.ok (wordAt32 bs 0), s)
  | (.fail f, s) => (.fail f, s)
  | (.wait, s) => (.wait, s)

/-- The word that step `n` of a run executes: one that was read ahead while the run waited or ran, or the word that memory holds, a free
choice (R57). -/
def State.stepWord (s : State) (t : Tile) (r : Run) (n : Nat) : Fetched W32 × State :=
  match r.ahead.filter (fun e => e.1 = n) with
  | [] => s.tableWord t r.base n
  | l => match l[s.freeBelow (l.length + 1)]? with
    | some e => (.ok e.2, s.drawn)
    | none => s.drawn.tableWord t r.base n

/-- The words of the step in hand: its own, and the next word of the table when it is an ASET and not at the table's end (R58, R60). -/
def State.stepWords (s : State) (t : Tile) (u : Sq) (r : Run) : Fetched (W32 × Option W32) × State :=
  match s.stepWord t r r.step with
  | (.ok w, s) =>
    match decode (mapOf u) w none, decide (r.step + 1 < r.len) with
    | .error .truncated, true =>
      match s.stepWord t r (r.step + 1) with
      | (.ok w2, s) => (.ok (w, some w2), s)
      | (.fail f, s) => (.fail f, s)
      | (.wait, s) => (.wait, s)
    | _, _ => (.ok (w, none), s)
  | (.fail f, s) => (.fail f, s)
  | (.wait, s) => (.wait, s)

/-- The words that L, M or S executes: a micro-order that has started keeps the words that it was read with. A store to
the table may reach a step or not, as the agenda kept words ahead (R57). -/
def State.fetchStep (s : State) (t : Tile) (u : Sq) (r : Run) : Fetched (W32 × Option W32) × State :=
  match (s.seq t u).started, r.word with
  | some _, some w => (.ok w, s)
  | _, _ => s.stepWords t u r

/-- L, M or S reads the word of a step ahead, of the run that runs or of a run that waits (R57). -/
def State.tableAhead (s : State) (t : Tile) (u : Sq) (k : Option Nat) (n : Nat) : State :=
  if !(s.tile t).runs then s else
  match k with
  | none =>
    match (s.seq t u).run with
    | some r =>
      if r.len ≤ n then s else
      match s.tableWord t r.base n with
      | (.ok w, s) => s.modSeq t u (fun x => { x with run := some { r with ahead := (n, w) :: r.ahead } })
      | _ => s
    | none => s
  | some k =>
    match (s.seq t u).startq[k]? with
    | some (.run base len rep ahead) =>
      if len ≤ n then s else
      match s.tableWord t base n with
      | (.ok w, s) => s.modSeq t u (fun x => { x with startq := x.startq.set k (.run base len rep ((n, w) :: ahead)) })
      | _ => s
    | _ => s

/-- L, M or S issues or goes on with its micro-order. While a push waits for room no later micro-order issues (R82); one that has
issued last of its run, or before a TSTOP takes effect, is waited for. -/
def State.moveSeq (s : State) (t : Tile) (u : Sq) : Move :=
  let goes := (s.tile t).runs && ((s.seq t u).goes && !(s.seq t u).run.any (fun r => r.issued ≠ 0 && (r.last || (s.seq t u).stopping)))
  let s := if goes then s.modLogic t (fun g => g.advance u) else s
  match goes, (s.seq t u).run with
  | true, some r =>
    match s.fetchStep t u r with
    | (.wait, s) => .done s
    | (.fail f, s) => .done (s.failSeq u f)
    | (.ok w, s) =>
      let s := s.modSeq t u (fun x => { x with run := x.run.map (fun r => { r with word := some w }) })
      match decode (mapOf u) w.1 w.2 with
      | .ok i => .run i s
      | .error _ => .run (.illegal w.1) s
  | _, _ => .done s

/-- Rachis issues the micro-op at its program counter (R246, R251). -/
def State.moveRachis (s : State) (t : Tile) : Move :=
  match (s.tile t).runs, (s.rachis t).pass with
  | true, some p =>
    let w := BitVec.ofNat 32 (Mem.num (s.rachis t).store (4 * (p.upc % 4096)) 4)
    match decode .h w none with
    | .ok i => .run i s
    | .error _ => .done (s.trapPass t .illegal none)
  | _, _ => .done s

/-- A Granary core issues (R344). -/
def State.moveGranary (s : State) : Move :=
  if !s.core.running then .done s
  else match s.gFetch with
    | .cap => .done (s.modCore (fun c => c.except 24 0x0A))
    | .bus => .done (s.gExcept 1 s.core.pc)
    | .word w =>
      match decode .g w none with
      | .ok i => .run i s
      | .error _ => .done (s.gExceptOpt 2 (w.setWidth 64))

/-! ## The clock pass -/

/-- A sequencer of the tile is stopped by a trap; the others' stall counters then do not count (R312). -/
def Logic.anyStop (g : Logic) : Bool := g.c.stop.isSome || (g.l.seq.stop.isSome || (g.m.seq.stop.isSome || g.s.seq.stop.isSome))

def CSt.stalls (c : CSt) : Bool :=
  match c.wait with
  | .retry counts => counts
  | _ => false
def SeqSt.stalls (x : SeqSt) : Bool := x.wait = .pop || x.wait = .push

/-- `n` ck pass in a tile's logic: stall counters (R86) and the task's run time (R279). -/
def Logic.tick (g : Logic) (n : Nat) : Logic :=
  let count (b : Bool) (k : Nat) : Nat := if b && !g.anyStop then k + n else k
  { g with
    c := { g.c with stall := count g.c.stalls g.c.stall },
    l := { g.l with seq := { g.l.seq with stall := count g.l.seq.stalls g.l.seq.stall } },
    m := { g.m with seq := { g.m.seq with stall := count g.m.seq.stalls g.m.seq.stall } },
    s := { g.s with seq := { g.s.seq with stall := count g.s.seq.stalls g.s.seq.stall } },
    task := g.task.map (fun k => { k with u := k.u + n }) }

/-- What is kept of the clock that has passed goes (R28, R115). -/
def TileSt.newClock (x : TileSt) : TileSt :=
  { x with wrote := [], logic := { x.logic with vec := { x.logic.vec with fresh := 0 } } }

def TileSt.tick (x : TileSt) (n : Nat) : TileSt :=
  let x := if n = 0 then x else x.newClock
  if x.pwr = .on && x.freezing.isNone then
    { x with clocks := x.clocks + n, logic := if x.logic.task.isSome then x.logic.tick n else x.logic }
  else x

/-- `n` ck pass; the 1588 discipline slews DTIME by `slew`, by at most one part in ten thousand (R306). -/
def State.tick (s : State) (n : Nat) (slew : Int) : State :=
  let d := n * ckTime s.pf.eff
  let lim : Int := ((d / 10000 : Nat) : Int)
  let d := ((d : Int) + max (-lim) (min lim slew)).toNat + s.dfrac
  { s with ck := s.ck + n, dtime := s.dtime + d / 24, dfrac := d % 24, tiles := vecOf 64 (fun i => (vGet s.tiles i).tick n) }

/-! ## The other moves -/

/-- C fetches a block ahead; a fault met ahead poisons the block and is not reported now (R55). -/
def State.prefetch (s : State) (t : Tile) (b : Word) : State :=
  if !(s.tile t).runs then s else
  let keep (s : State) (x : CodeBlock) : State :=
    s.modC t (fun c => { c with fetched := (blockOf b, x) :: c.fetched.filter (fun e => e.1 != blockOf b) })
  match s.codeBytes t (blockOf b) 64 with
  | (.ok bs, s) => keep s (.bytes bs)
  | (.fail f, s) => keep s (.fault f)
  | (.wait, s) => s

/-- The first cycle whose firing of an entry lies at or after a time. -/
def firstCycle (now cyc epoch off : Nat) : Nat := if cyc = 0 then 0 else (now - (epoch + off) + cyc - 1) / cyc

/-- The clocks that may pass, of `n`: no flit of an exchange step leaves or lands late, and no step ends late (R138, R275). -/
def State.clockRoom (s : State) (n : Nat) : Nat :=
  (List.finRange 40).foldl (fun n p => (s.part p).insts.foldl (fun n i => i.exchDue.elim n (fun d => min n (d - s.ck))) n) n

/-- The context registers and tables of a partition as Granary's firmware writes them (R226, R232, R234, R286, R307, R310). A time-triggered
table has at most 256 entries, each with an OFFSET below CYC (R286). -/
def State.setContext (s : State) (p : PartId) (x : FirmwareCtx) : State :=
  s.modPart p (fun y => { y with
    ctx := vecOf 8 (fun i => (x.ctx.getD i 0) &&& 0xFFFFFFFFFFC0), trapq := x.trapq &&& 0xFFFFFFFFFFFC0,
    tqflag := x.tqflag &&& 0x80000000003F0FFF, clean := x.clean, ttCyc := x.ttCyc, ttEpoch := x.ttEpoch,
    tt := ((x.tt.filter (fun e => e.1 < x.ttCyc)).take 256).map (fun e =>
      { off := e.1, stream := e.2, next := firstCycle s.dtime x.ttCyc x.ttEpoch e.1 }),
    collGroups := x.collGroups, layers := x.layers.map (fun l => { base := l.1, layers := l.2.1, wrap := l.2.2, hot := [] }),
    closed := x.closed })

/-- The header of a new checkpoint area (R331). -/
def ckptHeader (size : Nat) : List Byte :=
  leBytes 4 0x4B504843 ++ (leBytes 4 size ++ (leBytes 8 64 ++ (leBytes 4 0 ++ List.replicate 44 0)))
/-- A new checkpoint area is set up: its header, once every byte of it is mapped; none when it cannot be. -/
def State.newCkpt (s : State) (p : PartId) (size : Nat) : Option State :=
  let a := s.ckptVa p
  if a = 0 then some s
  else if size < 64 || (s.hwPieces p a (0x10000 * size)).isNone then none
  else some (s.hwWrite p a (ckptHeader size))

/-- Granary's firmware writes a partition's context. A configuration in which a byte of a structure of R421 is not mapped is refused; while
controller 0 is in trial none is written (R358). Blocks that it adds to the clean pool serve the waiters (R238). -/
def State.writeContext (s : State) (p : PartId) (x : FirmwareCtx) : State :=
  if s.inTrial 0 then s else
  let s' := s.setContext p x
  match if s'.ckptVa p = s.ckptVa p then some s' else s'.newCkpt p x.ckptSize with
  | none => s
  | some s' =>
    if (s'.structures p).any (fun r => (s'.hwPieces p r.1 r.2).isNone) then s
    else (s'.kvPool p).elim s' (fun k => s'.kvWake p k)

/-- The move of one agenda entry. -/
def State.choose (s : State) : Pick → Move
  | .seq t .c => ({ s with cur := t, curSq := .c } : State).moveC t
  | .seq t u => ({ s with cur := t, curSq := u } : State).moveSeq t u
  | .rachis t => ({ s with cur := t } : State).moveRachis t
  | .granary k => ({ s with curCore := k } : State).moveGranary
  | .event i a => if i.wfIn .e then .run i { s with ev := a, cur := a.t, curSq := a.u } else .done s
  | .clock n slew => .done (if s.pf.cold then s else s.tick (s.clockRoom n) slew)
  | .prefetch t b => .done (s.prefetch t b)
  | .unfetch t b => .done (s.unfetch t b)
  | .readAhead t u ptr n => .done (s.readAhead t u ptr n)
  | .remoteWrite d o bs bad => .done (if d = s.fabric.own then s else s.modFab (fun f => f.remoteWrite (remoteAt d o) bs bad))
  | .tableAhead t u k n => .done (s.tableAhead t u k n)
  | .tbDrop t k => .done (s.modTile t (fun x => { x with tb := x.tb.eraseIdx k }))
  | .dieTbDrop k => .done { s with dieTb := s.dieTb.eraseIdx k }
  | .lineDrop t k => .done (s.modTile t (fun x => { x with lines := x.lines.eraseIdx k }))
  | .frontEnd f q => .done (s.frontEnd f q)
  | .junction tj => .done (if s.sensed then s.modPf (fun x => { x with tj := tj }) else s)
  | .hostRead r => .done (s.hostRead r)
  | .pfFlr => .done s.pfFlr
  | .hostWrite b bs => .done { s with host := Mem.write s.host b bs }
  | .unpark p n c r => .done (s.unpark p n c r)
  | .firmware p x => .done (s.writeContext p x)

/-- The agenda's head, and the state without it; the idle pick when the agenda is empty. -/
def State.nextPick (s : State) : Pick × State :=
  match s.schedule with
  | p :: r => (p, { s with schedule := r })
  | [] => (s.idlePick, s)

end Sys2Proof.Machine
end

