-- ==== Sys2Proof/Machine/Vector.lean ====
section
/-! DEFINITION. The vector micro-orders: arithmetic, bitwise, comparison, special functions, reductions, rearrangement,
conversions, MX quantisation, predicates, transfers (R153–R181). -/

namespace Sys2Proof.Machine

/-! ## Lanes -/

/-- Element `j` of width `w`. -/
def lane (w : Nat) (v : VReg) (j : Nat) : Nat := v.toNat / 2 ^ (w * j) % 2 ^ w

/-- A register from its elements, with the flags that they raise. -/
def lanesF (w : Nat) (f : Nat → Nat × FFlags) : VReg × FFlags :=
  let r := (List.range (4096 / w)).foldr (fun j (a : Nat × FFlags) => let y := f j; (a.1 * 2 ^ w + y.1 % 2 ^ w, a.2 ||| y.2)) (0, 0)
  (BitVec.ofNat 4096 r.1, r.2)
def lanes (w : Nat) (f : Nat → Nat) : VReg := (lanesF w (fun j => (f j, 0))).1

/-- The pattern of R153: active lanes computed, the others kept or zeroed. -/
def VecSt.masked (x : VecSt) (k : BitVec 3) (old : VReg) (w : Nat) (f : Nat → Nat × FFlags) : VReg × FFlags :=
  lanesF w (fun j => if x.on k j then f j else (if x.zero then 0 else lane w old j, 0))

/-- The types of an entry. -/
def tyNum (x : VecSt) : Bool := x.ty ≤ 8
def tyAny (x : VecSt) : Bool := x.ty ≤ 10
def tyHalf (x : VecSt) : Bool := x.ty = 6 || x.ty = 7
def tyFloat (x : VecSt) : Bool := 6 ≤ x.ty && x.ty ≤ 8
def tyWide (x : VecSt) : Bool := x.ty ≤ 3 || (x.ty = 6 || x.ty = 7)
def tySmallInt (x : VecSt) : Bool := x.ty ≤ 3

/-- A result in one register. -/
def VecSt.give (x : VecSt) (d : Reg) (r : VReg × FFlags) (bad : Bool) : VRes := ⟨x.setV d.toNat r.1 bad, r.2, 0⟩

/-! ## Element-wise arithmetic (R161–R163) -/

/-- The operations of majors 0x02–0x10. -/
inductive VFn where
  | add | sub | mul | fma | fms | min | max | and | or | xor | shl | shr | sar | abs | neg
  deriving DecidableEq, Repr

/-- The arithmetic operations on a floating-point type. -/
def fpFn (fn : VFn) (f : FpFmt) (mode : Nat) (sat : Bool) (a b d : Nat) : Nat × FFlags :=
  let va := f.read a
  let vb := f.read b
  let nv (r : Nat × FFlags) : Nat × FFlags := (r.1, r.2 ||| (if va.isSig || vb.isSig then fNV else 0))
  match fn with
  | .add => f.deliver mode sat (fpSum mode [va, vb])
  | .sub => f.deliver mode sat (fpSum mode [va, vb.neg])
  | .mul => f.deliver mode sat (va.mul vb)
  | .fma => f.deliver mode sat (fpFma mode false va vb (f.read d))
  | .fms => f.deliver mode sat (fpFma mode true va vb (f.read d))
  | .min => nv (f.deliver mode sat (fpPick false va vb))
  | .max => nv (f.deliver mode sat (fpPick true va vb))
  | .abs => (a % 2 ^ (f.w - 1), 0)
  | .neg => (a ^^^ 2 ^ (f.w - 1), 0)
  | _ => (a, 0)

/-- The same on an integer type. -/
def intFn (fn : VFn) (ty : Nat) (sat : Bool) (a b d : Nat) : Nat × FFlags :=
  let x := typeInt ty a
  let y := typeInt ty b
  let z := typeInt ty d
  let r : Int := match fn with
    | .add => x + y
    | .sub => x - y
    | .mul => x * y
    | .fma => x * y + z
    | .fms => z - x * y
    | .min => min x y
    | .max => max x y
    | .abs => (x.natAbs : Int)
    | .neg => -x
    | _ => x
  (typeNarrow ty sat r, 0)

/-- The bitwise operations and shifts: patterns of width w, whatever the type. -/
def bitFn (fn : VFn) (w a b : Nat) : Nat :=
  match fn with
  | .and => a &&& b
  | .or => a ||| b
  | .xor => a ^^^ b
  | .shl => if b < w then a * 2 ^ b % 2 ^ w else 0
  | .shr => if b < w then a / 2 ^ b else 0
  | .sar => (intSigned w a / (2 : Int) ^ min b w % (2 : Int) ^ w).toNat
  | _ => a

def VFn.isBit (fn : VFn) : Bool :=
  match fn with
  | .and | .or | .xor | .shl | .shr | .sar => true
  | _ => false

/-- A predicated element-wise micro-order of one or two sources. -/
def State.vElem (s : State) (fn : VFn) (p q : BitVec 3) (d a : Reg) (b : Option Reg) (k : BitVec 3) (ma mb : Bool) : Out :=
  s.vOp p q (regV d.toNat) [k.toNat]
    (fun _ => srcA ma a 1 :: (match b with | some b => [srcA mb b 1] | none => []) ++
      (if fn = .fma || fn = .fms then [srcA false d 1] else []))
    true (if fn.isBit then tyAny else tyNum)
    (fun x vs bad _ =>
      let va := vs.getD 0 0
      let vb := vs.getD 1 0
      let old := x.vr d.toNat
      x.give d (x.masked k old x.w (fun j =>
        let ea := lane x.w va j
        let eb := lane x.w vb j
        let ed := lane x.w old j
        if fn.isBit then (bitFn fn x.w ea eb, 0)
        else match typeFp x.ty with
          | some f => fpFn fn f x.mode x.sat ea eb ed
          | none => intFn fn x.ty x.sat ea eb ed)) bad)

def State.vElem2 (s : State) (fn : VFn) (p q : BitVec 3) (d a b : Reg) (k : BitVec 3) (m : BitVec 2) : Out :=
  s.vElem fn p q d a (some b) k (m.getLsbD 0) (m.getLsbD 1)

def execVadd (p q : BitVec 3) (d a b : Reg) (k : BitVec 3) (m : BitVec 2) (s : State) : Out := s.vElem2 .add p q d a b k m
def execVsub (p q : BitVec 3) (d a b : Reg) (k : BitVec 3) (m : BitVec 2) (s : State) : Out := s.vElem2 .sub p q d a b k m
def execVmul (p q : BitVec 3) (d a b : Reg) (k : BitVec 3) (m : BitVec 2) (s : State) : Out := s.vElem2 .mul p q d a b k m
def execVfma (p q : BitVec 3) (d a b : Reg) (k : BitVec 3) (m : BitVec 2) (s : State) : Out := s.vElem2 .fma p q d a b k m
def execVfms (p q : BitVec 3) (d a b : Reg) (k : BitVec 3) (m : BitVec 2) (s : State) : Out := s.vElem2 .fms p q d a b k m
def execVmin (p q : BitVec 3) (d a b : Reg) (k : BitVec 3) (m : BitVec 2) (s : State) : Out := s.vElem2 .min p q d a b k m
def execVmax (p q : BitVec 3) (d a b : Reg) (k : BitVec 3) (m : BitVec 2) (s : State) : Out := s.vElem2 .max p q d a b k m
def execVand (p q : BitVec 3) (d a b : Reg) (k : BitVec 3) (m : BitVec 2) (s : State) : Out := s.vElem2 .and p q d a b k m
def execVor (p q : BitVec 3) (d a b : Reg) (k : BitVec 3) (m : BitVec 2) (s : State) : Out := s.vElem2 .or p q d a b k m
def execVxor (p q : BitVec 3) (d a b : Reg) (k : BitVec 3) (m : BitVec 2) (s : State) : Out := s.vElem2 .xor p q d a b k m
def execVshl (p q : BitVec 3) (d a b : Reg) (k : BitVec 3) (m : BitVec 2) (s : State) : Out := s.vElem2 .shl p q d a b k m
def execVshr (p q : BitVec 3) (d a b : Reg) (k : BitVec 3) (m : BitVec 2) (s : State) : Out := s.vElem2 .shr p q d a b k m
def execVsar (p q : BitVec 3) (d a b : Reg) (k : BitVec 3) (m : BitVec 2) (s : State) : Out := s.vElem2 .sar p q d a b k m
def execVabs (p q : BitVec 3) (d a : Reg) (k : BitVec 3) (m : BitVec 1) (s : State) : Out :=
  s.vElem .abs p q d a none k (m.getLsbD 0) false
def execVneg (p q : BitVec 3) (d a : Reg) (k : BitVec 3) (m : BitVec 1) (s : State) : Out :=
  s.vElem .neg p q d a none k (m.getLsbD 0) false

/-! ## Compare, select, move and fill (R164, R165) -/

/-- A comparison of two elements under a condition code. -/
def vcmpLane (ty c a b : Nat) : Bool × FFlags :=
  match typeFp ty with
  | some f =>
    let x := f.read a
    let y := f.read b
    if x.isNan || y.isNan then
      (c = 1 || c = 6, if x.isSig || (y.isSig || (2 ≤ c && c ≤ 5)) then fNV else 0)
    else
      let eq := x.eqv y
      let lt := x.lt y && !eq
      (match c with
        | 0 => eq | 1 => !eq | 2 => lt | 3 => lt || eq | 4 => !(lt || eq) | 5 => !lt | 6 => false | _ => true, 0)
  | none =>
    let x := typeInt ty a
    let y := typeInt ty b
    (match c with
      | 0 => x = y | 1 => x != y | 2 => x < y | 3 => x ≤ y | 4 => y < x | 5 => y ≤ x | 6 => false | _ => true, 0)

/-- VCMP: bits N and above of p_d become 0. -/
def execVcmp (p q : BitVec 3) (d a b : Reg) (c : BitVec 3) (m : BitVec 2) (s : State) : Out :=
  s.vOp p q (regP (d.toNat % 8)) [] (fun _ => [srcA (m.getLsbD 0) a 1, srcA (m.getLsbD 1) b 1]) true tyNum
    (fun x vs _ _ =>
      let r := (List.range x.lanes).foldr (fun j (acc : Nat × FFlags) =>
        let y := vcmpLane x.ty c.toNat (lane x.w (vs.getD 0 0) j) (lane x.w (vs.getD 1 0) j)
        (acc.1 * 2 + (if y.1 then 1 else 0), acc.2 ||| y.2)) (0, 0)
      ⟨x.setP (d.toNat % 8) (BitVec.ofNat 1024 r.1), r.2, 0⟩)

/-- VSEL: every lane is written. -/
def execVsel (p q : BitVec 3) (d a b : Reg) (k : BitVec 3) (m : BitVec 2) (s : State) : Out :=
  s.vOp p q (regV d.toNat) [k.toNat] (fun _ => [srcA (m.getLsbD 0) a 1, srcA (m.getLsbD 1) b 1]) false tyAny
    (fun x vs bad _ =>
      x.give d (lanesF x.w (fun j => (if x.on k j then lane x.w (vs.getD 0 0) j else lane x.w (vs.getD 1 0) j, 0))) bad)

/-- A move of patterns into the active lanes (R22). -/
def VecSt.move (x : VecSt) (d : Reg) (k : BitVec 3) (bad : Bool) (f : Nat → Nat) : VRes :=
  x.give d (x.masked k (x.vr d.toNat) x.w (fun j => (f j, 0))) bad

def execVmov (p q : BitVec 3) (d a : Reg) (k : BitVec 3) (m : BitVec 1) (s : State) : Out :=
  s.vOp p q (regV d.toNat) [k.toNat] (fun _ => [srcA (m.getLsbD 0) a 1]) false tyAny
    (fun x vs bad _ => x.move d k bad (lane x.w (vs.getD 0 0)))

/-- The pattern that VBCI writes. -/
def vbciPat (ty : Nat) (sat : Bool) (i : BitVec 15) : Nat :=
  match typeFp ty with
  | some f => if f.w = 8 then i.toNat % 256 else i.toNat * 2 ^ (f.w - 15)
  | none => typeNarrow ty sat i.toInt
def execVbci (p q : BitVec 3) (d : Reg) (i : BitVec 15) (s : State) : Out :=
  s.vOp p q (regV d.toNat) [] (fun _ => []) false tyAny
    (fun x _ _ _ => x.give d (lanesF x.w (fun _ => (vbciPat x.ty x.sat i, 0))) false)

/-- An integer in the current type (R29, R31). -/
def VecSt.fromInt (x : VecSt) (n : Int) : Nat × FFlags :=
  match typeFp x.ty with
  | some f => f.deliver x.mode x.sat (fpOfInt n)
  | none => (typeNarrow x.ty x.sat n, 0)
def execVidx (p q : BitVec 3) (d : Reg) (k : BitVec 3) (s : State) : Out :=
  s.vOp p q (regV d.toNat) [k.toNat] (fun _ => []) false tyAny
    (fun x _ _ _ => x.give d (x.masked k (x.vr d.toNat) x.w (fun j => x.fromInt (j : Int))) false)

/-! ## Special functions (R166) -/

/-- A result that the enclosure leaves open is a free value, one for each lane. -/
def execVsfu (p q : BitVec 3) (d a f : Reg) (k : BitVec 3) (m : BitVec 1) (s : State) : Out :=
  let fc := s.freeCount
  (fun o : Out => match o with
    | .next t => .next { t with freeCount := t.freeCount + 256 }
    | o => o)
  (s.vOp p q (regV d.toNat) [k.toNat] (fun _ => [srcA (m.getLsbD 0) a 1]) true tyFloat
    (fun x vs bad _ =>
      let fm := (typeFp x.ty).getD fp32
      x.give d (x.masked k (x.vr d.toNat) x.w (fun j =>
        (fm.sfu (Sfu.ofCode f.toNat) x.mode x.sat (fm.read (lane x.w (vs.getD 0 0) j))).getD
          ((Config.freeWord (fc + j)).toNat % 2 ^ fm.w, fNX))) bad))

/-! ## Reductions and scans (R168, R169) -/

/-- The identity of an operation: 0 sum, 1 max, 2 min. -/
def vredEmpty (ty op : Nat) : Nat :=
  match typeFp ty with
  | some f => if op = 0 then 0 else f.sign (op = 1) + f.infPat
  | none => if op = 0 then 0 else ((if op = 1 then typeLo ty else typeHi ty) % (2 : Int) ^ typeW ty).toNat

/-- The reduction of a list of elements. -/
def vredList (ty mode : Nat) (sat : Bool) (op : Nat) (l : List Nat) : Nat × FFlags :=
  if l = [] then (vredEmpty ty op, 0)
  else match typeFp ty with
    | some f =>
      let vs := l.map f.read
      if op = 0 then f.deliver mode sat (fpSum mode vs)
      else
        let r := f.deliver mode sat (vs.foldl (fpPick (op = 1)) (.nan false))
        (r.1, r.2 ||| (if vs.any FpVal.isSig then fNV else 0))
    | none =>
      let xs := l.map (typeInt ty)
      let r : Int := match op with
        | 0 => xs.foldl (· + ·) 0
        | 1 => xs.foldl max (xs.headD 0)
        | _ => xs.foldl min (xs.headD 0)
      (typeNarrow ty sat r, 0)

def execVred (p q : BitVec 3) (d a f : Reg) (k : BitVec 3) (m : BitVec 1) (s : State) : Out :=
  s.vOp p q (regV d.toNat) [k.toNat] (fun _ => [srcA (m.getLsbD 0) a 1]) true tyNum
    (fun x vs bad _ =>
      let r := vredList x.ty x.mode x.sat f.toNat
        (((List.range x.lanes).filter (fun j => x.on k j)).map (lane x.w (vs.getD 0 0)))
      x.give d (BitVec.ofNat 4096 r.1, r.2) bad)

def execVscan (p q : BitVec 3) (d a f : Reg) (k : BitVec 3) (m : BitVec 1) (s : State) : Out :=
  s.vOp p q (regV d.toNat) [k.toNat] (fun _ => [srcA (m.getLsbD 0) a 1]) true tyNum
    (fun x vs bad _ =>
      x.give d (x.masked k (x.vr d.toNat) x.w (fun j =>
        vredList x.ty x.mode x.sat f.toNat
          (((List.range (j + 1)).filter (fun i => x.on k i)).map (lane x.w (vs.getD 0 0))))) bad)

/-! ## Rearranging elements (R170–R172) -/

/-- The source of lane `j` of VPERM, if there is one. -/
def vpermIdx (w j b : Nat) : Option Nat :=
  if w = 8 then some (256 * (j / 256) + b) else if b < 4096 / w then some b else none
def execVperm (p q : BitVec 3) (d a b : Reg) (k : BitVec 3) (m : BitVec 2) (s : State) : Out :=
  s.vOp p q (regV d.toNat) [k.toNat] (fun _ => [srcA (m.getLsbD 0) a 1, srcA (m.getLsbD 1) b 1]) false tyAny
    (fun x vs bad _ => x.move d k bad (fun j =>
      match vpermIdx x.w j (lane x.w (vs.getD 1 0) j) with
      | some i => lane x.w (vs.getD 0 0) i
      | none => 0))

/-- A pair v_d, v_{d+1} from a sequence of 2N elements; predicate bit j governs element j of both. -/
def VecSt.pair (x : VecSt) (d : Reg) (k : BitVec 3) (bad : Bool) (c : Nat → Nat) : VRes :=
  let lo := (x.masked k (x.vr d.toNat) x.w (fun j => (c j, 0))).1
  let hi := (x.masked k (x.vr (d.toNat + 1)) x.w (fun j => (c (x.lanes + j), 0))).1
  ⟨(x.setV d.toNat lo bad).setV (d.toNat + 1) hi bad, 0, 0⟩
def execVzip (p q : BitVec 3) (d a b : Reg) (k : BitVec 3) (m : BitVec 2) (s : State) : Out :=
  s.vOp p q (regVs d.toNat 2) [k.toNat] (fun _ => [srcA (m.getLsbD 0) a 1, srcA (m.getLsbD 1) b 1]) false tyAny
    (fun x vs bad _ => x.pair d k bad (fun i => lane x.w (vs.getD (i % 2) 0) (i / 2)))
def execVunzip (p q : BitVec 3) (d a b : Reg) (k : BitVec 3) (m : BitVec 2) (s : State) : Out :=
  s.vOp p q (regVs d.toNat 2) [k.toNat] (fun _ => [srcA (m.getLsbD 0) a 1, srcA (m.getLsbD 1) b 1]) false tyAny
    (fun x vs bad _ => x.pair d k bad (fun i =>
      let odd := i / x.lanes
      let r := i % x.lanes
      lane x.w (vs.getD (2 * r / x.lanes) 0) (2 * r % x.lanes + odd)))
def execVslide (p q : BitVec 3) (d a b : Reg) (k : BitVec 3) (m : BitVec 2) (s : State) : Out :=
  s.vOp p q (regV d.toNat) [k.toNat] (fun _ => [srcA (m.getLsbD 0) a 1, srcA (m.getLsbD 1) b 1]) false tyAny
    (fun x vs bad _ => x.move d k bad (fun j =>
      let i : Int := (j : Int) + intSigned x.w (lane x.w (vs.getD 1 0) 0)
      if 0 ≤ i && i < (x.lanes : Int) then lane x.w (vs.getD 0 0) i.toNat else 0))

/-! ## Conversions (R173–R175) -/

/-- One element from a source type to a target type. Between integer types of one width it is a narrowing (the model's choice: R31 speaks
of widening and narrowing alone, and R173 admits it). -/
def convert (st ty mode : Nat) (sat : Bool) (pat : Nat) : Nat × FFlags :=
  match typeFp st, typeFp ty with
  | some f, some g => g.deliver mode sat (f.read pat)
  | some f, none =>
    let r := fpToInt mode (typeLo ty) (typeHi ty) (f.read pat)
    ((r.1 % (2 : Int) ^ typeW ty).toNat, r.2)
  | none, some g => g.deliver mode sat (fpOfInt (typeInt st pat))
  | none, none =>
    let x := typeInt st pat
    (if typeW st < typeW ty then (x % (2 : Int) ^ typeW ty).toNat else typeNarrow ty sat x, 0)

/-- The widths of a source as the register groups of R173 count them: a 6-bit source widens as a 4-bit one does. -/
def convW (st : Nat) : Nat := if typeW st = 6 then 4 else typeW st
/-- The group size of a pair, 0 for a pair that VCVT does not admit; 6-bit types go to 8-bit ones only. -/
def vcvtK (st ty : Nat) : Nat :=
  let ws := convW st
  let wt := typeW ty
  if st = 15 || 10 < ty then 0
  else if typeW st = 6 && wt ≠ 8 then 0
  else if wt = ws then 1
  else if ws < wt then (if wt = 2 * ws then 2 else if wt = 4 * ws then 4 else 0)
  else if ws = 2 * wt then 2 else if ws = 4 * wt then 4 else 0

/-- The 6-bit element `i` of a register (R20); none beyond the 680th. -/
def sixAt (v : VReg) (i : Nat) : Option Nat := if i < 680 then some (v.toNat / 2 ^ (24 * (i / 4) + 6 * (i % 4)) % 64) else none

/-- VCVT: a widening writes element i to register d + (i mod k) at i div k, a narrowing reads so (R155). -/
def vcvtEff (d : Reg) (t : Reg) (k : BitVec 3) (x : VecSt) (vs : List VReg) (bad : Bool) : VRes :=
  let st := t.toNat
  let g := vcvtK st x.ty
  let one := convert st x.ty x.mode x.sat
  if convW st ≤ x.w then
    (List.range g).foldl (fun (r : VRes) h =>
      let y := lanesF x.w (fun j =>
        let i := g * j + h
        let old := if x.zero then 0 else lane x.w (x.vr (d.toNat + h)) j
        if typeW st = 6 then
          match sixAt (vs.getD 0 0) i with
          | some e => if x.on k i then one e else (old, 0)
          | none => (0, 0)
        else if x.on k i then one (lane (typeW st) (vs.getD 0 0) i) else (old, 0))
      ⟨r.x.setV (d.toNat + h) y.1 bad, r.flags ||| y.2, 0⟩) ⟨x, 0, 0⟩
  else
    x.give d (x.masked k (x.vr d.toNat) x.w (fun j => one (lane (typeW st) (vs.getD (j % g) 0) (j / g)))) bad

/-- Whether the pair is admitted and d, and an a that names a v register, are multiples of its group size (R173). -/
def vcvtOk (d a t : Reg) (stream : Bool) (x : VecSt) : Bool :=
  let g := vcvtK t.toNat x.ty
  g ≠ 0 &&
  (d.toNat % g = 0 && (stream || a.toNat % g = 0))

def execVcvt (p q : BitVec 3) (d a t : Reg) (k : BitVec 3) (m : BitVec 1) (s : State) : Out :=
  s.vOp p q (regVs d.toNat 4) [k.toNat]
    (fun x => [srcA (m.getLsbD 0) a (if convW t.toNat ≤ x.w then 1 else vcvtK t.toNat x.ty)]) true
    (vcvtOk d a t (m.getLsbD 0)) (fun x vs bad _ => vcvtEff d t k x vs bad)

/-- The doubled type of a widening instruction. -/
def wideTy (ty : Nat) : Nat := if ty = 6 || ty = 7 then 8 else ty + 2

/-- VWMUL and VWADD: the pair of R155; the predicate is indexed by the narrow element. -/
def State.vWiden (s : State) (mul : Bool) (p q : BitVec 3) (d a b : Reg) (k : BitVec 3) (m : BitVec 2) : Out :=
  s.vOp p q (regVs d.toNat 2) [k.toNat] (fun _ => [srcA (m.getLsbD 0) a 1, srcA (m.getLsbD 1) b 1]) true tyWide
    (fun x vs bad _ =>
      let wt := wideTy x.ty
      let one (i : Nat) : Nat × FFlags :=
        let ea := lane x.w (vs.getD 0 0) i
        let eb := lane x.w (vs.getD 1 0) i
        match typeFp x.ty with
        | some f =>
          let va := f.read ea
          let vb := f.read eb
          fp32.deliver x.mode x.sat (if mul then va.mul vb else fpSum x.mode [va, vb])
        | none =>
          let u := typeInt x.ty ea
          let v := typeInt x.ty eb
          (typeNarrow wt false (if mul then u * v else u + v), 0)
      let reg (h : Nat) : VReg × FFlags := lanesF (typeW wt) (fun j =>
        let i := 2 * j + h
        if x.on k i then one i else (if x.zero then 0 else lane (typeW wt) (x.vr (d.toNat + h)) j, 0))
      ⟨(x.setV d.toNat (reg 0).1 bad).setV (d.toNat + 1) (reg 1).1 bad, (reg 0).2 ||| (reg 1).2, 0⟩)
def execVwmul (p q : BitVec 3) (d a b : Reg) (k : BitVec 3) (m : BitVec 2) (s : State) : Out := s.vWiden true p q d a b k m
def execVwadd (p q : BitVec 3) (d a b : Reg) (k : BitVec 3) (m : BitVec 2) (s : State) : Out := s.vWiden false p q d a b k m

/-- A number divided by a power of two and rounded to an integer. -/
def shiftRound (mode : Nat) (x : Int) (c : Nat) : Int :=
  let n := (roundAt mode (x < 0) x.natAbs 0 c).1
  if x < 0 then -(n : Int) else n
def execVnarr (p q : BitVec 3) (d a b : Reg) (k : BitVec 3) (m : BitVec 2) (s : State) : Out :=
  s.vOp p q (regV d.toNat) [k.toNat] (fun _ => [srcA (m.getLsbD 0) a 2, srcA (m.getLsbD 1) b 1]) true tySmallInt
    (fun x vs bad _ =>
      let wt := wideTy x.ty
      x.give d (x.masked k (x.vr d.toNat) x.w (fun j =>
        let v := typeInt wt (lane (typeW wt) (vs.getD (j % 2) 0) (j / 2))
        let c := min (lane x.w (vs.getD 2 0) j) (2 * x.w)
        (typeNarrow x.ty x.sat (shiftRound x.mode v c), 0))) bad)

/-! ## MX quantisation (R176, R177) -/

/-- VMXQ: field b names the scale register. -/
def execVmxq (p q : BitVec 3) (d a b : Reg) (k : BitVec 3) (m : BitVec 1) (s : State) : Out :=
  s.vOp p q (regV d.toNat ||| regV b.toNat) [k.toNat] (fun _ => [srcA (m.getLsbD 0) a 4]) true tyHalf
    (fun x vs bad _ =>
      let f := (typeFp x.ty).getD fp16
      let val (i : Nat) : FpVal :=
        if x.on k (i % 256) then f.read (lane 16 (vs.getD (i / 256) 0) (i % 256)) else .fin false 0 0
      let blocks := (List.range 32).map (fun n => mxQuant x.mode ((List.range 32).map (fun j => val (32 * n + j))))
      let payload := blocks.foldr (fun r (acc : Nat) => r.2.1.foldr (fun c (y : Nat) => y * 16 + c) acc) 0
      let scales := blocks.foldr (fun r (acc : Nat) => acc * 256 + r.1) 0
      ⟨(x.setV b.toNat (BitVec.ofNat 4096 scales) bad).setV d.toNat (BitVec.ofNat 4096 payload) bad,
        blocks.foldl (fun a r => a ||| r.2.2) 0, 0⟩)

def execVmxd (p q : BitVec 3) (d a b : Reg) (k : BitVec 3) (m : BitVec 2) (s : State) : Out :=
  s.vOp p q (regVs d.toNat 4) [k.toNat] (fun _ => [srcA (m.getLsbD 0) a 1, srcA (m.getLsbD 1) b 1]) true tyHalf
    (fun x vs bad _ =>
      let f := (typeFp x.ty).getD fp16
      (List.range 4).foldl (fun (r : VRes) h =>
        let y := x.masked k (x.vr (d.toNat + h)) 16 (fun j =>
          let i := 256 * h + j
          f.deliver x.mode x.sat ((e2m1.read (lane 4 (vs.getD 0 0) i)).scale (e8m0 (lane 8 (vs.getD 1 0) (i / 32)))))
        ⟨r.x.setV (d.toNat + h) y.1 bad, r.flags ||| y.2, 0⟩) ⟨x, 0, 0⟩)

/-! ## Predicates (R178, R179) -/

/-- The lowest set bit of the first `n` bits. -/
def firstBit (v : Nat) (n : Nat) : Option Nat := (List.range n).find? (fun i => v.testBit i)

/-- The functions of PLOG. -/
def plogVal (fn w : Nat) (a b : PReg) : PReg :=
  match fn with
  | 0 => a &&& b
  | 1 => a ||| b
  | 2 => a ^^^ b
  | 3 => a &&& ~~~b
  | 4 => ~~~a
  | 5 => BitVec.ofNat 1024 ((List.range 512).foldr (fun i (acc : Nat) => acc * 2 + (if a.getLsbD (i / (w / 8)) then 1 else 0)) 0)
  | _ => match firstBit a.toNat (4096 / w) with
    | some i => 1#1024 <<< i
    | none => 0
def execPlog (p q : BitVec 3) (d a b : Reg) (f : BitVec 3) (s : State) : Out :=
  s.vOp p q (regP (d.toNat % 8)) (if f.toNat < 4 then [a.toNat % 8, b.toNat % 8] else [a.toNat % 8]) (fun _ => []) false tyAny
    (fun x _ _ _ => ⟨x.setP (d.toNat % 8) (plogVal f.toNat x.w (x.pr (a.toNat % 8)) (x.pr (b.toNat % 8))), 0, 0⟩)
def execPcnt (p q : BitVec 3) (a : Reg) (s : State) : Out :=
  s.vOp p q 0 [a.toNat % 8] (fun _ => []) false tyAny
    (fun x _ _ _ =>
      ⟨x, 0, BitVec.ofNat 64 ((List.range x.lanes).filter (fun j => (x.pr (a.toNat % 8)).getLsbD j)).length⟩)

/-! ## Transfers (R180, R181) and VCFG (R160) -/

def execVtos (p q : BitVec 3) (a : Reg) (k : BitVec 3) (m : BitVec 1) (s : State) : Out :=
  s.vOp p q 0 [k.toNat] (fun _ => [srcA (m.getLsbD 0) a 1]) true tyAny
    (fun x vs _ _ =>
      ⟨x, 0, match (List.range x.lanes).find? (fun j => x.on k j) with
        | some j => BitVec.ofNat 64 (lane x.w (vs.getD 0 0) j)
        | none => 0x8000000000000000⟩)
def execVfrs (p q : BitVec 3) (d : Reg) (k : BitVec 3) (s : State) : Out :=
  s.vOp p q (regV d.toNat) [k.toNat] (fun _ => []) false tyAny
    (fun x _ _ tok => x.move d k false (fun _ => tok.toNat % 2 ^ x.w))
def execVqpop (p q : BitVec 3) (d a c : Reg) (k : BitVec 3) (s : State) : Out :=
  s.vOp p q (regV d.toNat) [k.toNat] (fun _ => [srcA true a (c.toNat + 1)]) false tyAny
    (fun x vs bad _ => x.move d k bad (lane x.w (vs.getLastD 0)))
def execVcfg (p q : BitVec 3) (i : BitVec 8) (s : State) : Out :=
  s.mIssue ⟨0, 0⟩ false p (fun _ s => (s.modVec s.cur (fun x => { x with vcfg := i })).mDone q 0)

end Sys2Proof.Machine
end

