-- ==== Sys2Proof/Machine/Matrix.lean ====
section
/-! DEFINITION. The matrix engine: configuration, staging and weight streams, MMA and SCOUT group by group, the epilogue pipe, tile
masks, and the events that finish matrix operations (R33–R41, R185–R207). -/

namespace Sys2Proof.Machine

/-! ## Configuration (R186, R188) -/

def MatSt.shape (x : MatSt) : Nat := bitsOf x.mmode.toNat 13 2
def MatSt.afmt (x : MatSt) : Nat := bitsOf x.mmode.toNat 10 3
def MatSt.bsrc (x : MatSt) : Nat := bitsOf x.mmode.toNat 8 2

/-- The pair of formats is one of R188. -/
def pairOk (afmt bsrc : Nat) : Bool :=
  match afmt, bsrc with
  | 0, 0 | 1, 0 | 5, 0 | 3, 0 | 2, 1 | 4, 2 => true
  | _, _ => false

/-- Output rows and columns of a shape (R185). -/
def shapeRows (sh : Nat) : Nat := if sh = 2 then 256 else if sh = 3 then 512 else 128
def shapeCols (sh : Nat) : Nat := if sh = 1 then 512 else if sh = 2 then 256 else 128
/-- Groups of a segment (R189). -/
def segGroups (sh afmt : Nat) : Nat := 65536 / shapeRows sh / (if afmt = 3 || afmt = 4 then 64 else 32)

/-- Rows and columns of a count register (R95). -/
def cntRows (n : Word) : Nat := wbits n 16 10
def cntCols (n : Word) : Nat := wbits n 0 10

/-- A matrix operation: what the engine accepts and finishes. -/
def MAct.isOp : MAct → Bool
  | .none => false
  | .slots _ => false
  | _ => true
/-- Operations that the engine has accepted and not finished (R206). -/
def Logic.engineBusy (g : Logic) : Nat := (g.m.list.filter (fun e => !e.done && e.act.isOp)).length

/-! ## Operand values (R20, R34, R189, R191) -/

/-- The 32 values of an A row's group. -/
def MatOp.aRow (o : MatOp) (slot : Mem) (r g : Nat) : List FpVal :=
  let sz := 65536 / shapeRows o.shape
  let base := r * sz
  let byte (i : Nat) : Nat := (Mem.byte slot (base + 32 * g + i)).toNat
  let half (i : Nat) : Nat := Mem.num slot (base + 64 * g + 2 * i) 2
  let nib (i : Nat) : Nat := (Mem.byte slot (base + 16 * g + i / 2)).toNat / 16 ^ (i % 2) % 16
  let scale := e8m0 (Mem.byte slot (base + sz / 2 + g)).toNat
  (List.range 32).map (fun i =>
    match o.afmt with
    | 0 => e4m3.read (byte i)
    | 1 => e5m2.read (byte i)
    | 2 => fpOfInt (intSigned 8 (byte i))
    | 3 => bf16.read (half i)
    | 4 => fp16.read (half i)
    | _ => (e2m1.read (nib i)).scale scale)

/-- A byte of the weight buffer; addresses wrap. -/
def wByte (w : Mem) (a : Nat) : Nat := (Mem.byte w (a % 2097152)).toNat

/-- The length of a block by its format code (R34). -/
def blockLen (code : Nat) : Nat :=
  match code with
  | 1 | 2 => 34
  | 3 => 18
  | 4 => 22
  | 5 => 14
  | 6 => 2
  | 7 => 66
  | _ => 0

/-- The sparse expansion of R34 and R35: values by number, the address of the index word. -/
def sparse (w : Mem) (idx : Nat) (v : Nat → FpVal) (k : Nat) : FpVal :=
  let pos (j : Nat) : Nat := wByte w (idx + j / 4) / 4 ^ (j % 4) % 4
  let g := k / 4
  if pos (2 * g + 1) = k % 4 then v (2 * g + 1) else if pos (2 * g) = k % 4 then v (2 * g) else .fin false 0 0

/-- The 32 values of a block at an offset (R33, R34). -/
def blockVals (w : Mem) (o : Nat) : List FpVal :=
  let nib (i : Nat) : Nat := wByte w (o + 2 + i / 2) / 16 ^ (i % 2) % 16
  let val (i : Nat) : FpVal :=
    match wByte w o with
    | 1 => e4m3.read (wByte w (o + 2 + i))
    | 2 => e5m2.read (wByte w (o + 2 + i))
    | 3 => e2m1.read (nib i)
    | 4 => sparse w (o + 18) (fun j => e4m3.read (wByte w (o + 2 + j))) i
    | 5 => sparse w (o + 10) (fun j => e2m1.read (nib j)) i
    | 7 => bf16.read (wByte w (o + 2 + 2 * i) + 256 * wByte w (o + 3 + 2 * i))
    | _ => .fin false 0 0
  let s := e8m0 (wByte w (o + 1))
  (List.range 32).map (fun i => if wByte w o = 6 then .fin false 0 0 else (val i).scale s)

/-- How the fetch of a group's blocks ends: the columns' values, the offset after them, and a block that stops it: its offset, and
whether its code is ill-formed (else refused by the pair). -/
structure ColRes where
  vals : List (List FpVal)
  next : Nat
  bad : Option (Nat × Bool)

/-- Fetches the blocks of `n` columns from an offset (R36, R37, R188). -/
def fetchCols (w : Mem) (afmt : Nat) : Nat → Nat → ColRes
  | 0, o => ⟨[], o, none⟩
  | n + 1, o =>
    let code := wByte w o
    if blockLen code = 0 then ⟨[], o, some (o, true)⟩
    else if (if afmt = 3 then code < 6 else code = 7) then ⟨[], o, some (o, false)⟩
    else
      let r := fetchCols w afmt n ((o + blockLen code) % 2097152)
      ⟨blockVals w o :: r.vals, r.next, r.bad⟩

/-- The columns of a raw operand (R191). -/
def rawCols (w : Mem) (half : Bool) (n o : Nat) : ColRes :=
  let len := if half then 64 else 32
  ⟨(List.range n).map (fun c => (List.range 32).map (fun i =>
      let a := o + c * len
      if half then fp16.read (wByte w (a + 2 * i) + 256 * wByte w (a + 2 * i + 1)) else fpOfInt (intSigned 8 (wByte w (a + i))))),
    (o + n * len) % 2097152, none⟩

def MatOp.cols (o : MatOp) (w : Mem) : ColRes :=
  if o.bsrc = 0 then fetchCols w o.afmt o.vc o.soff else rawCols w (o.bsrc = 2) o.vc o.soff

/-! ## A group step (R38–R40) -/

/-- The group's sum: exact for FP8, MXFP4 and INT8; BF16 and FP16 products are first cut at 2^(E − 66). -/
def groupSum (half : Bool) (ps : List FpVal) : FpVal :=
  if !half then fpSum 0 ps
  else
    let e := (ps.filterMap FpVal.exp2).foldl (fun (a : Option Int) x => some (match a with | some y => max x y | none => x)) none
    match e with
    | none => fpSum 0 ps
    | some e =>
      fpSum 0 (ps.map (fun p => match p with
        | .fin n m x => if x < e - 66 then .fin n (m / 2 ^ (e - 66 - x).toNat) (e - 66) else p
        | p => p))

/-- One group step of an accumulator element. -/
def accStep (int half : Bool) (acc : Nat) (a b : List FpVal) : Nat :=
  let g := groupSum half (List.zipWith FpVal.mul a b)
  if int then
    match g with
    | .fin n m e => ((intSigned 32 acc + alignedAt n m e 0) % (2 : Int) ^ 32).toNat
    | _ => acc
  else match g with
    | .fin n m e =>
      if m = 0 then acc
      else if (fp32.read acc).isNan then 0x7FC00000
      else (fp32.deliver 0 false (fpSum 0 [fp32.read acc, .fin n m e])).1
    | .inf n =>
      if (fp32.read acc).isNan then 0x7FC00000 else (fp32.deliver 0 false (fpSum 0 [fp32.read acc, .inf n])).1
    | .nan _ => 0x7FC00000

/-- The first output row and column of sub-array i (R185). -/
def subOrigin (sh i : Nat) : Nat × Nat :=
  match sh with
  | 1 => (0, 128 * i)
  | 2 => (128 * (i / 2), 128 * (i % 2))
  | 3 => (128 * i, 0)
  | _ => (0, 0)

/-- An accumulator image with each element of its first `rows` rows and `cols` columns replaced. -/
def mapImage (z : Mem) (rows cols : Nat) (f : Nat → Nat → Nat → Nat) : Mem :=
  (List.range rows).foldl (fun (z : Mem) r =>
    Mem.write z (512 * r) ((List.range cols).flatMap (fun c => leBytes 4 (f r c (Mem.num z (512 * r + 4 * c) 4))))) z

/-- Adds a group into the image of sub-array i; `keep c`: a column mask leaves column c alone. -/
def MatOp.addGroup (o : MatOp) (slot : Mem) (g : Nat) (cols : List (List FpVal)) (i : Nat) (keep : Nat → Bool) (z : Mem) : Mem :=
  let (r0, c0) := subOrigin o.shape i
  let rows := min 128 (o.vr - r0)
  let cs := min 128 (min o.vc cols.length - c0)
  mapImage z rows cs (fun r c acc =>
    if keep (c0 + c) then acc
    else accStep (o.afmt = 2) (o.afmt = 3 || o.afmt = 4) acc (o.aRow slot (r0 + r) g) (cols.getD (c0 + c) []))

/-! ## The issue of matrix micro-orders -/

/-- An operation as MMA and SCOUT issue it: what it reads of the configuration (R187). -/
def MatSt.op (x : MatSt) (n : Word) (groups z : Nat) (kuse : Bool) (mask : PReg) (kreg : Nat) : MatOp :=
  { shape := x.shape, afmt := x.afmt, bsrc := x.bsrc, akeep := x.mmode.getLsbD 7, munit := x.mmode.getLsbD 5, koff := x.mkoff.toNat,
    kuse := kuse, mask := mask, kreg := kreg, vr := cntRows n, vc := cntCols n, groups := groups, wptr := x.wptr, z := z, g := 0,
    soff := x.wptr, part := [], taken := false, firstSlot := 0 }

/-- Segments that an operation takes (R190). -/
def MatOp.segments (o : MatOp) : Nat := (o.groups + segGroups o.shape o.afmt - 1) / segGroups o.shape o.afmt

/-- MMA (R194): the checks in order, then the engine accepts the operation. -/
def execMma (p q : BitVec 3) (z k : BitVec 2) (u : BitVec 1) (n : BitVec 3) (g : BitVec 12) (s : State) : Out :=
  let x := s.mat s.cur
  let v := s.vec s.cur
  let o := x.op (vGet v.n n.toNat) (g.toNat + 1) z.toNat (u = 1) (vGet v.k k.toNat) k.toNat
  let use : Use := ⟨if u = 1 then regK k.toNat else 0, if o.shape = 0 then regZ z.toNat else regZs⟩
  s.mIssue use (s.rachisOwns || 4 ≤ (s.logic s.cur).engineBusy) p (fun _ s =>
    if (o.shape ≠ 0 && z ≠ 0) || (shapeRows o.shape < o.vr || (shapeCols o.shape < o.vc || (!pairOk o.afmt o.bsrc ||
        ((o.akeep && 2 < o.segments) || (u = 1 && (o.munit && o.groups % 2 = 1)))))) then s.trapSeq .m .bound 0 none
    else s.mPut q 0 (.mma o) false)

/-- SCOUT (R203). -/
def execScout (p q : BitVec 3) (z : BitVec 2) (n : BitVec 3) (g : BitVec 12) (s : State) : Out :=
  let x := s.mat s.cur
  let o := x.op (vGet (s.vec s.cur).n n.toNat) (g.toNat + 1) z.toNat false 0 0
  s.mIssue ⟨0, if o.shape = 0 then regZ z.toNat else regZs⟩ (s.rachisOwns || 4 ≤ (s.logic s.cur).engineBusy) p (fun _ s =>
    if 1 < o.shape || (o.afmt ≠ 5 || (o.bsrc ≠ 0 || (128 < o.vr || (shapeCols o.shape < o.vc || ((o.akeep && 2 < o.segments) ||
        128 < o.koff % 128 + (o.vc + 63) / 64))))) then s.trapSeq .m .bound 0 none
    else s.mPut q 0 (.scout { o with part := List.replicate 4 [] }) false)

/-- MZERO (R197). -/
def execMzero (p q : BitVec 3) (z : BitVec 2) (n : BitVec 3) (s : State) : Out :=
  let c := vGet (s.vec s.cur).n n.toNat
  s.mIssue ⟨0, regZ z.toNat⟩ (s.rachisOwns || 4 ≤ (s.logic s.cur).engineBusy) p (fun _ s =>
    if 128 < cntRows c || 128 < cntCols c then s.trapSeq .m .bound 0 none
    else s.mPut q 0 (.mzero z.toNat (cntRows c) (cntCols c)) false)

/-- What a write of MMODE does to the A slots: both FREE, the pointer at ASTART (R187). -/
def MatSt.setSlots (x : MatSt) (ptr : Fin 2) : MatSt := { x with slotSt := Vector.replicate 2 .free, slotPtr := ptr }

/-- MCFG (R186, R187): the slots of a write of MMODE wait for the earlier matrix operations. -/
def execMcfg (p q : BitVec 3) (d : Reg) (i : BitVec 15) (s : State) : Out :=
  s.mIssue ⟨0, 0⟩ s.rachisOwns p (fun _ s =>
    let set (f : MatSt → MatSt) : State := (s.modMat s.cur f).mDone q 0
    match d.toNat with
    | 0 =>
      let ptr : Fin 2 := Fin.ofNat 2 (bitsOf i.toNat 6 1)
      if (s.logic s.cur).engineBusy = 0 then set (fun x => ({ x with mmode := i } : MatSt).setSlots ptr)
      else (s.modMat s.cur (fun x => { x with mmode := i })).mPut q 0 (.slots ptr) false
    | 1 => set (fun x => { x with mkoff := i.extractLsb' 0 10 })
    | 2 => set (fun x => { x with mtau := i })
    | 3 => set (fun x => { x with mkcnt := i.extractLsb' 0 7 })
    | _ => set (fun x => { x with mvbase := i.extractLsb' 0 5 }))

/-- WSEL (R192). -/
def execWsel (p q : BitVec 3) (i : BitVec 15) (s : State) : Out :=
  s.mIssue ⟨0, 0⟩ s.rachisOwns p (fun _ s => (s.modMat s.cur (fun x => { x with wptr := i.toNat * 64 })).mDone q 0)
def execWselTok (p q : BitVec 3) (s : State) : Out :=
  s.mIssue ⟨0, 0⟩ s.rachisOwns p (fun v s =>
    if wbits v 21 43 ≠ 0 || wbits v 0 6 ≠ 0 then s.trapSeq .m .bound 0 none
    else (s.modMat s.cur (fun x => { x with wptr := v.toNat })).mDone q 0)

/-- EPSET (R202): poison travels into e_d. -/
def execEpset (p q : BitVec 3) (d a : Reg) (m : BitVec 1) (s : State) : Out :=
  s.vOpOn s.rachisOwns 0 p q (regE (d.toNat % 4)) [] (fun _ => [srcA (m.getLsbD 0) a 1]) false (fun _ => true)
    (fun x vs bad _ =>
      ⟨{ x with e := vSet x.e (d.toNat % 4) (vs.getD 0 0), epoison := setMark x.epoison (d.toNat % 4) bad }, 0, 0⟩)
def execMnop (p q : BitVec 3) (s : State) : Out := s.mIssue ⟨0, 0⟩ s.rachisOwns p (fun _ s => s.mDone q 0)

/-! ## KMASK (R204) -/

/-- A z that holds poison cannot be computed on. -/
def MatSt.zBad (x : MatSt) (z : Nat) : Bool := vGet x.zPoison z != []

/-- KMASK kmax: the FP32 maximum by VMAX's rules. -/
def kmaxLane (z : Mem) (r n old : Nat) : Nat × FFlags :=
  let vs := fp32.read old :: (List.range n).map (fun c => fp32.read (Mem.num z (512 * r + 4 * c) 4))
  ((fp32.deliver 0 false (vs.foldl (fpPick true) (.nan false))).1, if vs.any FpVal.isSig then fNV else 0)
def execKmaskKmax (p q : BitVec 3) (d a : Reg) (s : State) : Out :=
  let x := s.mat s.cur
  s.vOpOn s.rachisOwns (regZ (a.toNat % 4)) p q (regV d.toNat) [] (fun _ => [srcA false d 1]) true (fun _ => true)
    (fun v vs _ _ =>
      v.give d (lanesF 32 (fun r => kmaxLane (vGet x.z (a.toNat % 4)) r (x.mkcnt.toNat + 1) (lane 32 (vs.getD 0 0) r))) (x.zBad (a.toNat % 4)))

/-- Row r votes for a column: z ≥ v − τ in exact arithmetic. -/
def votes (tau : Nat) (z v : FpVal) : Bool :=
  if z.isNan || (z = .inf true || v.isNan) then false
  else !((fpSum 0 [z, .fin false tau (-8)]).lt v && !((fpSum 0 [z, .fin false tau (-8)]).eqv v))
def execKmaskKkeep (p q : BitVec 3) (d a b : Reg) (s : State) : Out :=
  let x := s.mat s.cur
  s.vOpOn s.rachisOwns (regZ (a.toNat % 4)) p q (regK (d.toNat % 4)) [] (fun _ => [srcA false b 1]) true (fun _ => true)
    (fun v vs _ _ =>
      let keep (c : Nat) : Bool := (List.range 128).any (fun r =>
        votes x.mtau.toNat (fp32.read (Mem.num (vGet x.z (a.toNat % 4)) (512 * r + 4 * c) 4)) (fp32.read (lane 32 (vs.getD 0 0) r)))
      let k := (List.range (x.mkcnt.toNat + 1)).foldl (fun (k : PReg) c =>
        setMark k ((128 * (x.mkoff.toNat / 128) + c) % 1024) (keep c)) (vGet v.k (d.toNat % 4))
      ⟨{ v with k := vSet v.k (d.toNat % 4) k }, 0, 0⟩)

/-- A KMASK that only combines mask registers. -/
def State.kSet (s : State) (p q : BitVec 3) (d : Nat) (rd : BitVec 64) (pk : List Nat) (f : VecSt → PReg) : Out :=
  s.vOpOn s.rachisOwns rd p q (regK d) pk (fun _ => []) false (fun _ => true) (fun v _ _ _ => ⟨{ v with k := vSet v.k d (f v) }, 0, 0⟩)

/-- Bits lo … hi of a mask. -/
def bitRange (lo hi : Nat) : PReg := if hi < lo then 0 else BitVec.ofNat 1024 (2 ^ (hi + 1) - 2 ^ lo)
def execKmaskKrange (p q : BitVec 3) (d : Reg) (s : State) : Out :=
  s.mIssue ⟨0, regK (d.toNat % 4)⟩ s.rachisOwns p (fun v s =>
    if wbits v 10 6 ≠ 0 || wbits v 26 38 ≠ 0 then s.trapSeq .m .bound 0 none
    else (s.modVec s.cur (fun x =>
      { x with k := vSet x.k (d.toNat % 4) (vGet x.k (d.toNat % 4) ||| bitRange (wbits v 0 10) (wbits v 16 10)) })).mDone q 0)
def execKmaskKclr (p q : BitVec 3) (d : Reg) (s : State) : Out := s.kSet p q (d.toNat % 4) 0 [] (fun _ => 0)
def execKmaskKor (p q : BitVec 3) (d a : Reg) (s : State) : Out :=
  s.kSet p q (d.toNat % 4) (regK (a.toNat % 4)) [] (fun v => vGet v.k (d.toNat % 4) ||| vGet v.k (a.toNat % 4))
def execKmaskKtop (p q : BitVec 3) (d a : Reg) (s : State) : Out :=
  s.vOpOn s.rachisOwns (regK (a.toNat % 4)) p q (regP (d.toNat % 8)) [] (fun _ => []) false (fun _ => true)
    (fun v _ _ _ => ⟨v.setP (d.toNat % 8) (vGet v.k (a.toNat % 4)), 0, 0⟩)
def execKmaskKfromp (p q : BitVec 3) (d a : Reg) (s : State) : Out :=
  s.kSet p q (d.toNat % 4) 0 [a.toNat % 8] (fun v => v.pr (a.toNat % 8))

/-! ## The epilogue pipe (R198–R201) -/

/-- The parameter block. -/
structure EpBlock where
  bytes : List Byte
def EpBlock.ctrl (b : EpBlock) : Nat := fieldAt b.bytes 0 4
def EpBlock.bit (b : EpBlock) (i : Nat) : Bool := b.ctrl.testBit i
def EpBlock.act (b : EpBlock) : Nat := bitsOf b.ctrl 0 4
def EpBlock.outfmt (b : EpBlock) : Nat := bitsOf b.ctrl 4 4
def EpBlock.round (b : EpBlock) : Nat := bitsOf b.ctrl 8 2
def EpBlock.sat (b : EpBlock) : Bool := b.bit 10
def EpBlock.stride (b : EpBlock) : Nat := fieldAt b.bytes 40 4
def EpBlock.resfmt (b : EpBlock) : Nat := fieldAt b.bytes 44 4
def EpBlock.resSize (b : EpBlock) : Nat := if b.resfmt = 0 then 4 else 2
def epOf (e : VReg) : EpBlock := ⟨vBytes e⟩

/-- A pointer of the block that is checked: LOCAL, a multiple of 64, its extent in task bins. -/
def State.epPtr (s : State) (ptr : Word) (n : Nat) : Bool :=
  s.spaceOk (s.partOf s.cur) localSpace ptr n && (ptr.toNat % 64 = 0 && s.boundOk s.cur ptr n)

/-- The checks of R198. -/
def State.epOk (s : State) (b : EpBlock) (vr : Nat) : Bool :=
  bitsOf b.ctrl 16 16 = 0 && (zeroAt b.bytes 52 460 && (b.outfmt ≤ 8 && (b.act ≤ 5 &&
  ((!b.bit 11 || s.epPtr (wordAt b.bytes 8 8) 512) && ((!b.bit 14 || s.epPtr (wordAt b.bytes 16 8) 512) &&
  ((!b.bit 12 || s.epPtr (wordAt b.bytes 24 8) 512) && (!b.bit 13 ||
    (b.resfmt < 3 && (b.stride % 64 = 0 && s.epPtr (wordAt b.bytes 32 8) 0 &&
      (List.range vr).all (fun r => s.epPtr (wordAt b.bytes 32 8 + BitVec.ofNat 64 (r * b.stride)) (128 * b.resSize)))))))))))

/-- Rows in a chunk (R200). -/
def rowsPer (outfmt : Nat) : Nat :=
  match outfmt with
  | 0 => 1
  | 1 | 2 | 8 => 2
  | 6 => 8
  | _ => 4
/-- Chunks of a drain. -/
def drainChunks (raw : Bool) (outfmt vr : Nat) : Nat :=
  if raw then vr else
    let n := (vr + rowsPer outfmt - 1) / rowsPer outfmt
    if outfmt = 6 then 2 * n else n

/-- MDRAIN (R201). -/
def execMdrain (p q : BitVec 3) (d a b : Reg) (j : BitVec 3) (s : State) : Out :=
  let c := vGet (s.vec s.cur).n j.toNat
  let raw := b = 16
  let e := b.toNat % 4
  let blk := epOf (vGet (s.vec s.cur).e e)
  let z := a.toNat % 4
  let vbase := (s.mat s.cur).mvbase.toNat
  let total := drainChunks raw blk.outfmt (cntRows c)
  let use : Use := ⟨regZ z ||| (if raw then 0 else regE e), if d = 1 then regVs vbase total else 0⟩
  s.mIssue use (s.rachisOwns || 4 ≤ (s.logic s.cur).engineBusy) p (fun _ s =>
    if 128 < cntRows c || (128 < cntCols c || (d = 1 && 32 < total)) then s.trapSeq .m .bound 0 none
    else if !raw && (s.vec s.cur).epoison.getLsbD e then s.trapSeq .m .ecc 0 none
    else if (!raw && !s.epOk blk (cntRows c)) || (2 ≤ d.toNat && (raw || !(blk.outfmt = 7 || blk.outfmt = 8))) then
      s.trapSeq .m .bound 0 none
    else
      (s.mPut q 0 (.drain
        { dest := d.toNat, z := z, e := e, raw := raw, vr := cntRows c, vc := cntCols c, vbase := vbase,
          block := some (vGet (s.vec s.cur).e e), sent := 0, takenS := 0, flags := 0, scales := none, total := total }) false).modLogic
        s.cur Logic.finishDrains)

/-- An FP32 operation of the pipe, rounded by RNE32. -/
def f32Op (v : FpVal) : Nat × FFlags := fp32.deliver 0 false v
def f32Mul (a b : Nat) : Nat × FFlags := f32Op ((fp32.read a).mul (fp32.read b))
def f32Add (a b : Nat) : Nat × FFlags := f32Op (fpSum 0 [fp32.read a, fp32.read b])

/-- A step of the pipe that its control bit enables. -/
def epStep (y : Nat × FFlags) (on : Bool) (f : Nat → Nat × FFlags) : Nat × FFlags :=
  if on then ((f y.1).1, y.2 ||| (f y.1).2) else y

/-- The value y of an element before the conversion (R199); `num` reads a LOCAL number, `free` is the free value of the element. -/
def EpBlock.value (b : EpBlock) (num : Word → Nat → Nat) (free : Nat) (zv r c : Nat) : Nat × FFlags :=
  let ptr (o : Nat) (k : Nat) : Word := wordAt b.bytes o 8 + BitVec.ofNat 64 k
  let y := if b.bit 15 then f32Op (fpOfInt (intSigned 32 zv)) else (zv, 0)
  let y := epStep y true (fun y => f32Mul y (fieldAt b.bytes 4 4))
  let y := epStep y (b.bit 11) (fun y => f32Mul y (num (ptr 8 (4 * c)) 4))
  let y := epStep y (b.bit 14) (fun y => f32Mul y (num (ptr 16 (4 * r)) 4))
  let y := epStep y (b.bit 12) (fun y => f32Add y (num (ptr 24 (4 * c)) 4))
  let sfu (fn : Sfu) (y : Nat) : Nat × FFlags := (fp32.sfu fn 0 false (fp32.read y)).getD (free, fNX)
  let y := epStep y true (fun y =>
    match b.act with
    | 1 => if (fp32.read y).isNan then f32Op (fp32.read y) else f32Op (fpPick true (fp32.read y) (.fin false 0 0))
    | 2 => sfu .gelu y
    | 3 => sfu .silu y
    | 4 => sfu .sigmoid y
    | 5 => sfu .tanh y
    | _ => (y, 0))
  let res := num (ptr 32 (r * b.stride + c * b.resSize)) b.resSize
  let rf := if b.resfmt = 0 then fp32 else if b.resfmt = 1 then bf16 else fp16
  let y := epStep y (b.bit 13) (fun y => f32Op (fpSum 0 [fp32.read y, rf.read res]))
  epStep y (3 ≤ b.outfmt) (fun y => f32Mul y (fieldAt b.bytes 48 4))

/-- The conversion to OUTFMT, MXFP4 apart: the pattern and its size in bytes. -/
def EpBlock.out (b : EpBlock) (y : Nat) : Nat × FFlags :=
  let v := fp32.read y
  let fp (f : FpFmt) : Nat × FFlags := f.deliver b.round b.sat v
  let int (lo hi : Int) (w : Nat) : Nat × FFlags :=
    let r := fpToInt b.round lo hi v
    ((r.1 % (2 : Int) ^ w).toNat, r.2)
  match b.outfmt with
  | 0 => fp fp32
  | 1 => fp bf16
  | 2 => fp fp16
  | 3 => fp e4m3
  | 4 => fp e5m2
  | 5 => int (-128) 127 8
  | 7 => int 0 255 8
  | _ => int 0 1023 16
def outSize (outfmt : Nat) : Nat := if outfmt = 0 then 4 else if outfmt = 1 || (outfmt = 2 || outfmt = 8) then 2 else 1

/-- A row image and, in MXFP4, its four scale bytes (R200). -/
def rowImage (d : Drain) (b : EpBlock) (num : Word → Nat → Nat) (free : Nat → Nat) (z : Mem) (r : Nat) : List Byte × List Byte × FFlags :=
  let val (c : Nat) : Nat × FFlags := b.value num (free (128 * r + c)) (Mem.num z (512 * r + 4 * c) 4) r c
  if b.outfmt = 6 then
    let blocks := (List.range 4).map (fun k =>
      let ys := (List.range 32).map (fun i => if 32 * k + i < d.vc then val (32 * k + i) else (0, 0))
      let m := mxQuant b.round (ys.map (fun y => fp32.read y.1))
      (m, ys.foldl (fun (a : FFlags) y => a ||| y.2) 0))
    (blocks.flatMap (fun m => leBytes 16 (m.1.2.1.foldr (fun c (y : Nat) => y * 16 + c) 0)),
     blocks.map (fun m => BitVec.ofNat 8 m.1.1), blocks.foldl (fun (a : FFlags) m => a ||| (m.1.2.2 ||| m.2)) 0)
  else
    let cells := (List.range 128).map (fun c =>
      if c < d.vc then
        let y := val c
        let o := b.out y.1
        (leBytes (outSize b.outfmt) o.1, y.2 ||| o.2)
      else (List.replicate (outSize b.outfmt) 0, 0))
    (cells.flatMap (·.1), [], cells.foldl (fun (a : FFlags) x => a ||| x.2) 0)

/-- The next chunk of a drain: its bytes, the scale chunk that follows it, its flags. -/
def nextChunk (d : Drain) (b : EpBlock) (num : Word → Nat → Nat) (free : Nat → Nat) (z : Mem) : VReg × Option VReg × FFlags :=
  if d.raw then (vOfBytes (Mem.read z (512 * d.sent) 512), none, 0)
  else match d.scales with
    | some v => (v, none, 0)
    | none =>
      let n := rowsPer b.outfmt
      let k := if b.outfmt = 6 then d.sent / 2 else d.sent
      let rows := ((List.range n).filter (fun i => n * k + i < d.vr)).map (fun i => rowImage d b num free z (n * k + i))
      (vOfBytes (rows.flatMap (·.1)), if b.outfmt = 6 then some (vOfBytes (rows.flatMap (·.2.1))) else none,
       rows.foldl (fun (a : FFlags) r => a ||| r.2.2) 0)

/-- The poison that the pipe would compute on. -/
def State.epPoison (s : State) (t : Tile) (d : Drain) (b : EpBlock) : Bool :=
  let at_ (on : Bool) (o n : Nat) : Bool := on && s.poisonedAt (.slice t (sliceOff (wordAt b.bytes o 8))) n
  (s.mat t).zBad d.z || (!d.raw && (at_ (b.bit 11) 8 512 || (at_ (b.bit 14) 16 512 || (at_ (b.bit 12) 24 512 ||
    (b.bit 13 && (List.range d.vr).any (fun r =>
      s.poisonedAt (.slice t (sliceOff (wordAt b.bytes 32 8) + r * b.stride)) (128 * b.resSize)))))))

/-- Delivers a chunk to its destination, when that has room (R201, R242). -/
def Logic.setDrain (g : Logic) (k : Nat) (d : Drain) : Logic :=
  { g with m := { g.m with list := g.m.list.modify k (fun e => { e with act := .drain d }) } }
def State.deliverChunk (s : State) (t : Tile) (k : Nat) (d : Drain) : State :=
  let b := epOf (d.block.getD 0)
  let fc := s.freeCount
  let c := nextChunk d b (fun ptr n => Mem.num (s.tile t).slice (sliceOff ptr) n)
    (fun i => (Config.freeWord (fc + i)).toNat % 2 ^ 32) (vGet (s.mat t).z d.z)
  let d' : Drain := { d with sent := d.sent + 1, scales := c.2.1, flags := d.flags ||| c.2.2 }
  let go (s : State) : State := { s.modLogic t (fun g => g.finishDrains) with freeCount := fc + 16384 }
  if s.epPoison t d b then s.trapMat t k .ecc popDone none
  else match d.dest with
    | 0 =>
      if (s.mat t).sbuf.length < 64 then
        go (s.modLogic t (fun g =>
          let g := g.setDrain k d'
          ({ g with mat := { g.mat with sbuf := g.mat.sbuf ++ [c.1] } } : Logic).estTake))
      else s
    | 1 => go (s.modLogic t (fun g => let g := g.setDrain k d'; { g with vec := g.vec.setV (d.vbase + d.sent) c.1 false }))
    | e =>
      let i := e - 2
      if (vGet (s.tile t).egress i).length < 64 then
        (go ((s.modLogic t (fun g => g.setDrain k d')).modTile t (fun x => { x with egress := vSet x.egress i (vGet x.egress i ++
          [EgChunk.mk c.1 d.vr b.outfmt (d.sent + 1 = d.total)]) }))).encTake (Fin.ofNat 8 i)
      else s

/-- MDRAIN_CHUNK: the next chunk of drain `ev.k` of M's list leaves the pipe; earlier drains come first. -/
def execMdrainChunk (s : State) : Out :=
  let g := s.logic s.cur
  let earlier := (g.m.list.take s.ev.k).any (fun e => match e.act with
    | .drain d => !e.done && d.sent < d.total
    | _ => false)
  match g.m.list[s.ev.k]? with
  | some e =>
    match e.act with
    | .drain d =>
      .next (if (s.tile s.cur).runs && (!e.done && (!earlier && d.sent < d.total)) then s.deliverChunk s.cur s.ev.k d else s)
    | _ => .next s
  | none => .next s

/-! ## A group of MMA or SCOUT (R190, R194, R203) -/

/-- The block maxima of a SCOUT, written into its z. -/
def scoutMaxima (o : MatOp) (z : Mem) : Mem :=
  let c0 := o.koff % 128
  let u := (o.vc + 63) / 64
  let score (r c : Nat) : FpVal := fp32.read (Mem.num (o.part.getD (c / 128) []) (512 * r + 4 * (c % 128)) 4)
  (List.range 128).foldl (fun (z : Mem) r =>
    Mem.write z (512 * r + 4 * c0) ((List.range u).flatMap (fun k =>
      leBytes 4 (if r < o.vr then
        (fp32.deliver 0 false (((List.range (min 64 (o.vc - 64 * k))).map (fun c => score r (64 * k + c))).foldl (fpPick true) (.nan false))).1
      else 0xFF800000)))) z

/-- The A slot rows and the weight bytes that a group reads hold poison. -/
def MatSt.groupBad (x : MatSt) (o : MatOp) (next : Nat) : Bool :=
  let a := (vGet x.aPoison x.slotPtr.val).any (fun b => 64 * b < o.vr * (65536 / shapeRows o.shape))
  let w := x.wPoison.any (fun b => if o.soff ≤ next then o.soff < 64 * b + 64 && 64 * b < next else o.soff < 64 * b + 64 || 64 * b < next)
  a || (w && o.vc ≠ 0)

/-- The segment's release after its last group, and the pointer (R190). -/
def MatSt.release (x : MatSt) (o : MatOp) (last : Bool) : MatSt :=
  let other : Fin 2 := if x.slotPtr = 0 then 1 else 0
  { x with slotSt := x.slotSt.set x.slotPtr (if o.akeep then .ready else .free),
           slotPtr := if last then o.firstSlot else other }

/-- The group's additions: into z0–z3 for an MMA, into the partial scores for a SCOUT. -/
def MatSt.addGroup (x : MatSt) (o : MatOp) (scout : Bool) (cols : List (List FpVal)) : MatSt × MatOp :=
  let slot := vGet x.aslot x.slotPtr.val
  let gi := o.g % segGroups o.shape o.afmt
  let keep (c : Nat) : Bool := o.kuse && (!o.munit && !o.mask.getLsbD ((o.koff + c / 64) % 1024))
  if scout then
    (x, { o with part := (List.range 4).map (fun i =>
      if o.shape = 1 || i = 0 then o.addGroup slot gi cols i (fun _ => false) (o.part.getD i []) else o.part.getD i []) })
  else if o.shape = 0 then ({ x with z := vSet x.z o.z (o.addGroup slot gi cols 0 keep (vGet x.z o.z)) }, o)
  else ({ x with z := vecOf 4 (fun i => o.addGroup slot gi cols i keep (vGet x.z i)) }, o)

/-- The accumulators that an MMA adds to hold poison. -/
def MatSt.accBad (x : MatSt) (o : MatOp) : Bool := if o.shape = 0 then x.zBad o.z else (List.range 4).any x.zBad

/-- WSTREAM's status word (R315). -/
def wstreamStatus (g c : Nat) : Word := BitVec.ofNat 64 (g * 2 ^ 52 + c * 2 ^ 42) ||| popDone

/-- The parts of z that ZLD wrote while the operation accumulated into them: each holds ZLD's data or the operation's result, a free
choice for each part (R109, R196). -/
def MatSt.applyLate (x : MatSt) (late : List (Nat × Nat × List Byte × Bool)) (ours : Nat → Bool) : MatSt :=
  late.foldl (fun (x : MatSt) e => if ours (1024 * e.1 + e.2.1 / 64) then x else x.putZ e.1 e.2.1 e.2.2.1 e.2.2.2) x
def State.settleLate (s : State) (t : Tile) (o : MatOp) : State :=
  if o.late.isEmpty then s
  else
    let fc := s.freeCount
    { s.modMat t (fun x => x.applyLate o.late (fun i => Config.freeNat (fc + i) % 2 = 0)) with freeCount := fc + 4096 }

/-- One group of operation `k` of M's list. The model's choices: WSTREAM under SCOUT leaves z as it is (R37 and R203 differ), and a legal
block code that R188 refuses has the STATUS and ADDR that R37 and R315 give a bad block. -/
def State.matGroup (s : State) (t : Tile) (k : Nat) (o : MatOp) (scout : Bool) : State :=
  let x := s.mat t
  let seg := segGroups o.shape o.afmt
  if !o.taken && x.slotSt[x.slotPtr] ≠ .ready then s
  else
    let o : MatOp := if o.g = 0 then { o with firstSlot := x.slotPtr } else o
    let skip := o.kuse && (o.munit && !o.mask.getLsbD ((o.koff + o.g / 2) % 1024))
    let cr := o.cols x.wbuf
    if !skip && (x.groupBad o cr.next || (!scout && x.accBad o)) then s.trapMat t k .ecc popDone none
    else
      let x : MatSt := { x with slotSt := x.slotSt.set x.slotPtr .busy }
      let r := if skip then (x, o) else x.addGroup o scout cr.vals
      match cr.bad with
      | some (at_, ill) =>
        (s.modMat t (fun _ => r.1)).trapMat t k (if ill then .wstream else .bound) (wstreamStatus o.g cr.vals.length)
          (some (BitVec.ofNat 64 at_))
      | none =>
        let last := o.g + 1 = o.groups
        let ends := last || (o.g + 1) % seg = 0
        let x := if ends then r.1.release o last else r.1
        let x : MatSt := if last && scout then { x with z := vSet x.z o.z (scoutMaxima r.2 (vGet x.z o.z)) } else x
        let o : MatOp := { r.2 with g := o.g + 1, soff := cr.next, taken := !ends }
        let s := s.modMat t (fun _ => x)
        (if last then s.settleLate t o else s).modLogic t (fun g =>
          ({ g with m := { g.m with list := g.m.list.modify k (fun e =>
            { e with act := if scout then .scout o else .mma o, done := last }) } } : Logic).mRetire)

/-- MZERO takes effect. -/
def State.matZero (s : State) (t : Tile) (k z vr vc : Nat) : State :=
  s.modLogic t (fun g =>
    ({ g with
      mat := { g.mat with z := vSet g.mat.z z (mapImage (vGet g.mat.z z) vr vc (fun _ _ _ => 0)),
                          zPoison := vSet g.mat.zPoison z ((List.range vr).foldl (fun l r => poisonAfter l (512 * r) (4 * vc) false) (vGet g.mat.zPoison z)) },
      m := { g.m with list := g.m.list.modify k (fun e => { e with done := true }) } } : Logic).mRetire)

/-- The slots of an MCFG mode are set. -/
def State.matSlots (s : State) (t : Tile) (k : Nat) (ptr : Fin 2) : State :=
  s.modLogic t (fun g =>
    ({ g with mat := g.mat.setSlots ptr,
              m := { g.m with list := g.m.list.modify k (fun e => { e with done := true }) } } : Logic).mRetire)

/-- MATRIX_OPERATION_FINISH: operation `ev.k` of M's list goes on by one group, and finishes after its last; the slots of an MCFG mode
are set once the earlier operations have finished. An operation has its sub-arrays from its issue on (R206); one that takes A segments
waits for the slots of an earlier MCFG. -/
def execMatrixOperationFinish (s : State) : Out :=
  let list := (s.logic s.cur).m.list
  let before := list.take s.ev.k
  let slots (e : MEntry) : Bool := match e.act with
    | .slots _ => e.done
    | _ => true
  match list[s.ev.k]? with
  | some e =>
    if !(s.tile s.cur).runs || e.done then .next s
    else match e.act with
      | .mma o => .next (if before.all slots then s.matGroup s.cur s.ev.k o false else s)
      | .scout o => .next (if before.all slots then s.matGroup s.cur s.ev.k o true else s)
      | .mzero z vr vc => .next (s.matZero s.cur s.ev.k z vr vc)
      | .slots ptr => .next (if before.all (·.done) then s.matSlots s.cur s.ev.k ptr else s)
      | _ => .next s
  | none => .next s

/-- DEFERRED_PUSH: a push that waited is made once its queue has room (R82), on L, M or S. -/
def execDeferredPush (s : State) : Out :=
  if !(s.tile s.cur).runs then .next s
  else match s.curSq with
    | .c => .next s
    | .m => .next (if (s.seq s.cur .m).stop.isSome then s else s.modLogic s.cur Logic.mRetire)
    | u => .next (if (s.seq s.cur u).stop.isSome then s else s.modLogic s.cur (fun g => g.retire u))

end Sys2Proof.Machine
end

