-- ==== Sys2Proof/Machine/Rachis.lean ====
section
/-! DEFINITION. Rachis: the ATTN group on C, and the micro-ops of a pass (R245–R265, R423). A micro-op that copies is issued again until
all its segments have been copied. -/

namespace Sys2Proof.Machine

/-! ## The descriptor (R247) -/

structure AttDesc where
  ctrl : Word
  q : Word
  qs : Word
  o : Word
  st : Word
  tree : Word
  anch : Word
  kseq : Nat
  vseq : Nat
  sseq : Nat
  ctx : Nat
  scale : Nat
  tau : Nat
  sink : Nat
  recent : Nat
  hq : Nat
  hkv : Nat
  hsel : Nat
  dg : Nat
  fmt : Nat
  nd : Nat
  ostride : Nat
  wboff : Nat
  wblen : Nat

def attOf (b : List Byte) : AttDesc :=
  { ctrl := wordAt b 0 8, q := wordAt b 128 8, qs := wordAt b 136 8, o := wordAt b 144 8, st := wordAt b 152 8, tree := wordAt b 160 8,
    anch := wordAt b 168 8, kseq := fieldAt b 176 4, vseq := fieldAt b 180 4, sseq := fieldAt b 184 4, ctx := fieldAt b 188 4,
    scale := fieldAt b 192 4, tau := fieldAt b 196 2, sink := fieldAt b 198 2, recent := fieldAt b 200 2, hq := fieldAt b 202 1,
    hkv := fieldAt b 203 1, hsel := fieldAt b 204 1, dg := fieldAt b 205 1, fmt := fieldAt b 206 1, nd := fieldAt b 207 1,
    ostride := fieldAt b 208 4, wboff := fieldAt b 212 4, wblen := fieldAt b 216 4 }
def Pass.att (p : Pass) : AttDesc := attOf p.desc

def AttDesc.d (a : AttDesc) : Nat := 32 * a.dg
/-- NBC, NB, R and NT. -/
def AttDesc.nbc (a : AttDesc) : Nat := (a.ctx + 63) / 64
def AttDesc.nb (a : AttDesc) : Nat := if a.nd = 0 then a.nbc else a.nbc + 1
def AttDesc.rows (a : AttDesc) : Nat := a.hq * max a.nd 1
def AttDesc.nt (a : AttDesc) : Nat := (a.rows + 127) / 128
/-- QKF, VF and OF, and the element sizes. -/
def AttDesc.qkf (a : AttDesc) : Nat := bitsOf a.fmt 0 2
def AttDesc.vf (a : AttDesc) : Nat := bitsOf a.fmt 2 2
def AttDesc.of_ (a : AttDesc) : Nat := bitsOf a.fmt 4 2
def esIn (f : Nat) : Nat := if f = 2 then 2 else 1
def esOut (f : Nat) : Nat := if f = 0 then 4 else 2
/-- Bytes of a Q or K row, of a V row, of a scout row, of an output row. -/
def AttDesc.qRow (a : AttDesc) : Nat := a.d * esIn a.qkf
def AttDesc.vRow (a : AttDesc) : Nat := a.d * esIn a.vf
def AttDesc.sRow (a : AttDesc) : Nat := a.d / 2 + a.d / 32
def AttDesc.oRow (a : AttDesc) : Nat := a.d * esOut a.of_
/-- Valid rows of tile t. -/
def AttDesc.vr (a : AttDesc) (t : Nat) : Nat := min 128 (a.rows - 128 * t)

/-- The spaces of the descriptor's pointers (R249). -/
def attSpaces (c : Nat) : Bool := c ≤ 1 || (c = 4 || c = 5)

/-- The pointers of a descriptor over their extents (R249). -/
def AttDesc.reqs (a : AttDesc) : List PtrReq :=
  let r (p : Word) (n : Nat) (w : Bool) : PtrReq := ⟨p, n, attSpaces, 64, w⟩
  let opt (p : Word) (n : Nat) (w : Bool) : List PtrReq := if p = 0 then [] else [r p n w]
  [r a.q (a.rows * a.qRow) false, r a.qs (a.rows * a.sRow) false, r a.o ((a.rows - 1) * a.ostride + a.oRow) true] ++
    (opt a.st (8 * a.rows) true ++ (opt a.tree 512 false ++ opt a.anch 128 false))

/-- A field breaks its limits (R247, R249); `size`: the pool's block size. -/
def AttDesc.bad (a : AttDesc) (b : List Byte) (size : Nat) : Bool :=
  wbits a.ctrl 14 27 ≠ 0 || (5 < wbits a.ctrl 41 3 || (a.ctx = 0 || (65536 < a.ctx || ((a.nd ≠ 0 && 65472 < a.ctx) ||
  (a.scale = 0 || (0x7F800000 ≤ a.scale || (1024 < a.sink || (1024 < a.recent || (a.hq = 0 || (128 < a.hq || (a.hkv = 0 || (16 < a.hkv ||
  (a.hkv ≤ a.hsel || (!(a.dg = 2 || a.dg = 4) || (a.qkf = 3 || (a.vf = 3 || (a.of_ = 3 || (64 ≤ a.fmt || (64 < a.nd ||
  (a.ostride % 64 ≠ 0 || (a.ostride < a.oRow || (a.wboff % 64 ≠ 0 || (a.wblen % 64 ≠ 0 || (a.wblen < 65536 ||
  (2097152 < a.wboff + a.wblen || (!zeroAt b 220 292 || (512 < a.rows ||
  (size < 64 * a.hkv * a.qRow || (size < 64 * a.hkv * a.vRow || size < 64 * a.hkv * a.sRow)))))))))))))))))))))))))))))

/-! ## The ATTN group (R263) -/

/-- What ATGO sets (R246); the entries of the copy queue that Rachis takes are its own choice, up to four. -/
def Pass.begin (b : List Byte) (cls entries : Nat) : Pass :=
  { desc := b, h := vecOf 16 (fun i => if i = 0 then 0 else wordAt b (8 * i) 8), upc := bitsOf (fieldAt b 0 8) 0 12,
    m := Vector.replicate 512 0xFF800000, l := Vector.replicate 512 0, smax := Vector.replicate 512 0xFF800000,
    alpha := Vector.replicate 128 0, tile := 0, vr := 0, cursor := 0, scoutList := [], kList := [], vList := [], chunk := none,
    tree := none, fetched := 0, got := [], out := none, entries := entries, cls := cls, stops := [], waitd := false }

/-- ATGO. -/
def execAtgo (d a : Reg) (s : State) : Out :=
  s.cEngine [a] [d] (fun s =>
    if s.rachisOwns then s.cRetry false
    else s.cBlock (s.rs a) 512 (fun b s =>
      let x := attOf b
      match s.reqFail s.cur (x.ctrl &&& 0xFE00000000000000) x.reqs false with
      | some f => s.failC f
      | none =>
        match s.kvPool (s.partOf s.cur) with
        | none => s.trapC .bound 0 none
        | some k =>
          if x.bad b k.size then s.trapC .bound 0 none
          else
            let entries := min (s.freeBelow 5) (32 - (s.logic s.cur).copyUsed)
            let p := Pass.begin b ((s.task s.cur).elim 0 (·.cls)) entries
            let s := s.drawn.modRachis s.cur (fun r => { r with pass := some p, passNo := r.passNo + 1 })
            let s := s.modVec s.cur (fun v => { v with k := vSet v.k p.kreg 0 })
            let s := if x.ctrl.getLsbD 44 then s.acquire s.cur (BitVec.ofNat 3 (wbits x.ctrl 41 3)) else s
            s.cDone d (BitVec.ofNat 64 (s.rachis s.cur).passNo) false))

/-- ATWAIT. -/
def execAtwait (d a : Reg) (s : State) : Out :=
  s.cIssueCtl [a] [d] (fun s =>
    let r := s.rachis s.cur
    let n := (s.rs a).toNat
    if r.passNo < n then s.trapC .bound 0 none
    else if n = r.passNo && r.pass.isSome then s.cRetry false
    else s.cDone d r.last false)

/-- ATLOAD. -/
def execAtload (a b : Reg) (s : State) : Out :=
  s.cEngine [a, b] [] (fun s =>
    let v := s.rs b
    let first := wbits v 0 12
    let n := wbits v 16 12 + 1
    match s.access s.cur localSpace .r (s.rs a) (4 * n) 64 with
    | (.fail f, s) => s.failC f
    | (.noPlane _ _, s) => s
    | (.ok l, s) =>
      if wbits v 28 36 ≠ 0 || (wbits v 12 4 ≠ 0 || 4096 < first + n) then s.trapC .bound 0 none
      else if s.rachisOwns || !s.locFull l (4 * n) then s.cRetry false
      else if s.poisonedAt l (4 * n) then s.trapC .ecc 0 (some (s.rs a))
      else (s.modRachis s.cur (fun r => { r with store := Mem.write r.store (4 * first) (s.homeBytes l (4 * n)) })).cNext)

/-- ATSTAT. -/
def execAtstat (d : Reg) (s : State) : Out :=
  s.cAlu d [] (fun s =>
    let r := s.rachis s.cur
    match r.pass with
    | some p => BitVec.ofNat 64 (p.upc % 4096 * 2 ^ 32 + r.passNo % 65536 * 65536 + (if p.waitd then 0x8000 else 0) +
        (if p.stops.isEmpty then 0 else 0x4000) + 0x2000 + (s.logic s.cur).keptNow p)
    | none => BitVec.ofNat 64 (wbits r.last 28 12 * 2 ^ 32 + r.lastNo % 65536 * 65536 + wbits r.last 0 11))

/-! ## Running a micro-op -/

def State.modPass (s : State) (f : Pass → Pass) : State := s.modRachis s.cur (fun r => { r with pass := r.pass.map f })
/-- The micro-op has finished: the next word. -/
def State.hGo (s : State) (upc : Nat) : State := s.modPass (fun p => { p with upc := upc, waitd := false, got := [], out := none })
def State.hNext (s : State) : State := s.modPass (fun p => { p with upc := p.upc + 1, waitd := false, got := [], out := none })
/-- The micro-op waits for its data. -/
def State.hWaitd (s : State) : State := s.modPass (fun p => { p with waitd := true })

/-- Issues a micro-op; one that goes on past word 4,095 is ILLEGAL (R251). -/
def State.hOp (s : State) (body : Pass → State → State) : Out :=
  match (s.rachis s.cur).pass with
  | some p =>
    if 4095 ≤ p.upc then .next (s.trapPass s.cur .illegal none)
    else .next (body p s)
  | none => .next s

/-- The same for one that uses the matrix engine: operations accepted before the pass, and loads of the engine's memories that
were under way, come first (R245). -/
def Logic.engineFree (g : Logic) : Bool :=
  g.engineBusy = 0 && g.l.inflight.all (fun e => match e.data with
    | .aslot _ _ => false
    | .wbuf _ => false
    | .z _ => false
    | _ => true)
def State.hEngine (s : State) (body : Pass → State → State) : Out :=
  s.hOp (fun p s => if (s.logic s.cur).engineFree then body p s else s)

def Pass.reg (p : Pass) (r : BitVec 4) : Word := if r = 0 then 0 else p.h[r.toFin]
def Pass.setReg (p : Pass) (r : BitVec 4) (v : Word) : Pass := if r = 0 then p else { p with h := p.h.set r.toFin v }
/-- A fatal BOUND of the pass. -/
def State.hBound (s : State) (addr : Option Word) : State := s.trapPass s.cur .bound addr

/-! ## Rachis's copies (R265) -/

inductive HRes (α : Type) where
  | ok (a : α) (s : State)
  /-- The micro-op ends here: a copy waits, has faulted, or has ended the task. -/
  | stop (s : State)

/-- A segment of a copy may start: class 0 always, another class while the counter is above 0 (R214, R245). -/
def State.hMayDraw (s : State) (p : Pass) : Bool :=
  let b := (s.part (s.partOf s.cur)).budget
  b.refill = 0 || (p.cls = 0 || 0 < b.count)
/-- A segment debits one unit when it starts. -/
def State.hDraw (s : State) : State :=
  s.modPart (s.partOf s.cur) (fun x =>
    if x.budget.refill = 0 then x else { x with budget := { x.budget with count := max (-(x.budget.refill : Int)) (x.budget.count - 1) } })

/-- The fault of copy segment `k`: UNIT 5, GEN 0xFFFF, a status word in the layout of R216; a replayable one stops the copy. -/
def State.hFault (s : State) (k elem off : Nat) (side : Bool) (f : Fail) : State :=
  if !s.trapTurn s.cur .rachis k then s else
  let v := BitVec.ofNat 64 (elem % 65536 * 2 ^ 48 + off / 4096 % 4096 * 2 ^ 36 + (if side then 2 ^ 35 else 0) + 0x1F * 2 ^ 30)
  let r := s.postTrap s.cur .rachis f.kind v f.addr 0xFFFF (f.status.getLsbD 16) k
  if r.1.replay then r.2.modPass (fun p => { p with stops := p.stops ++ [(k, r.1)], waitd := true })
  else r.2.endTaskOf s.cur 4

/-- A range of a copy: logical block, byte offset in the copy, pointer, length (at most 4,096 bytes). -/
structure HRange where
  elem : Nat
  off : Nat
  ptr : Word
  n : Nat

/-- A range cut where a segment of its copy ends. -/
def HRange.cut (r : HRange) : List HRange :=
  let k := 4096 - r.off % 4096
  if r.n ≤ k then [r] else [{ r with n := k }, { r with off := r.off + k, ptr := r.ptr + BitVec.ofNat 64 k, n := r.n - k }]
/-- The segments of copies: ranges that go on where the one before ends, up to a multiple of 4,096 bytes. -/
def hSegs : List HRange → List (List HRange)
  | [] => []
  | r :: rs =>
    match hSegs rs with
    | (q :: qs) :: rest =>
      if q.elem = r.elem && (q.off = r.off + r.n && q.off % 4096 != 0) then (r :: q :: qs) :: rest else [r] :: (q :: qs) :: rest
    | l => [r] :: l

/-- Places the ranges of a segment; the first that fails decides. -/
def State.hPlace (s : State) (need : Need) : List HRange → Except (Option (HRange × Fail)) (List (Loc × Nat)) × State
  | [] => (.ok [], s)
  | r :: rs =>
    match s.placeRange s.cur need r.ptr r.n with
    | (.fail f, s) => (.error (some (r, f)), s)
    | (.noPlane _ _, s) => (.error none, s)
    | (.ok ls, s) =>
      match s.hPlace need rs with
      | (.ok ms, s) => (.ok (ls ++ ms), s)
      | e => e

/-- The address of the first poisoned byte of the ranges of a segment. -/
def State.hPoison (s : State) : List HRange → Word
  | [] => 0
  | r :: rs =>
    match (s.placeRange s.cur .r r.ptr r.n).1 with
    | .ok ls => if ls.any (fun e => s.poisonedAt e.1 e.2) then s.poisonPtr r.ptr ls else s.hPoison rs
    | _ => s.hPoison rs

/-- Copies segment `k` of the micro-op in hand, if it has not been copied, is not stopped, has an entry of the queue and a budget unit, and
its bins are full; `data`: the bytes that it writes, else it reads. Poison read by a pass raises ECC (R395). -/
def State.hCopy (s : State) (k : Nat) (g : List HRange) (data : Option (List Byte)) : State :=
  match (s.rachis s.cur).pass with
  | none => s
  | some p =>
    if p.got.any (fun e => e.1 = k) || (p.stops.any (fun e => e.1 = k) || (max 1 p.entries ≤ p.stops.length || !s.hMayDraw p)) then s
    else match s.hPlace (if data.isSome then .w else .r) g with
      | (.error (some (r, f)), s) => s.hDraw.hFault k r.elem r.off data.isSome f
      | (.error none, s) => s
      | (.ok ls, s) =>
        let keep (bs : List Byte) (s : State) : State := s.modPass (fun p => { p with got := (k, bs) :: p.got })
        match data with
        | some bs => keep [] (s.hDraw.writeAt s.cur ls (bs.map (fun b => (b, false))))
        | none =>
          if !ls.all (fun e => s.locFull e.1 e.2) then s
          else
            let x := s.hDraw.readPieces s.cur (!s.unlifted s.cur) ls
            if x.1.any (·.2) then x.2.trapPass s.cur .ecc (some (s.hPoison g)) else keep (x.1.map (·.1)) x.2

/-- Bytes divided into parts of given lengths. -/
def splitLens : List Nat → List Byte → List (List Byte)
  | [], _ => []
  | n :: r, bs => bs.take n :: splitLens r (bs.drop n)

/-- Every segment has been copied. -/
def State.hAll (s : State) (n : Nat) : Bool :=
  (s.rachis s.cur).pass.any (fun p => (List.range n).all (fun k => p.got.any (fun e => e.1 = k)))

/-- Reads ranges for the pass, segment by segment in the order of the stream (R423); the bytes of each range. -/
def State.hReadAll (s : State) (rs : List HRange) : HRes (List (List Byte)) :=
  let segs := hSegs (rs.flatMap HRange.cut)
  let s := segs.zipIdx.foldl (fun (s : State) e => s.hCopy e.2 e.1 none) s
  match (s.rachis s.cur).pass, s.hAll segs.length with
  | some p, true =>
    .ok (splitLens (rs.map (·.n)) ((List.range segs.length).flatMap (fun k => ((p.got.find? (fun e => e.1 = k)).map (·.2)).getD []))) s
  | _, _ => .stop s.hWaitd

/-- Writes ranges for the pass, segment by segment (R261, R265). -/
def State.hWriteAll (s : State) (rs : List HRange) (data : List (List Byte)) : HRes Unit :=
  let segs := hSegs (rs.flatMap HRange.cut)
  let parts := splitLens (segs.map (fun g => listTotal (g.map (·.n)))) data.flatten
  let s := (segs.zip parts).zipIdx.foldl (fun (s : State) e => s.hCopy e.2 e.1.1 (some e.1.2)) s
  if s.hAll segs.length then .ok () s else .stop s.hWaitd

/-- The rows of a physical block for the descriptor's head, one range for each token (R248). -/
def kvRanges (k : KvPool) (a : AttDesc) (row lblk phys : Nat) : List HRange :=
  (List.range 64).map (fun t =>
    ⟨lblk, t * row, BitVec.ofNat 64 (4 * 2 ^ 60 + k.base + phys * k.size + t * a.hkv * row + a.hsel * row), row⟩)

/-! ## Framed streams (R248, R36, R423) -/

/-- A weight-stream block. -/
def frame (code : Nat) (scale : Byte) (payload : List Byte) : List Byte := BitVec.ofNat 8 code :: scale :: payload
def kvCode (f : Nat) : Nat := if f = 2 then 7 else f + 1
/-- K: block(g, c) for each group and column. -/
def kStream (f dg : Nat) (rows : List (List Byte)) : List Byte :=
  (List.range dg).flatMap (fun g => rows.flatMap (fun r => frame (kvCode f) 0x7F ((r.drop (32 * esIn f * g)).take (32 * esIn f))))
def scoutStream (dg : Nat) (rows : List (List Byte)) : List Byte :=
  (List.range dg).flatMap (fun g => rows.flatMap (fun r => frame 3 (r.getD (16 * dg + g) 0) ((r.drop (16 * g)).take 16)))
def vStream (f d : Nat) (rows : List (List Byte)) : List Byte :=
  (List.range (rows.length / 32)).flatMap (fun g => (List.range d).flatMap (fun c =>
    frame (kvCode f) 0x7F (((rows.drop (32 * g)).take 32).flatMap (fun r => (r.drop (esIn f * c)).take (esIn f)))))

/-- The columns of group g of a stream of n columns. -/
def streamCols (w : Mem) (code n g : Nat) : List (List FpVal) :=
  (fetchCols w (if code = 7 then 3 else if code = 3 then 5 else 0) n (g * n * blockLen code)).vals

/-- Bytes laid into the ring (R423). -/
def ringPut (off len : Nat) : Nat → Nat → List Byte → Mem × List Nat → Mem × List Nat
  | 0, _, _, w => w
  | fuel + 1, pos, bs, w =>
    if bs = [] then w
    else
      let o := pos % len
      let n := min bs.length (len - o)
      ringPut off len fuel (pos + n) (bs.drop n) (Mem.write w.1 (off + o) (bs.take n), poisonAfter w.2 (off + o) n false)
def State.hRing (s : State) (a : AttDesc) (bs : List Byte) : State :=
  match (s.rachis s.cur).pass with
  | none => s
  | some p =>
    let w := ringPut a.wboff a.wblen (bs.length / 65536 + 2) p.fetched bs ((s.mat s.cur).wbuf, (s.mat s.cur).wPoison)
    (s.modMat s.cur (fun x => { x with wbuf := w.1, wPoison := w.2 })).modPass (fun p => { p with fetched := p.fetched + bs.length })

/-! ## The engine's memories -/

/-- Element (r, c) of an accumulator. -/
def zAt (z : Mem) (r c : Nat) : Nat := Mem.num z (512 * r + 4 * c) 4
/-- Replaces elements of an accumulator's first rows and columns. -/
def MatSt.zMap (x : MatSt) (k : Fin 4) (rows cols : Nat) (f : Nat → Nat → Nat → Nat) : MatSt :=
  { x with z := x.z.set k (mapImage x.z[k] rows cols f),
           zPoison := x.zPoison.set k ((List.range rows).foldl (fun m r => poisonAfter m (512 * r) (4 * cols) false) x.zPoison[k]) }
/-- Writes bytes into an A slot. -/
def MatSt.slotPut (x : MatSt) (k : Fin 2) (off : Nat) (bs : List Byte) : MatSt :=
  { x with aslot := x.aslot.set k (Mem.write x.aslot[k] off bs),
           aPoison := x.aPoison.set k (poisonAfter x.aPoison[k] off bs.length false) }
/-- Rows of Q laid out by R189; the rows beyond them are zero. -/
def MatSt.slotRows (x : MatSt) (rows : List (List Byte)) : MatSt :=
  (List.range 128).foldl (fun x r =>
    match rows[r]? with
    | some b => x.slotPut 0 (512 * r) b
    | none => x.slotPut 0 (512 * r) (List.replicate 512 0)) x
/-- An MXFP4 row of Q: the payload at the head of the row, the scales at its middle (R189). -/
def MatSt.slotScout (x : MatSt) (dg : Nat) (rows : List (List Byte)) : MatSt :=
  (List.range 128).foldl (fun x r =>
    match rows[r]? with
    | some b => (x.slotPut 0 (512 * r) (b.take (16 * dg))).slotPut 0 (512 * r + 256) (b.drop (16 * dg))
    | none => x.slotPut 0 (512 * r) (List.replicate 512 0)) x

/-- An operation of the engine as a pass runs it, by its A format. -/
def attOp (afmt : Nat) : MatOp :=
  { shape := 0, afmt := afmt, bsrc := 0, akeep := false, munit := false, koff := 0, kuse := false, mask := 0, kreg := 0, vr := 0, vc := 0,
    groups := 0, wptr := 0, z := 0, g := 0, soff := 0, part := [], taken := false, firstSlot := 0 }
def attFmt (f : Nat) : Nat := if f = 2 then 3 else f
/-- DG or more group steps of R39 from an accumulator value. -/
def attDot (afmt : Nat) (slot : Mem) (cols : List (List (List FpVal))) (r c acc : Nat) : Nat :=
  cols.zipIdx.foldl (fun acc e => accStep false (afmt = 3) acc ((attOp afmt).aRow slot r e.2) (e.1.getD c [])) acc

/-- The larger of FP32 patterns, as VMAX has it (R162). -/
def maxPat (l : List Nat) : Nat := (fp32.deliver 0 false ((l.map fp32.read).foldl (fpPick true) (.nan false))).1
/-- −∞ as a pattern. -/
def negInf : Nat := 0xFF800000

/-- A row array with the rows of tile t replaced. -/
def rowsOf (v : Vector W32 512) (t vr : Nat) (f : Nat → Nat) : Vector W32 512 :=
  vecOf 512 (fun i => if 128 * t ≤ i && i < 128 * t + vr then BitVec.ofNat 32 (f (i - 128 * t)) else vGet v i)
def rowAt (v : Vector W32 512) (t r : Nat) : Nat := (vGet v (128 * t + r)).toNat

/-- A special function of an FP32 pattern, a free value where its rounding is not settled. -/
def sfu32 (fn : Sfu) (free : Nat) (x : Nat) : Nat :=
  ((fp32.sfu fn 0 false (fp32.read x)).map (·.1)).getD ((Config.freeWord free).toNat % 2 ^ 32)

/-! ## Scalar and control micro-ops (R252–R254, R262) -/

/-- HSET ha, imm. -/
def execHset (a : BitVec 4) (i : BitVec 18) (s : State) : Out := s.hOp (fun _ s => (s.modPass (fun p => p.setReg a (sx i))).hNext)
/-- HADD. -/
def execHadd (a b : BitVec 4) (i : BitVec 18) (s : State) : Out :=
  s.hOp (fun _ s => (s.modPass (fun p => p.setReg a (p.reg b + sx i))).hNext)
/-- HNOP. -/
def execHnop (s : State) : Out := s.hOp (fun _ s => s.hNext)

/-- A branch of Rachis: a taken one must stay within the control store. -/
def State.hBranch (s : State) (p : Pass) (taken : Bool) (o : BitVec 18) (upd : Pass → Pass) : Out :=
  let target : Int := (p.upc : Int) + o.toInt
  if !taken then
    if 4095 ≤ p.upc then .next (s.trapPass s.cur .illegal none) else .next (s.modPass upd).hNext
  else if target < 0 || 4095 < target then .next (s.trapPass s.cur .illegal none)
  else .next ((s.modPass upd).hGo target.toNat)

/-- HLOOP. -/
def execHloop (a : BitVec 4) (o : BitVec 18) (s : State) : Out :=
  match (s.rachis s.cur).pass with
  | some p =>
    let v := p.reg a - 1
    s.hBranch p (v != 0) o (fun p => p.setReg a v)
  | none => .next s
/-- HBR. -/
def execHbr (a b : BitVec 4) (o : BitVec 18) (s : State) : Out :=
  match (s.rachis s.cur).pass with
  | some p => s.hBranch p (p.reg a != p.reg b) o id
  | none => .next s

/-- HWAIT: a micro-op's copies have all completed before the next one begins, so nothing is left to wait for. -/
def execHwait (s : State) : Out := s.hOp (fun _ s => s.hNext)

/-- HFLAG (R254). -/
def execHflag (a b : BitVec 4) (sc : BitVec 3) (f : BitVec 2) (s : State) : Out :=
  s.hOp (fun p s =>
    match s.flagAt s.cur (p.reg a) (p.reg b) (f != 2) with
    | .error e => s.trapPass s.cur e.kind e.addr
    | .ok (t, n) =>
      if f = 2 then if (s.tile t).flag n then (s.acquire s.cur sc).hNext else s
      else (s.setFlag t n (f = 0)).hNext)

/-- HEND (R262). -/
def execHend (s : State) : Out :=
  match (s.rachis s.cur).pass with
  | some p =>
    let c := p.att.ctrl
    let s := if c.getLsbD 63 then s.setFlag (Fin.ofNat 64 (wbits c 57 6)) (wbits c 45 12) true else s
    .next (s.endPass s.cur 0)
  | none => .next s

/-- HSET tile, ha (R253). -/
def execHsetTile (a : BitVec 4) (s : State) : Out :=
  s.hEngine (fun p s =>
    let x := p.att
    let t := (p.reg a).toNat
    if x.nt ≤ t then s.hBound none
    else
      let vr := x.vr t
      let base := 128 * t * x.qRow
      match s.hReadAll ((List.range vr).map (fun r =>
          ⟨0, r * x.qRow, x.q + BitVec.ofNat 64 (base + r * x.qRow), x.qRow⟩)) with
      | .stop s => s
      | .ok rows s =>
        ((s.modMat s.cur (fun m => (m.zMap 0 128 x.d (fun _ _ _ => 0)).slotRows rows)).modPass (fun p =>
          { p with tile := t, vr := vr, cursor := 0 })).hNext)

/-! ## Lookup, scout and Winnow (R255–R257) -/

/-- A list entry resolved anew. -/
def resolve (l : List (Nat × Nat)) (lb b : Nat) : List (Nat × Nat) := (lb, b) :: l.filter (fun e => e.1 != lb)
def resolved (l : List (Nat × Nat)) (lb : Nat) : Option Nat := (l.find? (fun e => e.1 = lb)).map (·.2)

/-- Resolves blocks in order; the first key that is not found stops it. -/
def State.hResolve (s : State) (k : KvPool) (sq : Nat) : List Nat → List (Nat × Nat) → Except Nat (List (Nat × Nat))
  | [], l => .ok l
  | lb :: r, l =>
    match s.kvFind (s.partOf s.cur) k sq lb with
    | some b => s.hResolve k sq r (resolve l lb b)
    | none => .error lb

/-- HKV (R255). -/
def execHkv (a b : BitVec 4) (k : BitVec 1) (w : BitVec 2) (s : State) : Out :=
  s.hOp (fun p s =>
    let x := p.att
    let first := (p.reg a).toNat
    let n := (p.reg b).toNat
    let limit := if w = 0 then x.nbc else x.nb
    if n ≠ 0 && limit < first + n then s.hBound none
    else match s.kvPool (s.partOf s.cur) with
      | none => s.hBound none
      | some pool =>
        let keep (lb : Nat) : Bool := k = 0 || (vGet (s.vec s.cur).k p.kreg).getLsbD lb
        let lbs := ((List.range n).map (fun i => first + i)).filter keep
        let reads (sq : Nat) : List (Nat × Nat) := lbs.flatMap (fun lb => s.kvKeyReads (s.partOf s.cur) sq lb pool)
        match s.kvPoisoned (s.partOf s.cur) pool (if w = 0 then reads x.sseq else reads x.kseq ++ reads x.vseq) with
        | some va => s.trapPass s.cur .ecc (some (BitVec.ofNat 64 (0x4000000000000000 + va)))
        | none =>
        if w = 0 then
          match s.hResolve pool x.sseq lbs p.scoutList with
          | .ok l => (s.modPass (fun p => { p with scoutList := l })).hNext
          | .error lb => s.hBound (some (BitVec.ofNat 64 lb))
        else match s.hResolve pool x.kseq lbs p.kList, s.hResolve pool x.vseq lbs p.vList with
          | .ok kl, .ok vl => (s.modPass (fun p => { p with kList := kl, vList := vl })).hNext
          | .error lb, .error lb' => s.hBound (some (BitVec.ofNat 64 (min lb lb')))
          | .error lb, .ok _ => s.hBound (some (BitVec.ofNat 64 lb))
          | .ok _, .error lb => s.hBound (some (BitVec.ofNat 64 lb)))

/-- Cuts a list into chunks of eight. -/
def chunksOf8 {α : Type} : Nat → List α → List (List α)
  | 0, _ => []
  | n + 1, l => if l.isEmpty then [] else l.take 8 :: chunksOf8 n (l.drop 8)

/-- One chunk of the scout on one row tile: running maxima, votes, block maxima (R256). -/
def State.scoutTile (s : State) (x : AttDesc) (kreg : Nat) (blocks : List Nat) (keys : List (List Byte)) (t : Nat) (qs : List (List Byte)) : State :=
  let vr := x.vr t
  let str := scoutStream x.dg keys
  let w := cellsAt 0 str
  let n := 64 * blocks.length
  let cols := (List.range x.dg).map (streamCols w 3 n)
  let s := (s.modMat s.cur (fun m => m.slotScout x.dg qs)).hRing x str
  let slot := (s.mat s.cur).aslot[(0 : Fin 2)]
  let valid (i c : Nat) : Bool := 64 * blocks.getD i 0 + c < x.ctx
  let score (r c : Nat) : Nat := attDot 5 slot cols r c 0
  let ofBlock (r i : Nat) (f : Nat → Nat) : List Nat := ((List.range 64).filter (valid i)).map (fun c => f (score r (64 * i + c)))
  let scaled (v : Nat) : Nat := (f32Mul v x.scale).1
  match (s.rachis s.cur).pass with
  | none => s
  | some p =>
    let smax := rowsOf p.smax t vr (fun r =>
      maxPat (rowAt p.smax t r :: (List.range blocks.length).flatMap (fun i => ofBlock r i scaled)))
    let kept (i : Nat) : Bool := (List.range vr).any (fun r =>
      votes x.tau (fp32.read (maxPat (ofBlock r i scaled))) (fp32.read (rowAt smax t r)))
    let s := s.modPass (fun p => { p with smax := smax })
    let s := s.modVec s.cur (fun v => { v with k := vSet v.k kreg ((List.range blocks.length).foldl (fun m i =>
      if kept i then setMark m (blocks.getD i 0) true else m) (vGet v.k kreg)) })
    s.modMat s.cur (fun m => m.zMap 3 128 blocks.length (fun r u _ => if r < vr then maxPat (ofBlock r u id) else negInf))

/-- What one chunk reads for one row tile: the tile's rows of QS, then the chunk's scout keys (R256, R423). -/
def scoutRanges (k : KvPool) (x : AttDesc) (t : Nat) (found : List (Nat × Nat)) : List HRange :=
  (List.range (x.vr t)).map (fun r => ⟨0, r * x.sRow, x.qs + BitVec.ofNat 64 ((128 * t + r) * x.sRow), x.sRow⟩) ++
    found.flatMap (fun e => kvRanges k x x.sRow e.1 e.2)

/-- HSCOUT (R256): for each chunk of up to eight blocks, for each row tile. -/
def execHscout (a b : BitVec 4) (s : State) : Out :=
  s.hEngine (fun p s =>
    let x := p.att
    let first := (p.reg a).toNat
    let n := (p.reg b).toNat
    if n ≠ 0 && x.nbc < first + n then s.hBound none
    else
      let lbs := (List.range n).map (fun i => first + i)
      match s.kvPool (s.partOf s.cur), lbs.mapM (fun lb => (resolved p.scoutList lb).map (fun b => (lb, b))) with
      | some pool, some found =>
        let work := (chunksOf8 (n / 8 + 1) found).flatMap (fun ch => (List.range x.nt).map (fun t => (ch, t)))
        match s.hReadAll (work.flatMap (fun e => scoutRanges pool x e.2 e.1)) with
        | .stop s => s
        | .ok rows s =>
          (work.foldl (fun (acc : State × List (List Byte)) e =>
            let rest := acc.2.drop (x.vr e.2)
            (acc.1.scoutTile x p.kreg (e.1.map (·.1)) (rest.take (64 * e.1.length)) e.2 (acc.2.take (x.vr e.2)),
             rest.drop (64 * e.1.length))) (s, rows)).1.hNext
      | _, _ => s.hBound none)

/-- HWIN (R257). -/
def execHwin (a : BitVec 4) (s : State) : Out :=
  s.hOp (fun p s =>
    let x := p.att
    let read (go : List Byte → State → State) : State :=
      if x.anch = 0 then go (List.replicate 128 0) s
      else match s.hReadAll [⟨0, 0, x.anch, 128⟩] with
        | .ok bs s => go (bs.getD 0 []) s
        | .stop s => s
    read (fun anch s =>
      let old := vGet (s.vec s.cur).k p.kreg
      let bit (b : Nat) : Bool :=
        if b < x.nbc then old.getLsbD b || (b < x.sink || (x.nbc ≤ b + x.recent || (anch.getD (b / 8) 0).getLsbD (b % 8)))
        else b = x.nbc && x.nd ≠ 0
      let k := (List.range 1024).foldl (fun (m : PReg) b => setMark m b (bit b)) 0
      let s := s.modVec s.cur (fun v => { v with k := vSet v.k p.kreg k })
      (s.modPass (fun q => q.setReg a (BitVec.ofNat 64 ((s.logic s.cur).keptNow p)))).hNext))

/-! ## The full-precision pass (R258–R261) -/

/-- The first kept blocks at or after the cursor, at most two. -/
def nextKept (k : PReg) (cursor : Nat) : List Nat := ((List.range 1024).filter (fun b => cursor ≤ b && k.getLsbD b)).take 2

/-- Column c of a chunk is a token of the context or a draft slot in use. -/
def AttDesc.live (x : AttDesc) (blocks : List Nat) (c : Nat) : Bool :=
  match blocks[c / 64]? with
  | some b => if x.nd ≠ 0 && b = x.nbc then c % 64 < x.nd else 64 * b + c % 64 < x.ctx
  | none => false

/-- HQK (R258). -/
def execHqk (a : BitVec 4) (s : State) : Out :=
  s.hEngine (fun p s =>
    let x := p.att
    let blocks := nextKept (vGet (s.vec s.cur).k p.kreg) p.cursor
    if blocks = [] then (s.modPass (fun p => p.setReg a 0)).hNext
    else match s.kvPool (s.partOf s.cur), blocks.mapM (fun lb => (resolved p.kList lb).map (fun b => (lb, b))) with
      | some pool, some found =>
        match s.hReadAll (found.flatMap (fun e => kvRanges pool x x.qRow e.1 e.2)) with
        | .stop s => s
        | .ok rows s =>
          let str := kStream x.qkf x.dg rows
          let cols := (List.range x.dg).map (streamCols (cellsAt 0 str) (kvCode x.qkf) (64 * blocks.length))
          let s := s.hRing x str
          let slot := (s.mat s.cur).aslot[(0 : Fin 2)]
          let s := s.modMat s.cur (fun m => m.zMap 1 p.vr 128 (fun r c _ =>
            if x.live blocks c then attDot (attFmt x.qkf) slot cols r c 0 else negInf))
          (s.modPass (fun p => { (p.setReg a (BitVec.ofNat 64 blocks.length)) with
            chunk := some { blocks := blocks }, cursor := (blocks.getLast?.getD 0) + 1 })).hNext
      | _, _ => s.hBound none)

/-- The blocks of the chunk in hand. -/
def Pass.blocks (p : Pass) : List Nat := (p.chunk.map (·.blocks)).getD []

/-- HTREE (R259). -/
def execHtree (s : State) : Out :=
  s.hEngine (fun p s =>
    let x := p.att
    let draft := (p.blocks).findIdx? (fun b => x.nd ≠ 0 && b = x.nbc)
    match draft with
    | none => s.hNext
    | some i =>
      if x.tree = 0 then s.hNext
      else
        let apply (tree : List Word) (s : State) : State :=
          ((s.modMat s.cur (fun m => m.zMap 1 p.vr 128 (fun r c v =>
            if c / 64 = i && !(tree.getD ((128 * p.tile + r) / x.hq) 0).getLsbD (c % 64) then negInf else v))).modPass (fun p =>
              { p with tree := some tree })).hNext
        match p.tree with
        | some t => apply t s
        | none => match s.hReadAll [⟨0, 0, x.tree, 512⟩] with
          | .ok bs s => apply ((List.range 64).map (fun j => wordAt (bs.getD 0 []) (8 * j) 8)) s
          | .stop s => s)

/-- HMAX (R260). -/
def execHmax (s : State) : Out :=
  s.hEngine (fun p s =>
    let x := p.att
    let z := (s.mat s.cur).z[(1 : Fin 4)]
    let fc := s.freeCount
    let mn (r : Nat) : Nat := maxPat (rowAt p.m p.tile r :: (List.range 128).map (fun c => (f32Mul (zAt z r c) x.scale).1))
    let al (r : Nat) : Nat :=
      let m := rowAt p.m p.tile r
      if m = negInf && mn r = negInf then 0x3F800000
      else sfu32 .exp2 (fc + r) (f32Op (fpSum 0 [fp32.read m, (fp32.read (mn r)).neg])).1
    let alpha : Vector W32 128 := vecOf 128 (fun r => if r < p.vr then BitVec.ofNat 32 (al r) else vGet p.alpha r)
    ({ s with freeCount := fc + 128 } : State).modPass (fun p => { p with m := rowsOf p.m p.tile p.vr mn, alpha := alpha }) |>.hNext)

/-- HRESC (R260). -/
def execHresc (s : State) : Out :=
  s.hEngine (fun p s =>
    (s.modMat s.cur (fun m => m.zMap 0 p.vr p.att.d (fun r _ v => (f32Mul v (vGet p.alpha r).toNat).1))).hNext)

/-- The probability of a score: +0 for −∞ (R260). -/
def probOf (pf : FpFmt) (scale m free z : Nat) : Nat :=
  if z = negInf then 0
  else (pf.deliver 0 false (fp32.read (sfu32 .exp2 free (f32Op (fpSum 0 [fp32.read (f32Mul z scale).1, (fp32.read m).neg])).1))).1

/-- The format of P and its bytes. -/
def AttDesc.pf (x : AttDesc) : FpFmt := if x.vf = 2 then bf16 else e4m3

/-- HEXP (R260). -/
def execHexp (s : State) : Out :=
  s.hEngine (fun p s =>
    let x := p.att
    let z := (s.mat s.cur).z[(1 : Fin 4)]
    let es := esIn x.vf
    let n := 64 * p.blocks.length
    let fc := s.freeCount
    let row (r : Nat) : List Byte :=
      (List.range n).flatMap (fun c => leBytes es (probOf x.pf x.scale (rowAt p.m p.tile r) (fc + 128 * r + c) (zAt z r c))) ++
        List.replicate (512 - n * es) 0
    (({ s with freeCount := fc + 16384 } : State).modMat s.cur (fun m =>
      (List.range p.vr).foldl (fun m r => m.slotPut 1 (512 * r) (row r)) m)).hNext)

/-- HSUM (R260). -/
def execHsum (s : State) : Out :=
  s.hEngine (fun p s =>
    let x := p.att
    let slot := (s.mat s.cur).aslot[(1 : Fin 2)]
    let es := esIn x.vf
    let g (r : Nat) : FpVal := fpSum 0 ((List.range 128).map (fun c => x.pf.read (Mem.num slot (512 * r + es * c) es)))
    (s.modPass (fun p => { p with l := rowsOf p.l p.tile p.vr (fun r =>
      (f32Op (fpSum 0 [fp32.read (f32Mul (rowAt p.l p.tile r) (vGet p.alpha r).toNat).1, g r])).1) })).hNext)

/-- HPV (R260). -/
def execHpv (s : State) : Out :=
  s.hEngine (fun p s =>
    let x := p.att
    match s.kvPool (s.partOf s.cur), p.blocks.mapM (fun lb => (resolved p.vList lb).map (fun b => (lb, b))) with
    | some pool, some found =>
      match s.hReadAll (found.flatMap (fun e => kvRanges pool x x.vRow e.1 e.2)) with
      | .stop s => s
      | .ok rows s =>
        let str := vStream x.vf x.d rows
        let cols := (List.range (2 * found.length)).map (streamCols (cellsAt 0 str) (kvCode x.vf) x.d)
        let s := s.hRing x str
        let slot := (s.mat s.cur).aslot[(1 : Fin 2)]
        (s.modMat s.cur (fun m => m.zMap 0 p.vr x.d (fun r c v => attDot (if x.vf = 2 then 3 else 0) slot cols r c v))).hNext
    | _, _ => s.hBound none)

/-- The output of a row: zeros for l = +0, else z0 × rcp(l) (R261). -/
def outRow (x : AttDesc) (z : Mem) (r l free : Nat) : List Byte :=
  let f := if x.of_ = 0 then fp32 else if x.of_ = 1 then bf16 else fp16
  let rc := sfu32 .rcp free l
  (List.range x.d).flatMap (fun c =>
    leBytes (esOut x.of_) (if l = 0 then 0 else (f.deliver 0 false (fp32.read (f32Mul (zAt z r c) rc).1)).1))

/-- HDRAIN (R261): what it writes is formed once, when it first issues. -/
def execHdrain (s : State) : Out :=
  s.hEngine (fun p s =>
    let x := p.att
    let row (r : Nat) : Nat := 128 * p.tile + r
    let outs : List HRange := (List.range p.vr).map (fun r => ⟨0, r * x.oRow, x.o + BitVec.ofNat 64 (row r * x.ostride), x.oRow⟩)
    let stats : List HRange :=
      if x.st = 0 then [] else (List.range p.vr).map (fun r => ⟨0, 8 * r, x.st + BitVec.ofNat 64 (8 * row r), 8⟩)
    let z := (s.mat s.cur).z[(0 : Fin 4)]
    let fc := s.freeCount
    let fresh : List (List Byte) := (List.range p.vr).map (fun r => outRow x z r (rowAt p.l p.tile r) (fc + r)) ++
      (if x.st = 0 then [] else (List.range p.vr).map (fun r => leBytes 4 (rowAt p.m p.tile r) ++ leBytes 4 (rowAt p.l p.tile r)))
    let data := p.out.getD fresh
    let s := ({ s with freeCount := fc + 128 } : State).modPass (fun p => { p with out := some data })
    match s.hWriteAll (outs ++ stats) data with
    | .stop s => s
    | .ok _ s => s.hNext)

end Sys2Proof.Machine
end

