-- ==== Sys2Proof/Machine/Dispatch.lean ====
section
/-! DEFINITION. The meaning of each instruction and event: one arm per constructor of Instr. -/

namespace Sys2Proof.Machine

def exec (i : Instr) (s : State) : Host.Outcome State Fault Refusal :=
  match i with
  | .add d a b => Sys2Proof.Machine.execAdd d a b s
  | .sub d a b => Sys2Proof.Machine.execSub d a b s
  | .and d a b => Sys2Proof.Machine.execAnd d a b s
  | .or d a b => Sys2Proof.Machine.execOr d a b s
  | .xor d a b => Sys2Proof.Machine.execXor d a b s
  | .shl d a b => Sys2Proof.Machine.execShl d a b s
  | .shr d a b => Sys2Proof.Machine.execShr d a b s
  | .sar d a b => Sys2Proof.Machine.execSar d a b s
  | .min d a b => Sys2Proof.Machine.execMin d a b s
  | .max d a b => Sys2Proof.Machine.execMax d a b s
  | .minu d a b => Sys2Proof.Machine.execMinu d a b s
  | .maxu d a b => Sys2Proof.Machine.execMaxu d a b s
  | .slt d a b => Sys2Proof.Machine.execSlt d a b s
  | .sltu d a b => Sys2Proof.Machine.execSltu d a b s
  | .seq d a b => Sys2Proof.Machine.execSeq d a b s
  | .mul d a b => Sys2Proof.Machine.execMul d a b s
  | .mulh d a b => Sys2Proof.Machine.execMulh d a b s
  | .div d a b => Sys2Proof.Machine.execDiv d a b s
  | .divu d a b => Sys2Proof.Machine.execDivu d a b s
  | .rem d a b => Sys2Proof.Machine.execRem d a b s
  | .remu d a b => Sys2Proof.Machine.execRemu d a b s
  | .clz d a => Sys2Proof.Machine.execClz d a s
  | .ctz d a => Sys2Proof.Machine.execCtz d a s
  | .popc d a => Sys2Proof.Machine.execPopc d a s
  | .fshl d a b => Sys2Proof.Machine.execFshl d a b s
  | .fshr d a b => Sys2Proof.Machine.execFshr d a b s
  | .sextb d a => Sys2Proof.Machine.execSextb d a s
  | .sexth d a => Sys2Proof.Machine.execSexth d a s
  | .sextw d a => Sys2Proof.Machine.execSextw d a s
  | .addi d a imm => Sys2Proof.Machine.execAddi d a imm s
  | .andi d a imm => Sys2Proof.Machine.execAndi d a imm s
  | .ori d a imm => Sys2Proof.Machine.execOri d a imm s
  | .xori d a imm => Sys2Proof.Machine.execXori d a imm s
  | .shli d a imm => Sys2Proof.Machine.execShli d a imm s
  | .shri d a imm => Sys2Proof.Machine.execShri d a imm s
  | .sari d a imm => Sys2Proof.Machine.execSari d a imm s
  | .slti d a imm => Sys2Proof.Machine.execSlti d a imm s
  | .li d imm => Sys2Proof.Machine.execLi d imm s
  | .liw d imm => Sys2Proof.Machine.execLiw d imm s
  | .lihw d imm => Sys2Proof.Machine.execLihw d imm s
  | .bext d a p l => Sys2Proof.Machine.execBext d a p l s
  | .bins d a p l => Sys2Proof.Machine.execBins d a p l s
  | .bextv d a b => Sys2Proof.Machine.execBextv d a b s
  | .beq a b o => Sys2Proof.Machine.execBeq a b o s
  | .bne a b o => Sys2Proof.Machine.execBne a b o s
  | .blt a b o => Sys2Proof.Machine.execBlt a b o s
  | .bge a b o => Sys2Proof.Machine.execBge a b o s
  | .bltu a b o => Sys2Proof.Machine.execBltu a b o s
  | .bgeu a b o => Sys2Proof.Machine.execBgeu a b o s
  | .j o => Sys2Proof.Machine.execJ o s
  | .jal o => Sys2Proof.Machine.execJal o s
  | .jr d a => Sys2Proof.Machine.execJr d a s
  | .loop a o => Sys2Proof.Machine.execLoop a o s
  | .sldb d a imm => Sys2Proof.Machine.execSldb d a imm s
  | .sldh d a imm => Sys2Proof.Machine.execSldh d a imm s
  | .sldw d a imm => Sys2Proof.Machine.execSldw d a imm s
  | .sldd d a imm => Sys2Proof.Machine.execSldd d a imm s
  | .sstb d a imm => Sys2Proof.Machine.execSstb d a imm s
  | .ssth d a imm => Sys2Proof.Machine.execSsth d a imm s
  | .sstw d a imm => Sys2Proof.Machine.execSstw d a imm s
  | .sstd d a imm => Sys2Proof.Machine.execSstd d a imm s
  | .amoadd d a b sc o => Sys2Proof.Machine.execAmoadd d a b sc o s
  | .amoswp d a b sc o => Sys2Proof.Machine.execAmoswp d a b sc o s
  | .amocas d a b sc o => Sys2Proof.Machine.execAmocas d a b sc o s
  | .amomax d a b sc o => Sys2Proof.Machine.execAmomax d a b sc o s
  | .amomin d a b sc o => Sys2Proof.Machine.execAmomin d a b sc o s
  | .amoor d a b sc o => Sys2Proof.Machine.execAmoor d a b sc o s
  | .amoand d a b sc o => Sys2Proof.Machine.execAmoand d a b sc o s
  | .fset a b sc o => Sys2Proof.Machine.execFset a b sc o s
  | .fclr a b sc o => Sys2Proof.Machine.execFclr a b sc o s
  | .ftest d a b sc o => Sys2Proof.Machine.execFtest d a b sc o s
  | .ftas d a b sc o => Sys2Proof.Machine.execFtas d a b sc o s
  | .fwait a b sc o => Sys2Proof.Machine.execFwait a b sc o s
  | .fwaitc a b sc o => Sys2Proof.Machine.execFwaitc a b sc o s
  | .waita d a b sc o => Sys2Proof.Machine.execWaita d a b sc o s
  | .trun d a b => Sys2Proof.Machine.execTrun d a b s
  | .tbase d a b => Sys2Proof.Machine.execTbase d a b s
  | .tstop d => Sys2Proof.Machine.execTstop d s
  | .twait d => Sys2Proof.Machine.execTwait d s
  | .tcut d a => Sys2Proof.Machine.execTcut d a s
  | .tstat d a => Sys2Proof.Machine.execTstat d a s
  | .tkput a b => Sys2Proof.Machine.execTkput a b s
  | .tkget d b => Sys2Proof.Machine.execTkget d b s
  | .tkcnt d b => Sys2Proof.Machine.execTkcnt d b s
  | .tkreset d a b => Sys2Proof.Machine.execTkreset d a b s
  | .setn d a => Sys2Proof.Machine.execSetn d a s
  | .xcopy d a b sc o n => Sys2Proof.Machine.execXcopy d a b sc o n s
  | .xgath d a sc o n => Sys2Proof.Machine.execXgath d a sc o n s
  | .xscat d a sc o n => Sys2Proof.Machine.execXscat d a sc o n s
  | .xcoll d a sc o n => Sys2Proof.Machine.execXcoll d a sc o n s
  | .xpref d a sc o n => Sys2Proof.Machine.execXpref d a sc o n s
  | .xlayer d sc o n => Sys2Proof.Machine.execXlayer d sc o n s
  | .xpin d a sc o n => Sys2Proof.Machine.execXpin d a sc o n s
  | .xunpin d a sc o n => Sys2Proof.Machine.execXunpin d a sc o n s
  | .xgen d a => Sys2Proof.Machine.execXgen d a s
  | .xwaitc d a sc o => Sys2Proof.Machine.execXwaitc d a sc o s
  | .xqstat d a => Sys2Proof.Machine.execXqstat d a s
  | .egsub d a sc o n => Sys2Proof.Machine.execEgsub d a sc o n s
  | .kvalloc d a b n => Sys2Proof.Machine.execKvalloc d a b n s
  | .kvfree d a => Sys2Proof.Machine.execKvfree d a s
  | .kvref d a => Sys2Proof.Machine.execKvref d a s
  | .kvlook d a b => Sys2Proof.Machine.execKvlook d a b s
  | .kvmap d a b => Sys2Proof.Machine.execKvmap d a b s
  | .taskpost d a => Sys2Proof.Machine.execTaskpost d a s
  | .taskyld d => Sys2Proof.Machine.execTaskyld d s
  | .glaunch d a => Sys2Proof.Machine.execGlaunch d a s
  | .slack d => Sys2Proof.Machine.execSlack d s
  | .rung d a b => Sys2Proof.Machine.execRung d a b s
  | .frmacq d a => Sys2Proof.Machine.execFrmacq d a s
  | .frmcommit d a b => Sys2Proof.Machine.execFrmcommit d a b s
  | .phase d sc o => Sys2Proof.Machine.execPhase d sc o s
  | .pharr d a sc o => Sys2Proof.Machine.execPharr d a sc o s
  | .phwait a b sc o => Sys2Proof.Machine.execPhwait a b sc o s
  | .fence sc o => Sys2Proof.Machine.execFence sc o s
  | .rels a b sc => Sys2Proof.Machine.execRels a b sc s
  | .acqs d a sc => Sys2Proof.Machine.execAcqs d a sc s
  | .atgo d a => Sys2Proof.Machine.execAtgo d a s
  | .atwait d a => Sys2Proof.Machine.execAtwait d a s
  | .atload a b => Sys2Proof.Machine.execAtload a b s
  | .atstat d => Sys2Proof.Machine.execAtstat d s
  | .svc d a b => Sys2Proof.Machine.execSvc d a b s
  | .trapret d a b => Sys2Proof.Machine.execTrapret d a b s
  | .yrd d a b => Sys2Proof.Machine.execYrd d a b s
  | .ywr d a b => Sys2Proof.Machine.execYwr d a b s
  | .idle d a => Sys2Proof.Machine.execIdle d a s
  | .tqpop d a => Sys2Proof.Machine.execTqpop d a s
  | .freeze d a => Sys2Proof.Machine.execFreeze d a s
  | .husksave d a b => Sys2Proof.Machine.execHusksave d a b s
  | .huskload d a b => Sys2Proof.Machine.execHuskload d a b s
  | .evpost d a => Sys2Proof.Machine.execEvpost d a s
  | .vld p q v a n o => Sys2Proof.Machine.execVld p q v a n o s
  | .vlds p q d a b => Sys2Proof.Machine.execVlds p q d a b s
  | .vldg p q d a b => Sys2Proof.Machine.execVldg p q d a b s
  | .vldb p q v a n o => Sys2Proof.Machine.execVldb p q v a n o s
  | .pld p q v a n o => Sys2Proof.Machine.execPld p q v a n o s
  | .mald p q sc a r => Sys2Proof.Machine.execMald p q sc a r s
  | .wld p q d a imm => Sys2Proof.Machine.execWld p q d a imm s
  | .zld p q k a r => Sys2Proof.Machine.execZld p q k a r s
  | .vst p q v a n o => Sys2Proof.Machine.execVst p q v a n o s
  | .vsts p q d a b => Sys2Proof.Machine.execVsts p q d a b s
  | .vstg p q d a b => Sys2Proof.Machine.execVstg p q d a b s
  | .vstm p q d a k => Sys2Proof.Machine.execVstm p q d a k s
  | .est p q d a imm => Sys2Proof.Machine.execEst p q d a imm s
  | .pst p q v a n o => Sys2Proof.Machine.execPst p q v a n o s
  | .aadd p q d a b => Sys2Proof.Machine.execAadd p q d a b s
  | .aaddi p q d a imm => Sys2Proof.Machine.execAaddi p q d a imm s
  | .aset p q d a imm j => Sys2Proof.Machine.execAset p q d a imm j s
  | .amov p q d a => Sys2Proof.Machine.execAmov p q d a s
  | .amovTok p q d => Sys2Proof.Machine.execAmovTok p q d s
  | .awrap p q d a k => Sys2Proof.Machine.execAwrap p q d a k s
  | .astep p q d imm => Sys2Proof.Machine.execAstep p q d imm s
  | .astepReg p q d a => Sys2Proof.Machine.execAstepReg p q d a s
  | .bfull p q a imm => Sys2Proof.Machine.execBfull p q a imm s
  | .bempty p q a imm => Sys2Proof.Machine.execBempty p q a imm s
  | .bwait p q a imm => Sys2Proof.Machine.execBwait p q a imm s
  | .btest p q a imm => Sys2Proof.Machine.execBtest p q a imm s
  | .qbind p q sc a imm => Sys2Proof.Machine.execQbind p q sc a imm s
  | .qfree p q sc => Sys2Proof.Machine.execQfree p q sc s
  | .pfb p q a imm => Sys2Proof.Machine.execPfb p q a imm s
  | .lnop p q => Sys2Proof.Machine.execLnop p q s
  | .vcfg p q imm => Sys2Proof.Machine.execVcfg p q imm s
  | .vadd p q d a b k m => Sys2Proof.Machine.execVadd p q d a b k m s
  | .vsub p q d a b k m => Sys2Proof.Machine.execVsub p q d a b k m s
  | .vmul p q d a b k m => Sys2Proof.Machine.execVmul p q d a b k m s
  | .vfma p q d a b k m => Sys2Proof.Machine.execVfma p q d a b k m s
  | .vfms p q d a b k m => Sys2Proof.Machine.execVfms p q d a b k m s
  | .vmin p q d a b k m => Sys2Proof.Machine.execVmin p q d a b k m s
  | .vmax p q d a b k m => Sys2Proof.Machine.execVmax p q d a b k m s
  | .vand p q d a b k m => Sys2Proof.Machine.execVand p q d a b k m s
  | .vor p q d a b k m => Sys2Proof.Machine.execVor p q d a b k m s
  | .vxor p q d a b k m => Sys2Proof.Machine.execVxor p q d a b k m s
  | .vshl p q d a b k m => Sys2Proof.Machine.execVshl p q d a b k m s
  | .vshr p q d a b k m => Sys2Proof.Machine.execVshr p q d a b k m s
  | .vsar p q d a b k m => Sys2Proof.Machine.execVsar p q d a b k m s
  | .vabs p q d a k m => Sys2Proof.Machine.execVabs p q d a k m s
  | .vneg p q d a k m => Sys2Proof.Machine.execVneg p q d a k m s
  | .vcmp p q d a b c m => Sys2Proof.Machine.execVcmp p q d a b c m s
  | .vsel p q d a b k m => Sys2Proof.Machine.execVsel p q d a b k m s
  | .vmov p q d a k m => Sys2Proof.Machine.execVmov p q d a k m s
  | .vbci p q d imm => Sys2Proof.Machine.execVbci p q d imm s
  | .vsfu p q d a f k m => Sys2Proof.Machine.execVsfu p q d a f k m s
  | .vred p q d a f k m => Sys2Proof.Machine.execVred p q d a f k m s
  | .vscan p q d a f k m => Sys2Proof.Machine.execVscan p q d a f k m s
  | .vperm p q d a b k m => Sys2Proof.Machine.execVperm p q d a b k m s
  | .vzip p q d a b k m => Sys2Proof.Machine.execVzip p q d a b k m s
  | .vunzip p q d a b k m => Sys2Proof.Machine.execVunzip p q d a b k m s
  | .vcvt p q d a t k m => Sys2Proof.Machine.execVcvt p q d a t k m s
  | .vwmul p q d a b k m => Sys2Proof.Machine.execVwmul p q d a b k m s
  | .vwadd p q d a b k m => Sys2Proof.Machine.execVwadd p q d a b k m s
  | .vnarr p q d a b k m => Sys2Proof.Machine.execVnarr p q d a b k m s
  | .vmxq p q d a b k m => Sys2Proof.Machine.execVmxq p q d a b k m s
  | .vmxd p q d a b k m => Sys2Proof.Machine.execVmxd p q d a b k m s
  | .vidx p q d k => Sys2Proof.Machine.execVidx p q d k s
  | .vslide p q d a b k m => Sys2Proof.Machine.execVslide p q d a b k m s
  | .vqpop p q d a c k => Sys2Proof.Machine.execVqpop p q d a c k s
  | .plog p q d a b f => Sys2Proof.Machine.execPlog p q d a b f s
  | .pcnt p q a => Sys2Proof.Machine.execPcnt p q a s
  | .vtos p q a k m => Sys2Proof.Machine.execVtos p q a k m s
  | .vfrs p q d k => Sys2Proof.Machine.execVfrs p q d k s
  | .mcfg p q d imm => Sys2Proof.Machine.execMcfg p q d imm s
  | .mma p q z k u n g => Sys2Proof.Machine.execMma p q z k u n g s
  | .mzero p q z n => Sys2Proof.Machine.execMzero p q z n s
  | .mdrain p q d a b j => Sys2Proof.Machine.execMdrain p q d a b j s
  | .scout p q z n g => Sys2Proof.Machine.execScout p q z n g s
  | .kmaskKmax p q d a => Sys2Proof.Machine.execKmaskKmax p q d a s
  | .kmaskKkeep p q d a b => Sys2Proof.Machine.execKmaskKkeep p q d a b s
  | .kmaskKrange p q d => Sys2Proof.Machine.execKmaskKrange p q d s
  | .kmaskKclr p q d => Sys2Proof.Machine.execKmaskKclr p q d s
  | .kmaskKor p q d a => Sys2Proof.Machine.execKmaskKor p q d a s
  | .kmaskKtop p q d a => Sys2Proof.Machine.execKmaskKtop p q d a s
  | .kmaskKfromp p q d a => Sys2Proof.Machine.execKmaskKfromp p q d a s
  | .epset p q d a m => Sys2Proof.Machine.execEpset p q d a m s
  | .wsel p q imm => Sys2Proof.Machine.execWsel p q imm s
  | .wselTok p q => Sys2Proof.Machine.execWselTok p q s
  | .mnop p q => Sys2Proof.Machine.execMnop p q s
  | .hset a imm => Sys2Proof.Machine.execHset a imm s
  | .hsetTile a => Sys2Proof.Machine.execHsetTile a s
  | .hadd a b imm => Sys2Proof.Machine.execHadd a b imm s
  | .hloop a o => Sys2Proof.Machine.execHloop a o s
  | .hbr a b o => Sys2Proof.Machine.execHbr a b o s
  | .hflag a b sc f => Sys2Proof.Machine.execHflag a b sc f s
  | .hkv a b k w => Sys2Proof.Machine.execHkv a b k w s
  | .hscout a b => Sys2Proof.Machine.execHscout a b s
  | .hwin a => Sys2Proof.Machine.execHwin a s
  | .hqk a => Sys2Proof.Machine.execHqk a s
  | .cgetb a d => Sys2Proof.Machine.execCgetb a d s
  | .cgetl a d => Sys2Proof.Machine.execCgetl a d s
  | .cgetp a d => Sys2Proof.Machine.execCgetp a d s
  | .ctag a d => Sys2Proof.Machine.execCtag a d s
  | .candp b a d => Sys2Proof.Machine.execCandp b a d s
  | .cseal b a d => Sys2Proof.Machine.execCseal b a d s
  | .cunseal b a d => Sys2Proof.Machine.execCunseal b a d s
  | .cmove a d => Sys2Proof.Machine.execCmove a d s
  | .cjalr b a d => Sys2Proof.Machine.execCjalr b a d s
  | .csetb c b a d => Sys2Proof.Machine.execCsetb c b a d s
  | .cld w imm a n d => Sys2Proof.Machine.execCld w imm a n d s
  | .cldc w imm a d => Sys2Proof.Machine.execCldc w imm a d s
  | .cst w imm b a n i2 => Sys2Proof.Machine.execCst w imm b a n i2 s
  | .cstc w imm b a i2 => Sys2Proof.Machine.execCstc w imm b a i2 s
  | .illegal w => Sys2Proof.Machine.execIllegal w s
  | .rv64 short imm => Sys2Proof.Machine.execRv64 short imm s
  | .taskend => Sys2Proof.Machine.execTaskend s
  | .halt => Sys2Proof.Machine.execHalt s
  | .brkpt => Sys2Proof.Machine.execBrkpt s
  | .hwait => Sys2Proof.Machine.execHwait s
  | .htree => Sys2Proof.Machine.execHtree s
  | .hmax => Sys2Proof.Machine.execHmax s
  | .hexp => Sys2Proof.Machine.execHexp s
  | .hsum => Sys2Proof.Machine.execHsum s
  | .hresc => Sys2Proof.Machine.execHresc s
  | .hpv => Sys2Proof.Machine.execHpv s
  | .hdrain => Sys2Proof.Machine.execHdrain s
  | .hnop => Sys2Proof.Machine.execHnop s
  | .hend => Sys2Proof.Machine.execHend s
  | .runStart => Sys2Proof.Machine.execRunStart s
  | .startQueueWrite => Sys2Proof.Machine.execStartQueueWrite s
  | .deferredPush => Sys2Proof.Machine.execDeferredPush s
  | .tokenTimeout => Sys2Proof.Machine.execTokenTimeout s
  | .storePerform => Sys2Proof.Machine.execStorePerform s
  | .loadResponse => Sys2Proof.Machine.execLoadResponse s
  | .fwaitWake => Sys2Proof.Machine.execFwaitWake s
  | .waitaWake => Sys2Proof.Machine.execWaitaWake s
  | .waitaTimeout => Sys2Proof.Machine.execWaitaTimeout s
  | .idleWake => Sys2Proof.Machine.execIdleWake s
  | .matrixOperationFinish => Sys2Proof.Machine.execMatrixOperationFinish s
  | .mdrainChunk => Sys2Proof.Machine.execMdrainChunk s
  | .rescan => Sys2Proof.Machine.execRescan s
  | .ytlbinv => Sys2Proof.Machine.execYtlbinv s
  | .commandStart => Sys2Proof.Machine.execCommandStart s
  | .commandAcquire => Sys2Proof.Machine.execCommandAcquire s
  | .segment => Sys2Proof.Machine.execSegment s
  | .commandComplete => Sys2Proof.Machine.execCommandComplete s
  | .completionTokenPush => Sys2Proof.Machine.execCompletionTokenPush s
  | .budgetWindow => Sys2Proof.Machine.execBudgetWindow s
  | .grainMove => Sys2Proof.Machine.execGrainMove s
  | .scrub => Sys2Proof.Machine.execScrub s
  | .encoderAccept => Sys2Proof.Machine.execEncoderAccept s
  | .frameEncoded => Sys2Proof.Machine.execFrameEncoded s
  | .placement => Sys2Proof.Machine.execPlacement s
  | .exchangeLanding => Sys2Proof.Machine.execExchangeLanding s
  | .phaseRecordLoad => Sys2Proof.Machine.execPhaseRecordLoad s
  | .preload => Sys2Proof.Machine.execPreload s
  | .dispatch => Sys2Proof.Machine.execDispatch s
  | .tillerFreeze => Sys2Proof.Machine.execTillerFreeze s
  | .huskSave => Sys2Proof.Machine.execHuskSave s
  | .huskRestore => Sys2Proof.Machine.execHuskRestore s
  | .taskWatchdog => Sys2Proof.Machine.execTaskWatchdog s
  | .firing => Sys2Proof.Machine.execFiring s
  | .streamWatchdog => Sys2Proof.Machine.execStreamWatchdog s
  | .thresherDecision => Sys2Proof.Machine.execThresherDecision s
  | .checkpointDone => Sys2Proof.Machine.execCheckpointDone s
  | .escalation => Sys2Proof.Machine.execEscalation s
  | .worldSwitch => Sys2Proof.Machine.execWorldSwitch s
  | .notify => Sys2Proof.Machine.execNotify s
  | .queueEnable => Sys2Proof.Machine.execQueueEnable s
  | .queueDisable => Sys2Proof.Machine.execQueueDisable s
  | .queueDisableDone => Sys2Proof.Machine.execQueueDisableDone s
  | .registerWrite => Sys2Proof.Machine.execRegisterWrite s
  | .streamCreate => Sys2Proof.Machine.execStreamCreate s
  | .streamDestroy => Sys2Proof.Machine.execStreamDestroy s
  | .graphLaunch => Sys2Proof.Machine.execGraphLaunch s
  | .memMapAlloc => Sys2Proof.Machine.execMemMapAlloc s
  | .memMapFree => Sys2Proof.Machine.execMemMapFree s
  | .memMapHwin => Sys2Proof.Machine.execMemMapHwin s
  | .memMapHunmap => Sys2Proof.Machine.execMemMapHunmap s
  | .memMapProtect => Sys2Proof.Machine.execMemMapProtect s
  | .evict => Sys2Proof.Machine.execEvict s
  | .migrateStart => Sys2Proof.Machine.execMigrateStart s
  | .migrateRound => Sys2Proof.Machine.execMigrateRound s
  | .migrateStop => Sys2Proof.Machine.execMigrateStop s
  | .migrateResume => Sys2Proof.Machine.execMigrateResume s
  | .migrateCancel => Sys2Proof.Machine.execMigrateCancel s
  | .unknownOp => Sys2Proof.Machine.execUnknownOp s
  | .recordComplete => Sys2Proof.Machine.execRecordComplete s
  | .bar2Read => Sys2Proof.Machine.execBar2Read s
  | .bar2Write => Sys2Proof.Machine.execBar2Write s
  | .vectorUnmask => Sys2Proof.Machine.execVectorUnmask s
  | .flr => Sys2Proof.Machine.execFlr s
  | .flrDone => Sys2Proof.Machine.execFlrDone s
  | .image => Sys2Proof.Machine.execImage s
  | .switch => Sys2Proof.Machine.execSwitch s
  | .abort => Sys2Proof.Machine.execAbort s
  | .attest => Sys2Proof.Machine.execAttest s
  | .part => Sys2Proof.Machine.execPart s
  | .bind => Sys2Proof.Machine.execBind s
  | .unbind => Sys2Proof.Machine.execUnbind s
  | .domain => Sys2Proof.Machine.execDomain s
  | .unknownCmd => Sys2Proof.Machine.execUnknownCmd s
  | .mailboxDone => Sys2Proof.Machine.execMailboxDone s
  | .ucmdVerify => Sys2Proof.Machine.execUcmdVerify s
  | .verificationDone => Sys2Proof.Machine.execVerificationDone s
  | .ucmdSwitch => Sys2Proof.Machine.execUcmdSwitch s
  | .ucmdHandoverAccept => Sys2Proof.Machine.execUcmdHandoverAccept s
  | .ucmdHeartbeat => Sys2Proof.Machine.execUcmdHeartbeat s
  | .ucmdAbort => Sys2Proof.Machine.execUcmdAbort s
  | .handoverTimeout => Sys2Proof.Machine.execHandoverTimeout s
  | .trialHeartbeatGap => Sys2Proof.Machine.execTrialHeartbeatGap s
  | .controllerResetInTrial => Sys2Proof.Machine.execControllerResetInTrial s
  | .heartbeatGap => Sys2Proof.Machine.execHeartbeatGap s
  | .reset => Sys2Proof.Machine.execReset s
  | .thermalTrip => Sys2Proof.Machine.execThermalTrip s
  | .tripclr => Sys2Proof.Machine.execTripclr s
  | .level => Sys2Proof.Machine.execLevel s
  | .effChange => Sys2Proof.Machine.execEffChange s
  | .tilepwr => Sys2Proof.Machine.execTilepwr s
  | .tileWake => Sys2Proof.Machine.execTileWake s
  | .pwrerrRead => Sys2Proof.Machine.execPwrerrRead s
  | .d3hotEntry => Sys2Proof.Machine.execD3hotEntry s
  | .d0Return => Sys2Proof.Machine.execD0Return s
  | .d3cold => Sys2Proof.Machine.execD3cold s
  | .patrolScrub => Sys2Proof.Machine.execPatrolScrub s
  | .errorCounterRead => Sys2Proof.Machine.execErrorCounterRead s
  | .fabricRequestServe => Sys2Proof.Machine.execFabricRequestServe s
  | .fabricReissue => Sys2Proof.Machine.execFabricReissue s
  | .portLost => Sys2Proof.Machine.execPortLost s
  | .fabricNoPlane => Sys2Proof.Machine.execFabricNoPlane s
  | .atomicResultExpiry => Sys2Proof.Machine.execAtomicResultExpiry s

end Sys2Proof.Machine
end

