-- ==== Sys2Proof/Machine/Place.lean ====
section
/-! DEFINITION. How a program comes to run for a single step: a tile placed in partition 0 with a task, and an opcode-table
word put where that tile's sequencer, Rachis or a Granary core fetches. -/

namespace Sys2Proof.Machine

/-- A task that the placed program runs as: partition 0, instance 1. -/
def placedTask : TaskCtl :=
  { part := 0, inst := 1, idx := 0,
    rc := { entry := 0, param := 0, ltab := 0, mtab := 0, stab := 0, cost := 1, deps := 0, tile := 0, attr := 0, succ := [], wdog := 0 },
    cls := 0, super := true, u := 0, lifted := true }

/-- The instance of the placed task. -/
def placedInst : Inst :=
  { no := 1, graphPtr := 0, graph := none, cls := 0, dl := 0, iparam := 0,
    src := .program false 0 0 0 0 0, launched := 0, world := none, col0 := 0, row0 := 0, phase := 0, st := .running, posted := [],
    live := [0], barriers := Vector.replicate 8 { count := 0, arrived := [] }, snap := [], own := [] }

/-- Tile 0 in partition 0, two task bins, holding the placed task. -/
def State.withTask (s : State) : State :=
  let s := s.modPart 0 (fun x => { x with inUse := true, tiles := x.tiles ||| 1, home := 0, slim := 2, insts := placedInst :: x.insts.filter (fun i => i.no != 1), instNo := max 1 x.instNo })
  s.modTile 0 (fun x => { x with part := 0, slim := 2, pwr := .on, freezing := none, logic := { x.logic with task := some placedTask } })

/-- Puts the two words of a table word at the start of the slice of tile 0, or of a memory. -/
def wordBytes (w0 w1 : W32) : List Byte := leBytes 4 w0.toNat ++ leBytes 4 w1.toNat

def State.placeSlice (s : State) (w0 w1 : W32) : State :=
  s.modTile 0 (fun x => { x with slice := Mem.write x.slice 0 (wordBytes w0 w1), poison := x.poison.filter (fun b => b != 0) })

/-- A pass whose descriptor is all zero, at its first micro-op. -/
def Pass.start : Pass :=
  { desc := List.replicate 512 0, h := Vector.replicate 16 0, upc := 0, m := Vector.replicate 512 0, l := Vector.replicate 512 0,
    smax := Vector.replicate 512 0, alpha := Vector.replicate 128 0, tile := 0, vr := 0, cursor := 0, scoutList := [], kList := [],
    vList := [], chunk := none, tree := none, fetched := 0, got := [], out := none, entries := 0, cls := 0, stops := [], waitd := false }

/-- The state in which the next step runs a table word: by the first map in which the word is an instruction. -/
def State.placedWord (s : State) (nbits w : Nat) : State :=
  let ws := tableWords (w % 2 ^ nbits)
  let run : Run := { base := 0, len := 2, rep := 1, step := 0, j := 0, issued := 0 }
  let ofSeq (u : Sq) : State :=
    { (s.withTask.placeSlice ws.1 ws.2).modSeq 0 u (fun x => { x with run := some run, started := none, wait := .none, stop := none })
      with schedule := [.seq 0 u] }
  match decodeAny ws.1 ws.2 tableMaps with
  | some (.c, _) =>
    { (s.withTask.placeSlice ws.1 ws.2).modC 0 (fun c => { c with pc := 0, wait := .none, stop := none, fetched := [], spaceBad := false })
      with schedule := [.seq 0 .c] }
  | some (.l, _) => ofSeq .l
  | some (.s, _) => ofSeq .s
  | some (.m, _) => ofSeq .m
  | some (.h, _) =>
    { s.withTask.modRachis 0 (fun r => { r with store := Mem.write r.store 0 (leBytes 4 ws.1.toNat), pass := some Pass.start })
      with schedule := [.rachis 0] }
  | some (.g, _) =>
    { s.modGran (fun g => { g with cores := g.cores.set 0 { (g.cores[0]) with pc := 0, running := true },
                                   sram := Mem.write g.sram 0 (wordBytes ws.1 ws.2) })
      with schedule := [.granary 0] }
  | _ => { (s.withTask.placeSlice ws.1 ws.2).modC 0 (fun c => { c with pc := 0, wait := .none, stop := none, fetched := [], spaceBad := false })
      with schedule := [.seq 0 .c] }

end Sys2Proof.Machine
end

