-- ==== Sys2Proof/Machine/Step.lean ====
section
/-! DEFINITION. One step of the device: the agent that the agenda names moves. -/

namespace Sys2Proof.Machine

/-- One step: the next agenda entry is chosen and the instruction it comes to is executed. -/
def step (s : State) : Host.Outcome State Fault Refusal :=
  match s.nextPick.2.choose s.nextPick.1 with
  | .run i s => exec i s
  | .done s => .next s

/-- The state with an opcode-table word placed where the next step fetches and runs it (host interface). -/
def State.withFetchWord (s : State) (nbits w : Nat) : State := s.placedWord nbits w

end Sys2Proof.Machine
end

