-- ==== Sys2Proof/Safety.lean ====
section
/-! DEFINITION. What counts as a safe run, and the terms in which the statements speak of states: what C needs to issue, what an
instruction of C leaves alone, and the invariant that every memory of the device keeps its canonical form. -/

namespace Sys2Proof.Machine

/-- A run of `k` steps neither faults nor is refused. -/
def runsSafely (k : Nat) (s : State) : Prop :=
  ∀ j, j ≤ k → ∃ t, Host.Core.run { State := State, Fault := Fault, Refusal := Refusal, step := step, reset := State.reset } j s = .next t

/-! ## C -/

/-- None of the registers has a result pending, so an instruction of C that names them issues (R67). -/
def State.free (s : State) (rs : List Reg) : Prop := ∀ r ∈ rs, (s.c s.cur).pending r = false

/-- None of the registers carries a poison mark (R395). -/
def State.clean (s : State) (rs : List Reg) : Prop := ∀ r ∈ rs, (s.c s.cur).poisoned r = false

/-- All of the device but C of the current tile is as in `s`. -/
def onlyC (s t : State) : Prop := t.modC s.cur (fun _ => s.c s.cur) = s

/-- C has gone on to `pc`, `d` reads `v` afterwards, and nothing else differs from `s`: no other register and no poison mark of
one, no outstanding access, no other part of the device. A write to s0 is discarded. -/
def goesTo (s t : State) (d : Reg) (v pc : Word) : Prop :=
  onlyC s t ∧ (∀ r, t.sr s.cur r = if r ≠ 0 ∧ r = d then v else s.sr s.cur r) ∧ (t.c s.cur).pc = pc ∧
  (∀ r, r ≠ d → (t.c s.cur).poisoned r = (s.c s.cur).poisoned r) ∧ (t.c s.cur).ops = (s.c s.cur).ops ∧
  (t.c s.cur).wait = .none ∧ (t.c s.cur).stop = (s.c s.cur).stop ∧ (t.c s.cur).fetched = (s.c s.cur).fetched

/-- The same at the next word. -/
def returns (s t : State) (d : Reg) (v : Word) : Prop := goesTo s t d v ((s.c s.cur).pc + 4)

/-! ## L, S and M -/

/-- The micro-order at hand starts with the value `v`, at `s'`: it had started already, or it names no pop, or its pop took the
oldest token of the queue it names (R82). -/
def State.starts (s : State) (u : Sq) (p : BitVec 3) (v : Word) (s' : State) : Prop :=
  let begun : SeqSt → SeqSt := fun x => { x with started := some v, wait := .none, stall := 0 }
  ((s.seq s.cur u).started = some v ∧ s' = s) ∨
  ((s.seq s.cur u).started = none ∧ popQueue u p = none ∧ v = 0 ∧ s' = s.modSeq s.cur u begun) ∨
  ∃ q r, (s.seq s.cur u).started = none ∧ popQueue u p = some q ∧ s.toks s.cur q = v :: r ∧
    s' = (s.setToks s.cur q r).modSeq s.cur u begun

/-- The sequencer has a micro-order of `words` words in hand that is not the last of its repeat, its push has room, and nothing
stops it. -/
def Logic.inHand (g : Logic) (u : Sq) (words : Nat) (q : BitVec 3) : Prop :=
  (∃ r, (g.seq u).run = some r ∧ r.issued = 0 ∧ r.step + words < r.len ∧ 0 < words) ∧ (g.seq u).stopping = false ∧
  ∀ k, pushQueue u q = some k → (g.tok[k]).length < 255

/-- The sequencer stands `words` words on, with nothing started and nothing waited for. -/
def SeqSt.past (x : SeqSt) (words : Nat) : SeqSt :=
  { x with run := x.run.map (fun r => { r with step := r.step + words, word := none }), started := none, wait := .none, stall := 0 }

/-- The micro-order is done: the sequencer stands past it, and the token it pushes is the youngest of its queue. -/
def Logic.past (g : Logic) (u : Sq) (words : Nat) (q : BitVec 3) (tok : Word) : Logic :=
  (g.modSeq u (fun x => x.past words)).push (pushQueue u q) tok

/-- The vector micro-order in M's hand starts at `s1` with the value `tok` while no matrix operation is outstanding. -/
def State.vecStarts (s s1 : State) (p q : BitVec 3) (tok : Word) : Prop :=
  s.starts .m p tok s1 ∧ (s.logic s.cur).m.list = [] ∧ (s1.logic s.cur).inHand .m 1 q

/-- It is done: the vector unit's registers are `x`, its token is pushed, M stands past it, and nothing else differs from `s1`. -/
def State.vecDone (s1 : State) (q : BitVec 3) (x : VecSt) (tok : Word) : Host.Outcome State Fault Refusal :=
  .next (s1.modLogic s1.cur (fun g => { g.past .m 1 q tok with vec := x }))

/-- The pattern of R153: `v` holds `f` in the active lanes, and 0 or the old element in the others. -/
def VecSt.lanesAre (x : VecSt) (k : BitVec 3) (old v : VReg) (w : Nat) (f : Nat → Nat) : Prop :=
  ∀ j, j < 4096 / w → lane w v j = if x.on k j then f j else if x.zero then 0 else lane w old j

/-- The flags that the active lanes raise. -/
def VecSt.flagsAre (x : VecSt) (k : BitVec 3) (f : Nat → FFlags) : FFlags :=
  (List.range x.lanes).foldr (fun j a => (if x.on k j then f j else 0) ||| a) 0

/-- The predicate of a micro-order carries no poison. -/
def VecSt.predOk (x : VecSt) (k : BitVec 3) : Prop := k = 7 ∨ x.ppoison.getLsbD k.toNat = false

/-! ## Memory -/

/-- One byte of the device's memories, of host memory or of the other devices' memories. -/
inductive Site where
  | slice (t : Tile) (a : Nat)
  | sync (t : Tile) (a : Nat)
  | bulk (a : Nat)
  | host (a : Nat)
  | remote (a : Nat)
  deriving DecidableEq, Repr

/-- What it reads as. -/
def State.byteAt (s : State) : Site → Byte
  | .slice t a => Mem.byte (s.tile t).slice a
  | .sync t a => Mem.byte (s.tile t).sync a
  | .bulk a => Mem.byte s.bulk a
  | .host a => Mem.byte s.host a
  | .remote a => Mem.byte s.fabric.remote a ^^^ Config.remoteInit a

/-- The byte `k` of a location. -/
def Loc.site (l : Loc) (k : Nat) : Option Site :=
  match l with
  | .slice t x => some (.slice t (x + k))
  | .sync t x => some (.sync t (x + k))
  | .bulk _ _ pa _ _ => some (.bulk (pa + k))
  | .host _ b _ => some (.host (b + k))
  | .fabric _ d o => some (.remote (remoteAt d o + k))

/-- The byte of the table entry through which a location was reached: a write sets its D bit (R125). -/
def Loc.leafSite (l : Loc) (x : Site) : Prop :=
  match l, x with
  | .bulk _ _ _ e _, .bulk a => e ≠ 0 ∧ e ≤ a ∧ a < e + 8
  | .host _ _ e, .bulk a => e ≠ 0 ∧ e ≤ a ∧ a < e + 8
  | _, _ => False

/-- `bs` stands at the location, and every other byte of memory but the entry's is as in `s`. -/
def wrote (s t : State) (l : Loc) (bs : List Byte) : Prop :=
  (∀ k x, k < bs.length → l.site k = some x → ¬ l.leafSite x → t.byteAt x = bs.getD k 0) ∧
  ∀ x, (∀ k, k < bs.length → l.site k ≠ some x) → ¬ l.leafSite x → t.byteAt x = s.byteAt x

/-- Every byte of memory is as in `s`. -/
def sameBytes (s t : State) : Prop := ∀ x, t.byteAt x = s.byteAt x

/-- Bulk and host memory, the slices and sync spaces, Granary's memories, the bins of worlds and instances that are put away, and the
other devices' memories are in the canonical form. -/
def State.memOk (s : State) : Prop :=
  Memory.wf s.bulk = true ∧ Memory.wf s.host = true ∧
  (∀ t, Memory.wf (s.tile t).slice = true ∧ Memory.wf (s.tile t).sync = true) ∧
  (∀ p, (∀ w ∈ (s.part p).saved, ∀ b ∈ w.bins, Memory.wf b.data = true) ∧
    ∀ k ∈ (s.part p).parked, ∀ b ∈ k.bins, Memory.wf b.data = true) ∧
  Memory.wf s.granary.sram = true ∧ Memory.wf s.granary.wstore = true ∧ Memory.wf s.granary.bank = true ∧
  Memory.wf s.fabric.remote = true

/-- No page is logged for a migration (R375). -/
def State.noMigration (s : State) : Prop := ∀ p, (s.part p).migration = none

/-- The host takes writes of the tile's task: no FLR of its VF is in progress (R374), and the host link's controller is not held
(R387). -/
def State.hostOpen (s : State) (t : Tile) : Prop := s.hostUp = true ∧ s.hostBlocked t = false

/-- The `n` bytes of the block that a LOCAL pointer of C names are `b`: the pointer passes its checks, the block's bins are full and
it holds no poison (R220). -/
def State.blockAt (s : State) (ptr : Word) (n : Nat) (b : List Byte) : Prop :=
  ∃ off, s.access s.cur localSpace .r ptr n 64 = (.ok (.slice s.cur off), s) ∧ s.locFull (.slice s.cur off) n = true ∧
    s.blockRead (.slice s.cur off) n = (b, false)

/-! ## Commands of the copy engine -/

/-- C can post a command at once: the registers are free and clean, C's accesses are performed, and the copy queue has an entry. -/
def State.canPost (s : State) (rs : List Reg) : Prop :=
  s.free rs ∧ s.clean rs ∧ (s.c s.cur).ops = [] ∧ (s.logic s.cur).copyUsed < 32

/-- A sync word keeps its limits (R217, R218, R220): its token queue, FILL, the flags of an acquire and of a release and their tiles. -/
def State.syncOk (s : State) (w : Word) (o : BitVec 2) (fill : Prop) : Prop :=
  let has (n : Nat) : Prop := (s.part (s.partOf s.cur)).has (Fin.ofNat 64 n) = true
  w.toNat / 2 ^ 24 % 4 ≠ 3 ∧ (w.getLsbD 23 = true → fill) ∧
  (w.getLsbD 44 = true → acquires o = true ∧ has (w.toNat / 2 ^ 38 % 64)) ∧
  (w.getLsbD 63 = true → releases o = true ∧ has (w.toNat / 2 ^ 57 % 64))

/-- A pointer of a command passes its checks over its extent (R98–R102, R221). -/
def State.reaches (s : State) (r : PtrReq) : Prop :=
  s.reqSpace s.cur r = true ∧ r.ptr.toNat % r.align = 0 ∧ s.reqBound s.cur r = true

/-- The instruction completes: a command of the function is the youngest of the copy queue, `d` holds its number, and C stands past the
instruction with its other registers as they were. -/
def State.posts (s : State) (i : Instr) (d : Reg) (func : BitVec 5) : Prop :=
  ∃ t c, exec i s = .next t ∧ (t.copy s.cur).q = (s.copy s.cur).q ++ [c] ∧ c.func = func ∧ c.seq = (s.copy s.cur).counter + 1 ∧
    (t.c s.cur).pc = (s.c s.cur).pc + 4 ∧ (t.c s.cur).wait = .none ∧
    ∀ r, t.sr s.cur r = if r ≠ 0 ∧ r = d then BitVec.ofNat 64 ((s.copy s.cur).counter + 1) else s.sr s.cur r

/-! ## Launch records -/

/-- The record `r` is the next one of the event's queue whose operation is to start; its VF is bound and in no FLR, and its common
fields keep R368. -/
def State.recordAt (s : State) (p : PartId) (r : PendRec) : Prop :=
  (s.vf s.ev.f).part = some p ∧ (s.vf s.ev.f).flr = false ∧ (s.queue s.ev.f s.ev.q).pend.find? (fun e => decide (e.st = .read)) = some r ∧
  fieldAt r.bytes 1 1 ≤ 3 ∧ fieldAt r.bytes 2 2 = 0 ∧ s.mayOperate r.bytes = true

/-- Its operation has ended with a status and a value; nothing else of its queue differs from `s`. -/
def State.recordEnds (s t : State) (r : PendRec) (status : Nat) (value : Word) : Prop :=
  t.queue s.ev.f s.ev.q = { s.queue s.ev.f s.ev.q with pend := (s.queue s.ev.f s.ev.q).pend.map (fun e =>
    if e.idx = r.idx ∧ e.st ≠ .completed then { e with st := .ended status value } else e) }

/-- Its operation has started, and goes on. -/
def State.recordStarts (s t : State) (r : PendRec) : Prop :=
  t.queue s.ev.f s.ev.q = { s.queue s.ev.f s.ev.q with pend := (s.queue s.ev.f s.ev.q).pend.map (fun e =>
    if e.idx = r.idx ∧ e.st = .read then { e with st := .started } else e) }

end Sys2Proof.Machine
end

