-- ==== Sys2Proof/Certificates/Slice0/Obligations.lean ====
section
/-! DEFINITION. The statements for the provers. Each docstring names the rules of the spec that it formalises. -/

section

open Sys2Proof Sys2Proof.Machine

/-! ## C: integer instructions and branches -/

/-- R69, R70: every ALU function of two registers leaves its result, on integers, in d; nothing else changes. -/
def Obligations.AluResults : Prop :=
  ∀ e ∈ ([(.add, fun a b => BitVec.ofNat 64 (a.toNat + b.toNat)), (.sub, fun a b => BitVec.ofInt 64 (a.toInt - b.toInt)),
      (.and, fun a b => a &&& b), (.or, fun a b => a ||| b), (.xor, fun a b => a ^^^ b),
      (.shl, fun a b => BitVec.ofNat 64 (a.toNat * 2 ^ (b.toNat % 64))), (.shr, fun a b => BitVec.ofNat 64 (a.toNat / 2 ^ (b.toNat % 64))),
      (.sar, fun a b => BitVec.ofInt 64 (a.toInt / 2 ^ (b.toNat % 64))),
      (.min, fun a b => BitVec.ofInt 64 (min a.toInt b.toInt)), (.max, fun a b => BitVec.ofInt 64 (max a.toInt b.toInt)),
      (.minu, fun a b => BitVec.ofNat 64 (min a.toNat b.toNat)), (.maxu, fun a b => BitVec.ofNat 64 (max a.toNat b.toNat)),
      (.slt, fun a b => if a.toInt < b.toInt then 1 else 0), (.sltu, fun a b => if a.toNat < b.toNat then 1 else 0),
      (.seq, fun a b => if a = b then 1 else 0), (.mul, fun a b => BitVec.ofNat 64 (a.toNat * b.toNat)),
      (.mulh, fun a b => BitVec.ofInt 64 (a.toInt * b.toInt / 2 ^ 64)),
      (.div, fun a b => if b = 0 then BitVec.allOnes 64 else BitVec.ofInt 64 (a.toInt.tdiv b.toInt)),
      (.divu, fun a b => if b = 0 then BitVec.allOnes 64 else BitVec.ofNat 64 (a.toNat / b.toNat)),
      (.rem, fun a b => if b = 0 then a else BitVec.ofInt 64 (a.toInt.tmod b.toInt)),
      (.remu, fun a b => if b = 0 then a else BitVec.ofNat 64 (a.toNat % b.toNat)),
      (.bextv, fun a b => BitVec.ofNat 64 (a.toNat / 2 ^ (b.toNat % 64) % 2 ^ (b.toNat / 64 % 64 + 1)))] :
      List ((Reg → Reg → Reg → Instr) × (Word → Word → Word))),
    ∀ (s : State) (d a b : Reg), s.free [d, a, b] →
      ∃ t, exec (e.1 d a b) s = .next t ∧ returns s t d (e.2 (s.sr s.cur a) (s.sr s.cur b))

/-- R70: the borderline cases of division and of the funnel shifts; with d = 0 the result is computed and discarded. -/
def Obligations.DivisionAndFunnelCorners : Prop :=
  ∀ (s : State) (d a b : Reg), s.free [d, a, b] →
    (s.sr s.cur b = 0 → (∃ t, exec (.div d a b) s = .next t ∧ returns s t d (BitVec.allOnes 64)) ∧
      (∃ t, exec (.divu d a b) s = .next t ∧ returns s t d (BitVec.allOnes 64)) ∧
      (∃ t, exec (.rem d a b) s = .next t ∧ returns s t d (s.sr s.cur a)) ∧
      (∃ t, exec (.remu d a b) s = .next t ∧ returns s t d (s.sr s.cur a))) ∧
    ((s.sr s.cur a).toInt = -2 ^ 63 ∧ (s.sr s.cur b).toInt = -1 →
      (∃ t, exec (.div d a b) s = .next t ∧ returns s t d (BitVec.ofInt 64 (-2 ^ 63))) ∧
      (∃ t, exec (.rem d a b) s = .next t ∧ returns s t d 0)) ∧
    ((s.sr s.cur b).toNat % 64 = 0 →
      (∃ t, exec (.fshl d a b) s = .next t ∧ returns s t d (s.sr s.cur d)) ∧
      (∃ t, exec (.fshr d a b) s = .next t ∧ returns s t d (s.sr s.cur d))) ∧
    (d ≠ 0 → s.sr s.cur d = 0x0123456789ABCDEF → s.sr s.cur a = 0xFEDCBA9876543210 → s.sr s.cur b = 16 →
      ∃ t, exec (.fshl d a b) s = .next t ∧ returns s t d 0x456789ABCDEFFEDC) ∧
    (∀ i ∈ [.add 0 a b, .sub 0 a b, .and 0 a b, .or 0 a b, .xor 0 a b, .shl 0 a b, .shr 0 a b, .sar 0 a b, .min 0 a b, .max 0 a b,
        .minu 0 a b, .maxu 0 a b, .slt 0 a b, .sltu 0 a b, .seq 0 a b, .mul 0 a b, .mulh 0 a b, .div 0 a b, .divu 0 a b, .rem 0 a b,
        .remu 0 a b, .clz 0 a, .ctz 0 a, .popc 0 a, .fshl 0 a b, .fshr 0 a b, .bextv 0 a b, .sextb 0 a, .sexth 0 a, .sextw 0 a],
      ∃ t, exec i s = .next t ∧ returns s t 0 0) ∧
    encodeWords (.mulh 8 2 3) = [0x05021810]

/-- R69: the counts of bits, the funnel shifts of a 128-bit pair and the sign extensions; R73: BEXT, BINS and BEXTV, with their words,
and no word of C is one whose field passes bit 63. -/
def Obligations.BitFieldResults : Prop :=
  ∀ (s : State) (d a b : Reg) (p l : BitVec 6), s.free [d, a, b] →
    let x := s.sr s.cur a
    let y := s.sr s.cur d
    let sh := (s.sr s.cur b).toNat % 64
    (∃ t n, exec (.clz d a) s = .next t ∧ returns s t d (BitVec.ofNat 64 n) ∧ n ≤ 64 ∧ x.toNat < 2 ^ (64 - n) ∧
      (n < 64 → x.getLsbD (63 - n) = true)) ∧
    (∃ t n, exec (.ctz d a) s = .next t ∧ returns s t d (BitVec.ofNat 64 n) ∧ n ≤ 64 ∧ x.toNat % 2 ^ n = 0 ∧
      (n < 64 → x.getLsbD n = true)) ∧
    (∃ t, exec (.popc d a) s = .next t ∧ returns s t d (BitVec.ofNat 64 ((List.range 64).countP (fun i => x.getLsbD i)))) ∧
    (∃ t, exec (.fshl d a b) s = .next t ∧
      returns s t d (BitVec.ofNat 64 ((y.toNat * 2 ^ 64 + x.toNat) * 2 ^ sh / 2 ^ 64))) ∧
    (∃ t, exec (.fshr d a b) s = .next t ∧ returns s t d (BitVec.ofNat 64 ((x.toNat * 2 ^ 64 + y.toNat) / 2 ^ sh))) ∧
    (∃ t, exec (.sextb d a) s = .next t ∧ returns s t d (BitVec.ofInt 64 ((x.toInt).bmod (2 ^ 8)))) ∧
    (∃ t, exec (.sexth d a) s = .next t ∧ returns s t d (BitVec.ofInt 64 ((x.toInt).bmod (2 ^ 16)))) ∧
    (∃ t, exec (.sextw d a) s = .next t ∧ returns s t d (BitVec.ofInt 64 ((x.toInt).bmod (2 ^ 32)))) ∧
    (p.toNat + l.toNat + 1 ≤ 64 →
      (∃ t, exec (.bext d a p l) s = .next t ∧ returns s t d (BitVec.ofNat 64 (x.toNat / 2 ^ p.toNat % 2 ^ (l.toNat + 1)))) ∧
      ∃ t v, exec (.bins d a p l) s = .next t ∧ returns s t d v ∧ ∀ i, i < 64 → v.getLsbD i =
        if p.toNat ≤ i ∧ i < p.toNat + l.toNat + 1 then x.getLsbD (i - p.toNat) else y.getLsbD i) ∧
    (∃ t, exec (.bextv d a b) s = .next t ∧
      returns s t d (BitVec.ofNat 64 (x.toNat / 2 ^ sh % 2 ^ ((s.sr s.cur b).toNat / 64 % 64 + 1)))) ∧
    (x = 0xABCDE123 → ∃ t, exec (.bext d a 12 7) s = .next t ∧ returns s t d 0xDE) ∧
    (∀ op ∈ [13, 14], encodeWords (if op = 13 then .bext d a p l else .bins d a p l) =
      [BitVec.ofNat 32 (op * 2 ^ 26 + d.toNat * 2 ^ 21 + a.toNat * 2 ^ 16 + p.toNat * 2 ^ 10 + l.toNat * 2 ^ 4)]) ∧
    encodeWords (.bextv d a b) = [BitVec.ofNat 32 (15 * 2 ^ 26 + d.toNat * 2 ^ 21 + a.toNat * 2 ^ 16 + b.toNat * 2 ^ 11)] ∧
    (64 < p.toNat + l.toNat + 1 → ∀ w nxt, decode .c w nxt ≠ .ok (.bext d a p l) ∧ decode .c w nxt ≠ .ok (.bins d a p l))

/-- R71, R72: the immediate forms and the constants, with their words; LIW and LIHW are two words long; no word of C is a shift by an
immediate past 63. -/
def Obligations.ImmediateResults : Prop :=
  ∀ (s : State) (d a : Reg) (i : BitVec 16) (j : BitVec 21) (k : BitVec 32), s.free [d, a] →
    let x := s.sr s.cur a
    (∃ t, exec (.addi d a i) s = .next t ∧ returns s t d (BitVec.ofInt 64 (x.toInt + i.toInt))) ∧
    (∃ t, exec (.andi d a i) s = .next t ∧ returns s t d (x &&& BitVec.ofInt 64 i.toInt)) ∧
    (∃ t, exec (.ori d a i) s = .next t ∧ returns s t d (x ||| BitVec.ofInt 64 i.toInt)) ∧
    (∃ t, exec (.xori d a i) s = .next t ∧ returns s t d (x ^^^ BitVec.ofInt 64 i.toInt)) ∧
    (∃ t, exec (.slti d a i) s = .next t ∧ returns s t d (if x.toInt < i.toInt then 1 else 0)) ∧
    (i.toNat < 64 →
      (∃ t, exec (.shli d a i) s = .next t ∧ returns s t d (BitVec.ofNat 64 (x.toNat * 2 ^ i.toNat))) ∧
      (∃ t, exec (.shri d a i) s = .next t ∧ returns s t d (BitVec.ofNat 64 (x.toNat / 2 ^ i.toNat))) ∧
      (∃ t, exec (.sari d a i) s = .next t ∧ returns s t d (BitVec.ofInt 64 (x.toInt / 2 ^ i.toNat)))) ∧
    (∃ t, exec (.li d j) s = .next t ∧ returns s t d (BitVec.ofInt 64 j.toInt)) ∧
    (∃ t, exec (.liw d k) s = .next t ∧ goesTo s t d (BitVec.ofInt 64 k.toInt) ((s.c s.cur).pc + 8)) ∧
    (∃ t, exec (.lihw d k) s = .next t ∧
      goesTo s t d (BitVec.ofNat 64 (k.toNat * 2 ^ 32 + (s.sr s.cur d).toNat % 2 ^ 32)) ((s.c s.cur).pc + 8)) ∧
    (∃ t v, exec (.andi d a 0xFFF0) s = .next t ∧ returns s t d v ∧ ∀ n, n < 64 → v.getLsbD n = (decide (4 ≤ n) && x.getLsbD n)) ∧
    (d ≠ 0 → (∃ t, exec (.liw d 0x56789ABC) s = .next t ∧ goesTo s t d 0x56789ABC ((s.c s.cur).pc + 8)) ∧
      (s.sr s.cur d = 0x56789ABC → ∃ t, exec (.lihw d 0x40001234) s = .next t ∧
        goesTo s t d 0x4000123456789ABC ((s.c s.cur).pc + 8))) ∧
    (∀ e ∈ ([(2, .addi), (3, .andi), (4, .ori), (5, .xori), (6, .shli), (7, .shri), (8, .sari), (9, .slti)] :
        List (Nat × (Reg → Reg → BitVec 16 → Instr))),
      encodeWords (e.2 d a i) = [BitVec.ofNat 32 (e.1 * 2 ^ 26 + d.toNat * 2 ^ 21 + a.toNat * 2 ^ 16 + i.toNat)]) ∧
    encodeWords (.li d j) = [BitVec.ofNat 32 (10 * 2 ^ 26 + d.toNat * 2 ^ 21 + j.toNat)] ∧
    encodeWords (.liw d k) = [BitVec.ofNat 32 (11 * 2 ^ 26 + d.toNat * 2 ^ 21), k] ∧
    encodeWords (.lihw d k) = [BitVec.ofNat 32 (12 * 2 ^ 26 + d.toNat * 2 ^ 21), k] ∧
    (63 < i.toNat → ∀ w nxt, decode .c w nxt ≠ .ok (.shli d a i) ∧ decode .c w nxt ≠ .ok (.shri d a i) ∧
      decode .c w nxt ≠ .ok (.sari d a i))

/-- R55, R56, R67, R74, R75, R395: a conditional branch goes to the target when its condition holds and to the next word when not; jumps
link into the next block; LOOP writes its counter and branches while it is not 0 (always with s0, which reads 0 and whose write is
discarded). A pending register makes C try again; poison in a control field raises ECC; a JR target that is not at a block raises ALIGN,
with no link. -/
def Obligations.ControlFlowResults : Prop :=
  (∀ e ∈ ([(.beq, fun a b => decide (a = b)), (.bne, fun a b => decide (a ≠ b)), (.blt, fun a b => decide (a.toInt < b.toInt)),
       (.bge, fun a b => decide (b.toInt ≤ a.toInt)), (.bltu, fun a b => decide (a.toNat < b.toNat)),
       (.bgeu, fun a b => decide (b.toNat ≤ a.toNat))] : List ((Reg → Reg → BitVec 16 → Instr) × (Word → Word → Bool))),
     ∀ (s : State) (a b : Reg) (o : BitVec 16), s.free [a, b] → s.clean [a, b] →
       ∃ t, exec (e.1 a b o) s = .next t ∧ goesTo s t 0 0
         (if e.2 (s.sr s.cur a) (s.sr s.cur b)
           then BitVec.ofNat 64 ((s.c s.cur).pc.toNat / 64 * 64) + BitVec.ofInt 64 (o.toInt * 64) else (s.c s.cur).pc + 4)) ∧
  (∀ (s : State) (d a : Reg) (o : BitVec 16) (p : BitVec 26), s.free [d, a, 31] → s.clean [a] →
     let block := BitVec.ofNat 64 ((s.c s.cur).pc.toNat / 64 * 64)
     (∃ t, exec (.j p) s = .next t ∧ goesTo s t 0 0 (block + BitVec.ofInt 64 (p.toInt * 64))) ∧
     (∃ t, exec (.jal p) s = .next t ∧ goesTo s t 31 (block + 64) (block + BitVec.ofInt 64 (p.toInt * 64))) ∧
     ((s.sr s.cur a).toNat % 64 = 0 → ∃ t, exec (.jr d a) s = .next t ∧ goesTo s t d (block + 64) (s.sr s.cur a)) ∧
     (∃ t, exec (.loop a o) s = .next t ∧ goesTo s t a (s.sr s.cur a - 1)
       (if s.sr s.cur a - 1 ≠ 0 then block + BitVec.ofInt 64 (o.toInt * 64) else (s.c s.cur).pc + 4))) ∧
  ((∀ (s : State) (d a b : Reg), ¬ s.free [d, a, b] → exec (.add d a b) s = .next (s.cRetry false)) ∧
   (∀ (s : State) (a b : Reg) (o : BitVec 16), s.free [a, b] → ¬ s.clean [a, b] → exec (.beq a b o) s = .next (s.trapC .ecc 0 none)) ∧
   ∀ (s : State) (d a : Reg), s.free [a, d] → s.clean [a] → (s.sr s.cur a).toNat % 64 ≠ 0 →
     exec (.jr d a) s = .next (s.trapC .align 0 (some (s.sr s.cur a))))

/-! ## C: token queues and start queues -/

/-- R81–R85: TKPUT pushes at the young end and waits for room, after C's earlier accesses; TKGET takes the oldest token or waits, and the
pop of M2C orders the flags of M before C's next write of YFFLAGS (R28); TKCNT counts; TKRESET keeps the oldest tokens or fills up with
zeros and answers the old count. The model's choices (log entries): a poisoned operand of TKPUT raises ECC (130), what the pop of M2C
orders (131). -/
def Obligations.TokenQueueResults : Prop :=
  ∀ (s : State) (d a b : Reg), s.free [a, d] →
    let q : Fin 12 := Fin.ofNat 12 b.toNat
    let old := s.toks s.cur q
    let pc := (s.c s.cur).pc + 4
    (s.clean [a] →
      ((s.c s.cur).ops = [] → old.length < 255 →
        ∃ t, exec (.tkput a b) s = .next t ∧ goesTo (s.setToks s.cur q (old ++ [s.sr s.cur a])) t 0 0 pc) ∧
      ((s.c s.cur).ops = [] → 255 ≤ old.length → exec (.tkput a b) s = .next (s.cRetry true)) ∧
      ((s.c s.cur).ops ≠ [] → exec (.tkput a b) s = .next (s.cRetry false))) ∧
    (¬ s.clean [a] → exec (.tkput a b) s = .next (s.trapC .ecc 0 none)) ∧
    (∀ v r, old = v :: r → ∃ t, exec (.tkget d b) s = .next t ∧
      goesTo ((s.setToks s.cur q r).modVec s.cur (fun x => { x with fresh := if q = 8 then 0 else x.fresh })) t d v pc) ∧
    (old = [] → exec (.tkget d b) s = .next (s.cRetry true)) ∧
    (∃ t, exec (.tkcnt d b) s = .next t ∧ returns s t d (BitVec.ofNat 64 old.length)) ∧
    (s.clean [a] →
      ((s.sr s.cur a).toNat ≤ 255 → ∃ t new, exec (.tkreset d a b) s = .next t ∧
        goesTo (s.setToks s.cur q new) t d (BitVec.ofNat 64 old.length) pc ∧ new.length = (s.sr s.cur a).toNat ∧
        ∀ k, k < new.length → new[k]? = some (old.getD k 0)) ∧
      (255 < (s.sr s.cur a).toNat → exec (.tkreset d a b) s = .next (s.trapC .bound 0 none)))

/-- R59, R61, R88, R89, R95, R93: TRUN, TBASE and SETN put an entry at the end of a start queue, or wait for one of
its four places; TCUT empties it and counts the runs and the writes that it held. The model's choices (log entries):
when a run is over (43). -/
def Obligations.StartQueueResults : Prop :=
  ∀ (s : State) (d a b : Reg), s.free [d, a, b] → s.clean [a, b] →
    let pc := (s.c s.cur).pc + 4
    let x := s.sr s.cur a
    let y := s.sr s.cur b
    let ends (u : Sq) (e : StartEntry) (o : Host.Outcome State Fault Refusal) : Prop :=
      ((s.seq s.cur u).startq.length < 4 → ∃ t, o = .next t ∧
        goesTo (s.modSeq s.cur u (fun z => { z with startq := z.startq ++ [e] })) t 0 0 pc) ∧
      (4 ≤ (s.seq s.cur u).startq.length → o = .next (s.cRetry true))
    let len := y.toNat % 4096 + 1
    let rep := y.toNat / 4096 % 65536 + 1
    (x.toNat % 64 = 0 → s.spaceOk (s.partOf s.cur) fetchSpaces x (4 * len) → y.toNat < 2 ^ 28 →
      ends (target d) (.run x len rep []) (exec (.trun d a b) s)) ∧
    (x.toNat % 64 ≠ 0 → exec (.trun d a b) s = .next (s.trapC .align 0 (some x))) ∧
    ends (target d) (.addr (Fin.ofNat 16 b.toNat) x) (exec (.tbase d a b) s) ∧
    (x.toNat % 1024 ≤ 512 → x.toNat / 65536 ≤ 512 → x.toNat / 1024 % 64 = 0 →
      ends .m (.count (Fin.ofNat 8 d.toNat) x) (exec (.setn d a) s)) ∧
    (512 < x.toNat / 65536 → exec (.setn d a) s = .next (s.trapC .bound 0 none)) ∧
    ∃ t, exec (.tcut d a) s = .next t ∧ goesTo (s.modSeq s.cur (target a) (fun z => { z with startq := [] })) t d
      (BitVec.ofNat 64 ((s.seq s.cur (target a)).startq.countP StartEntry.isRun +
        8 * (s.seq s.cur (target a)).startq.countP (fun e => !e.isRun))) pc

/-- R91, R92, R94: TSTOP ends a run whose micro-order has not started, marks one that has, and has no effect without a run; TWAIT goes on
when the sequencer is idle; TSTAT samples the fields of its word. The model's choices (log entries): when a run is over (43).
-/
def Obligations.StopWaitStatusResults : Prop :=
  ∀ (s : State) (d a : Reg),
    let pc := (s.c s.cur).pc + 4
    let x := s.seq s.cur (target d)
    (∀ r, x.run = some r → x.stop = none → r.issued = 0 → x.started = none → (s.logic s.cur).abandonPush (target d) = s.logic s.cur →
      ∃ t, exec (.tstop d) s = .next t ∧ (t.c s.cur).pc = pc ∧ (t.seq s.cur (target d)).run = none ∧
        (t.seq s.cur (target d)).startq = x.startq ∧ (t.logic s.cur).tok = (s.logic s.cur).tok) ∧
    (∀ r, x.run = some r → x.stop = none → x.started.isSome → (s.logic s.cur).abandonPush (target d) = s.logic s.cur →
      exec (.tstop d) s = .next (s.modSeq s.cur (target d) (fun z => { z with stopping := true })).cNext) ∧
    (x.run = none → exec (.tstop d) s = .next s.cNext) ∧
    (∀ r, x.run = some r → x.stop.isSome → exec (.tstop d) s = .next (s.modSeq s.cur (target d) (fun z => { z with stopping := true })).cNext) ∧
    ((s.logic s.cur).idle (target d) = true → ∃ t, exec (.twait d) s = .next t ∧ returns s t 0 0) ∧
    ((s.logic s.cur).idle (target d) = false → exec (.twait d) s = .next (s.cRetry false)) ∧
    (s.free [d] → ∃ t v, exec (.tstat d a) s = .next t ∧ returns s t d v ∧
      let y := s.seq s.cur (target a)
      v.getLsbD 36 = y.stop.isSome ∧ v.getLsbD 35 = y.stopping ∧ v.getLsbD 34 = decide (y.wait = .push) ∧
      v.getLsbD 33 = decide (y.wait = .pop) ∧ v.getLsbD 32 = y.run.isSome ∧
      (y.startq.length ≤ 4 → v.toNat / 2 ^ 28 % 16 = y.startq.length) ∧
      (∀ r, y.run = some r → r.step < 4096 → r.j < 65536 → v.toNat % 4096 = r.step ∧ v.toNat / 4096 % 65536 = r.j))

/-! ## C: memory -/

/-- R67, R76, R98–R102, R147: a load or store of C, RELS and ACQS pass the checks of R100 and then stand as C's
youngest outstanding access, while the PC moves on; a failed check traps; with no place among the outstanding accesses
C tries again. For a LOCAL pointer the checks come in the order SPACE, ALIGN, BOUND, and an access that passes them is
in the own slice at the pointer's offset. The model's choices (log entries): an access issues and is performed in a
step of its own (30), its checks are made when it issues (31), and how poison travels (55). -/
def Obligations.ScalarAccessIssue : Prop :=
  (∀ (s s' : State) (d a b : Reg) (i : BitVec 16) (sc : BitVec 3) (l : Loc), s.free [d, a, b] → s.clean [a] →
     let out (o : COp) : Host.Outcome State Fault Refusal :=
       .next (s'.modC s.cur (fun c => { c with ops := c.ops ++ [o], pc := c.pc + 4, wait := .none, stall := 0 }))
     let ptr := s.sr s.cur a + BitVec.ofInt 64 i.toInt
     (∀ e ∈ ([(.sldb, 1), (.sldh, 2), (.sldw, 4), (.sldd, 8)] : List ((Reg → Reg → BitVec 16 → Instr) × Nat)),
       ((s.c s.cur).room true = false → exec (e.1 d a i) s = .next (s.cRetry false)) ∧
       ((s.c s.cur).room true = true →
         (s.access s.cur scalarSpaces .r ptr e.2 e.2 = (.ok l, s') → exec (e.1 d a i) s = out
           { kind := .load, loc := l, width := e.2, bit := 0, dst := d, ord := 0, scope := 0, poison := false }) ∧
         (∀ f, s.access s.cur scalarSpaces .r ptr e.2 e.2 = (.fail f, s') → exec (e.1 d a i) s = .next (s'.failC f)))) ∧
     (∀ e ∈ ([(.sstb, 1), (.ssth, 2), (.sstw, 4), (.sstd, 8)] : List ((Reg → Reg → BitVec 16 → Instr) × Nat)),
       ((s.c s.cur).room false = false → exec (e.1 d a i) s = .next (s.cRetry false)) ∧
       ((s.c s.cur).room false = true →
         (s.access s.cur scalarSpaces .w ptr e.2 e.2 = (.ok l, s') → exec (e.1 d a i) s = out
           { kind := .store (s.sr s.cur d), loc := l, width := e.2, bit := 0, dst := 0, ord := 0, scope := 0,
             poison := (s.c s.cur).poisoned d }) ∧
         (∀ f, s.access s.cur scalarSpaces .w ptr e.2 e.2 = (.fail f, s') → exec (e.1 d a i) s = .next (s'.failC f)))) ∧
     ((s.c s.cur).room false = true → s.access s.cur scalarSpaces .w (s.sr s.cur a) 8 8 = (.ok l, s') →
       exec (.rels a b sc) s = out { kind := .store (s.sr s.cur b), loc := l, width := 8, bit := 0, dst := 0, ord := 2, scope := sc,
                                     poison := (s.c s.cur).poisoned b }) ∧
     ((s.c s.cur).room true = true → s.access s.cur scalarSpaces .r (s.sr s.cur a) 8 8 = (.ok l, s') →
       exec (.acqs d a sc) s = out { kind := .acqs, loc := l, width := 8, bit := 0, dst := d, ord := 1, scope := sc, poison := false })) ∧
  (∀ (s : State) (t : Tile) (allow : Nat → Bool) (need : Need) (ptr : Word) (n align : Nat), ptr.toNat / 2 ^ 60 = 0 → allow 0 = true →
     0 < n →
     let w : Word := if need = .w ∨ need = .rw then 0x800 else 0
     s.access t allow need ptr n align =
       (if ptr.toNat / 2 ^ 28 ≠ 0 ∨ 2 ^ 28 < ptr.toNat + n then .fail ⟨.space, w, some ptr⟩
        else if ptr.toNat % align ≠ 0 then .fail ⟨.align, w, some ptr⟩
        else if (s.tile t).slim * 65536 < ptr.toNat + n then .fail ⟨.bound, w, some ptr⟩
        else .ok (.slice t ptr.toNat), s))

/-- R77, R78, R120, R121: an atomic of C that passes its checks stands as C's youngest outstanding access, with its operand, AMOCAS with
the old d; a failed check traps; a host may refuse one on HOST, which raises FABRIC without RETRY (a free choice of the host). A flag
operation passes SPACE, then BOUND on its bit number, and stands as an access at the flag's byte; FSET and FCLR return nothing. The model's
choices (log entries): issue and performance apart (30, 31), when a host refuses (36), the address of a flag record
(33, 34). -/
def Obligations.AtomicAndFlagIssue : Prop :=
  (∀ e ∈ ([(.amoadd, .add), (.amoswp, .swp), (.amocas, .cas), (.amomax, .max), (.amomin, .min), (.amoor, .or), (.amoand, .and)] :
       List ((Reg → Reg → Reg → BitVec 3 → BitVec 2 → Instr) × AmoOp)),
     ∀ (s s' : State) (d a b : Reg) (sc : BitVec 3) (o : BitVec 2) (l : Loc), s.free [d, a, b] → s.clean [a] →
       (s.c s.cur).room true = true →
       let ptr := s.sr s.cur a
       (s.access s.cur (amoSpaces e.2) .rw ptr 8 8 = (.ok l, s') → exec (e.1 d a b sc o) s = .next (s'.modC s.cur (fun c => { c with
         ops := c.ops ++ [{ kind := .amo e.2 (s.sr s.cur b) (s.sr s.cur d), loc := l, width := 8, bit := 0, dst := d, ord := o, scope := sc,
                            poison := (s.c s.cur).poisoned b || (e.2 = .cas && (s.c s.cur).poisoned d) }],
         pc := c.pc + 4, wait := .none, stall := 0 }))) ∧
       (∀ f, s.access s.cur (amoSpaces e.2) .rw ptr 8 8 = (.fail f, s') → exec (e.1 d a b sc o) s = .next (s'.failC f)) ∧
       (∀ pa x s2, ptr.toNat / 2 ^ 48 = 7 * 2 ^ 12 → amoSpaces e.2 7 = true → ptr.toNat % 8 = 0 →
         s.translate (some s.cur) (s.partOf s.cur) true (ptr.toNat % 2 ^ 48) .rw = (.ok pa x, s2) →
         s.access s.cur (amoSpaces e.2) .rw ptr 8 8 = (.ok (.host (s.partOf s.cur) pa x), s2.drawn) ∨
         s.access s.cur (amoSpaces e.2) .rw ptr 8 8 = (.fail ⟨.fabric, 0x800, some ptr⟩, s2.drawn))) ∧
  (∀ (s : State) (d a b : Reg) (sc : BitVec 3) (o : BitVec 2), s.free [d, a, b] → s.clean [a, b] →
     let ptr := s.sr s.cur a
     let bit := s.sr s.cur b
     let isFlag := ptr.toNat / 2 ^ 60 = 3 ∧ ptr.toNat / 2 ^ 22 % 2 ^ 38 = 0 ∧
       (s.part (s.partOf s.cur)).has (Fin.ofNat 64 (ptr.toNat / 65536 % 64)) ∧ ptr.toNat % 65536 < 512
     let out (k : COpKind) (dst : Reg) : Host.Outcome State Fault Refusal :=
       .next (s.modC s.cur (fun c => { c with
         ops := c.ops ++ [{ kind := k, loc := .sync (Fin.ofNat 64 (ptr.toNat / 65536 % 64)) (ptr.toNat % 65536), width := 1,
                            bit := bit.toNat, dst := dst, ord := o, scope := sc, poison := false }],
         pc := c.pc + 4, wait := .none, stall := 0 }))
     (isFlag → bit.toNat < 8 →
       ((s.c s.cur).room false = true → exec (.fset a b sc o) s = out .fset 0 ∧ exec (.fclr a b sc o) s = out .fclr 0) ∧
       ((s.c s.cur).room true = true → exec (.ftest d a b sc o) s = out .ftest d ∧ exec (.ftas d a b sc o) s = out .ftas d)) ∧
     (¬ isFlag → exec (.fset a b sc o) s = .next (s.trapC .space 0x800 (some ptr)) ∧
       exec (.ftest d a b sc o) s = .next (s.trapC .space 0 (some ptr))) ∧
     (isFlag → 8 ≤ bit.toNat → exec (.fset a b sc o) s = .next (s.trapC .bound 0x800 (some ptr)) ∧
       exec (.ftest d a b sc o) s = .next (s.trapC .bound 0 (some ptr))))

/-- R67, R76, R78, R128, R129: a store or a flag write of C that nothing before it holds back is performed at its
home: its bytes stand there, every other byte is as before, and no register changes; one that is held back stays. The
model's choices (log entries): performance as a step of its own (30). -/
def Obligations.StorePerform : Prop :=
  ∀ (s : State) (k : Nat) (o : COp), s.curSq = .c → s.ev.k = k → (s.c s.cur).ops[k]? = some o → s.memOk → s.noMigration →
    s.hostOpen s.cur →
    s.ev.v = 0 →
    let before := (s.c s.cur).ops.take k
    let free := CSt.clearOf before o.loc o.width && ((!releases o.ord || CSt.released before s.cur o.scope) && s.fabricTurn s.cur o.loc)
    let done (t : State) : Prop := (t.c s.cur).ops = (s.c s.cur).ops.eraseIdx k ∧ (t.c s.cur).pc = (s.c s.cur).pc ∧
      (t.c s.cur).s = (s.c s.cur).s ∧ (t.vec s.cur).v = (s.vec s.cur).v
    (∀ v, o.kind = .store v →
      (free = true → ∃ t, exec .storePerform s = .next t ∧ done t ∧ wrote s t o.loc (leBytes o.width v.toNat)) ∧
      (free = false → exec .storePerform s = .next s)) ∧
    (∀ (v : Bool) (h : Tile) (y : Nat), o.kind = (if v then .fset else .fclr) → o.loc = .sync h y → o.bit < 8 → free = true →
      ∃ t, exec .storePerform s = .next t ∧ done t ∧ (∀ u n, (t.tile u).flag n = if u = h ∧ n = 8 * y + o.bit then v else (s.tile u).flag n) ∧
        ∀ x, x ≠ .sync h y → t.byteAt x = s.byteAt x)

/-- R67, R76, R78, R103: a read of C that nothing holds back returns: a load waits for full bins, and its value is
that of the task's read, extended with zeros; one that finds an empty bin waits at its home; FTEST answers the flag, FTAS the old flag,
which is 1 afterwards. No byte of memory changes by a load. The model's choices (log entries): performance as a step of its own (30). -/
def Obligations.LoadReturns : Prop :=
  ∀ (s : State) (k : Nat) (o : COp), s.curSq = .c → s.ev.k = k → s.ev.v = 0 → (s.c s.cur).ops[k]? = some o → s.memOk → s.noMigration →
    (s.tile s.cur).freezing = none → s.cReady s.cur k o = true → s.fabricTurn s.cur o.loc = true →
    let done (t : State) (v : Word) : Prop := (t.c s.cur).ops = (s.c s.cur).ops.eraseIdx k ∧ (t.c s.cur).pc = (s.c s.cur).pc ∧
      ∀ r, t.sr s.cur r = if r ≠ 0 ∧ r = o.dst then v else s.sr s.cur r
    (o.kind = .load → s.locFull o.loc o.width = true → ∃ t, exec .loadResponse s = .next t ∧
      done t (BitVec.ofNat 64 (leNat ((s.taskRead s.cur o.loc o.width true false).1.take 8))) ∧ sameBytes s t) ∧
    (o.kind = .load → s.locFull o.loc o.width = false → exec .loadResponse s =
      .next (s.modC s.cur (fun c => { c with ops := c.ops.modify k (fun x => { x with parked := true }) }))) ∧
    (o.kind = .acqs → s.locFull o.loc o.width = true → ∃ t, exec .loadResponse s = .next t ∧
      done t (BitVec.ofNat 64 (leNat ((s.taskRead s.cur o.loc o.width true (decide (o.scope ≠ 0))).1.take 8))) ∧ sameBytes s t ∧
      (o.ord = 1 → o.scope ≠ 0 → s.unlifted s.cur = true → t.unlifted s.cur = false)) ∧
    (∀ h y, o.loc = .sync h y → o.bit < 8 →
      (o.kind = .ftest → ∃ t, exec .loadResponse s = .next t ∧ done t (if (s.tile h).flag (8 * y + o.bit) then 1 else 0) ∧
        sameBytes s t) ∧
      (o.kind = .ftas → ∃ t, exec .loadResponse s = .next t ∧ done t (if (s.tile h).flag (8 * y + o.bit) then 1 else 0) ∧
        ∀ u n, (t.tile u).flag n = if u = h ∧ n = 8 * y + o.bit then true else (s.tile u).flag n))

/-- R120, R121: an atomic of C returns the old word at its home and leaves there the sum, the operand, the greater,
the smaller, the bitwise or or and; AMOCAS writes only where the old word is the one expected. Every other byte is as
before. The model's choices (log entries): performance as a step of its own (30). -/
def Obligations.AtomicResults : Prop :=
  ∀ (s : State) (k : Nat) (o : COp) (op : AmoOp) (b e : Word), s.curSq = .c → s.ev.k = k → (s.c s.cur).ops[k]? = some o →
    s.memOk → s.noMigration → s.hostOpen s.cur → o.kind = .amo op b e → o.width = 8 → s.ev.v = 0 →
    (s.tile s.cur).freezing = none → s.cReady s.cur k o = true → s.fabricTurn s.cur o.loc = true →
    let m := BitVec.ofNat 64 (leNat (s.homeBytes o.loc 8))
    ∃ t, exec .loadResponse s = .next t ∧ (t.c s.cur).ops = (s.c s.cur).ops.eraseIdx k ∧
      (∀ r, t.sr s.cur r = if r ≠ 0 ∧ r = o.dst then m else s.sr s.cur r) ∧
      if op = .cas ∧ m ≠ e then sameBytes s t
      else wrote s t o.loc (leBytes 8 (match op with
        | .add => m + b
        | .swp => b
        | .cas => b
        | .max => BitVec.ofInt 64 (max m.toInt b.toInt)
        | .min => BitVec.ofInt 64 (min m.toInt b.toInt)
        | .or => m ||| b
        | .and => m &&& b).toNat)

/-- R79, R80: FWAIT and FWAITC go on at once when the flag has the awaited value, as an acquire when the word says so;
else C registers at the flag's home, and FWAIT_WAKE ends the wait. WAITA goes on with the word when it differs from
s_b and else arms a monitor on its 64-byte block; a write to the block, or 16,384 ck, end the wait with the word as it
then stands. The model's choices (log entries): registration and wake as steps (30, 42), an acquire of a flag
that another tile wrote with no release for this one (176). -/
def Obligations.WaitResults : Prop :=
  (∀ (s : State) (a b : Reg) (sc : BitVec 3) (o : BitVec 2) (h : Tile) (f : Nat),
     (∀ e ∈ ([(.fwait, true), (.fwaitc, false)] : List ((Reg → Reg → BitVec 3 → BitVec 2 → Instr) × Bool)),
       s.free [a, b] → s.clean [a, b] → s.flagAt s.cur (s.sr s.cur a) (s.sr s.cur b) false = .ok (h, f) → (s.c s.cur).ops = [] →
       ((s.tile h).flag f = e.2 → ∃ t, exec (e.1 a b sc o) s = .next t ∧ goesTo (s.acquireFlag s.cur o sc (s.isNarrow s.cur h f)) t 0 0 ((s.c s.cur).pc + 4)) ∧
       ((s.tile h).flag f ≠ e.2 → ∃ t, exec (e.1 a b sc o) s = .next t ∧ (t.c s.cur).wait = .flag h f e.2 o sc ∧
         (t.c s.cur).pc = (s.c s.cur).pc ∧ (t.c s.cur).s = (s.c s.cur).s ∧ sameBytes s t ∧
         t.monitors = { waiter := s.cur, watch := .flag h f e.2, hit := false } :: s.monitors.filter (fun m => m.waiter != s.cur))) ∧
     (∀ want, (s.c s.cur).wait = .flag h f want o sc → (s.tile s.cur).runs = true →
       ((∃ m ∈ s.monitors, m.waiter = s.cur ∧ m.hit = true) → ∃ t, exec .fwaitWake s = .next t ∧
         goesTo ((s.unwatch s.cur).acquireIf s.cur o sc) t 0 0 ((s.c s.cur).pc + 4)) ∧
       ((∀ m ∈ s.monitors, m.waiter = s.cur → m.hit = false) → exec .fwaitWake s = .next s))) ∧
  (∀ (s s' : State) (d a b : Reg) (sc : BitVec 3) (o : BitVec 2) (l : Loc),
     (s.free [d, a, b] → s.clean [a] → s.access s.cur waitaSpaces .r (s.sr s.cur a) 8 8 = (.ok l, s') → s' = s → (s.c s.cur).ops = [] →
       s.locFull l 8 = true →
       let v := BitVec.ofNat 64 (leNat (s.homeBytes l 8))
       (v ≠ s.sr s.cur b → ∃ t, exec (.waita d a b sc o) s = .next t ∧ goesTo (s.acquireIf s.cur o sc) t d v ((s.c s.cur).pc + 4)) ∧
       (v = s.sr s.cur b → ∃ t, exec (.waita d a b sc o) s = .next t ∧ (t.c s.cur).wait = .word l d s.ck o sc ∧
         (t.c s.cur).pc = (s.c s.cur).pc ∧ (t.c s.cur).s = (s.c s.cur).s ∧ sameBytes s t ∧
         t.monitors = { waiter := s.cur, watch := .block l.block, hit := false } :: s.monitors.filter (fun m => m.waiter != s.cur))) ∧
     (∀ since, (s.c s.cur).wait = .word l d since o sc → (s.tile s.cur).runs = true → s.locFull l 8 = true →
       let v := BitVec.ofNat 64 (leNat (s.homeBytes l 8))
       ((∃ m ∈ s.monitors, m.waiter = s.cur ∧ m.hit = true) → ∃ t, exec .waitaWake s = .next t ∧
         goesTo ((s.unwatch s.cur).acquireIf s.cur o sc) t d v ((s.c s.cur).pc + 4)) ∧
       (since + 16384 ≤ s.ck → ∃ t, exec .waitaTimeout s = .next t ∧
         goesTo ((s.unwatch s.cur).acquireIf s.cur o sc) t d v ((s.c s.cur).pc + 4)) ∧
       (s.ck < since + 16384 → exec .waitaTimeout s = .next s)))

/-- R144, R145, R146: PHASE answers instance and phase; PHARR arrives at a barrier and answers the number of the epoch, and the last
participant's arrival completes it; PHWAIT goes on once the count has reached s_b; FENCE goes on when the earlier accesses it orders have
been performed. The model's choice (log entry): a release at TILE scope waits for the reads and for the writes of the own tile (132). -/
def Obligations.OrderResults : Prop :=
  ∀ (s : State) (d a b : Reg) (sc : BitVec 3) (o : BitVec 2) (k : TaskCtl) (i : Inst), s.task s.cur = some k → s.inst k.part k.inst = some i →
    s.free [d, a, b] → s.clean [a, b] →
    let pc := (s.c s.cur).pc + 4
    let n := (s.sr s.cur a).toNat
    let bar := vGet i.barriers n
    let own := k.rc.tile
    let met : Barrier := if ∀ u ∈ i.participants own, u = own ∨ u ∈ bar.arrived then { count := bar.count + 1, arrived := [] }
      else { count := bar.count, arrived := own :: bar.arrived }
    (∃ t v, exec (.phase d sc o) s = .next t ∧ returns s t d v ∧ v.toNat % 65536 = i.phase % 65536 ∧
      v.toNat / 65536 = i.no % 2 ^ 32) ∧
    (n < 8 → ¬ own ∈ bar.arrived → (s.c s.cur).ops = [] →
      ∃ t, exec (.pharr d a sc o) s = .next t ∧
        goesTo (s.modInst k.part k.inst (fun i => { i with barriers := vSet i.barriers n met })) t d (BitVec.ofNat 64 (bar.count + 1)) pc) ∧
    (n < 8 → own ∈ bar.arrived → exec (.pharr d a sc o) s = .next (s.cRetry false)) ∧
    (n < 8 → (s.sr s.cur b).toNat ≤ bar.count → ∃ t, exec (.phwait a b sc o) s = .next t ∧ goesTo (s.acquireIf s.cur o sc) t 0 0 pc) ∧
    (n < 8 → bar.count < (s.sr s.cur b).toNat → exec (.phwait a b sc o) s = .next (s.cRetry false)) ∧
    (8 ≤ n → exec (.pharr d a sc o) s = .next (s.trapC .bound 0 none) ∧ exec (.phwait a b sc o) s = .next (s.trapC .bound 0 none)) ∧
    ((s.c s.cur).ops = [] → ∃ t, exec (.fence sc o) s = .next t ∧ (t.c s.cur).pc = pc ∧ (t.c s.cur).s = (s.c s.cur).s ∧ sameBytes s t ∧
      (acquires o = true → (t.c s.cur).fetched = [] ∧ (sc ≠ 0 → t.unlifted s.cur = false)) ∧
      (acquires o = false → goesTo s t 0 0 pc)) ∧
    (releases o = true → (∃ x ∈ (s.c s.cur).ops, sc ≠ 0 ∨ x.returns = true ∨ x.loc.onTile s.cur = true) →
      exec (.fence sc o) s = .next (s.cRetry false)) ∧
    (acquires o = true → (∃ x ∈ (s.c s.cur).ops, x.returns = true) → exec (.fence sc o) s = .next (s.cRetry false))

/-! ## Traps and the system group -/

/-- R52, R312–R316, R334, R338: SVC and BRKPT stop C at the instruction and post a record at TAIL of the trap queue
when more than two entries are free, with A and D of its leaf set, else latch it and count it lost. The words of SVC's record are HDR, the PC, the
stop vectors, s_b, s_a and DTIME. ILLEGAL, like every fatal trap, ends the task and its instance after its record;
HALT ends them with no record. The model's choices (log entries): whose the illegal word is (8), the open ADDR (32),
what a halt discards (49), traps of one clock that the agenda takes out of order (133). -/
def Obligations.TrapEntryResults : Prop :=
  (∀ (s : State) (d a b : Reg), s.free [d, a, b] → (s.c s.cur).ops = [] → s.trapTurn s.cur .c 0 = true → s.noMigration →
     let p := s.partOf s.cur
     let g := s.logic s.cur
     let x := s.part p
     let leaves := (s.hwLeaves p (x.trapEntry x.tail) 64).foldl (fun (y : State) a => (y.setEntryBit a 5).setEntryBit a 6) s
     let stop (k : TrapKind) (status : Word) (latched : Bool) (dst : Reg) : Stop :=
       { kind := k, tile := s.cur, tid := (s.tile s.cur).tid, status := status, replay := true, latched := latched, dst := dst }
     let word (k : Nat) (bs : List Byte) : Nat := leNat ((bs.drop (8 * k)).take 8)
     let svcRec (bs : List Byte) : Prop := bs.length = 64 ∧
       word 0 bs = p.val * 2 ^ 56 + (s.copy s.cur).gen.toNat * 2 ^ 40 + (s.tile s.cur).tid.toNat * 2 ^ 24 + s.cur.val * 2 ^ 8 + 0x0A ∧
       word 1 bs = (s.c s.cur).pc.toNat ∧ word 2 bs = (g.stopVec .l).toNat ∧ word 3 bs = (g.stopVec .m).toNat ∧
       word 4 bs = (g.stopVec .s).toNat ∧ word 5 bs = (s.sr s.cur b).toNat ∧ word 6 bs = (s.sr s.cur a).toNat ∧
       word 7 bs = s.dtime % 2 ^ 64
     let kept (t : State) : Prop := (t.c s.cur).pc = (s.c s.cur).pc ∧ (t.c s.cur).s = (s.c s.cur).s ∧
       (t.tile s.cur).tid = (s.tile s.cur).tid + 1 ∧ ∀ u, (t.tile u).slice = (s.tile u).slice
     (2 < x.trapFree → x.tqflag.getLsbD 63 = false → ∀ ps, s.hwPieces p (x.trapEntry x.tail) 64 = some ps →
       (∃ t bs, exec (.svc d a b) s = .next t ∧ svcRec bs ∧ t.bulk = writePieces leaves.bulk ps bs ∧ kept t ∧
         (t.c s.cur).stop = some (stop .svc (s.sr s.cur b) false d) ∧ (t.part p).tail = x.tail + 1 ∧ (t.part p).head = x.head) ∧
       ∃ t bs, exec .brkpt s = .next t ∧ bs.length = 64 ∧ word 0 bs % 256 = 0x0B ∧ word 1 bs = (s.c s.cur).pc.toNat ∧ word 5 bs = 0 ∧
         t.bulk = writePieces leaves.bulk ps bs ∧ kept t ∧
         (t.c s.cur).stop = some (stop .brkpt 0 false 0) ∧ (t.part p).tail = x.tail + 1) ∧
     (x.trapFree ≤ 2 → ∃ t bs, exec (.svc d a b) s = .next t ∧ svcRec bs ∧ kept t ∧ t.bulk = s.bulk ∧
       (t.tile s.cur).latch = (s.tile s.cur).latch ++ [{ rec_ := bs, fatal := false, unit := .c }] ∧
       (t.c s.cur).stop = some (stop .svc (s.sr s.cur b) true d) ∧ (t.part p).lost = min 0xFFFF (x.lost + 1) ∧ (t.part p).tail = x.tail)) ∧
  (∀ (s : State) (k : TaskCtl) (i : Inst) (w : W32), s.task s.cur = some k → s.inst k.part k.inst = some i → s.curSq = .c →
     (∃ t, exec .halt s = .next t ∧ t.inst k.part k.inst = none ∧ t.task s.cur = none ∧ (t.part k.part).tail = (s.part k.part).tail) ∧
     ((s.c s.cur).ops = [] → s.trapTurn s.cur .c 0 = true → s.noMigration → 0 < (s.part k.part).trapFree → ∃ t, exec (.illegal w) s = .next t ∧ t.inst k.part k.inst = none ∧ t.task s.cur = none ∧
       (t.part k.part).tail = (s.part k.part).tail + 1))

/-- R301, R302, R317, R335: below level S TRAPRET raises BOUND with PRIV. At S, REPLAY of an SVC gives s_d to the
register that the SVC named and C of that tile goes on after it; on a frozen task the action is logged for its restore; a handle that
names no stopped trap raises BOUND. The
model's choices (log entries): a record in the latch counts as no stopped trap (48). -/
def Obligations.TrapretResults : Prop :=
  ∀ (s : State) (d a b : Reg) (u : Tile) (x : Stop),
    (s.atS s.cur = false → exec (.trapret d a b) s = .next (s.trapC .bound 0x8000 none)) ∧
    (s.atS s.cur = true → s.free [a, b, d] → s.clean [a, b] →
      let p := s.partOf s.cur
      let h := Handle.of (s.sr s.cur a)
      (s.part p).has (Fin.ofNat 64 h.tile) = true → (s.sr s.cur b).toNat = 0 →
      ((∀ g ∈ s.logicsOf p, g.1.trapOf h = none) → exec (.trapret d a b) s = .next (s.trapC .bound 0 none)) ∧
      ((s.part p).has u = true → u ≠ s.cur → (s.c u).stop = some x → x.kind = .svc → x.latched = false → x.replay = true → x.move = false →
        (s.logic u).resolved .c x = false → h.tile = x.tile.val → h.unit = 0 → h.tid = x.tid.toNat →
        (∀ g ∈ s.logicsOf p, g.1.trapOf h = none ∨ g.2 = false ∧ g.1.trapOf h = some (.c, x)) →
        ∃ t, exec (.trapret d a b) s = .next t ∧ (t.c u).stop = none ∧ (t.c u).pc = (s.c u).pc + 4 ∧
          (∀ r, t.sr u r = if r ≠ 0 ∧ r = x.dst then s.sr s.cur d else s.sr u r) ∧ sameBytes s t ∧
          ((s.c s.cur).stop = none → (t.c s.cur).pc = (s.c s.cur).pc + 4 ∧ (t.c s.cur).s = (s.c s.cur).s)) ∧
      (∀ g, s.logicsOf p = [(s.logic s.cur, false), (g, true)] → (s.part p).tileList = [s.cur, u] → u ≠ s.cur → s.logic u = g →
        (s.tile s.cur).freezing = none → (s.tile u).freezing.isSome → (s.logic s.cur).trapOf h = none → g.trapOf h = some (.c, x) →
        x.replay = true → ∃ t, exec (.trapret d a b) s = .next t ∧
          (t.logic u).flits = g.flits ++ [.trapret .c x.tid 0 (s.sr s.cur d)] ∧ (t.c u) = g.c ∧ (t.c s.cur).pc = (s.c s.cur).pc + 4 ∧
          sameBytes s t))

/-- R4, R27, R87, R301–R310, R333, R336, R422: what YRD answers for each register of the table, which levels may read
it, and that a read of YTQSTAT clears LOST; what YWR writes: 1s clear YFFLAGS at any level but for the flags raised on this clock (R28), at S it
sets YTOKLIM, orders a rescan, or waits for the removal of translations; a register that is only read raises BOUND. YTLBINV ends the
wait with no such translation left. The model's choices (log entries): when YTLBINV has finished (46). -/
def Obligations.SpecialRegisterResults : Prop :=
  (∀ (s : State) (d a b : Reg), s.free [d] →
     let p := s.partOf s.cur
     let x := s.part p
     let n := a.toNat * 32 + b.toNat
     let reads (v : Word) : Prop := ∃ t, exec (.yrd d a b) s = .next t ∧ returns s t d v
     let atS (q : Prop) : Prop := (s.atS s.cur = true → q) ∧
       (s.atS s.cur = false → exec (.yrd d a b) s = .next (s.trapC .bound 0x8000 none))
     (n = 0x000 → reads 0x1B0) ∧
     (n = 0x001 → (s.tile s.cur).slim < 4096 →
       reads (BitVec.ofNat 64 ((s.tile s.cur).slim * 2 ^ 32 + x.home.val * 2 ^ 16 + p.val * 2 ^ 8 + s.cur.val))) ∧
     (n = 0x002 → reads (BitVec.ofNat 64 s.dtime)) ∧
     (n = 0x003 → reads ((s.vec s.cur).fflags.setWidth 64)) ∧
     (n = 0x004 → reads ((s.tile s.cur).tokLim.setWidth 64)) ∧
     (n = 0x005 → reads (if s.atS s.cur then 1 else 0)) ∧
     (n = 0x006 → reads (BitVec.ofNat 64 ((if s.pf.trip then 4 else 0) + s.pf.eff.toNat))) ∧
     (n = 0x010 → atS (reads x.trapq)) ∧
     (n = 0x011 → x.lost < 65536 → atS (∃ t, exec (.yrd d a b) s = .next t ∧ (t.part p).lost = 0 ∧
       t.sr s.cur d = (if d = 0 then 0 else BitVec.ofNat 64 (x.lost * 2 ^ 48 + x.tail.toNat * 2 ^ 16 + x.head.toNat)) ∧
       (t.c s.cur).pc = (s.c s.cur).pc + 4 ∧ sameBytes s t)) ∧
     (n = 0x012 → atS (reads x.tqflag)) ∧
     (n = 0x013 → ∃ t v, exec (.yrd d a b) s = .next t ∧ returns s t d v ∧ v.extractLsb' 40 24 = BitVec.ofInt 24 x.budget.count ∧
       v.toNat / 2 ^ 24 % 2 ^ 16 = x.budget.window % 2 ^ 16 ∧ v.toNat % 2 ^ 24 = x.budget.refill % 2 ^ 23) ∧
     (n = 0x014 → atS (reads (BitVec.ofNat 64 x.exovr))) ∧
     (∀ k, k < 8 → n = 0x020 + k → atS (reads (vGet x.ctx k))) ∧
     (n = 0x015 ∨ (0x007 ≤ n ∧ n < 0x010) ∨ (0x016 ≤ n ∧ n < 0x020) ∨ 0x028 ≤ n → exec (.yrd d a b) s = .next (s.trapC .bound 0 none))) ∧
  (∀ (s : State) (d a b : Reg),
     let p := s.partOf s.cur
     let n := a.toNat * 32 + b.toNat
     let v := s.sr s.cur d
     let pc := (s.c s.cur).pc + 4
     (s.free [d] → s.clean [d] →
       (n = 0x003 → ∃ t, exec (.ywr d a b) s = .next t ∧
         goesTo (s.modVec s.cur (fun y => { y with fflags := y.fflags &&& (~~~(v.extractLsb' 0 5) ||| y.fresh) })) t 0 0 pc) ∧
       (s.atS s.cur = true → n = 0x004 → ∃ t, exec (.ywr d a b) s = .next t ∧
         goesTo (s.modTile s.cur (fun y => { y with tokLim := v.extractLsb' 0 32 })) t 0 0 pc) ∧
       (s.atS s.cur = true → n = 0x011 → ∃ t, exec (.ywr d a b) s = .next t ∧
         goesTo (s.modPart p (fun y => { y with rescan := y.rescan || v.getLsbD 32 })) t 0 0 pc) ∧
       (s.atS s.cur = true → n = 0x015 → ∃ t, exec (.ywr d a b) s = .next t ∧ (t.c s.cur).wait = .tlbInv v ∧
         (t.c s.cur).pc = (s.c s.cur).pc ∧ onlyC s t)) ∧
     (s.atS s.cur = false → n = 0x004 ∨ n = 0x011 ∨ n = 0x015 → exec (.ywr d a b) s = .next (s.trapC .bound 0x8000 none)) ∧
     (n = 0x000 ∨ n = 0x001 ∨ n = 0x002 ∨ n = 0x005 ∨ n = 0x006 ∨ n = 0x010 ∨ (0x012 ≤ n ∧ n < 0x015) ∨ 0x020 ≤ n →
       exec (.ywr d a b) s = .next (s.trapC .bound 0 none)) ∧
     ∀ w, (s.c s.cur).wait = .tlbInv w → (s.tile s.cur).runs = true → ∃ t, exec .ytlbinv s = .next t ∧ (t.c s.cur).pc = pc ∧
       (t.c s.cur).wait = .none ∧ sameBytes s t ∧
       ∀ e, (e ∈ t.dieTb ∨ ∃ u, e ∈ (t.tile u).tb) → ¬ (e.part = p ∧ e.host = w.getLsbD 62 ∧
         (w.getLsbD 63 = true ∨ (e.va ≤ w.toNat / 65536 % 2 ^ 32 * 65536 ∧ w.toNat / 65536 % 2 ^ 32 * 65536 < e.va + e.size))))

/-- R307, R316, R337, R339: IDLE waits for an event or its time limit, and IDLE_WAKE answers the bits of the clock on
which it woke: 1 for the time limit, 2 for a write of its sync space, 4 for a task that ranks ahead, 8 for a trap
record. TQPOP, at level S, copies the record at HEAD, poison included, to its LOCAL block, raises HEAD and answers the count before;
RESCAN posts the oldest latched record when there is room for it. The model's choices (log entries): the events of one
clock reported together (47). -/
def Obligations.IdleAndTrapQueueResults : Prop :=
  (∀ (s : State) (d a : Reg),
     (s.free [a, d] → s.clean [a] → ∃ t, exec (.idle d a) s = .next t ∧
       (t.c s.cur).wait = .idle d (s.sr s.cur a).toNat s.ck 0 none ∧ (t.c s.cur).pc = (s.c s.cur).pc ∧ onlyC s t) ∧
     (∀ limit since seen, (s.tile s.cur).runs = true → s.headAhead s.cur = false →
       ((s.c s.cur).wait = .idle d limit since seen none → limit ≠ 0 → since + limit ≤ s.ck →
         ∃ t, exec .idleWake s = .next t ∧ returns s t d 1) ∧
       (∀ c, (s.c s.cur).wait = .idle d 0 since seen (some c) → seen ≠ 0 →
         ∃ t, exec .idleWake s = .next t ∧ returns s t d (seen.setWidth 64)) ∧
       ((s.c s.cur).wait = .idle d 0 since seen none → exec .idleWake s = .next s)) ∧
     (∀ (x : Tile) (off : Nat) (bs : List Byte) since, (s.c x).wait = .idle d 0 since 0 none →
       ((s.writeSync x off bs).c x).wait = .idle d 0 since 2 (some s.ck))) ∧
  (∀ (s : State) (d a : Reg),
     let p := s.partOf s.cur
     let x := s.part p
     (s.atS s.cur = false → exec (.tqpop d a) s = .next (s.trapC .bound 0x8000 none)) ∧
     (∀ off, s.atS s.cur = true → s.free [a, d] → s.clean [a] → (s.c s.cur).ops = [] →
       s.access s.cur localSpace .w (s.sr s.cur a) 64 64 = (.ok (.slice s.cur off), s) →
       (x.head = x.tail → ∃ t, exec (.tqpop d a) s = .next t ∧ returns s t d 0) ∧
       (∀ bs, x.head ≠ x.tail → s.memOk → s.noMigration → s.hwRead p (x.trapEntry x.head) 64 = some bs →
         ∃ t, exec (.tqpop d a) s = .next t ∧ wrote (s.hwTouch p (x.trapEntry x.head) 64) t (.slice s.cur off) bs ∧
           ((s.tile s.cur).poison = [] → (t.tile s.cur).poison = if s.hwPoisoned p (x.trapEntry x.head) 64 then [off / 64] else []) ∧ (t.part p).head = x.head + 1 ∧ (t.part p).tail = x.tail ∧
           (t.c s.cur).pc = (s.c s.cur).pc + 4 ∧
           ∀ r, t.sr s.cur r = if r ≠ 0 ∧ r = d then BitVec.ofNat 64 (x.tail - x.head).toNat else s.sr s.cur r)) ∧
     (∀ (q : PartId) (u : Tile) (l : Latched), s.ev.p = q → (s.part q).rescan = true → (s.part q).tileList = [u] →
       (s.tile u).latch = [l] → l.fatal = true → 0 < (s.part q).trapFree →
       ∃ t, exec .rescan s = .next t ∧ (t.tile u).latch = [] ∧ (t.part q).tail = (s.part q).tail + 1 ∧ (t.part q).rescan = false) ∧
     ((s.part s.ev.p).rescan = false → exec .rescan s = .next s))

/-- R318, R340, R327, R328, R342: FREEZE, at level S, stops the clocks of another tile's running task that may be
frozen and waits, or answers all ones; EVPOST posts an eviction and answers its number, or all ones when the deadline
is too near. The model's choices (log entries): what a frozen task has outstanding travels with it (50). -/
def Obligations.FreezeAndEvpostResults : Prop :=
  ∀ (s : State) (d a : Reg), s.atS s.cur = true → s.free [a, d] → s.clean [a] →
    let p := s.partOf s.cur
    let v := s.sr s.cur a
    let u : Tile := Fin.ofNat 64 v.toNat
    (v.toNat < 64 → (s.part p).has u = true → u ≠ s.cur →
      (∀ k slot, s.task u = some k → (s.tile u).freeSlot = some slot → (s.tile u).runs = true → k.rc.mayfr = true →
        ∃ t, exec (.freeze d a) s = .next t ∧ (t.tile u).freezing = some { slot := some slot, at_ := s.dtime, by_ := some s.cur } ∧
          (t.c s.cur).wait = .freeze u slot d ∧ (t.c s.cur).pc = (s.c s.cur).pc ∧ (t.tile u).logic = (s.tile u).logic ∧ sameBytes s t) ∧
      (s.task u = none → ∃ t, exec (.freeze d a) s = .next t ∧ returns s t d (BitVec.allOnes 64))) ∧
    (v.toNat % 64 = s.cur.val → exec (.freeze d a) s = .next (s.trapC .space 0 none)) ∧
    ((s.c s.cur).ops ≠ [] → exec (.evpost d a) s = .next (s.cRetry false)) ∧
    (∀ b, (s.c s.cur).ops = [] → s.blockAt v 64 b → s.evictOk p b false = true →
      let tiles := BitVec.ofNat 64 (leNat (b.take 8))
      let deadline := leNat ((b.drop 8).take 8)
      (s.dtime + 60000 ≤ deadline → ∃ t e, exec (.evpost d a) s = .next t ∧ (t.part p).evictions = (s.part p).evictions ++ [e] ∧
        e.tiles = tiles ∧ e.deadline = deadline ∧ e.no = (s.part p).evNo + 1 ∧ (t.part p).closed = (s.part p).closed ||| tiles ∧
        (t.c s.cur).pc = (s.c s.cur).pc + 4 ∧
        (∀ r, t.sr s.cur r = if r ≠ 0 ∧ r = d then BitVec.ofNat 64 ((s.part p).evNo + 1) else s.sr s.cur r) ∧ sameBytes s t) ∧
      (deadline < s.dtime + 60000 → ∃ t, exec (.evpost d a) s = .next t ∧ returns s t d (BitVec.allOnes 64)))

/-! ## Tasks, graphs and streams -/

/-- R275, R277, R290–R294: TASKEND, once everything of the task is finished, ends it: its record leaves Tiller, each
successor's count falls by one and at zero it becomes READY; the last record of a phase fires the barrier, which fixes every flit
of the exchange step; until then C tries again. TASKPOST adds a record to the phase and to Tiller and answers its index; TASKYLD
gives the tile to a task that ranks ahead, else answers 0; GLAUNCH queues an instance and answers its number, or all ones for a
full queue; SLACK answers the slack of R279. The model's choices (log entries): when a run is over (43), the bound of Tiller (83). -/
def Obligations.TaskResults : Prop :=
  (∀ (s : State) (k : TaskCtl) (i : Inst), s.task s.cur = some k → s.inst k.part k.inst = some i →
    let g := s.logic s.cur
    let finished := g.idle .l = true ∧ g.idle .m = true ∧ g.idle .s = true ∧ g.copy.q = [] ∧ g.rachis.pass = none ∧ g.c.ops = []
    (finished → ∃ t j, exec .taskend s = .next t ∧ t.task s.cur = none ∧ (∀ r ∈ (t.tile s.cur).tiller, ¬ (r.inst = k.inst ∧ r.idx = k.idx)) ∧
      (∀ r ∈ (s.tile s.cur).tiller, r.inst = k.inst → r.idx ≠ k.idx → r.idx ∈ k.rc.succ → r.deps = 1 → r.st = .waiting →
        { r with deps := 0, st := .ready, age := s.ck } ∈ (t.tile s.cur).tiller) ∧
      (∀ r ∈ (s.tile s.cur).tiller, ¬ (r.inst = k.inst ∧ (r.idx = k.idx ∨ r.idx ∈ k.rc.succ)) → r ∈ (t.tile s.cur).tiller) ∧
      t.inst k.part k.inst = some j ∧ j.live = i.live.filter (fun n => n != k.idx) ∧
      (j.live = [] → i.graph.isSome → ∃ ends, j.st = .exchange s.ck
        (planFlits (s.part k.part).slots i (i.curPhase.elim [] (·.exch))) ends ∧ i.curPhase.elim 0 (·.xlen) ≤ ends) ∧ (j.live ≠ [] → j.st = i.st) ∧ sameBytes s t) ∧
    (¬ finished → exec .taskend s = .next (s.cRetry false))) ∧
  ∀ (s : State) (d a : Reg) (k : TaskCtl) (i : Inst), s.task s.cur = some k → s.inst k.part k.inst = some i →
    s.free [a, d] → s.clean [a] →
    let pc := (s.c s.cur).pc + 4
    let x := s.part k.part
    let num (b : List Byte) (o n : Nat) : Nat := leNat ((b.drop o).take n)
    ((s.c s.cur).ops ≠ [] → exec (.taskpost d a) s = .next (s.cRetry false) ∧ exec (.glaunch d a) s = .next (s.cRetry false)) ∧
    (∀ b, (s.c s.cur).ops = [] → s.blockAt (s.sr s.cur a) 64 b →
      let r := TaskRec.ofBytes b
      let u := i.tileOf r.tile
      r.deps = 0 → r.succ = [] → s.recOk k.part i.fcols i.frows b = true → (s.tile u).tiller.length < 64 → i.posted.length < 256 →
      ∃ t j, exec (.taskpost d a) s = .next t ∧ t.inst k.part k.inst = some j ∧ j.posted = i.posted ++ [r] ∧
        j.live = i.live ++ [i.records.length] ∧
        (t.tile u).tiller = (s.tile u).tiller ++ [{ inst := i.no, idx := i.records.length, rc := r, deps := 0, st := .ready, age := s.ck,
                                                    cls := max r.cls i.cls, u := 0 }] ∧
        (t.c s.cur).pc = pc ∧ (∀ q, t.sr s.cur q = if q ≠ 0 ∧ q = d then BitVec.ofNat 64 i.records.length else s.sr s.cur q) ∧
        sameBytes s t) ∧
    (∀ slot, (s.tile s.cur).freeSlot = some slot →
      (k.rc.mayfr = true → s.headAhead s.cur = true → ∃ t, exec (.taskyld d) s = .next t ∧ (t.c s.cur).wait = .yielded d ∧
        (t.tile s.cur).freezing = some { slot := some slot, at_ := s.dtime, by_ := none } ∧ (t.c s.cur).pc = (s.c s.cur).pc ∧ sameBytes s t) ∧
      (s.headAhead s.cur = false → ∃ t, exec (.taskyld d) s = .next t ∧ returns s t d 0)) ∧
    (∀ b, (s.c s.cur).ops = [] → s.blockAt (s.sr s.cur a) 64 b → s.launchFail b = none →
      (x.queueLen < 256 → ∃ t j, exec (.glaunch d a) s = .next t ∧
        goesTo (s.modPart k.part (fun y => { y with insts := y.insts ++ [j], instNo := y.instNo + 1 })) t d
          (BitVec.ofNat 64 ((x.instNo + 1) % 2 ^ 32)) pc ∧
        j.no = x.instNo + 1 ∧ j.graphPtr = BitVec.ofNat 64 (num b 0 8) ∧ j.iparam = BitVec.ofNat 64 (num b 8 8) ∧ j.dl = num b 16 8 ∧
        j.cls = num b 24 1 ∧ j.st = .queued ∧ j.launched = s.ck) ∧
      (256 ≤ x.queueLen → ∃ t, exec (.glaunch d a) s = .next t ∧ returns s t d (BitVec.allOnes 64))) ∧
    (∃ t, exec (.slack d) s = .next t ∧ returns s t d (if i.dl = 0 then 0x7FFFFFFFFFFFFFFF else
      BitVec.ofInt 64 ((i.dl : Int) - (s.dtime : Int) - (((k.rc.cost - k.u) * ckTime s.pf.eff + 23) / 24 : Nat))))

/-- R295, R296, R297: RUNG answers the stream's sample and, with bit 63, pends a rung; FRMACQ takes the next frame
while fewer than the ring's slots are out, else answers all ones; FRMCOMMIT commits the oldest frame out. The model's
choices (log entries): counts modulo 2 to the 64 (85), RUNG with bit 63 zero (87). -/
def Obligations.StreamInstructionResults : Prop :=
  ∀ (s : State) (d a b : Reg) (st : Stream), s.free [a, b, d] → s.clean [a, b] → (s.sr s.cur a).toNat < 1024 →
    (s.part (s.partOf s.cur)).stream (s.sr s.cur a).toNat = some st → s.noMigration →
    let p := s.partOf s.cur
    let n := (s.sr s.cur a).toNat
    let v := s.sr s.cur b
    let pc := (s.c s.cur).pc + 4
    (v = 0 → ∃ t w, exec (.rung d a b) s = .next t ∧ returns s t d w ∧
      w.toNat / 2 ^ 32 = st.overrun % 2 ^ 32 ∧ w.toNat / 512 % 8 = st.rise % 8 ∧ w.getLsbD 8 = st.pend.isSome ∧ w.toNat % 8 = st.rung % 8) ∧
    (∀ r, r < 8 → r < st.nrung → v.toNat = 2 ^ 63 + r → ∃ t w, exec (.rung d a b) s = .next t ∧
      goesTo (s.modStream p n (fun _ => { st with pend := some r })) t d w pc ∧ w.getLsbD 8 = true ∧ w.toNat / 8 % 8 = r) ∧
    (∀ r, st.nrung ≤ r → r < 8 → v.toNat = 2 ^ 63 + r → exec (.rung d a b) s = .next (s.trapC .bound 0 none)) ∧
    (let cons := BitVec.ofNat 64 (s.hwNum p (st.ringVa + 16) 8)
     ((BitVec.ofNat 64 st.prod - cons).toNat < st.nslot → ∃ t st', exec (.frmacq d a) s = .next t ∧
       (t.c s.cur).pc = pc ∧ (∀ r, t.sr s.cur r = if r ≠ 0 ∧ r = d then BitVec.ofNat 64 st.prod else s.sr s.cur r) ∧
       (t.part p).stream n = some st' ∧ st'.prod = st.prod + 1 ∧ st'.commit = st.commit ∧
       t.bulk = (s.hwPut p st.ringVa (leBytes 8 (st.prod + 1))).bulk) ∧
     (st.nslot ≤ (BitVec.ofNat 64 st.prod - cons).toNat → ∃ t, exec (.frmacq d a) s = .next t ∧ (t.c s.cur).pc = pc ∧
       (∀ r, t.sr s.cur r = if r ≠ 0 ∧ r = d then BitVec.allOnes 64 else s.sr s.cur r) ∧ sameBytes s t)) ∧
    ((s.c s.cur).ops = [] →
      (v.toNat = st.commit → st.commit < st.prod → ∃ t st', exec (.frmcommit d a b) s = .next t ∧
        (t.c s.cur).pc = pc ∧ (∀ r, t.sr s.cur r = if r ≠ 0 ∧ r = d then BitVec.ofNat 64 (st.commit + 1) else s.sr s.cur r) ∧
        (t.part p).stream n = some st' ∧ st'.commit = st.commit + 1 ∧ st'.prod = st.prod ∧
        t.bulk = (s.hwPut p (st.ringVa + 8) (leBytes 8 (st.commit + 1))).bulk) ∧
      (v.toNat ≠ st.commit ∨ st.prod ≤ st.commit → exec (.frmcommit d a b) s = .next (s.trapC .bound 0 none)))

/-- R138, R274, R275: PLACEMENT places the one queued instance whose graph has been read at the first free rectangle
and begins its phase 0; one whose footprint no tiles of the partition admit is refused. A flit of the exchange step leaves its source when
its clock has come, with the bytes that stand there then, and lands in its targets on its landing clock; a landing later than XLEN is
counted. The step ends with the next phase or with the instance's end, no earlier than XLEN and after the last landing. A flit with no slot
claimed before it leaves in the first reserved slot of its route's first link from T0 on, and takes at least a clock for each link. The
model's choices (log entries): PLACEMENT as the step that places (82), the clocks of the step (80). -/
def Obligations.GraphPhaseResults : Prop :=
  (∀ (s : State) (i : Inst) (g : Graph), s.pf.dchange = false → s.pf.d3hot = false →
     let p := s.ev.p
     (s.part p).switch = none → (s.part p).insts = [i] → i.st = .queued → i.world = none → i.graph = some g →
     (∀ c r, originFor g (s.tileFree p i) = some (c, r) →
       ∃ t j, exec .placement s = .next t ∧ t.inst p i.no = some j ∧ j.st = .running ∧ j.phase = 0 ∧ j.col0 = c ∧ j.row0 = r ∧
         j.snap = s.bulk ∧ j.live = List.range j.records.length ∧ sameBytes s t ∧
         ∀ n rc, j.records[n]? = some rc → ∃ e ∈ (t.tile (j.tileOf rc.tile)).tiller, e.inst = i.no ∧ e.idx = n ∧ e.rc = rc ∧
           e.st = (if rc.deps = 0 then .ready else .waiting)) ∧
     (originFor g (fun u => (s.part p).has u) = none → ∃ t, exec .placement s = .next t ∧ t.inst p i.no = none) ∧
     (originFor g (fun u => (s.part p).has u) ≠ none → originFor g (s.tileFree p i) = none →
       ∃ t, exec .placement s = .next t ∧ sameBytes s t ∧ ∃ j, t.inst p i.no = some j ∧ j.st = .queued)) ∧
  (∀ (s : State) (i : Inst) (fired ends : Nat) (flits : List Flit),
     let p := s.ev.p
     let c := s.ck - (fired + 16)
     s.inst p s.ev.k = some i → i.st = .exchange fired flits ends →
     (s.ck < fired + 16 → exec .exchangeLanding s = .next s) ∧
     (∀ (f : Flit) (r : List Flit), fired + 16 ≤ s.ck → flits = f :: r →
       (∀ g ∈ r, (g.data = none → c < g.leave) ∧ (g.data ≠ none → c < g.land)) →
       (f.data = none → f.leave ≤ c → c < f.land → ∃ t j d, exec .exchangeLanding s = .next t ∧ sameBytes s t ∧ t.inst p s.ev.k = some j ∧
         j.st = .exchange fired ({ f with data := some d } :: r) ends ∧ d.length = 8 ∧
         ∀ b, b < 8 → d[b]? = some (Mem.read (s.tile f.src).slice (f.soff + 64 * b) 64,
           s.poisonedAt (.slice f.src (f.soff + 64 * b)) 64)) ∧
       (∀ d u, f.data = some d → f.land ≤ c → f.dsts = [u] → d.length = 8 → (∀ e ∈ d, e.1.length = 64) → s.memOk → s.noMigration →
         ∃ t j, exec .exchangeLanding s = .next t ∧ wrote s t (.slice u f.doff) (d.flatMap (·.1)) ∧ t.inst p s.ev.k = some j ∧
           j.st = .exchange fired r ends ∧
           (t.part p).exovr = (if i.curPhase.elim 0 (·.xlen) < f.land then min 0xFFFFFFFFFFFFFFFF ((s.part p).exovr + 1)
             else (s.part p).exovr)) ∧
       exec .phaseRecordLoad s = .next s) ∧
     (∀ g, i.graph = some g → flits = [] →
       (fired + 16 + ends ≤ s.ck →
         (i.phase + 1 < g.phases.length → ∃ t j, exec .phaseRecordLoad s = .next t ∧ t.inst p s.ev.k = some j ∧ j.phase = i.phase + 1 ∧
           j.st = .running ∧ sameBytes s t) ∧
         (i.phase + 1 = g.phases.length → ∃ t, exec .phaseRecordLoad s = .next t ∧ t.inst p s.ev.k = none)) ∧
       (s.ck < fired + 16 + ends → exec .phaseRecordLoad s = .next s))) ∧
  ∀ (slots : List Word) (src u : Tile) (e : ExchEntry) (o : Nat) (r : List Nat), routeOuts src u = o :: r → slots.getD o 0 ≠ 0 →
    let f := (planFlit slots src [u] e 0 []).1
    e.t0 ≤ f.leave ∧ f.leave + r.length ≤ f.land ∧ (slots.getD o 0).getLsbD (f.leave % 64) = true ∧
    (∀ c, e.t0 ≤ c → c < f.leave → (slots.getD o 0).getLsbD (c % 64) = false) ∧
    ((∀ x ∈ o :: r, slots.getD x 0 = BitVec.allOnes 64) → f.leave = e.t0 ∧ f.land = e.t0 + r.length)

/-- R278–R282: PRELOAD puts the head of the order into the shadow bank; DISPATCH starts it with its registers, s1–s7
and the PC set and the others 0; a READY task of class 0 freezes a running one of a lower class that may be frozen.
The model's choices (log entries): the bound of Tiller (83). -/
def Obligations.TillerResults : Prop :=
  ∀ (s : State),
    let u := s.ev.t
    (∃ t, exec .preload s = .next t ∧ (t.tile u).shadow = (s.tillerHead u).map (fun r => (r.inst, r.idx)) ∧
      (t.tile u).logic = (s.tile u).logic ∧ sameBytes s t) ∧
    (∀ r i, s.canStart u = some r → r.st = .ready → s.inst (s.tile u).part r.inst = some i →
      ∃ t k, exec .dispatch s = .next t ∧ t.task u = some k ∧ k.part = (s.tile u).part ∧ k.inst = r.inst ∧ k.idx = r.idx ∧ k.u = 0 ∧
        k.super = (r.rc.super && decide ((s.part (s.tile u).part).home = u)) ∧ k.lifted = false ∧ (t.c u).pc = r.rc.entry ∧
        t.sr u 1 = r.rc.param ∧ t.sr u 2 = r.rc.ltab ∧ t.sr u 3 = r.rc.mtab ∧ t.sr u 4 = r.rc.stab ∧
        t.sr u 5 = BitVec.ofNat 64 (i.no % 2 ^ 32) ∧ t.sr u 6 = i.iparam ∧ (∀ n : Reg, 8 ≤ n.toNat → t.sr u n = 0) ∧
        (t.tile u).shadow = none ∧ (∀ q, t.toks u q = []) ∧ sameBytes s t) ∧
    (∀ k slot r, s.task u = some k → (s.tile u).freeSlot = some slot → (s.tile u).runs = true → k.cls ≠ 0 → k.rc.mayfr = true →
      r ∈ (s.tile u).tillerIn → r.isReady = true → r.cls = 0 →
      ∃ t, exec .tillerFreeze s = .next t ∧ (t.tile u).freezing = some { slot := some slot, at_ := s.dtime, by_ := none } ∧
        (t.tile u).logic = (s.tile u).logic ∧ sameBytes s t)

/-- R283, R286–R288: a task whose run time has passed its limit takes a WATCHDOG trap and its instance ends; an
instance of a stream that is late by the stream's limit ends. The entry that is due fires: the ladder moves a rung
down after a missed or skipped frame, and an instance of the rung's graph joins the queue, or the firing is skipped
and counted while one is pending. The model's choices (log entries): a firing into a full queue skips (84). -/
def Obligations.StreamTimeResults : Prop :=
  (∀ (s : State),
     (∀ k i, s.task s.ev.t = some k → s.inst k.part k.inst = some i → (s.tile s.ev.t).runs = true →
       (k.rc.wdog ≠ 0 → 1024 * k.rc.wdog < k.u → s.trapTurn s.ev.t .tile 0 = true → ∃ t, exec .taskWatchdog s = .next t ∧ t.inst k.part k.inst = none ∧
         t.task s.ev.t = none ∧ (0 < (s.part k.part).trapFree → (t.part k.part).tail = (s.part k.part).tail + 1)) ∧
       (k.rc.wdog = 0 ∨ k.u ≤ 1024 * k.rc.wdog → exec .taskWatchdog s = .next s)) ∧
     (∀ i n st, s.inst s.ev.p s.ev.k = some i → i.src = .stream n → (s.part s.ev.p).stream n = some st → i.placed = true → st.wdns ≠ 0 →
       (i.dl + st.wdns ≤ s.dtime → (∀ e ∈ s.tasksOf s.ev.p i.no, s.trapTurn e.1 .tile 0 = true) →
         ∃ t, exec .streamWatchdog s = .next t ∧ t.inst s.ev.p s.ev.k = none) ∧
       (s.dtime < i.dl + st.wdns → exec .streamWatchdog s = .next s))) ∧
  (∀ (s : State) (due k n : Nat) (e : TtEntry) (st : Stream),
     let p := s.ev.p
     (s.part p).nextFiring = some (due, k, e) → e.stream = n → (s.part p).stream n = some st → st.destroying = none → st.vf = none →
     s.pf.d3hot = false → (s.part p).queueLen < 256 →
     (s.dtime < due → exec .firing s = .next s) ∧
     (due ≤ s.dtime → (∀ i ∈ (s.part p).insts, i.src ≠ .stream n) → ∃ t st' j, exec .firing s = .next t ∧
       (t.part p).stream n = some st' ∧ (t.part p).insts = (s.part p).insts ++ [j] ∧ j.src = .stream n ∧ j.dl = due + st.deadoff ∧
       j.cls = st.cls ∧ j.graphPtr = (st.rungs.getD st'.rung (0, 0)).1 ∧
       (st.pend = none → (∃ x ∈ st.ended, x < 0) → st'.rung = min (st.rung + 1) (st.nrung - 1)) ∧
       (∀ r, st.pend = some r → st'.rung = r) ∧ (st.pend = none → st.ended = [] → st.skipped = false → st'.rung = st.rung)) ∧
     (due ≤ s.dtime → (∃ i ∈ (s.part p).insts, i.src = .stream n) → ∃ t st', exec .firing s = .next t ∧
       (t.part p).stream n = some st' ∧ st'.skipped = true ∧ st'.overrun = (st.overrun + 1) % 2 ^ 32 ∧ (t.part p).insts = (s.part p).insts))

/-! ## Step tables -/

/-- R60, R61, R82, R86, R89, R95: a run at the head of the start queue starts when none runs, at step 0 of repeat 0;
an address or count write there takes effect. A sequencer whose stall counter has reached the limit takes
TOKEN-TIMEOUT; with the limit 0, or below it, none does. A micro-order whose pop finds no token waits and changes
nothing else. The model's choices (log entries): when a run ends and the next begins (43), the stall counters (42),
the status of a time-out (35). -/
def Obligations.SequencerResults : Prop :=
  (∀ (s : State) (u : Sq) (r : List StartEntry), s.curSq = u → u ≠ .c → (s.tile s.cur).runs = true → (s.seq s.cur u).run = none →
     (∀ base len rep ahead, (s.seq s.cur u).startq = .run base len rep ahead :: r → ∃ t, exec .runStart s = .next t ∧
       (t.seq s.cur u).run = some { base := base, len := len, rep := rep, step := 0, j := 0, issued := 0, ahead := ahead } ∧
       (t.seq s.cur u).startq = r ∧ (t.logic s.cur).c = (s.logic s.cur).c ∧ (t.logic s.cur).tok = (s.logic s.cur).tok ∧ sameBytes s t) ∧
     (∀ n v, u = .l → (s.seq s.cur u).startq = .addr n v :: r → ∃ t, exec .startQueueWrite s = .next t ∧
       (t.seq s.cur u).startq = r ∧ (∀ k, (t.ls s.cur false).areg k = if k.toNat = n.val then v else (s.ls s.cur false).areg k) ∧
       (t.ls s.cur true) = (s.ls s.cur true)) ∧
     (∀ n v, u = .s → (s.seq s.cur u).startq = .addr n v :: r → ∃ t, exec .startQueueWrite s = .next t ∧
       (t.seq s.cur u).startq = r ∧ (∀ k, (t.ls s.cur true).areg k = if k.toNat = n.val then v else (s.ls s.cur true).areg k) ∧
       (t.ls s.cur false) = (s.ls s.cur false)) ∧
     (∀ n v, u = .m → (s.seq s.cur u).startq = .count n v :: r → ∃ t, exec .startQueueWrite s = .next t ∧
       (t.seq s.cur u).startq = r ∧ ∀ k : Fin 8, (t.vec s.cur).n[k] = if k = n then v else (s.vec s.cur).n[k])) ∧
  (∀ (s : State), (s.tile s.cur).runs = true →
     let limit := (s.tile s.cur).tokLim.toNat
     (s.curSq = .c → (s.c s.cur).stop = none → (s.c s.cur).wait = .retry true →
       (limit ≠ 0 → limit ≤ (s.c s.cur).stall → exec .tokenTimeout s = .next (s.trapC .tokenTimeout 0 none)) ∧
       (limit = 0 ∨ (s.c s.cur).stall < limit → exec .tokenTimeout s = .next s)) ∧
     (∀ u, u ≠ .c → s.curSq = u → (s.seq s.cur u).stop = none →
       (limit ≠ 0 → limit ≤ (s.seq s.cur u).stall →
         ((s.seq s.cur u).wait = .pop → exec .tokenTimeout s = .next (s.trap s.cur u .tokenTimeout 0 none)) ∧
         ((s.seq s.cur u).wait = .push → exec .tokenTimeout s = .next (s.trap s.cur u .tokenTimeout 3 none))) ∧
       (limit = 0 ∨ (s.seq s.cur u).stall < limit → exec .tokenTimeout s = .next s))) ∧
  ((∀ (s : State) (u : Sq) (p q : BitVec 3) (d : BitVec 4) (k : Fin 12), s.curSq = u → u = .l ∨ u = .s →
     (s.seq s.cur u).started = none → popQueue u p = some k → s.toks s.cur k = [] →
     exec (.amovTok p q d) s = .next (s.modSeq s.cur u (fun x => { x with wait := .pop, stall := if x.wait = .pop then x.stall else 0 })) ∧
     exec (.lnop p q) s = .next (s.modSeq s.cur u (fun x => { x with wait := .pop, stall := if x.wait = .pop then x.stall else 0 }))) ∧
   ∀ (s : State) (p q : BitVec 3) (i : BitVec 8) (k : Fin 12), (s.logic s.cur).m.list = [] →
     (s.seq s.cur .m).started = none → popQueue .m p = some k → s.toks s.cur k = [] →
     exec (.vcfg p q i) s = .next (s.modSeq s.cur .m (fun x => { x with wait := .pop, stall := if x.wait = .pop then x.stall else 0 })))

/-! ## L and S -/

/-- R60, R106, R107, R118: the address micro-orders leave their result in one address register, or in one stride; LNOP
changes none. Each pushes its token and goes on; nothing else of the device changes. The model's choices (log
entries): when a run is over (43). -/
def Obligations.AddressResults : Prop :=
  ∀ (s s' : State) (u : Sq) (p q : BitVec 3) (tok : Word) (d a : BitVec 4) (ra rb rd k : Reg) (i : BitVec 12) (j : BitVec 32),
    s.curSq = u → u = .l ∨ u = .s → s.starts u p tok s' → (s'.lsX u).inflight = [] →
    let x (n : BitVec 4) : Word := s'.ar u n
    let sets (words : Nat) (n : BitVec 4) (v : Word) : Host.Outcome State Fault Refusal :=
      .next (s'.modLogic s.cur (fun g => (g.modLs (isS u) (fun y => { y with a := y.a.set n.toFin v })).past u words q 0))
    let steps (n : BitVec 4) (v : Word) : Host.Outcome State Fault Refusal :=
      .next (s'.modLogic s.cur (fun g => (g.modLs (isS u) (fun y => { y with stride := y.stride.set n.toFin v })).past u 1 q 0))
    ((s'.logic s.cur).inHand u 1 q →
      exec (.aadd p q rd ra rb) s = sets 1 (rd.setWidth 4) (x (ra.setWidth 4) + x (rb.setWidth 4)) ∧
      exec (.aaddi p q d a i) s = sets 1 d (x a + BitVec.ofInt 64 i.toInt) ∧
      exec (.amov p q d a) s = sets 1 d (x a) ∧ exec (.amovTok p q d) s = sets 1 d tok ∧
      (6 ≤ k.toNat → k.toNat ≤ 27 → ∃ v, exec (.awrap p q d a k) s = sets 1 d v ∧
        v = x a + BitVec.ofNat 64 ((x d - x a).toNat % 2 ^ k.toNat)) ∧
      exec (.astep p q d i) s = steps d (BitVec.ofInt 64 (i.toInt * 64)) ∧ exec (.astepReg p q d a) s = steps d (x a) ∧
      exec (.lnop p q) s = .next (s'.modLogic s.cur (fun g => g.past u 1 q 0))) ∧
    ((s'.logic s.cur).inHand u 2 q → ∃ v, exec (.aset p q d a i j) s = sets 2 d v ∧ v.toNat % 2 ^ 32 = j.toNat ∧
      v.toNat / 2 ^ 32 % 2 ^ 20 = (x a).toNat / 2 ^ 32 % 2 ^ 20 ∧ v.toNat / 2 ^ 52 = i.toNat) ∧
    (k.toNat < 6 ∨ 27 < k.toNat → exec (.awrap p q d a k) s = .next (s'.trapSeq u .bound 0 none))

/-- R46, R104–R112: a load or store of L or S, its checks passed, is in flight with its 64-byte units in order, and
its address register is updated; a failed check traps. The loads of the matrix engine wait while Rachis owns it, MALD
for a FREE slot. The model's choices (log entries): the units of an access land in steps of their own (51, 54), checks
at issue (31). -/
def Obligations.VectorAccessIssue : Prop :=
  ∀ (s s1 s' : State) (p q : BitVec 3) (tok : Word) (v d ra rb : Reg) (a d4 : BitVec 4) (n : BitVec 1) (o : BitVec 10) (i : BitVec 12)
      (r : BitVec 7) (k2 : BitVec 2) (k3 : BitVec 3) (sl : BitVec 1) (ls : List Loc) (f : Fail),
    let flies (u : Sq) (data : LsData) (upd : LsSt → LsSt) (t : State) : Prop :=
      t = s'.modLogic s.cur (fun g => (g.modLs (isS u) (fun y => { upd y with
          inflight := [{ store := isS u, data := data, blks := blksOf ls, push := pushQueue u q, tok := 0, run := (g.seq u).run }] })).modSeq u
        (fun y => { y with run := y.run.map (fun r => { r with issued := 1 }), started := none, wait := .none, stall := 0 }))
    let goes (u : Sq) (need : Need) (rs : List (Word × Nat)) (alignX boundX : Option Fail) (rev : Bool) (data : LsData) (upd : LsSt → LsSt)
        (out : Host.Outcome State Fault Refusal) : Prop :=
      s.starts u p tok s1 → (s1.lsX u).inflight = [] →
      (s1.accessAll need rs alignX boundX rev = (.ok ls, s') → ls ≠ [] → ∃ t, out = .next t ∧ flies u data upd t) ∧
      (s1.accessAll need rs alignX boundX rev = (.fail f, s') → out = .next (s'.failSeq u f))
    let em (u : Sq) : Word := if n = 1 then s1.ar u a else s1.ar u a + BitVec.ofInt 64 (o.toInt * 64)
    let emUpd (y : LsSt) : LsSt := if n = 1 then { y with a := y.a.set a.toFin (y.a[a.toFin] + BitVec.ofInt 64 (o.toInt * 64)) } else y
    let units (u : Sq) : List (Word × Nat) :=
      (List.range 8).map (fun j => (s1.ar u (ra.setWidth 4) + BitVec.ofNat 64 j * s1.ar u (rb.setWidth 4), 64))
    let odd (w base : Word) (tbl : Nat → Nat) : Option Fail := ((List.range 8).find? (fun j => base.toNat % 64 != 0 || tbl j % 64 != 0)).map
      (fun j => ⟨.align, w, some (base + BitVec.ofNat 64 (tbl j))⟩)
    let badStride (u : Sq) (w : Word) (x : Word) : Option Fail := if x.toNat % 64 = 0 then none else some ⟨.align, w, none⟩
    goes .l .r [(em .l, 512)] none none false (.v v.toFin) emUpd (exec (.vld p q v a n o) s) ∧
    goes .l .r [(em .l, 64)] none none false (.vAll v.toFin) emUpd (exec (.vldb p q v a n o) s) ∧
    goes .l .r [(em .l, 128)] none none false (.p (Fin.ofNat 8 v.toNat)) emUpd (exec (.pld p q v a n o) s) ∧
    goes .s .w [(em .s, 512)] none none false (.v v.toFin) emUpd (exec (.vst p q v a n o) s) ∧
    goes .s .w [(em .s, 128)] none none false (.p (Fin.ofNat 8 v.toNat)) emUpd (exec (.pst p q v a n o) s) ∧
    goes .l .r (units .l) (badStride .l 0 (s1.ar .l (rb.setWidth 4))) none (s1.ar .l (rb.setWidth 4)).msb (.v d.toFin) id
      (exec (.vlds p q d ra rb) s) ∧
    goes .s .w (units .s) (badStride .s 0x800 (s1.ar .s (rb.setWidth 4))) none (s1.ar .s (rb.setWidth 4)).msb (.v d.toFin) id
      (exec (.vsts p q d ra rb) s) ∧
    ((s1.vec s.cur).ppoison.getLsbD k3.toNat = false →
      goes .s .w [(s1.ar .s (ra.setWidth 4), 512)] none none false (.vMask d.toFin k3.toFin) id (exec (.vstm p q d ra k3) s)) ∧
    (s.rachisOwns = false →
      ((s1.mat s.cur).slotSt[Fin.ofNat 2 sl.toNat] = .free →
        goes .l .r [(s1.ar .l a, 512 * (r.toNat + 1))] none none false (.aslot (Fin.ofNat 2 sl.toNat) (r.toNat + 1)) id
          (exec (.mald p q sl a r) s)) ∧
      goes .l .r [(s1.ar .l a, 64 * (i.toNat + 1))] (badStride .l 0 (s1.ar .l d4))
        (if (s1.ar .l d4).toNat + 64 * (i.toNat + 1) ≤ 2 ^ 21 then none else some ⟨.bound, 0, none⟩) false (.wbuf (s1.ar .l d4).toNat) id
        (exec (.wld p q d4 a i) s) ∧
      goes .l .r [(s1.ar .l a, 512 * (r.toNat + 1))] none none false (.z k2.toFin) id (exec (.zld p q k2 a r) s)) ∧
    ((s1.mat s.cur).sbuf = [] →
      goes .s .w ((List.range (i.toNat + 1)).map (fun j => (s1.ar .s a + BitVec.ofNat 64 j * s1.ar .s d4, 512)))
        (badStride .s 0x800 (s1.ar .s d4)) none (s1.ar .s d4).msb (.chunks []) id (exec (.est p q d4 a i) s)) ∧
    (∀ off : Nat, s1.access s.cur localSpace .r (s1.ar .l (rb.setWidth 4)) 32 32 = (.ok (.slice s.cur off), s1) →
      s1.locFull (.slice s.cur off) 32 = true → s1.poisonedAt (.slice s.cur off) 32 = false →
      let tbl (j : Nat) : Nat := leNat (Mem.read (s.tile s.cur).slice (off + 4 * j) 4)
      goes .l .r ((List.range 8).map (fun j => (s1.ar .l (ra.setWidth 4) + BitVec.ofNat 64 (tbl j), 64)))
        (odd 0 (s1.ar .l (ra.setWidth 4)) tbl) none false (.v d.toFin) id
        (exec (.vldg p q d ra rb) s)) ∧
    (∀ off : Nat, s1.access s.cur localSpace .r (s1.ar .s (rb.setWidth 4)) 32 32 = (.ok (.slice s.cur off), s1) →
      s1.locFull (.slice s.cur off) 32 = true → s1.poisonedAt (.slice s.cur off) 32 = false →
      let tbl (j : Nat) : Nat := leNat (Mem.read (s.tile s.cur).slice (off + 4 * j) 4)
      goes .s .w ((List.range 8).map (fun j => (s1.ar .s (ra.setWidth 4) + BitVec.ofNat 64 (tbl j), 64)))
        (odd 0x800 (s1.ar .s (ra.setWidth 4)) tbl) none false (.v d.toFin) id
        (exec (.vstg p q d ra rb) s))

/-- R103, R105, R115, R118, R82: BFULL and BEMPTY change the bits of the named bins at their home alone, but for the loads that wait
there, which read when BFULL fills their last bin; BWAIT goes on when all are full; BTEST pushes the number of full ones; QBIND binds a
stream register at its chunk 0, with the blocks that were written on its clock, and QFREE frees it; PFB changes no byte but the A bits of table entries. Pointers that fail raise SPACE, ALIGN, BOUND. The model's
choices (log entries): the trap of QBIND beyond the window (52), PFB in one step (53), what BEMPTY does to
values read ahead (175). -/
def Obligations.BinResults : Prop :=
  ∀ (s s1 : State) (u : Sq) (p q sc : BitVec 3) (tok : Word) (a : BitVec 4) (i : BitVec 12), s.curSq = u → u = .l ∨ u = .s →
    s.starts u p tok s1 → (s1.lsX u).inflight = [] →
    let ptr := s1.ar u a
    let off := ptr.toNat % 2 ^ 28
    let b := off / 65536
    let n := i.toNat + 1
    let inPart (h : Tile) : Prop := (s.part (s.partOf s.cur)).has h = true
    let h : Tile := if ptr.toNat / 2 ^ 60 = 1 then Fin.ofNat 64 (ptr.toNat / 2 ^ 28 % 64) else s.cur
    let inSpace : Prop := ptr.toNat / 2 ^ 28 = 0 ∨ (ptr.toNat / 2 ^ 60 = 1 ∧ ptr.toNat / 2 ^ 34 % 2 ^ 26 = 0 ∧ inPart h)
    let goes (out : Out) (x : List Nat) (v : Word) : Prop :=
      out = .next ((s1.modTile h (fun y => { y with empty := x })).modLogic s.cur (fun g => g.past u 1 q v))
    let old := (s1.tile h).empty
    let quiet (v : Tile) : Prop := (∀ o ∈ (s1.c v).ops, o.parked = false) ∧ (∀ e ∈ (s1.ls v false).inflight, e.parked = false)
    ((s1.logic s.cur).inHand u 1 q → inSpace → off % 65536 = 0 → b + n ≤ (s1.tile h).slim →
      ((∀ v, quiet v ∧ s1.frozenAt v = []) →
        ∃ x, goes (exec (.bfull p q a i) s) x 0 ∧ ∀ k, k ∈ x ↔ k ∈ old ∧ ¬ (b ≤ k ∧ k < b + n)) ∧
      (∀ (v : Tile) (o : COp) (y : Nat), v ≠ s.cur → (s1.c v).ops = [o] → o.parked = true → o.kind = .load → o.loc = .slice h y →
        0 < o.width → b * 65536 ≤ y → y + o.width ≤ (b + n) * 65536 → (s1.tile v).freezing = none → (∀ w, s1.frozenAt w = []) →
        (∀ w, w ≠ v → quiet w) → (∀ e ∈ (s1.ls v false).inflight, e.parked = false) →
        ∃ t, exec (.bfull p q a i) s = .next t ∧ (t.c v).ops = [] ∧ ∀ r, t.sr v r = if r ≠ 0 ∧ r = o.dst
          then BitVec.ofNat 64 (leNat ((Mem.read (s1.tile h).slice y o.width).take 8)) else s1.sr v r) ∧
      (∃ x, exec (.bempty p q a i) s = .next ((s1.modTile h (fun y => { y with empty := x })).modLogic s.cur (fun g =>
          (g.dropBins h b n).past u 1 q 0)) ∧ ∀ k, k ∈ x ↔ k ∈ old ∨ (b ≤ k ∧ k < b + n)) ∧
      ((∀ k ∈ old, ¬ (b ≤ k ∧ k < b + n)) → goes (exec (.bwait p q a i) s) old 0) ∧
      ((∃ k ∈ old, b ≤ k ∧ k < b + n) → exec (.bwait p q a i) s = .next (s1.seqWait u .other)) ∧
      (old.Nodup → goes (exec (.btest p q a i) s) old (BitVec.ofNat 64 ((List.range n).countP (fun k => !old.contains (b + k)))))) ∧
    (¬ inSpace → exec (.bfull p q a i) s = .next (s1.trapSeq u .space 0 (some ptr))) ∧
    (inSpace → off % 65536 ≠ 0 → exec (.bempty p q a i) s = .next (s1.trapSeq u .align 0 (some ptr))) ∧
    (inSpace → off % 65536 = 0 → (s1.tile h).slim < b + n → exec (.btest p q a i) s = .next (s1.trapSeq u .bound 0 (some ptr))) ∧
    (u = .l → (s1.logic s.cur).inHand .l 1 q →
      let binds (x : Option QBind) : Out :=
        .next (s1.modLogic s.cur (fun g => { g.past .l 1 q 0 with vec := { g.vec with q := g.vec.q.set sc.toFin x } }))
      (ptr.toNat / 2 ^ 28 = 0 → off + 512 * n ≤ 2 ^ 28 → off % 512 = 0 → off + 512 * n ≤ (s1.tile s.cur).slim * 65536 →
        ∃ x, exec (.qbind p q sc a i) s = binds (some { base := off, chunks := n, pos := 0, arrived := x }) ∧
          ∀ k, k ∈ x ↔ k < 8 * n ∧ off / 64 + k ∈ (s1.tile s.cur).wrote) ∧
      (ptr.toNat / 2 ^ 28 = 0 → off + 512 * n ≤ 2 ^ 28 → off % 512 ≠ 0 →
        exec (.qbind p q sc a i) s = .next (s1.trapSeq .l .align 0 (some ptr))) ∧
      exec (.qfree p q sc) s = binds none ∧
      (s.memOk → ∃ t, exec (.pfb p q a i) s = .next t ∧
        (∀ x, t.byteAt x = s1.byteAt x ∨ ∃ y, x = .bulk y ∧ t.byteAt x = s1.byteAt x ||| 0x20) ∧ (t.c s.cur) = (s1.c s.cur) ∧ (t.vec s.cur) = (s1.vec s.cur) ∧
        t.toks s.cur = ((s1.logic s.cur).past .l 1 q 0).tok.get ∧ (t.ls s.cur false).a = (s1.ls s.cur false).a ∧
        t.seq s.cur .l = ((s1.logic s.cur).past .l 1 q 0).seq .l))

/-! ## The vector unit -/

/-- R30, R31, R115, R116, R153–R158, R161–R163, R395: the element-wise micro-orders on integers and on bit patterns:
each active lane holds the exact result brought into the type, each other lane its old element or 0; nothing else of
the device changes. A source gives a register group, in order, or the next chunks of a stream register; one that is
unbound or at its end raises BOUND, a chunk not arrived waits. The model's choices (log entries): poison marks of
registers (55). -/
def Obligations.VectorIntegerResults : Prop :=
  (∀ (s s1 : State) (p q : BitVec 3) (tok : Word) (d a b : Reg) (k : BitVec 3) (m : BitVec 2) (m1 : BitVec 1) (x : VecSt) (va vb : VReg)
       (rest : List VReg), s.vecStarts s1 p q tok → x.predOk k →
     let int (v : VReg) (j : Nat) : Int := typeInt x.ty (lane x.w v j)
     let fit (n : Int) : Nat := ((if x.sat then max (typeLo x.ty) (min (typeHi x.ty) n) else n) % 2 ^ x.w).toNat
     let done (o : Host.Outcome State Fault Refusal) (f : Nat → Nat) : Prop :=
       ∃ v, o = s1.vecDone q (x.setV d.toNat v false) 0 ∧ x.lanesAre k (x.vr d.toNat) v x.w f
     (x.ty ≤ 5 →
       (∀ e ∈ ([(.vadd, false, fun u v _ => u + v), (.vsub, false, fun u v _ => u - v), (.vmul, false, fun u v _ => u * v),
           (.vfma, true, fun u v z => u * v + z), (.vfms, true, fun u v z => z - u * v), (.vmin, false, fun u v _ => min u v),
           (.vmax, false, fun u v _ => max u v)] :
           List ((BitVec 3 → BitVec 3 → Reg → Reg → Reg → BitVec 3 → BitVec 2 → Instr) × Bool × (Int → Int → Int → Int))),
         s1.sources s.cur ([srcA (m.getLsbD 0) a 1, srcA (m.getLsbD 1) b 1] ++ (if e.2.1 then [srcA false d 1] else [])) (s1.vec s.cur) =
           .ok (va :: vb :: rest) x false →
         done (exec (e.1 p q d a b k m) s) (fun j => fit (e.2.2 (int va j) (int vb j) (int (x.vr d.toNat) j)))) ∧
       (s1.sources s.cur [srcA (m1.getLsbD 0) a 1] (s1.vec s.cur) = .ok [va] x false →
         done (exec (.vabs p q d a k m1) s) (fun j => fit (int va j).natAbs) ∧ done (exec (.vneg p q d a k m1) s) (fun j => fit (-int va j)))) ∧
     (x.ty ≤ 10 → s1.sources s.cur [srcA (m.getLsbD 0) a 1, srcA (m.getLsbD 1) b 1] (s1.vec s.cur) = .ok [va, vb] x false →
       ∀ e ∈ ([(.vand, fun u v => u &&& v), (.vor, fun u v => u ||| v), (.vxor, fun u v => u ^^^ v), (.vshl, fun u v => u * 2 ^ v % 2 ^ x.w),
           (.vshr, fun u v => u / 2 ^ v), (.vsar, fun u v => (intSigned x.w u / (2 : Int) ^ v % (2 : Int) ^ x.w).toNat)] :
           List ((BitVec 3 → BitVec 3 → Reg → Reg → Reg → BitVec 3 → BitVec 2 → Instr) × (Nat → Nat → Nat))),
         done (exec (e.1 p q d a b k m) s) (fun j => e.2 (lane x.w va j) (lane x.w vb j)))) ∧
  (∀ (s : State) (t : Tile) (x : VecSt) (n k : Nat),
     (n < 32 → s.sources t [{ stream := false, reg := n, k := k }] x = .ok ((List.range k).map (fun i => x.vr (n + i))) x
       (decide (∃ i, i < k ∧ x.poison.getLsbD ((n + i) % 32) = true))) ∧
     (∀ i : Fin 8, n = i.val → x.q[i] = none → s.sources t [{ stream := true, reg := n, k := k }] x = .bound) ∧
     (∀ (i : Fin 8) (b : QBind), n = i.val → x.q[i] = some b →
       (b.chunks < b.pos + k → s.sources t [{ stream := true, reg := n, k := k }] x = .bound) ∧
       (b.pos + k ≤ b.chunks → (∃ j, 8 * b.pos ≤ j ∧ j < 8 * (b.pos + k) ∧ ¬ j ∈ b.arrived) →
         s.sources t [{ stream := true, reg := n, k := k }] x = .wait) ∧
       (b.pos + k ≤ b.chunks → (∀ j, 8 * b.pos ≤ j → j < 8 * (b.pos + k) → j ∈ b.arrived) → ∃ bad,
         s.sources t [{ stream := true, reg := n, k := k }] x =
           .ok ((List.range k).map (fun j => BitVec.ofNat 4096 (leNat (Mem.read (s.tile t).slice (b.base + 512 * (b.pos + j)) 512))))
             { x with q := x.q.set i (some { b with pos := b.pos + k }) } bad)) ∧
     (∀ (a b : Src) (us vs : List VReg) (y z : VecSt) (e f : Bool), s.sources t [a] x = .ok us y e → s.sources t [b] y = .ok vs z f →
       s.sources t [a, b] x = .ok (us ++ vs) z (f || e)))

/-- R26–R29, R153, R158, R161–R163: the element-wise arithmetic on a floating-point type: each active lane holds the
exact result rounded once, and the flags that the active lanes raise are ORed into YFFLAGS. The model's choices (log
entries): an infinity under SAT (61). -/
def Obligations.VectorFloatResults : Prop :=
  ∀ (s s1 : State) (p q : BitVec 3) (tok : Word) (d a b : Reg) (k : BitVec 3) (m : BitVec 2) (m1 : BitVec 1) (x : VecSt) (va vb : VReg)
      (rest : List VReg) (f : FpFmt), s.vecStarts s1 p q tok → x.predOk k → 6 ≤ x.ty → x.ty ≤ 8 → typeFp x.ty = some f →
    let fp (v : VReg) (j : Nat) : FpVal := f.read (lane x.w v j)
    let done (o : Host.Outcome State Fault Refusal) (g : Nat → Nat × FFlags) : Prop :=
      ∃ v, o = s1.vecDone q ((x.setV d.toNat v false).raise (x.flagsAre k (fun j => (g j).2))) 0 ∧
        x.lanesAre k (x.vr d.toNat) v x.w (fun j => (g j).1 % 2 ^ x.w)
    let once (v : FpVal) : Nat × FFlags := f.deliver x.mode x.sat v
    let pick (big : Bool) (u v : FpVal) : Nat × FFlags := ((once (fpPick big u v)).1, (once (fpPick big u v)).2 ||| (if u.isSig || v.isSig then fNV else 0))
    (∀ e ∈ ([(.vadd, false, fun u v _ => once (fpSum x.mode [u, v])), (.vsub, false, fun u v _ => once (fpSum x.mode [u, v.neg])),
        (.vmul, false, fun u v _ => once (u.mul v)), (.vfma, true, fun u v z => once (fpFma x.mode false u v z)),
        (.vfms, true, fun u v z => once (fpFma x.mode true u v z)), (.vmin, false, fun u v _ => pick false u v),
        (.vmax, false, fun u v _ => pick true u v)] :
        List ((BitVec 3 → BitVec 3 → Reg → Reg → Reg → BitVec 3 → BitVec 2 → Instr) × Bool × (FpVal → FpVal → FpVal → Nat × FFlags))),
      s1.sources s.cur ([srcA (m.getLsbD 0) a 1, srcA (m.getLsbD 1) b 1] ++ (if e.2.1 then [srcA false d 1] else [])) (s1.vec s.cur) =
        .ok (va :: vb :: rest) x false →
      done (exec (e.1 p q d a b k m) s) (fun j => e.2.2 (fp va j) (fp vb j) (fp (x.vr d.toNat) j))) ∧
    (s1.sources s.cur [srcA (m1.getLsbD 0) a 1] (s1.vec s.cur) = .ok [va] x false →
      done (exec (.vabs p q d a k m1) s) (fun j => (lane x.w va j % 2 ^ (x.w - 1), 0)) ∧
      done (exec (.vneg p q d a k m1) s) (fun j => (lane x.w va j ^^^ 2 ^ (x.w - 1), 0)))

/-- R153, R160, R164, R165, R178–R181: compare, select, moves, fills, indexes, predicates, transfers to and from
tokens, the pop of a stream register's last chunk and VCFG. The model's choices (log entries): poison marks of
registers (55). -/
def Obligations.VectorMoveResults : Prop :=
  ∀ (s s1 : State) (p q : BitVec 3) (tok : Word) (d a b : Reg) (k f : BitVec 3) (m : BitVec 2) (m1 : BitVec 1) (i : BitVec 15) (j8 : BitVec 8)
      (x : VecSt) (bad : Bool) (va vb : VReg), s.vecStarts s1 p q tok → x.ty ≤ 10 →
    let w := x.w
    let done (o : Host.Outcome State Fault Refusal) (bad : Bool) (fl : FFlags) (g : Nat → Nat) : Prop :=
      ∃ v, o = s1.vecDone q ((x.setV d.toNat v bad).raise fl) 0 ∧ x.lanesAre k (x.vr d.toNat) v w g
    let pred (o : Host.Outcome State Fault Refusal) (fl : FFlags) (g : Nat → Bool) : Prop :=
      ∃ v, o = s1.vecDone q ((x.setP (d.toNat % 8) v).raise fl) 0 ∧ ∀ j, j < 1024 → v.getLsbD j = g j
    exec (.vcfg p q j8) s = s1.vecDone q { s1.vec s.cur with vcfg := j8 } 0 ∧
    (s1.sources s.cur [srcA (m.getLsbD 0) a 1, srcA (m.getLsbD 1) b 1] (s1.vec s.cur) = .ok [va, vb] x bad →
      (bad = false → x.ty ≤ 5 → pred (exec (.vcmp p q d a b f m) s) 0 (fun j =>
        let u := typeInt x.ty (lane w va j)
        let v := typeInt x.ty (lane w vb j)
        decide (j < x.lanes) && (match f.toNat with
          | 0 => decide (u = v) | 1 => decide (u ≠ v) | 2 => decide (u < v) | 3 => decide (u ≤ v) | 4 => decide (v < u)
          | 5 => decide (v ≤ u) | 6 => false | _ => true))) ∧
      (∀ g, bad = false → 6 ≤ x.ty → x.ty ≤ 8 → typeFp x.ty = some g →
        let nv (j : Nat) : Bool :=
          let u := g.read (lane w va j)
          let v := g.read (lane w vb j)
          u.isSig || v.isSig || ((u.isNan || v.isNan) && decide (2 ≤ f.toNat ∧ f.toNat ≤ 5))
        pred (exec (.vcmp p q d a b f m) s) (if (List.range x.lanes).any nv then fNV else 0) (fun j =>
        let u := g.read (lane w va j)
        let v := g.read (lane w vb j)
        let less (u v : FpVal) : Bool := u.lt v && !u.eqv v
        decide (j < x.lanes) && (if u.isNan || v.isNan then f.toNat = 1 || f.toNat = 6 else match f.toNat with
          | 0 => u.eqv v | 1 => !u.eqv v | 2 => less u v | 3 => less u v || u.eqv v | 4 => !(less u v || u.eqv v)
          | 5 => !less u v | 6 => false | _ => true))) ∧
      (x.predOk k → ∃ v, exec (.vsel p q d a b k m) s = s1.vecDone q (x.setV d.toNat v bad) 0 ∧
        ∀ j, j < x.lanes → lane w v j = if x.on k j then lane w va j else lane w vb j)) ∧
    (s1.sources s.cur [srcA (m1.getLsbD 0) a 1] (s1.vec s.cur) = .ok [va] x bad → x.predOk k →
      done (exec (.vmov p q d a k m1) s) bad 0 (fun j => lane w va j) ∧
      (bad = false → exec (.vtos p q a k m1) s = s1.vecDone q x (match (List.range x.lanes).find? (fun j => x.on k j) with
        | some j => BitVec.ofNat 64 (lane w va j)
        | none => 0x8000000000000000))) ∧
    (∀ vs, s1.sources s.cur [srcA true a (b.toNat + 1)] (s1.vec s.cur) = .ok vs x bad → x.predOk k →
      done (exec (.vqpop p q d a b k) s) bad 0 (fun j => lane w (vs.getLastD 0) j)) ∧
    (s1.vec s.cur = x →
      (∃ v, exec (.vbci p q d i) s = s1.vecDone q (x.setV d.toNat v false) 0 ∧ ∀ j, j < x.lanes → lane w v j = match typeFp x.ty with
        | some g => (if g.w = 8 then i.toNat % 256 else i.toNat * 2 ^ (g.w - 15))
        | none => ((if x.sat then max (typeLo x.ty) (min (typeHi x.ty) i.toInt) else i.toInt) % 2 ^ w).toNat) ∧
      (x.predOk k → done (exec (.vfrs p q d k) s) false 0 (fun _ => tok.toNat % 2 ^ w)) ∧
      (x.predOk k → x.ty ≤ 5 → done (exec (.vidx p q d k) s) false 0 (fun j =>
        ((if x.sat then min (typeHi x.ty) (j : Int) else (j : Int)) % 2 ^ w).toNat)) ∧
      (∀ g, x.predOk k → typeFp x.ty = some g → done (exec (.vidx p q d k) s) false
        (x.flagsAre k (fun j => (g.deliver x.mode x.sat (fpOfInt j)).2)) (fun j => (g.deliver x.mode x.sat (fpOfInt j)).1 % 2 ^ w)) ∧
      (let pa := x.pr (a.toNat % 8)
       let pb := x.pr (b.toNat % 8)
       let ok : Prop := (a.toNat % 8 = 7 ∨ x.ppoison.getLsbD (a.toNat % 8) = false) ∧
         (f.toNat < 4 → b.toNat % 8 = 7 ∨ x.ppoison.getLsbD (b.toNat % 8) = false)
       (ok → f.toNat < 7 → pred (exec (.plog p q d a b f) s) 0 (fun j => match f.toNat with
         | 0 => pa.getLsbD j && pb.getLsbD j
         | 1 => pa.getLsbD j || pb.getLsbD j
         | 2 => pa.getLsbD j ^^ pb.getLsbD j
         | 3 => pa.getLsbD j && !pb.getLsbD j
         | 4 => !pa.getLsbD j
         | 5 => decide (j < 512) && pa.getLsbD (j / (w / 8))
         | _ => decide (j < x.lanes) && (pa.getLsbD j && (List.range j).all (fun n => !pa.getLsbD n)))) ∧
       (ok → exec (.pcnt p q a) s = s1.vecDone q x (BitVec.ofNat 64 ((List.range x.lanes).countP (fun j => pa.getLsbD j))))))

/-- R168, R169, R170–R172: a reduction leaves the sum, the greatest or the smallest of the active elements in element
0, a scan that of the elements up to each; permutation, interleaving and sliding move elements. The model's choices
(log entries): an infinity under SAT (61), poison marks (55), a quiet NaN beside both infinities (139). -/
def Obligations.VectorReduceResults : Prop :=
  ∀ (s s1 : State) (p q : BitVec 3) (tok : Word) (d a b f : Reg) (k : BitVec 3) (m : BitVec 2) (m1 : BitVec 1) (x : VecSt) (bad : Bool)
      (va vb : VReg), s.vecStarts s1 p q tok → x.ty ≤ 10 → x.predOk k →
    let w := x.w
    let done (o : Host.Outcome State Fault Refusal) (bad : Bool) (fl : FFlags) (g : Nat → Nat) : Prop :=
      ∃ v, o = s1.vecDone q ((x.setV d.toNat v bad).raise fl) 0 ∧ x.lanesAre k (x.vr d.toNat) v w g
    let act (n : Nat) : List Nat := ((List.range n).filter (fun j => x.on k j)).map (lane w va)
    (s1.sources s.cur [srcA (m1.getLsbD 0) a 1] (s1.vec s.cur) = .ok [va] x false → f.toNat < 3 →
      (x.ty ≤ 5 → ∀ red : Nat → Int,
        (∀ n, (f.toNat = 0 → red n = ((act n).map (typeInt x.ty)).sum) ∧
          (f.toNat = 1 → if act n = [] then red n = typeLo x.ty else
            red n ∈ (act n).map (typeInt x.ty) ∧ ∀ y ∈ (act n).map (typeInt x.ty), y ≤ red n) ∧
          (f.toNat = 2 → if act n = [] then red n = typeHi x.ty else
            red n ∈ (act n).map (typeInt x.ty) ∧ ∀ y ∈ (act n).map (typeInt x.ty), red n ≤ y)) →
        let fit (n : Int) : Nat := ((if x.sat then max (typeLo x.ty) (min (typeHi x.ty) n) else n) % 2 ^ w).toNat
        exec (.vred p q d a f k m1) s = s1.vecDone q (x.setV d.toNat (BitVec.ofNat 4096 (fit (red x.lanes))) false) 0 ∧
        done (exec (.vscan p q d a f k m1) s) false 0 (fun j => fit (red (j + 1)))) ∧
      (∀ g, 6 ≤ x.ty → x.ty ≤ 8 → typeFp x.ty = some g →
        let red (n : Nat) : Nat × FFlags :=
          if act n = [] then (if f.toNat = 0 then (0, 0) else (g.sign (f.toNat = 1) + g.infPat, 0))
          else if f.toNat = 0 then g.deliver x.mode x.sat (fpSum x.mode ((act n).map g.read))
          else let r := g.deliver x.mode x.sat (((act n).map g.read).foldl (fpPick (f.toNat = 1)) (.nan false))
            (r.1, r.2 ||| (if ((act n).map g.read).any FpVal.isSig then fNV else 0))
        exec (.vred p q d a f k m1) s =
          s1.vecDone q ((x.setV d.toNat (BitVec.ofNat 4096 (red x.lanes).1) false).raise (red x.lanes).2) 0 ∧
        done (exec (.vscan p q d a f k m1) s) false (x.flagsAre k (fun j => (red (j + 1)).2)) (fun j => (red (j + 1)).1 % 2 ^ w))) ∧
    (s1.sources s.cur [srcA (m.getLsbD 0) a 1, srcA (m.getLsbD 1) b 1] (s1.vec s.cur) = .ok [va, vb] x bad →
      done (exec (.vperm p q d a b k m) s) bad 0 (fun j =>
        let i := lane w vb j
        if w = 8 then lane w va (256 * (j / 256) + i) else if i < x.lanes then lane w va i else 0) ∧
      done (exec (.vslide p q d a b k m) s) bad 0 (fun j =>
        let i : Int := (j : Int) + intSigned w (lane w vb 0)
        if 0 ≤ i ∧ i < x.lanes then lane w va i.toNat else 0) ∧
      (∀ e ∈ ([(.vzip, fun i => lane w (if i % 2 = 0 then va else vb) (i / 2)),
          (.vunzip, fun i => let n := 2 * (i % x.lanes) + i / x.lanes; lane w (if n < x.lanes then va else vb) (n % x.lanes))] :
          List ((BitVec 3 → BitVec 3 → Reg → Reg → Reg → BitVec 3 → BitVec 2 → Instr) × (Nat → Nat))), d.toNat < 31 →
        ∃ lo hi, exec (e.1 p q d a b k m) s = s1.vecDone q ((x.setV d.toNat lo bad).setV (d.toNat + 1) hi bad) 0 ∧
          x.lanesAre k (x.vr d.toNat) lo w e.2 ∧ x.lanesAre k (x.vr (d.toNat + 1)) hi w (fun j => e.2 (x.lanes + j))))

/-- R166, R167, R173–R177: the special functions (a lane whose rounding the model's enclosure does not settle holds a
free value), the conversions with their register groups, the widening and narrowing arithmetic, MX quantisation and
its inverse. The model's choices (log entries): the enclosure of a special function (60), a tiny element of a quantised
block (134), integer types of one width (135). -/
def Obligations.VectorConvertResults : Prop :=
  ∀ (s s1 : State) (p q : BitVec 3) (tok : Word) (d a b f : Reg) (k : BitVec 3) (m : BitVec 2) (m1 : BitVec 1) (x : VecSt) (vs : List VReg),
    s.vecStarts s1 p q tok → x.ty ≤ 10 → x.predOk k →
    let w := x.w
    let v (n : Nat) : VReg := vs.getD n 0
    let src (l : List Src) : Prop := s1.sources s.cur l (s1.vec s.cur) = .ok vs x false
    let pair (wd : Nat) (y : VecSt) (g : Nat → Nat) : Prop :=
      ∃ lo hi, y = (x.setV d.toNat lo false).setV (d.toNat + 1) hi false ∧ x.fflags = y.fflags ∧
        ∀ j, j < 4096 / wd → ∀ h, h < 2 → lane wd (if h = 0 then lo else hi) j =
          if x.on k (2 * j + h) then g (2 * j + h) else if x.zero then 0 else lane wd (x.vr (d.toNat + h)) j
    (∀ g, 6 ≤ x.ty → x.ty ≤ 8 → typeFp x.ty = some g → src [srcA (m1.getLsbD 0) a 1] →
      let sfu (j : Nat) := g.sfu (Sfu.ofCode f.toNat) x.mode x.sat (g.read (lane w (v 0) j))
      ∃ t r fl, s1.vecDone q ((x.setV d.toNat r false).raise fl) 0 = .next t ∧
        exec (.vsfu p q d a f k m1) s = .next { t with freeCount := s.freeCount + 256 } ∧
        (∀ j, j < x.lanes → x.on k j = true → ∀ y, sfu j = some y → lane w r j = y.1 % 2 ^ w) ∧
        (∀ j, j < x.lanes → x.on k j = false → lane w r j = if x.zero then 0 else lane w (x.vr d.toNat) j) ∧
        ((∀ j, j < x.lanes → x.on k j = true → (sfu j).isSome) → fl = x.flagsAre k (fun j => ((sfu j).getD (0, 0)).2))) ∧
    (let n := vcvtK f.toNat x.ty
     let one (pat : Nat) : Nat × FFlags := convert f.toNat x.ty x.mode x.sat pat
     (n = 0 ∨ d.toNat % n ≠ 0 ∨ (m1 = 0 ∧ a.toNat % n ≠ 0) → exec (.vcvt p q d a f k m1) s = .next (s1.trapSeq .m .bound 0 none)) ∧
     (n ≠ 0 → d.toNat % n = 0 → (m1 = 1 ∨ a.toNat % n = 0) →
      (convW f.toNat ≤ w → src [srcA (m1.getLsbD 0) a 1] → ∃ y, exec (.vcvt p q d a f k m1) s = s1.vecDone q y 0 ∧
        y = { x with v := y.v, poison := y.poison, fflags := y.fflags, fresh := y.fresh } ∧
        (∀ r, r < 32 → (r < d.toNat ∨ d.toNat + n ≤ r) → y.vr r = x.vr r) ∧
        ∀ h j, h < n → j < x.lanes → lane w (y.vr (d.toNat + h)) j =
          let i := n * j + h
          if typeW f.toNat = 6 ∧ 680 ≤ i then 0
          else if x.on k i then (one (if typeW f.toNat = 6 then (v 0).toNat / 2 ^ (24 * (i / 4) + 6 * (i % 4)) % 64
            else lane (typeW f.toNat) (v 0) i)).1 % 2 ^ w
          else if x.zero then 0 else lane w (x.vr (d.toNat + h)) j) ∧
      (w < convW f.toNat → src [srcA (m1.getLsbD 0) a n] → ∃ r fl,
        exec (.vcvt p q d a f k m1) s = s1.vecDone q ((x.setV d.toNat r false).raise fl) 0 ∧
        x.lanesAre k (x.vr d.toNat) r w (fun j => (one (lane (typeW f.toNat) (v (j % n)) (j / n))).1 % 2 ^ w)))) ∧
    (x.ty ≤ 3 → src [srcA (m.getLsbD 0) a 1, srcA (m.getLsbD 1) b 1] → d.toNat < 31 →
      let int (n j : Nat) : Int := typeInt x.ty (lane w (v n) j)
      (∃ y, exec (.vwmul p q d a b k m) s = s1.vecDone q y 0 ∧ pair (2 * w) y (fun i => (int 0 i * int 1 i % 2 ^ (2 * w)).toNat)) ∧
      ∃ y, exec (.vwadd p q d a b k m) s = s1.vecDone q y 0 ∧ pair (2 * w) y (fun i => ((int 0 i + int 1 i) % 2 ^ (2 * w)).toNat)) ∧
    (∀ g, (x.ty = 6 ∨ x.ty = 7) → typeFp x.ty = some g → src [srcA (m.getLsbD 0) a 1, srcA (m.getLsbD 1) b 1] → d.toNat < 31 →
      let fp (n j : Nat) : FpVal := g.read (lane w (v n) j)
      ∀ e ∈ ([(.vwmul, fun u z => u.mul z), (.vwadd, fun u z => fpSum x.mode [u, z])] :
          List ((BitVec 3 → BitVec 3 → Reg → Reg → Reg → BitVec 3 → BitVec 2 → Instr) × (FpVal → FpVal → FpVal))),
        ∃ y fl, exec (e.1 p q d a b k m) s = s1.vecDone q (y.raise fl) 0 ∧
          pair 32 y (fun i => (fp32.deliver x.mode x.sat (e.2 (fp 0 i) (fp 1 i))).1 % 2 ^ 32)) ∧
    (x.ty ≤ 3 → src [srcA (m.getLsbD 0) a 2, srcA (m.getLsbD 1) b 1] → ∃ r,
      exec (.vnarr p q d a b k m) s = s1.vecDone q (x.setV d.toNat r false) 0 ∧
      x.lanesAre k (x.vr d.toNat) r w (fun j =>
        let c := min (lane w (v 2) j) (2 * w)
        let n := shiftRound x.mode (typeInt (x.ty + 2) (lane (2 * w) (v (j % 2)) (j / 2))) c
        ((if x.sat then max (typeLo x.ty) (min (typeHi x.ty) n) else n) % 2 ^ w).toNat)) ∧
    (∀ g, (x.ty = 6 ∨ x.ty = 7) → typeFp x.ty = some g →
      (src [srcA (m1.getLsbD 0) a 4] →
        let blk (n : Nat) := mxQuant x.mode ((List.range 32).map (fun j =>
          let i := 32 * n + j
          if x.on k (i % 256) then g.read (lane 16 (v (i / 256)) (i % 256)) else .fin false 0 0))
        ∃ r sc fl, exec (.vmxq p q d a b k m1) s = s1.vecDone q (((x.setV b.toNat sc false).setV d.toNat r false).raise fl) 0 ∧
          ∀ n, n < 32 → lane 8 sc n = (blk n).1 % 256 ∧ ∀ j, j < 32 → lane 4 r (32 * n + j) = (blk n).2.1.getD j 0 % 16) ∧
      (src [srcA (m.getLsbD 0) a 1, srcA (m.getLsbD 1) b 1] → d.toNat < 29 → ∃ y, exec (.vmxd p q d a b k m) s = s1.vecDone q y 0 ∧
        y = { x with v := y.v, poison := y.poison, fflags := y.fflags, fresh := y.fresh } ∧
        (∀ r, r < 32 → (r < d.toNat ∨ d.toNat + 4 ≤ r) → y.vr r = x.vr r) ∧
        ∀ h, h < 4 → x.lanesAre k (x.vr (d.toNat + h)) (y.vr (d.toNat + h)) 16 (fun j =>
          let i := 256 * h + j
          (g.deliver x.mode x.sat ((e2m1.read (lane 4 (v 0) i)).scale (e8m0 (lane 8 (v 1) (i / 32))))).1 % 2 ^ 16)))

/-! ## The matrix engine -/

/-- R186, R187, R192, R202, R204: the configuration micro-orders each write one register of the matrix engine or one mask, epilogue or
vector register, and nothing else; MMODE also frees the A slots. -/
def Obligations.MatrixConfigResults : Prop :=
  ∀ (s s1 : State) (p q : BitVec 3) (tok : Word) (d a b : Reg) (i : BitVec 15) (m1 : BitVec 1) (v : VReg) (bad : Bool) (x : VecSt),
    s.vecStarts s1 p q tok → s.rachisOwns = false →
    let y := s1.vec s.cur
    let z := s1.mat s.cur
    let sets (f : MatSt → MatSt) : Host.Outcome State Fault Refusal :=
      .next (s1.modLogic s.cur (fun g => { g.past .m 1 q 0 with mat := f g.mat }))
    let setK (k : Reg) (w : PReg) : Host.Outcome State Fault Refusal := s1.vecDone q { y with k := y.k.set (Fin.ofNat 4 k.toNat) w } 0
    let k4 (r : Reg) : PReg := y.k[Fin.ofNat 4 r.toNat]
    let zNum (r c : Nat) : Nat := Mem.num z.z[Fin.ofNat 4 a.toNat] (512 * r + 4 * c) 4
    let free : Vector SlotSt 2 := Vector.replicate 2 .free
    let ptr : Fin 2 := Fin.ofNat 2 (i.toNat / 64 % 2)
    exec (.mcfg p q 0 i) s = sets (fun u => { u with mmode := i, slotSt := free, slotPtr := ptr }) ∧
    exec (.mcfg p q 1 i) s = sets (fun u => { u with mkoff := i.extractLsb' 0 10 }) ∧
    exec (.mcfg p q 2 i) s = sets (fun u => { u with mtau := i }) ∧
    exec (.mcfg p q 3 i) s = sets (fun u => { u with mkcnt := i.extractLsb' 0 7 }) ∧
    exec (.mcfg p q 4 i) s = sets (fun u => { u with mvbase := i.extractLsb' 0 5 }) ∧
    exec (.wsel p q i) s = sets (fun u => { u with wptr := 64 * i.toNat }) ∧
    (tok.toNat < 2 ^ 21 → tok.toNat % 64 = 0 → exec (.wselTok p q) s = sets (fun u => { u with wptr := tok.toNat })) ∧
    (2 ^ 21 ≤ tok.toNat ∨ tok.toNat % 64 ≠ 0 → exec (.wselTok p q) s = .next (s1.trapSeq .m .bound 0 none)) ∧
    exec (.mnop p q) s = sets id ∧
    (s1.sources s.cur [srcA (m1.getLsbD 0) a 1] y = .ok [v] x bad → exec (.epset p q d a m1) s =
      s1.vecDone q { x with e := x.e.set (Fin.ofNat 4 d.toNat) v, epoison := setMark x.epoison (d.toNat % 4) bad } 0) ∧
    exec (.kmaskKclr p q d) s = setK d 0 ∧ exec (.kmaskKor p q d a) s = setK d (k4 d ||| k4 a) ∧
    ((a.toNat % 8 = 7 ∨ y.ppoison.getLsbD (a.toNat % 8) = false) → exec (.kmaskKfromp p q d a) s = setK d (y.pr (a.toNat % 8))) ∧
    exec (.kmaskKtop p q d a) s = s1.vecDone q (y.setP (d.toNat % 8) (k4 a)) 0 ∧
    (let lo := tok.toNat % 1024
     let hi := tok.toNat / 65536 % 1024
     (tok.toNat / 1024 % 64 = 0 → tok.toNat / 2 ^ 26 = 0 → ∃ w, exec (.kmaskKrange p q d) s = setK d w ∧
       ∀ j, j < 1024 → w.getLsbD j = ((k4 d).getLsbD j || decide (lo ≤ j ∧ j ≤ hi)))) ∧
    (y.poison.getLsbD d.toNat = false → ∃ r fl, exec (.kmaskKmax p q d a) s =
        s1.vecDone q ((y.setV d.toNat r (decide (z.zPoison[Fin.ofNat 4 a.toNat] ≠ []))).raise fl) 0 ∧
      ∀ j, j < 128 → lane 32 r j = (fp32.deliver 0 false
        ((fp32.read (lane 32 (y.vr d.toNat) j) :: (List.range (z.mkcnt.toNat + 1)).map (fun c => fp32.read (zNum j c))).foldl
          (fpPick true) (.nan false))).1 % 2 ^ 32) ∧
    (y.poison.getLsbD b.toNat = false → ∃ w, exec (.kmaskKkeep p q d a b) s = setK d w ∧
      let first := 128 * (z.mkoff.toNat / 128)
      ∀ j, j < 1024 → w.getLsbD j =
        if first ≤ j ∧ j < first + z.mkcnt.toNat + 1 then
          (List.range 128).any (fun r => votes z.mtau.toNat (fp32.read (zNum r (j - first))) (fp32.read (lane 32 (y.vr b.toNat) r)))
        else (k4 d).getLsbD j)

/-- R188, R190, R194, R197, R201, R203, R206: the engine takes an MMA, a SCOUT, an MZERO or an MDRAIN whose operands
are in range, in M's list, with what it reads of the configuration; one out of range raises BOUND. The model's choices
(log entries): the slot pointer at the end of an operation (62). -/
def Obligations.MatrixAcceptResults : Prop :=
  ∀ (s s1 : State) (p q : BitVec 3) (tok : Word) (z k : BitVec 2) (u : BitVec 1) (n : BitVec 3) (g : BitVec 12) (d a b : Reg),
    s.vecStarts s1 p q tok → s.rachisOwns = false →
    let x := s1.mat s.cur
    let y := s1.vec s.cur
    let c := y.n[n.toFin]
    let rows := c.toNat / 65536 % 1024
    let cols := c.toNat % 1024
    let groups := g.toNat + 1
    let takes (act : MAct) (o : Host.Outcome State Fault Refusal) : Prop :=
      o = .next (s1.modLogic s.cur (fun g => { g with m := {
        seq := { g.m.seq with run := g.m.seq.run.map (fun r => { r with issued := 1 }), started := none, wait := .none, stall := 0 },
        list := [{ act := act, done := false, push := pushQueue .m q, tok := 0, run := g.m.seq.run }] } }))
    let bound (o : Host.Outcome State Fault Refusal) : Prop := o = .next (s1.trapSeq .m .bound 0 none)
    let segs : Nat := (groups + segGroups x.shape x.afmt - 1) / segGroups x.shape x.afmt
    let like (o : MatOp) : Prop := o.shape = x.shape ∧ o.afmt = x.afmt ∧ o.bsrc = x.bsrc ∧ o.akeep = x.mmode.getLsbD 7 ∧ o.vr = rows ∧
      o.vc = cols ∧ o.groups = groups ∧ o.wptr = x.wptr ∧ o.soff = x.wptr ∧ o.z = z.toNat ∧ o.g = 0 ∧ o.koff = x.mkoff.toNat
    (let ok : Prop := (x.shape = 0 ∨ z = 0) ∧ rows ≤ shapeRows x.shape ∧ cols ≤ shapeCols x.shape ∧
        ((x.afmt, x.bsrc) ∈ [(0, 0), (1, 0), (5, 0), (3, 0), (2, 1), (4, 2)]) ∧ (x.mmode.getLsbD 7 = true → segs ≤ 2) ∧
        (u = 1 → x.mmode.getLsbD 5 = true → groups % 2 = 0)
     (ok → ∃ o, takes (.mma o) (exec (.mma p q z k u n g) s) ∧ like o ∧ o.kuse = decide (u = 1) ∧ o.mask = y.k[k.toFin] ∧
       o.munit = x.mmode.getLsbD 5) ∧
     (¬ ok → bound (exec (.mma p q z k u n g) s))) ∧
    (let ok : Prop := x.shape ≤ 1 ∧ x.afmt = 5 ∧ x.bsrc = 0 ∧ rows ≤ 128 ∧ cols ≤ shapeCols x.shape ∧ (x.mmode.getLsbD 7 = true → segs ≤ 2) ∧
        x.mkoff.toNat % 128 + (cols + 63) / 64 ≤ 128
     (ok → ∃ o, takes (.scout o) (exec (.scout p q z n g) s) ∧ like o) ∧ (¬ ok → bound (exec (.scout p q z n g) s))) ∧
    (rows ≤ 128 ∧ cols ≤ 128 → takes (.mzero z.toNat rows cols) (exec (.mzero p q z n) s)) ∧
    (128 < rows ∨ 128 < cols → bound (exec (.mzero p q z n) s)) ∧
    (let blk := epOf y.e[Fin.ofNat 4 b.toNat]
     let total := drainChunks (decide (b = 16)) blk.outfmt rows
     let inRange : Prop := rows ≤ 128 ∧ cols ≤ 128 ∧ (d = 1 → total ≤ 32)
     let epi : Prop := if b = 16 then d.toNat < 2 else s1.epOk blk rows = true ∧ (2 ≤ d.toNat → blk.outfmt = 7 ∨ blk.outfmt = 8)
     let clean : Prop := b = 16 ∨ y.epoison.getLsbD (b.toNat % 4) = false
     (inRange → clean → epi → 0 < rows → ∃ r, takes (.drain r) (exec (.mdrain p q d a b n) s) ∧ r.dest = d.toNat ∧ r.z = a.toNat % 4 ∧
       r.raw = decide (b = 16) ∧ r.vr = rows ∧ r.vc = cols ∧ r.total = total ∧ r.sent = 0 ∧ r.block = some y.e[Fin.ofNat 4 b.toNat]) ∧
     (¬ inRange → bound (exec (.mdrain p q d a b n) s)) ∧
     (inRange → ¬ clean → exec (.mdrain p q d a b n) s = .next (s1.trapSeq .m .ecc 0 none)) ∧
     (inRange → clean → ¬ epi → bound (exec (.mdrain p q d a b n) s)))

/-- R38–R40, R185, R190, R194, R197, R199–R201, R82: the engine's steps: a group of an MMA adds its products to each
element of the operation's rows and columns and to no other; an MZERO clears them; the slots part of an MCFG that waited for earlier
operations is done (R187); a drain's next chunk goes where the
drain says; a push that waited is made. The model's choices (log entries): the engine by groups and chunks (65), the
slot pointer (62), SCOUT with VR 0 (63), z under SCOUT (136), a ZLD that races (148). -/
def Obligations.MatrixEngineResults : Prop :=
  ∀ (s : State) (e : MEntry), (s.tile s.cur).runs = true → (s.logic s.cur).m.list = [e] → e.done = false → s.ev.k = 0 →
    (∀ i : Fin 4, Memory.wf (s.mat s.cur).z[i] = true) →
    let x := s.mat s.cur
    let num (y : MatSt) (i : Fin 4) (r c : Nat) : Nat := Mem.num y.z[i] (512 * r + 4 * c) 4
    (∀ o vals next, e.act = .mma o → o.cols x.wbuf = ⟨vals, next, none⟩ → (o.taken = true ∨ x.slotSt[x.slotPtr] = .ready) →
      o.late = [] → o.kuse = false → x.groupBad o next = false → x.accBad o = false → o.shape < 4 →
      ∃ t, exec .matrixOperationFinish s = .next t ∧ sameBytes s t ∧ (t.vec s.cur) = s.vec s.cur ∧
        ∀ (i : Fin 4) (r c : Nat), r < 128 → c < 128 →
          let at_ := if o.shape = 0 then (0, 0) else subOrigin o.shape i.val
          num (t.mat s.cur) i r c =
            if (o.shape = 0 → i.val = o.z) ∧ at_.1 + r < o.vr ∧ at_.2 + c < o.vc ∧ at_.2 + c < vals.length then
              accStep (decide (o.afmt = 2)) (decide (o.afmt = 3 ∨ o.afmt = 4)) (num x i r c)
                (o.aRow x.aslot[x.slotPtr] (at_.1 + r) (o.g % segGroups o.shape o.afmt)) (vals.getD (at_.2 + c) []) % 2 ^ 32
            else num x i r c) ∧
    (∀ ptr, e.act = .slots ptr → ∃ t, exec .matrixOperationFinish s = .next t ∧ sameBytes s t ∧ (t.vec s.cur) = s.vec s.cur ∧
      t.mat s.cur = { x with slotSt := Vector.replicate 2 .free, slotPtr := ptr }) ∧
    (∀ z : Fin 4, ∀ vr vc, e.act = .mzero z.val vr vc → vr ≤ 128 → vc ≤ 128 → ∃ t, exec .matrixOperationFinish s = .next t ∧ sameBytes s t ∧
      (t.vec s.cur) = s.vec s.cur ∧ ∀ (i : Fin 4) (r c : Nat), r < 128 → c < 128 →
        num (t.mat s.cur) i r c = if i = z ∧ r < vr ∧ c < vc then 0 else num x i r c) ∧
    (∀ d, e.act = .drain d → d.sent < d.total → s.epPoison s.cur d (epOf (d.block.getD 0)) = false →
      let ch := nextChunk d (epOf (d.block.getD 0)) (fun ptr n => Mem.num (s.tile s.cur).slice (sliceOff ptr) n)
        (fun i => (Config.freeWord (s.freeCount + i)).toNat % 2 ^ 32) (vGet x.z d.z)
      let gone (t : State) : Prop := sameBytes s t ∧ (t.mat s.cur).z = x.z ∧
        ((t.logic s.cur).m.list = [] ∨ ∃ e' d', (t.logic s.cur).m.list = [e'] ∧ e'.act = .drain d' ∧ d'.sent = d.sent + 1)
      (d.raw = true → ch.1 = BitVec.ofNat 4096 (leNat (Mem.read (vGet x.z d.z) (512 * d.sent) 512))) ∧
      (d.dest = 0 → x.sbuf.length < 64 → (s.logic s.cur).s.inflight = [] → ∃ t, exec .mdrainChunk s = .next t ∧ gone t ∧
        (t.mat s.cur).sbuf = x.sbuf ++ [ch.1] ∧ (t.vec s.cur).v = (s.vec s.cur).v) ∧
      (d.dest = 1 → ∃ t, exec .mdrainChunk s = .next t ∧ gone t ∧ (t.mat s.cur).sbuf = x.sbuf ∧
        (t.vec s.cur).v = (s.vec s.cur).v.set (Fin.ofNat 32 (d.vbase + d.sent)) ch.1) ∧
      (∀ i : Fin 8, d.dest = i.val + 2 → ((s.tile s.cur).egress[i]).length < 64 → (s.encs[i]).frames = [] →
        ∃ t c, exec .mdrainChunk s = .next t ∧ gone t ∧ (t.vec s.cur).v = (s.vec s.cur).v ∧
          (t.tile s.cur).egress = (s.tile s.cur).egress.set i ((s.tile s.cur).egress[i] ++ [c]) ∧ c.data = ch.1 ∧ c.vr = d.vr ∧
          c.last = decide (d.sent + 1 = d.total))) ∧
    (∀ (s : State) (u : Sq) (f : Inflight) (k : Fin 12), s.curSq = u → u = .l ∨ u = .s → (s.tile s.cur).runs = true →
      (s.seq s.cur u).stop = none → (s.ls s.cur (isS u)).inflight = [f] → f.data = .none → f.blks = [] → f.push = some k →
      ((s.toks s.cur k).length < 255 → ∃ t, exec .deferredPush s = .next t ∧ t.toks s.cur k = s.toks s.cur k ++ [f.tok] ∧
        (t.ls s.cur (isS u)).inflight = [] ∧ (∀ j, j ≠ k → t.toks s.cur j = s.toks s.cur j) ∧ sameBytes s t) ∧
      (255 ≤ (s.toks s.cur k).length → ∃ t, exec .deferredPush s = .next t ∧ (∀ j, t.toks s.cur j = s.toks s.cur j) ∧
        (t.ls s.cur (isS u)).inflight = [f] ∧ sameBytes s t))

/-! ## The copy engine and the KV unit -/

/-- R210, R217–R226, R231, R233, R241: an instruction that posts a command takes the next entry of the copy queue with
its operands and answers the command's number; with a full queue it waits for an entry with what it read, or answers all ones under nowait. R213, R224:
XGEN sets the generation and answers the old one; XWAITC goes on when its command has completed; XQSTAT answers the
generation, the command's state and the free entries. A number that no command has had yet raises BOUND. The model's
choices (log entries): which events the life of a command has (66). -/
def Obligations.CopyInstructionResults : Prop :=
  (∀ (s : State) (d a b : Reg) (sc : BitVec 3) (o : BitVec 2) (n : BitVec 1) (blk : List Byte), s.free [d, a, b] → (s.c s.cur).ops = [] →
     let x := s.copy s.cur
     let w := s.sr s.cur d
     let p := s.sr s.cur a
     let r := s.sr s.cur b
     let num (at_ k : Nat) : Nat := leNat ((blk.drop at_).take k)
     let wd (at_ : Nat) : Word := BitVec.ofNat 64 (num at_ 8)
     let sync (w : Word) (fill : Prop) : Prop := w.toNat / 2 ^ 24 % 4 ≠ 3 ∧ (w.getLsbD 44 = true → acquires o = true) ∧
       (w.getLsbD 63 = true → releases o = true) ∧ (w.getLsbD 23 = true → fill)
     let full (out : Host.Outcome State Fault Refusal) (func : BitVec 5) (w src dst : Word) (blk : List Byte) : Prop :=
       32 ≤ (s.logic s.cur).copyUsed →
       (n = 1 → ∃ t, out = .next t ∧ returns s t d (BitVec.allOnes 64)) ∧
       (n = 0 → ∃ e : PendingCmd, out = .next (s.modC s.cur (fun c => { c with wait := .entry e, stall := 0 })) ∧ e.d = d ∧ e.ord = o ∧
         e.scope = sc ∧ e.func = func ∧ e.sync = w ∧ e.src = src ∧ e.dst = dst ∧ e.block = blk)
     let enters (s0 : State) (out : Host.Outcome State Fault Refusal) (func : BitVec 5) (w src dst : Word) (blk : List Byte) : Prop :=
       (s.logic s.cur).copyUsed < 32 → ∃ t c, out = .next t ∧
         goesTo (({ s0 with cmdNo := s.cmdNo + 1 } : State).modCopy s.cur (fun y => { y with q := y.q ++ [c], counter := y.counter + 1 })) t d
           (BitVec.ofNat 64 (x.counter + 1)) ((s.c s.cur).pc + 4) ∧
         c.seq = x.counter + 1 ∧ c.gen = x.gen ∧ c.func = func ∧ c.ord = o ∧ c.scope = sc ∧ c.sync = w ∧ c.src = src ∧ c.dst = dst ∧
         c.block = blk ∧ c.st = .waiting ∧ c.elem = 0 ∧ c.seg = 0 ∧ c.discarded = false
     let posts (s0 : State) (out : Host.Outcome State Fault Refusal) (func : BitVec 5) (w src dst : Word) (blk : List Byte)
         (reqs : List PtrReq) (mis : Bool) : Prop :=
       (s.reqFail s.cur w reqs mis = none → enters s0 out func w src dst blk ∧ full out func w src dst blk) ∧
       (∀ f, s.reqFail s.cur w reqs mis = some f → out = .next (s.failC f))
     let len := w.toNat % 2 ^ 23
     let grains (out : Host.Outcome State Fault Refusal) (func : BitVec 5) : Prop := len ≠ 0 →
       posts s out func w p 0 [] [⟨p, 65536 * len, fun c => c = 4, 65536, false⟩] false
     (s.clean [d, a, b] →
       (sync w (spaceOf r ≤ 2) → posts s (exec (.xcopy d a b sc o n) s) 0 w p r []
         [⟨p, len, vectorSpaces, 1, false⟩, ⟨r, len, fun c => vectorSpaces c || c = 2, 1, true⟩] false) ∧
       (¬ sync w (spaceOf r ≤ 2) → exec (.xcopy d a b sc o n) s = .next (s.trapC .bound 0 none)) ∧
       (sync w False → grains (exec (.xpref d a sc o n) s) 4 ∧ grains (exec (.xpin d a sc o n) s) 6 ∧ grains (exec (.xunpin d a sc o n) s) 7) ∧
       (∀ y, sync w False → w.toNat / 2 ^ 16 % 2 ^ 7 = 0 → (s.part (s.partOf s.cur)).layers[w.toNat / 2 ^ 12 % 16]? = some y →
         w.toNat % 2 ^ 12 < y.layers → posts s (exec (.xlayer d sc o n) s) 5 w 0 0 [] [] false)) ∧
     (s.clean [a] → s.blockAt p 64 blk → blk.length = 64 →
       let all := num 32 4 * (num 0 8 % 2 ^ 23)
       let e := num 0 8 % 2 ^ 23
       let list : PtrReq := ⟨wd 24, 4 * num 32 4, localSpace, 4, false⟩
       let inRange : Prop := e % 64 = 0 ∧ e ≠ 0 ∧ num 32 4 ≠ 0 ∧ num 32 4 ≤ 65536 ∧ num 36 4 = 0 ∧ num 48 16 = 0 ∧ sync (wd 0) (spaceOf (wd 16) ≤ 2)
       (inRange → posts s (exec (.xgath d a sc o n) s) 1 (wd 0) (wd 8) (wd 16) blk
           [⟨wd 8, e, vectorSpaces, 64, false⟩, ⟨wd 16, all, vectorSpaces, 64, true⟩, list] (decide (num 40 8 % 64 ≠ 0)) ∧
         posts s (exec (.xscat d a sc o n) s) 2 (wd 0) (wd 8) (wd 16) blk
           [⟨wd 8, all, vectorSpaces, 64, false⟩, ⟨wd 16, e, vectorSpaces, 64, true⟩, list] (decide (num 40 8 % 64 ≠ 0))) ∧
       (¬ inRange → exec (.xgath d a sc o n) s = .next (s.trapC .bound 0 none) ∧
         exec (.xscat d a sc o n) s = .next (s.trapC .bound 0 none)) ∧
       (∀ rank, let l := (s.part (s.partOf s.cur)).group (num 28 2)
         let op := num 0 8 % 16
         let count := num 24 4
         let size := typeW (num 0 8 / 64 % 16) / 8
         let reads := if op = 4 then 0 else count
         let writes := if op = 1 then count / l.length else if op = 2 then count * l.length else reads
         s.rankOf l s.cur = some rank → op ≤ 4 → num 0 8 / 16 % 4 < 3 → (num 0 8 / 64 % 16 ∈ [4, 7, 8]) → num 0 8 / 2 ^ 10 % 2 ^ 13 = 0 →
         (count ≠ 0 ∨ op = 4) → num 28 2 < 256 → num 32 32 = 0 → (op = 1 → count % l.length = 0) → (op = 3 → num 30 2 < l.length) →
         sync (wd 0) False → posts (s.joinColl s.cur (num 28 2) rank) (exec (.xcoll d a sc o n) s) 3 (wd 0) (wd 8) (wd 16) blk
           [⟨wd 8, reads * size, vectorSpaces, 4, false⟩, ⟨wd 16, writes * size, vectorSpaces, 4, true⟩] false) ∧
       (num 0 8 / 2 ^ 18 % 32 = 0 → num 0 8 / 64 % 8 + num 0 8 / 512 % 8 ≤ 4 → (num 0 8 / 2 ^ 13 % 32 < 24 ∨ num 0 8 / 2 ^ 13 % 32 = 31) →
         num 8 2 % 2 = 0 → 16 ≤ num 8 2 → num 8 2 ≤ 4096 → num 10 2 % 2 = 0 → 16 ≤ num 10 2 → num 10 2 ≤ 2304 →
         (num 0 8 / 32 % 2 = 0 → num 12 4 ≤ 255) → 4096 ≤ num 24 4 → num 30 2 ≠ 0 → num 30 2 ≤ 240 → num 36 4 = 0 → wd 40 ≠ 0 →
         wd 40 &&& ~~~(s.part (s.partOf s.cur)).tiles = 0 → sync (wd 0) False →
         let recon := num 8 2 * num 10 2 * 3 / 2 * (if num 0 8 / 8 % 2 = 1 then 2 else 1)
         posts s (exec (.egsub d a sc o n) s) 11 (wd 0) 0 (wd 16) blk (⟨wd 16, num 24 4, fun c => c = 4, 64, true⟩ ::
           ((if num 0 8 / 16 % 2 = 1 then [] else [⟨wd 48, recon, fun c => c = 4, 1, false⟩]) ++ [⟨wd 56, recon, fun c => c = 4, 1, true⟩])) false))) ∧
  (∀ (s : State) (d a : Reg) (sc : BitVec 3) (o : BitVec 2), s.free [a, d] → s.clean [a] →
     let x := s.copy s.cur
     let v := (s.sr s.cur a).toNat
     (v < 65536 → ∃ t, exec (.xgen d a) s = .next t ∧
       goesTo (s.modCopy s.cur (fun y => { y with gen := BitVec.ofNat 16 v })) t d (x.gen.setWidth 64) ((s.c s.cur).pc + 4)) ∧
     (65536 ≤ v → exec (.xgen d a) s = .next (s.trapC .bound 0 none)) ∧
     (v ≤ x.counter →
       (v ≤ x.done ∨ v ∈ x.retired → ∃ t, exec (.xwaitc d a sc o) s = .next t ∧
         goesTo (s.acquireIf s.cur o sc) t d (BitVec.ofNat 64 x.done) ((s.c s.cur).pc + 4)) ∧
       (¬ (v ≤ x.done ∨ v ∈ x.retired) → exec (.xwaitc d a sc o) s = .next (s.cRetry false)) ∧
       ∃ t u, exec (.xqstat d a) s = .next t ∧ returns s t d u ∧ ((s.logic s.cur).copyUsed ≤ 32 →
         u.toNat % 64 = 32 - (s.logic s.cur).copyUsed ∧ u.toNat / 65536 = x.gen.toNat ∧
         ((∀ c ∈ x.q, c.seq ≠ v) → u.toNat / 64 % 4 = 0) ∧
         ∀ c, x.q = [c] → c.seq = v → u.toNat / 64 % 4 = (match c.st with | .waiting | .acquiring => 1 | .stopped => 3 | _ => 2))) ∧
     (x.counter < v → exec (.xwaitc d a sc o) s = .next (s.trapC .bound 0 none) ∧ exec (.xqstat d a) s = .next (s.trapC .bound 0 none)))

/-- R210, R217–R226, R231, R233, R241: each form of the XCMD group completes: with registers free and clean, C's accesses
performed, an entry in the queue, a sync word and operands within the limits, and pointers that pass their checks, XCOPY, XGATH, XSCAT,
XCOLL, XPREF, XLAYER, XPIN, XUNPIN and EGSUB post their command; XGEN, XWAITC and XQSTAT go on under the conditions of R224. -/
def Obligations.CommandsComplete : Prop :=
  ∀ (s : State) (d a b : Reg) (sc : BitVec 3) (o : BitVec 2) (n : BitVec 1),
    let w := s.sr s.cur d
    let p := s.sr s.cur a
    let r := s.sr s.cur b
    let len := w.toNat % 2 ^ 23
    let bulk (c : Nat) : Bool := c = 4
    let goesOn (i : Instr) (v : Word) : Prop := ∃ t, exec i s = .next t ∧ (t.c s.cur).pc = (s.c s.cur).pc + 4 ∧ (t.c s.cur).wait = .none ∧
      ∀ r, t.sr s.cur r = if r ≠ 0 ∧ r = d then v else s.sr s.cur r
    (s.canPost [d, a, b] → s.syncOk w o (spaceOf r ≤ 2) → s.reaches ⟨p, len, vectorSpaces, 1, false⟩ →
      s.reaches ⟨r, len, fun c => vectorSpaces c || c = 2, 1, true⟩ → s.posts (.xcopy d a b sc o n) d 0) ∧
    (s.canPost [d, a] → s.syncOk w o False → len ≠ 0 → s.reaches ⟨p, 65536 * len, bulk, 65536, false⟩ →
      s.posts (.xpref d a sc o n) d 4 ∧ s.posts (.xpin d a sc o n) d 6 ∧ s.posts (.xunpin d a sc o n) d 7) ∧
    (∀ y, s.canPost [d] → s.syncOk w o False → w.toNat / 2 ^ 16 % 2 ^ 7 = 0 →
      (s.part (s.partOf s.cur)).layers[w.toNat / 2 ^ 12 % 16]? = some y → w.toNat % 2 ^ 12 < y.layers → s.posts (.xlayer d sc o n) d 5) ∧
    (∀ blk, s.canPost [a] → s.free [d] → s.blockAt p 64 blk → blk.length = 64 →
      let num (at_ k : Nat) : Nat := leNat ((blk.drop at_).take k)
      let wd (at_ : Nat) : Word := BitVec.ofNat 64 (num at_ 8)
      let e := num 0 8 % 2 ^ 23
      (e % 64 = 0 → e ≠ 0 → num 32 4 ≠ 0 → num 32 4 ≤ 65536 → num 36 4 = 0 → num 48 16 = 0 → num 40 8 % 64 = 0 →
        s.syncOk (wd 0) o (spaceOf (wd 16) ≤ 2) → s.reaches ⟨wd 24, 4 * num 32 4, localSpace, 4, false⟩ →
        (s.reaches ⟨wd 8, e, vectorSpaces, 64, false⟩ → s.reaches ⟨wd 16, num 32 4 * e, vectorSpaces, 64, true⟩ →
          s.posts (.xgath d a sc o n) d 1) ∧
        (s.reaches ⟨wd 8, num 32 4 * e, vectorSpaces, 64, false⟩ → s.reaches ⟨wd 16, e, vectorSpaces, 64, true⟩ →
          s.posts (.xscat d a sc o n) d 2)) ∧
      (∀ rank, let l := (s.part (s.partOf s.cur)).group (num 28 2)
        let op := num 0 8 % 16
        let size := typeW (num 0 8 / 64 % 16) / 8
        let reads := if op = 4 then 0 else num 24 4
        let writes := if op = 1 then num 24 4 / l.length else if op = 2 then num 24 4 * l.length else reads
        s.rankOf l s.cur = some rank → op ≤ 4 → num 0 8 / 16 % 4 < 3 → (num 0 8 / 64 % 16 ∈ [4, 7, 8]) → num 0 8 / 2 ^ 10 % 2 ^ 13 = 0 →
        (num 24 4 ≠ 0 ∨ op = 4) → num 28 2 < 256 → num 32 32 = 0 → (op = 1 → num 24 4 % l.length = 0) → (op = 3 → num 30 2 < l.length) →
        s.syncOk (wd 0) o False → s.reaches ⟨wd 8, reads * size, vectorSpaces, 4, false⟩ →
        s.reaches ⟨wd 16, writes * size, vectorSpaces, 4, true⟩ → s.posts (.xcoll d a sc o n) d 3) ∧
      (num 0 8 / 2 ^ 18 % 32 = 0 → num 0 8 / 64 % 8 + num 0 8 / 512 % 8 ≤ 4 → (num 0 8 / 2 ^ 13 % 32 < 24 ∨ num 0 8 / 2 ^ 13 % 32 = 31) →
        num 8 2 % 2 = 0 → 16 ≤ num 8 2 → num 8 2 ≤ 4096 → num 10 2 % 2 = 0 → 16 ≤ num 10 2 → num 10 2 ≤ 2304 →
        (num 0 8 / 32 % 2 = 0 → num 12 4 ≤ 255) → 4096 ≤ num 24 4 → num 30 2 ≠ 0 → num 30 2 ≤ 240 → num 36 4 = 0 → wd 40 ≠ 0 →
        wd 40 &&& ~~~(s.part (s.partOf s.cur)).tiles = 0 → s.syncOk (wd 0) o False →
        let recon := num 8 2 * num 10 2 * 3 / 2 * (if num 0 8 / 8 % 2 = 1 then 2 else 1)
        s.reaches ⟨wd 16, num 24 4, bulk, 64, true⟩ → (num 0 8 / 16 % 2 = 0 → s.reaches ⟨wd 48, recon, bulk, 1, false⟩) →
        s.reaches ⟨wd 56, recon, bulk, 1, true⟩ → s.posts (.egsub d a sc o n) d 11)) ∧
    (s.free [a, d] → s.clean [a] →
      (p.toNat < 65536 → goesOn (.xgen d a) ((s.copy s.cur).gen.setWidth 64)) ∧
      (p.toNat ≤ (s.copy s.cur).counter → p.toNat ≤ (s.copy s.cur).done ∨ p.toNat ∈ (s.copy s.cur).retired →
        goesOn (.xwaitc d a sc o) (BitVec.ofNat 64 (s.copy s.cur).done)) ∧
      (p.toNat ≤ (s.copy s.cur).counter → ∃ v, goesOn (.xqstat d a) v))

/-- R140, R211–R214, R216, R218, R222, R308: the events of a command's life: its start, which registers it at its acquire flag and in its encoder's start order, its acquire, a segment of an
XCOPY between slices, its completion with flag and token, the window of the copy budget and a tier promotion.
R241–R243: the encoder ends the frame at the head of its queue once every block has arrived: the slot holds the header
and the OBUs, and the command completes. What the stream and the reconstruction hold is free; a block that did not
match gives STATUS 2. The model's choices (log entries): the steps of a command (66), what an acquire lifts (67), the
tier hardware (70), a resident grain (142), the stream of an encoder (71). -/
def Obligations.CopyEngineResults : Prop :=
  (∀ (s : State) (c : Cmd), (s.copy s.cur).q = [c] → c.seq = s.ev.k → (s.tile s.cur).runs = true →
     let p := s.partOf s.cur
     let now (t : State) (c' : Cmd) : Prop := (t.copy s.cur).q = [c'] ∧ (t.c s.cur) = s.c s.cur
     let q : Option (Fin 12) := if c.sync.toNat / 2 ^ 24 % 4 = 1 then some 10 else if c.sync.toNat / 2 ^ 24 % 4 = 2 then some 11 else none
     let room : Prop := ∀ k, q = some k → s.tokRoom s.cur k = true
     let finished (t : State) : Prop := (t.copy s.cur).q = [] ∧ (t.copy s.cur).isDone c.seq = true ∧ (t.c s.cur) = s.c s.cur ∧
       ∀ k, t.toks s.cur k = if q = some k then s.toks s.cur k ++ [BitVec.ofNat 64 c.seq] else s.toks s.cur k
     let at_ : Tile := Fin.ofNat 64 (c.sync.toNat / 2 ^ 38 % 64)
     let flagNo := c.sync.toNat / 2 ^ 26 % 2 ^ 12
     (c.st = .waiting → ∃ t, exec .commandStart s = .next t ∧ now t { c with st := .acquiring, lifted := !s.unlifted s.cur } ∧ sameBytes s t ∧
       t.flagWaits = (if c.sync.getLsbD 44 then [FlagWait.mk c.id at_ flagNo ((s.tile at_).flag flagNo)] else []) ++ s.flagWaits ∧
       ∀ e : Fin 8, (t.encs[e]).starts = (s.encs[e]).starts ++ (if c.func = 11 ∧ e = egEnc c.block then [c.id] else [])) ∧
     (∀ m ∈ s.flagWaits, ⟨m.cmd, m.home, m.flag, true⟩ ∈ (s.setFlag m.home m.flag true).flagWaits) ∧
     (∀ h n v, ∀ m ∈ s.flagWaits, m.hit = true → m ∈ (s.setFlag h n v).flagWaits) ∧
     (c.st = .acquiring → c.acquired = false →
       let seen : Prop := ∃ m ∈ s.flagWaits, m.cmd = c.id ∧ m.hit = true
       (c.sync.getLsbD 44 = false ∨ seen → ∃ t c', exec .commandAcquire s = .next t ∧ now t c' ∧ sameBytes s t ∧ c'.acquired = true ∧
         c'.st = (if c.func = 11 then .acquiring else .running)) ∧
       (c.sync.getLsbD 44 = true → ¬ seen → exec .commandAcquire s = .next s)) ∧
     (c.st = .running → c.func = 0 → c.discarded = false → 4096 * c.seg < c.arg →
       let at_ := BitVec.ofNat 64 (4096 * c.seg)
       let n := min 4096 (c.arg - 4096 * c.seg)
       let b := (s.part p).budget
       (b.refill ≠ 0 → c.cls ≠ 0 → b.count ≤ 0 → ∃ t, exec .segment s = .next t ∧ now t { c with st := .suspended } ∧ sameBytes s t) ∧
       (b.refill = 0 ∨ c.cls = 0 ∨ 0 < b.count → c.sync.getLsbD 23 = false → c.fills = [] → s.memOk → s.noMigration →
         spaceOf (c.src + at_) ≤ 1 → spaceOf (c.dst + at_) ≤ 1 →
         let u := sliceHome s.cur (c.src + at_)
         s.locFull (.slice u (sliceOff (c.src + at_))) n = true →
         ∃ t, exec .segment s = .next t ∧ now t { c with seg := c.seg + 1, noPlane := none } ∧
           wrote s t (.slice (sliceHome s.cur (c.dst + at_)) (sliceOff (c.dst + at_)))
             (Mem.read (s.tile u).slice (sliceOff (c.src + at_)) n) ∧
           (t.part p).budget.count = (if b.refill = 0 then b.count else max (-(b.refill : Int)) (b.count - 1)))) ∧
     (c.st = .running → c.func = 0 → c.arg ≤ 4096 * c.seg → c.fills = [] →
       let home : Tile := Fin.ofNat 64 (c.sync.toNat / 2 ^ 57 % 64)
       let f := c.sync.toNat / 2 ^ 45 % 2 ^ 12
       (c.sync.getLsbD 63 = false → room → ∃ t, exec .commandComplete s = .next t ∧ finished t ∧ sameBytes s t) ∧
       (c.sync.getLsbD 63 = false → ¬ room → ∃ t, exec .commandComplete s = .next t ∧ now t { c with st := .finished } ∧ sameBytes s t) ∧
       (c.sync.getLsbD 63 = true → s.memOk → (∀ d l n k z, (s.c s.cur).wait ≠ .idle d l n k z) → room → ∃ t, exec .commandComplete s = .next t ∧ finished t ∧
         ∀ u n, (t.tile u).flag n = if u = home ∧ n = f then true else (s.tile u).flag n)) ∧
     (c.st = .finished → (room → ∃ t, exec .completionTokenPush s = .next t ∧ finished t ∧ sameBytes s t) ∧
       (¬ room → ∃ t, exec .completionTokenPush s = .next t ∧ now t c ∧ sameBytes s t)) ∧
     (∀ e : Fin 8, e = egEnc c.block → c.func = 11 → c.st = .acquiring → c.acquired = true →
       ((s.encs[e]).frames.length < 16 → (s.encs[e]).starts.head? = some c.id → (∀ u, vGet (s.tile u).egress e = []) →
         ∃ t, exec .encoderAccept s = .next t ∧ now t { c with st := .running } ∧ sameBytes s t ∧
         (t.encs[e]).frames = (s.encs[e]).frames ++ [EncFrame.mk c.id c.block] ∧ (t.encs[e]).starts = (s.encs[e]).starts.drop 1) ∧
       (16 ≤ (s.encs[e]).frames.length ∨ (s.encs[e]).starts.head? ≠ some c.id → exec .encoderAccept s = .next s)) ∧
     (let x := s.part s.ev.p
      let b := x.budget
      (b.refill ≠ 0 → b.window ≠ 0 →
        (b.began + 1000 * b.window ≤ s.dtime → ∃ t, exec .budgetWindow s = .next t ∧ (t.part s.ev.p).budget =
          { b with count := min (b.count + b.refill) b.refill, began := b.began + 1000 * b.window } ∧ sameBytes s t) ∧
        (s.dtime < b.began + 1000 * b.window → exec .budgetWindow s = .next s)) ∧
      ∀ m, x.moves = [m] → s.pf.selfRefresh = 0 → ¬ m.grain ∈ x.resident →
        (x.resident.length < x.tier0 → ∃ t, exec .grainMove s = .next t ∧ (t.part s.ev.p).resident = x.resident ++ [m.grain] ∧
          (t.part s.ev.p).moves = [] ∧ sameBytes s t) ∧
        (∀ v, x.tier0 ≤ x.resident.length → x.victim = some v → ∃ t, exec .grainMove s = .next t ∧ sameBytes s t ∧
          (t.part s.ev.p).resident = x.resident.filter (fun g => g != v) ++ [m.grain] ∧ (t.part s.ev.p).moves = [] ∧
          (∀ e ∈ x.pins, e.1 ≠ v) ∧ ∀ y ∈ x.layers, ¬ v ∈ y.hot))) ∧
  (∀ (s s1 s2 : State) (e : Fin 8) (f : EncFrame) (r : List EncFrame) (t : Tile) (c : Cmd) (va pa leaf n : Nat) (p : PartId) (st : Bool)
       (rs : List (Loc × Nat)), s.ev.k = e.val → (s.encs[e]).frames = f :: r → s.findCmd f.cmd = some (t, c) →
     let x := s.encs[e]
     let out := encOutput x f.block []
     let l : Loc := .bulk p va pa leaf st
     ((s.tile t).runs = true → c.st = .running → x.blocksDone = (egBlocks f.block).length → egKey f.block = true →
       (s.copy t).q = [c] → c.sync.getLsbD 63 = false → c.fills = [] → c.sync.toNat / 2 ^ 24 % 4 = 0 → s2.memOk → s2.noMigration →
       s.placeRange t .w (wordAt f.block 16 8) (64 + out.2.1.length) = (.ok [(l, n)], s1) → n = 64 + out.2.1.length →
       s1.placeRange t .w (wordAt f.block 56 8) out.2.2.length = (.ok rs, s2) →
       (∀ y ∈ rs, ∀ j k, j < y.2 → k < n → y.1.site j ≠ some (.bulk (pa + k)) ∧ ¬ y.1.leafSite (.bulk (pa + k))) →
       ∃ t', exec .frameEncoded s = .next t' ∧ (t'.encs[e]).frames = r ∧ (t'.encs[e]).broken = decide (out.1 ≠ 0) ∧
         (t'.copy t).q = [] ∧
         (∀ k, k < n → ¬ l.leafSite (.bulk (pa + k)) → t'.byteAt (.bulk (pa + k)) = (leBytes 4 out.2.1.length ++ leBytes 1 out.1 ++
           leBytes 3 0 ++ leBytes 8 (fieldAt f.block 32 4) ++ leBytes 8 s.dtime ++ List.replicate 40 0 ++ out.2.1).getD k 0) ∧
         (x.mismatch = true → out.1 = 2 ∧ out.2.1 = [])) ∧
     (x.blocksDone ≠ (egBlocks f.block).length → exec .frameEncoded s = .next s))

/-- R234–R239: the KV group looks keys up, gives clean blocks to keys, counts references, maps and unmaps held blocks;
the last reference sends a block to the scrubber, which zeroes it and returns it to the clean pool. Without a pool
each raises BOUND, and on a poisoned table ECC. The model's choices (log entries): BOUND without a pool (68), what KVFREE leaves (69),
a poisoned table (172). -/
def Obligations.KvResults : Prop :=
  (∀ (s : State) (d a b : Reg) (n : BitVec 1) (k : KvPool), s.free [d, a, b] → s.clean [d, a, b] →
    let p := s.partOf s.cur
    let sq := (s.sr s.cur a).toNat
    let lb := (s.sr s.cur b).toNat
    let x := (s.sr s.cur d).toNat
    let pc := (s.c s.cur).pc + 4
    let gives (t : State) (v : Word) : Prop := (t.c s.cur).pc = pc ∧ (t.c s.cur).wait = .none ∧
      ∀ r, t.sr s.cur r = if r ≠ 0 ∧ r = d then v else s.sr s.cur r
    let bound (i : Instr) : Prop := exec i s = .next (s.trapC .bound 0 none)
    let key : Prop := sq < 2 ^ 32 - 1 ∧ lb < 2 ^ 24
    let held (m : Nat) : Prop := m < k.nblk ∧ (s.kvSt p k m = 1 ∨ s.kvSt p k m = 2)
    (s.kvPool p = none → bound (.kvalloc d a b n) ∧ bound (.kvref d a) ∧ bound (.kvlook d a b) ∧ bound (.kvmap d a b)) ∧
    (∀ va, s.kvPool p = some k → key → s.kvPoisoned p k (s.kvKeyReads p sq lb k) = some va →
      exec (.kvlook d a b) s = .next (s.trapC .ecc 0 (some (BitVec.ofNat 64 (0x4000000000000000 + va)))) ∧
      exec (.kvalloc d a b n) s = .next (s.trapC .ecc 0 (some (BitVec.ofNat 64 (0x4000000000000000 + va))))) ∧
    (s.kvPool p = some k → (∀ va m, s.hwPoisoned p va m = false) →
      (¬ key → bound (.kvalloc d a b n) ∧ bound (.kvlook d a b)) ∧
      (key →
        (∀ y, s.kvFind p k sq lb = some y → s.kvHolds p k sq lb y = true ∧
          (∃ t, exec (.kvlook d a b) s = .next t ∧ returns s t d (BitVec.ofNat 64 y)) ∧
          (∃ t, exec (.kvalloc d a b n) s = .next t ∧ gives t 0xFFFFFFFFFFFFFFFE ∧ sameBytes s t)) ∧
        (s.kvFind p k sq lb = none →
          (∃ t, exec (.kvlook d a b) s = .next t ∧ returns s t d (BitVec.allOnes 64)) ∧
          ((s.part p).clean = [] → n = 1 → ∃ t, exec (.kvalloc d a b n) s = .next t ∧ gives t (BitVec.allOnes 64) ∧ sameBytes s t) ∧
          ((s.part p).clean = [] → n = 0 → ∃ t, exec (.kvalloc d a b n) s = .next t ∧
            (t.c s.cur).wait = .kv d sq lb ∧ (t.c s.cur).pc = (s.c s.cur).pc ∧ sameBytes s t ∧
            KvWait.mk (s.logic s.cur).owner s.cur sq lb s.ck ∈ (t.part p).kvWaiters ∧ ∀ y ∈ (s.part p).kvWaiters, y ∈ (t.part p).kvWaiters) ∧
          (∀ m rest, (s.part p).clean = m :: rest → ∃ t, exec (.kvalloc d a b n) s = .next t ∧
            gives t (BitVec.ofNat 64 m) ∧ (t.part p).clean = rest ∧ t.bulk = (((s.hwWrite p (k.tab + 16 * m) (leBytes 4 sq ++ leBytes 3 lb ++
              leBytes 1 1 ++ leBytes 2 1 ++ leBytes 1 p.val ++ leBytes 1 0 ++ leBytes 4 0xFFFFFFFF)).kvInsert p k sq lb m).hwWrite p
                (k.at_ + 36) (leBytes 4 rest.length)).bulk))) ∧
      (let refs := s.kvRefs p k sq
       (held sq → refs < 65535 → ∃ t, exec (.kvref d a) s = .next t ∧
         goesTo (s.hwWrite p (k.tab + 16 * sq + 8) (leBytes 2 (refs + 1))) t d (BitVec.ofNat 64 (refs + 1)) pc) ∧
       (¬ held sq ∨ refs = 65535 → bound (.kvref d a)) ∧
       ((s.c s.cur).ops = [] →
         (held sq → 1 < refs → ∃ t, exec (.kvfree d a) s = .next t ∧
           goesTo (s.hwWrite p (k.tab + 16 * sq + 8) (leBytes 2 (refs - 1))) t d (BitVec.ofNat 64 (refs - 1)) pc) ∧
         (held sq → refs = 1 → ∃ t, exec (.kvfree d a) s = .next t ∧ gives t 0 ∧ t.scrubq = s.scrubq ++ [(p, sq)] ∧
           (t.part p).clean = (s.part p).clean) ∧
         (¬ held sq ∨ refs = 0 → bound (.kvfree d a)))) ∧
      (sq < 2 ^ 32 - 1 → lb < 2 ^ 24 → held x →
        (∀ y, s.kvFind p k sq lb = some y → ∃ t, exec (.kvmap d a b) s = .next t ∧ returns s t d (if y = x then 0 else 0xFFFFFFFFFFFFFFFE)) ∧
        (s.kvFind p k sq lb = none → s.kvSt p k x = 2 → (s.part p).kvWaiters = [] → ∃ t, exec (.kvmap d a b) s = .next t ∧ gives t 0 ∧
          t.bulk = ((s.kvInsert p k sq lb x).hwWrite p (k.tab + 16 * x) (leBytes 4 sq ++ leBytes 3 lb ++ leBytes 1 1)).bulk)) ∧
      (sq = 2 ^ 32 - 1 → lb < 2 ^ 24 → held x → s.kvSt p k x = 2 → ∃ t, exec (.kvmap d a b) s = .next t ∧
        goesTo (s.hwWrite p (k.tab + 16 * x) (leBytes 4 (2 ^ 32 - 1) ++ leBytes 3 0 ++ leBytes 1 2)) t d 0 pc) ∧
      (¬ held x → bound (.kvmap d a b)))) ∧
  (∀ (s : State) (k : KvPool) (p : PartId) (m : Nat) (rest : List (PartId × Nat)), s.kvPool p = some k → s.scrubq = (p, m) :: rest →
    s.pf.selfRefresh = 0 → (s.part p).kvWaiters = [] →
    ∃ t, exec .scrub s = .next t ∧ t.scrubq = rest ∧ (t.part p).clean = (s.part p).clean ++ [m] ∧
      t.bulk = (((s.hwWrite p (k.base + m * k.size) (List.replicate k.size 0)).hwWrite p (k.tab + 16 * m + 7) [0]).hwWrite p
        (k.at_ + 36) (leBytes 4 ((s.part p).clean.length + 1))).bulk)

/-! ## Rachis -/

/-- R246, R247, R249, R263: ATGO starts a pass with its descriptor when no pass runs and answers its number; ATWAIT
goes on with the status of the last pass once its pass has ended; ATLOAD writes words of the control store; ATSTAT
samples. How many copy-queue entries the pass takes, up to four, is free. The model's choices (log entries): a free
number of entries (74). -/
def Obligations.AttnResults : Prop :=
  ∀ (s : State) (d a b : Reg) (blk : List Byte) (k : KvPool), s.free [d, a, b] → s.clean [a, b] → (s.c s.cur).ops = [] →
    let r := s.rachis s.cur
    let x := attOf blk
    let pc := (s.c s.cur).pc + 4
    let n := (s.sr s.cur a).toNat
    let v := s.sr s.cur b
    let first := v.toNat % 4096
    let words := v.toNat / 65536 % 4096 + 1
    (r.pass.isSome → exec (.atgo d a) s = .next (s.cRetry false)) ∧
    (r.pass = none → s.blockAt (s.sr s.cur a) 512 blk → s.reqFail s.cur (x.ctrl &&& 0xFE00000000000000) x.reqs false = none →
      (s.kvPool (s.partOf s.cur) = some k → x.bad blk k.size = true → exec (.atgo d a) s = .next (s.trapC .bound 0 none)) ∧
      (s.kvPool (s.partOf s.cur) = some k → x.bad blk k.size = false → ∃ t p, exec (.atgo d a) s = .next t ∧ (t.rachis s.cur).pass = some p ∧
        (t.rachis s.cur).passNo = r.passNo + 1 ∧ p.desc = blk ∧ p.upc = x.ctrl.toNat % 4096 ∧
        (∀ i, 0 < i → i < 16 → p.h[i]? = some (BitVec.ofNat 64 (leNat ((blk.drop (8 * i)).take 8)))) ∧
        p.m = Vector.replicate 512 0xFF800000 ∧ p.l = Vector.replicate 512 0 ∧ p.smax = Vector.replicate 512 0xFF800000 ∧
        p.scoutList = [] ∧ p.kList = [] ∧ p.vList = [] ∧ p.chunk = none ∧ p.stops = [] ∧ p.got = [] ∧ p.cursor = 0 ∧ p.entries ≤ 4 ∧
        (t.vec s.cur).k[Fin.ofNat 4 (x.ctrl.toNat / 4096 % 4)] = 0 ∧ (t.c s.cur).pc = pc ∧
        (∀ q, t.sr s.cur q = if q ≠ 0 ∧ q = d then BitVec.ofNat 64 (r.passNo + 1) else s.sr s.cur q) ∧ sameBytes s t)) ∧
    (n ≤ r.passNo →
      (n = r.passNo → r.pass.isSome → exec (.atwait d a) s = .next (s.cRetry false)) ∧
      (n < r.passNo ∨ r.pass = none → ∃ t, exec (.atwait d a) s = .next t ∧ returns s t d r.last)) ∧
    (r.passNo < n → exec (.atwait d a) s = .next (s.trapC .bound 0 none)) ∧
    (∀ off, s.access s.cur localSpace .r (s.sr s.cur a) (4 * words) 64 = (.ok (.slice s.cur off), s) → v.toNat / 4096 % 16 = 0 →
      v.toNat / 2 ^ 28 = 0 →
      (first + words ≤ 4096 → r.pass = none → s.locFull (.slice s.cur off) (4 * words) = true →
        s.poisonedAt (.slice s.cur off) (4 * words) = false → Memory.wf r.store = true → ∃ t st, exec (.atload a b) s = .next t ∧
        goesTo (s.modRachis s.cur (fun y => { y with store := st })) t 0 0 pc ∧ ∀ j, Mem.byte st j =
          if 4 * first ≤ j ∧ j < 4 * (first + words) then Mem.byte (s.tile s.cur).slice (off + (j - 4 * first)) else Mem.byte r.store j) ∧
      (4096 < first + words → exec (.atload a b) s = .next (s.trapC .bound 0 none))) ∧
    ∃ t u, exec (.atstat d) s = .next t ∧ returns s t d u ∧
      (∀ p, r.pass = some p → u.getLsbD 13 = true ∧ u.getLsbD 14 = !p.stops.isEmpty ∧ u.getLsbD 15 = p.waitd ∧
        u.toNat / 65536 % 65536 = r.passNo % 65536 ∧ u.toNat / 2 ^ 32 = p.upc % 4096 ∧
        u.toNat % 2048 = (List.range 1024).countP (fun i => (vGet (s.vec s.cur).k p.kreg).getLsbD i)) ∧
      (r.pass = none → u.toNat % 2048 = r.last.toNat % 2048 ∧ u.toNat / 2048 % 32 = 0 ∧ u.toNat / 65536 % 65536 = r.lastNo % 65536)

/-- R251–R255, R257, R262, R263: the micro-ops of Rachis that use no matrix operation: registers, loops and branches,
flags, the lookup of the blocks' places, the window, and the end of the pass. One that would run on past word 4,095 is
ILLEGAL. The model's choices (log entries): the micro-op past 4,095 (75), how a copy is carried out (73). -/
def Obligations.RachisControlResults : Prop :=
  ∀ (s : State) (p : Pass) (a b : BitVec 4) (i : BitVec 18) (k : BitVec 1) (w f : BitVec 2) (sc : BitVec 3), (s.rachis s.cur).pass = some p →
    p.stops = [] →
    let h (r : BitVec 4) : Word := if r = 0 then 0 else p.h[r.toFin]
    let put (r : BitVec 4) (v : Word) : Vector Word 16 := if r = 0 then p.h else p.h.set r.toFin v
    let goes (hs : Vector Word 16) (upc : Nat) : Host.Outcome State Fault Refusal :=
      .next (s.modRachis s.cur (fun r => { r with pass := some { p with h := hs, upc := upc, waitd := false, got := [], out := none } }))
    let mask := vGet (s.vec s.cur).k p.kreg
    let x := p.att
    let dest : Int := p.upc + i.toInt
    let branch (out : Host.Outcome State Fault Refusal) (taken : Prop) (hs : Vector Word 16) : Prop :=
      (taken → 0 ≤ dest → dest < 4096 → out = goes hs dest.toNat) ∧
      (taken → dest < 0 ∨ 4096 ≤ dest → out = .next (s.trapPass s.cur .illegal none)) ∧
      (¬ taken → p.upc < 4095 → out = goes hs (p.upc + 1))
    branch (exec (.hloop a i) s) (h a - 1 ≠ 0) (put a (h a - 1)) ∧ branch (exec (.hbr a b i) s) (h a ≠ h b) p.h ∧
    (4095 ≤ p.upc → exec .hnop s = .next (s.trapPass s.cur .illegal none)) ∧
    (p.upc < 4095 →
      exec (.hset a i) s = goes (put a (BitVec.ofInt 64 i.toInt)) (p.upc + 1) ∧
      exec (.hadd a b i) s = goes (put a (h b + BitVec.ofInt 64 i.toInt)) (p.upc + 1) ∧
      exec .hnop s = goes p.h (p.upc + 1) ∧ exec .hwait s = goes p.h (p.upc + 1) ∧
      (∀ t n, s.flagAt s.cur (h a) (h b) (decide (f ≠ 2)) = .ok (t, n) →
        (f.toNat < 2 → s.memOk → ∃ t', exec (.hflag a b sc f) s = .next t' ∧
          (∀ u m, (t'.tile u).flag m = if u = t ∧ m = n then decide (f = 0) else (s.tile u).flag m) ∧
          (t'.rachis s.cur).pass = some { p with upc := p.upc + 1, waitd := false, got := [], out := none }) ∧
        (f = 2 → (s.tile t).flag n = true → exec (.hflag a b sc f) s = .next ((s.acquire s.cur sc).modRachis s.cur (fun r =>
          { r with pass := some { p with upc := p.upc + 1, waitd := false, got := [], out := none } }))) ∧
        (f = 2 → (s.tile t).flag n = false → exec (.hflag a b sc f) s = .next s)) ∧
      (let first := (h a).toNat
       let n := (h b).toNat
       let limit := if w = 0 then x.nbc else x.nb
       let keeps (lb : Nat) : Prop := first ≤ lb ∧ lb < first + n ∧ (k = 0 ∨ mask.getLsbD lb = true)
       ∀ pool, s.kvPool (s.partOf s.cur) = some pool → (∀ va m, s.hwPoisoned (s.partOf s.cur) va m = false) →
        (n ≠ 0 → limit < first + n → exec (.hkv a b k w) s = .next (s.trapPass s.cur .bound none)) ∧
        (n = 0 ∨ first + n ≤ limit → w = 0 → (∀ lb, keeps lb → (s.kvFind (s.partOf s.cur) pool x.sseq lb).isSome) →
          ∃ l, exec (.hkv a b k w) s = .next (s.modRachis s.cur (fun r =>
            { r with pass := some { p with scoutList := l, upc := p.upc + 1, waitd := false, got := [], out := none } })) ∧
          ∀ lb, (keeps lb → resolved l lb = s.kvFind (s.partOf s.cur) pool x.sseq lb) ∧ (¬ keeps lb → resolved l lb = resolved p.scoutList lb)) ∧
        (n = 0 ∨ first + n ≤ limit → w ≠ 0 → (∀ lb, keeps lb → (s.kvFind (s.partOf s.cur) pool x.kseq lb).isSome ∧
            (s.kvFind (s.partOf s.cur) pool x.vseq lb).isSome) →
          ∃ kl vl, exec (.hkv a b k w) s = .next (s.modRachis s.cur (fun r =>
            { r with pass := some { p with kList := kl, vList := vl, upc := p.upc + 1, waitd := false, got := [], out := none } })) ∧
          ∀ lb, keeps lb → resolved kl lb = s.kvFind (s.partOf s.cur) pool x.kseq lb ∧
            resolved vl lb = s.kvFind (s.partOf s.cur) pool x.vseq lb) ∧
        (∀ lb, first + n ≤ limit → w = 0 → keeps lb → s.kvFind (s.partOf s.cur) pool x.sseq lb = none →
          (∀ m, keeps m → m < lb → (s.kvFind (s.partOf s.cur) pool x.sseq m).isSome) →
          exec (.hkv a b k w) s = .next (s.trapPass s.cur .bound (some (BitVec.ofNat 64 lb))))) ∧
      (x.anch = 0 → ∃ t m, exec (.hwin a) s = .next t ∧ t = (s.modVec s.cur (fun v => { v with k := vSet v.k p.kreg m })).modRachis s.cur
          (fun r => { r with pass := some { p with h := put a (BitVec.ofNat 64 ((List.range 1024).countP (fun j => m.getLsbD j))),
                                                   upc := p.upc + 1, waitd := false, got := [], out := none } }) ∧
        ∀ j, j < 1024 → m.getLsbD j = if j < x.nbc then mask.getLsbD j || decide (j < x.sink ∨ x.nbc ≤ j + x.recent)
          else decide (j = x.nbc ∧ x.nd ≠ 0))) ∧
    (x.ctrl.getLsbD 63 = false → ∃ t v, exec .hend s = .next t ∧
      t = s.modRachis s.cur (fun r => { r with pass := none, last := v, lastNo := r.passNo }) ∧
      v.toNat % 2048 = (List.range 1024).countP (fun j => mask.getLsbD j) ∧ v.toNat / 2 ^ 28 = p.upc % 4096) ∧
    (x.ctrl.getLsbD 63 = true → s.memOk → ∃ t, exec .hend s = .next t ∧ (t.rachis s.cur).pass = none ∧
      ∀ u n, (t.tile u).flag n =
        if u = Fin.ofNat 64 (x.ctrl.toNat / 2 ^ 57 % 64) ∧ n = x.ctrl.toNat / 2 ^ 45 % 4096 then true else (s.tile u).flag n)

/-- R248, R253, R256, R258–R261, R423: the micro-ops of Rachis on the matrix engine, once every segment of its copies has been read and with
no budget set: the row tile, the scout's maxima, votes and block maxima, the scores, the tree mask, the running
maximum, the rescaling, the probabilities, the sums, the values and the rows written out. The model's choices (log
entries): copies within a micro-op (73), rows beyond the descriptor (76). -/
def Obligations.RachisEngineResults : Prop :=
  ∀ (s s1 : State) (p : Pass) (a b : BitVec 4) (pool : KvPool) (rows qs : List (List Byte)), (s.rachis s.cur).pass = some p → p.stops = [] →
    p.upc < 4095 → (s.logic s.cur).engineFree = true → (s.part (s.partOf s.cur)).budget.refill = 0 →
    (∀ i : Fin 4, Memory.wf (s.mat s.cur).z[i] = true) → (∀ i : Fin 2, Memory.wf (s.mat s.cur).aslot[i] = true) →
    let x := p.att
    let z (t : State) (i : Fin 4) (r c : Nat) : Nat := Mem.num (t.mat s.cur).z[i] (512 * r + 4 * c) 4
    let h (r : BitVec 4) : Word := if r = 0 then 0 else p.h[r.toFin]
    let put (r : BitVec 4) (v : Word) : Vector Word 16 := if r = 0 then p.h else p.h.set r.toFin v
    let next (t : State) (q : Pass) : Prop := ∃ f, (t.rachis s.cur).pass = some { q with upc := p.upc + 1, waitd := false, got := [], out := none, fetched := f } ∧
      (t.c s.cur) = s.c s.cur ∧ ∀ u, u ≠ .m → t.seq s.cur u = s.seq s.cur u
    let row (y : Vector W32 512) (r : Nat) : Nat := (vGet y (128 * p.tile + r)).toNat
    let alpha (r : Nat) : Nat := (vGet p.alpha r).toNat
    let fmul (u v : Nat) : Nat := (fp32.deliver 0 false ((fp32.read u).mul (fp32.read v))).1
    let fsub (u v : Nat) : Nat := (fp32.deliver 0 false (fpSum 0 [fp32.read u, (fp32.read v).neg])).1
    let sets (old new : Vector W32 512) (f : Nat → Nat → Prop) : Prop := ∀ i, i < 512 →
      if 128 * p.tile ≤ i ∧ i < 128 * p.tile + p.vr then f (i - 128 * p.tile) (vGet new i).toNat else vGet new i = vGet old i
    let blocks := nextKept (vGet (s.vec s.cur).k p.kreg) p.cursor
    (∀ n, n = (h a).toNat → n < x.nt → x.d ≤ 128 → (∀ bs ∈ rows, bs.length ≤ 512) →
      s.hReadAll ((List.range (x.vr n)).map (fun r => ⟨0, r * x.qRow, x.q + BitVec.ofNat 64 (128 * n * x.qRow + r * x.qRow), x.qRow⟩)) =
        .ok rows s1 → ∃ t, exec (.hsetTile a) s = .next t ∧ next t { p with tile := n, vr := x.vr n, cursor := 0 } ∧ sameBytes s1 t ∧
        (∀ r c, r < 128 → c < x.d → z t 0 r c = 0) ∧
        ∀ r bs, rows[r]? = some bs → r < 128 → Mem.read (t.mat s.cur).aslot[(0 : Fin 2)] (512 * r) bs.length = bs) ∧
    (∀ (lbs : List Nat) (found : List (Nat × Nat)), lbs = (List.range (h b).toNat).map (fun i => (h a).toNat + i) →
      0 < lbs.length → lbs.length ≤ 8 → (h a).toNat + lbs.length ≤ x.nbc → x.nbc ≤ 1024 → x.nt = 1 → s.kvPool (s.partOf s.cur) = some pool →
      lbs.mapM (fun lb => (resolved p.scoutList lb).map (fun y => (lb, y))) = some found →
      s.hReadAll ((List.range x.rows).map (fun r => ⟨0, r * x.sRow, x.qs + BitVec.ofNat 64 (r * x.sRow), x.sRow⟩) ++
        found.flatMap (fun e => kvRanges pool x x.sRow e.1 e.2)) = .ok (qs ++ rows) s1 →
      qs.length = x.rows → rows.length = 64 * lbs.length →
      ∃ t q, exec (.hscout a b) s = .next t ∧ next t q ∧ q = { p with smax := q.smax } ∧ sameBytes s1 t ∧
        let cols := (List.range x.dg).map (streamCols (cellsAt 0 (scoutStream x.dg rows)) 3 (64 * lbs.length))
        let scores (r i : Nat) : List Nat := ((List.range 64).filter (fun c => 64 * lbs.getD i 0 + c < x.ctx)).map (fun c =>
          attDot 5 (t.mat s.cur).aslot[(0 : Fin 2)] cols r (64 * i + c) 0)
        let scaled (r i : Nat) : List Nat := (scores r i).map (fun v => fmul v x.scale)
        (∀ r, r < x.vr 0 → (vGet q.smax r).toNat = maxPat ((vGet p.smax r).toNat :: (List.range lbs.length).flatMap (scaled r)) % 2 ^ 32) ∧
        (∀ r i, r < 128 → i < lbs.length → z t 3 r i = if r < x.vr 0 then maxPat (scores r i) % 2 ^ 32 else 0xFF800000) ∧
        ∀ j, j < 1024 → (vGet (t.vec s.cur).k p.kreg).getLsbD j = ((vGet (s.vec s.cur).k p.kreg).getLsbD j ||
          decide (∃ i, i < lbs.length ∧ lbs[i]? = some j ∧ ∃ r, r < x.vr 0 ∧
            votes x.tau (fp32.read (maxPat (scaled r i))) (fp32.read (vGet q.smax r).toNat) = true))) ∧
    (blocks = [] → ∃ t, exec (.hqk a) s = .next t ∧ next t { p with h := put a 0 } ∧ sameBytes s t) ∧
    (∀ found, blocks ≠ [] → s.kvPool (s.partOf s.cur) = some pool →
      blocks.mapM (fun lb => (resolved p.kList lb).map (fun y => (lb, y))) = some found →
      s.hReadAll (found.flatMap (fun e => kvRanges pool x x.qRow e.1 e.2)) = .ok rows s1 → p.vr ≤ 128 →
      ∃ t, exec (.hqk a) s = .next t ∧ sameBytes s1 t ∧
        next t { p with h := put a (BitVec.ofNat 64 blocks.length), chunk := some ⟨blocks⟩, cursor := (blocks.getLast?.getD 0) + 1 } ∧
        let cols := (List.range x.dg).map (streamCols (cellsAt 0 (kStream x.qkf x.dg rows)) (kvCode x.qkf) (64 * blocks.length))
        ∀ r c, r < p.vr → c < 128 → z t 1 r c =
          if x.live blocks c then attDot (attFmt x.qkf) (s.mat s.cur).aslot[(0 : Fin 2)] cols r c 0 % 2 ^ 32 else 0xFF800000) ∧
    (∀ tree i, p.tree = some tree → p.blocks.findIdx? (fun y => decide (x.nd ≠ 0) && decide (y = x.nbc)) = some i → x.tree ≠ 0 → p.vr ≤ 128 →
      ∃ t, exec .htree s = .next t ∧ next t p ∧ sameBytes s t ∧ ∀ r c, r < p.vr → c < 128 → z t 1 r c =
        if c / 64 = i ∧ (tree.getD ((128 * p.tile + r) / x.hq) 0).getLsbD (c % 64) = false then 0xFF800000 else z s 1 r c) ∧
    (p.vr ≤ 128 → p.tile < 4 → ∃ t q, exec .hmax s = .next t ∧ next t q ∧ q = { p with m := q.m, alpha := q.alpha } ∧ sameBytes s t ∧
      sets p.m q.m (fun r v => v = maxPat (row p.m r :: (List.range 128).map (fun c => fmul (z s 1 r c) x.scale)) % 2 ^ 32) ∧
      ∀ r y, r < p.vr →
        (row p.m r = 0xFF800000 → row q.m r = 0xFF800000 → (vGet q.alpha r).toNat = 0x3F800000) ∧
        (row q.m r ≠ 0xFF800000 → fp32.sfu .exp2 0 false (fp32.read (fsub (row p.m r) (row q.m r))) = some y →
          (vGet q.alpha r).toNat = y.1 % 2 ^ 32)) ∧
    (p.vr ≤ 128 → x.d ≤ 128 → ∃ t, exec .hresc s = .next t ∧ next t p ∧ sameBytes s t ∧ ∀ r c, r < 128 → c < 128 → z t 0 r c =
      if r < p.vr ∧ c < x.d then fmul (z s 0 r c) (alpha r) % 2 ^ 32 else z s 0 r c) ∧
    (p.vr ≤ 128 → p.blocks.length ≤ 2 → ∃ t, exec .hexp s = .next t ∧ next t p ∧ sameBytes s t ∧
      let es := if x.vf = 2 then 2 else 1
      let f : FpFmt := if x.vf = 2 then bf16 else e4m3
      ∀ r c, r < p.vr → c < 64 * p.blocks.length →
        let got := Mem.num (t.mat s.cur).aslot[(1 : Fin 2)] (512 * r + es * c) es
        (z s 1 r c = 0xFF800000 → got = 0) ∧
        ∀ y, z s 1 r c ≠ 0xFF800000 → fp32.sfu .exp2 0 false (fp32.read (fsub (fmul (z s 1 r c) x.scale) (row p.m r))) = some y →
          got = (f.deliver 0 false (fp32.read y.1)).1 % 2 ^ (8 * es)) ∧
    (p.tile < 4 → p.vr ≤ 128 → ∃ t q, exec .hsum s = .next t ∧ next t q ∧ q = { p with l := q.l } ∧ sameBytes s t ∧
      let es := if x.vf = 2 then 2 else 1
      sets p.l q.l (fun r v => v = (fp32.deliver 0 false (fpSum 0 [fp32.read (fmul (row p.l r) (alpha r)),
        fpSum 0 ((List.range 128).map (fun c => x.pf.read (Mem.num (s.mat s.cur).aslot[(1 : Fin 2)] (512 * r + es * c) es)))])).1 % 2 ^ 32)) ∧
    (∀ found, s.kvPool (s.partOf s.cur) = some pool → p.blocks.mapM (fun lb => (resolved p.vList lb).map (fun y => (lb, y))) = some found →
      s.hReadAll (found.flatMap (fun e => kvRanges pool x x.vRow e.1 e.2)) = .ok rows s1 → p.vr ≤ 128 → x.d ≤ 128 →
      ∃ t, exec .hpv s = .next t ∧ next t p ∧ sameBytes s1 t ∧
        let cols := (List.range (2 * found.length)).map (streamCols (cellsAt 0 (vStream x.vf x.d rows)) (kvCode x.vf) x.d)
        ∀ r c, r < 128 → c < 128 → z t 0 r c = if r < p.vr ∧ c < x.d then
          attDot (if x.vf = 2 then 3 else 0) (s.mat s.cur).aslot[(1 : Fin 2)] cols r c (z s 0 r c) % 2 ^ 32 else z s 0 r c) ∧
    (∀ l, p.vr = 1 → x.st = 0 → p.out = none → p.got = [] → 0 < x.oRow → x.oRow ≤ 4096 → s1.memOk → s1.noMigration →
      (∀ n q, (({ s with freeCount := n } : State).modPass q).placeRange s.cur .w (x.o + BitVec.ofNat 64 (128 * p.tile * x.ostride)) x.oRow =
        (.ok [(l, x.oRow)], ({ s1 with freeCount := n } : State).modPass q)) → s1.hostOpen s.cur →
      ∃ t bs, exec .hdrain s = .next t ∧ wrote s1 t l bs ∧ bs.length = x.oRow ∧
        (row p.l 0 = 0 → bs = List.replicate x.oRow 0) ∧
        (x.of_ = 0 → row p.l 0 ≠ 0 → ∀ y c, fp32.sfu .rcp 0 false (fp32.read (row p.l 0)) = some y → c < x.d →
          leNat ((bs.drop (4 * c)).take 4) = (fp32.deliver 0 false (fp32.read (fmul (z s 0 0 c) y.1))).1 % 2 ^ 32))

/-! ## Husks and Thresher -/

/-- R318–R322, R325, R326, R340, R341: a freeze puts the task's whole logic into an image slot, and its bytes into the slot's bins of the
slice; a restore brings it back, its translation and line buffers empty; HUSKSAVE and HUSKLOAD, at level S, move husks between
slots and bulk memory, and HUSKLOAD answers why it refuses; a world switch freezes and saves the partition's tiles, keeps their
slices, and brings the other world in with its slice of time, not below the floor. The model's choices (log entries): the bytes of a section (91), the order of HUSKLOAD's codes
(92), the traps (93), the steps of a world switch and what it leaves (94, 95). -/
def Obligations.HuskResults : Prop :=
  ∀ (s : State),
    let u := s.ev.t
    let image (i : Fin 2) : Nat := 0xF800000 + 0x400000 * i.val
    let onlyImage (t : State) (v : Tile) (i : Fin 2) : Prop :=
      ∀ x, t.byteAt x = s.byteAt x ∨ ∃ a, x = .slice v a ∧ image i ≤ a ∧ a < image i + 0x400000
    (∀ f k slot, (s.tile u).freezing = some f → f.slot = some slot → s.task u = some k → (s.logic u).freezes u = false →
      let saved (t : State) : Prop := (∃ h, (t.tile u).husks[slot] = some h ∧ h.logic = s.logic u ∧ h.tile = u ∧ h.part = k.part ∧ h.inst = k.inst ∧
          h.rev = 0x1B0 ∧ h.dtime = f.at_ ∧ h.clocks = (s.tile u).clocks ∧
          (Memory.wf (s.tile u).slice = true → Mem.read (t.tile u).slice (image slot) h.bytes.length = h.bytes)) ∧
        t.task u = none ∧ (t.tile u).freezing = none ∧
        (t.tile u).latch = (s.tile u).latch ∧ (t.tile u).tid = (s.tile u).tid ∧
        (∀ r ∈ (s.tile u).tiller, r.inst = k.inst → r.idx = k.idx → { r with st := .frozen slot, u := k.u } ∈ (t.tile u).tiller) ∧
        (Memory.wf (s.tile u).slice = true → onlyImage t u slot)
      (f.by_ = none → ∃ t, exec .huskSave s = .next t ∧ saved t) ∧
      (∀ b d n, f.by_ = some b → b ≠ u → (s.c b).wait = .freeze u n d → (s.tile b).freezing = none →
        ∃ t, exec .huskSave s = .next t ∧ saved t ∧ (t.c b).wait = .none ∧
        (t.c b).pc = (s.c b).pc + 4 ∧ ∀ r, t.sr b r = if r ≠ 0 ∧ r = d then BitVec.ofNat 64 slot.val else s.sr b r)) ∧
    (∀ r slot h, s.canStart u = some r → r.st = .frozen slot → s.slotHusk u slot = some h →
      (h.rev = 0x1B0 → h.part = (s.tile u).part → h.poison = [] → h.tile = u → h.logic.c.wait = .none → h.logic.flits = [] →
        h.logic.l.inflight = [] → h.logic.s.inflight = [] → ∃ t, exec .huskRestore s = .next t ∧
        t.logic u = { h.logic.forget with
                                   task := h.logic.task.map (fun k => { k with super := k.rc.super && decide ((s.part h.part).home = u) }) } ∧
        (t.tile u).husks[slot] = none ∧ (t.tile u).tb = [] ∧ (t.tile u).lines = [] ∧ (t.tile u).shadow = none ∧ sameBytes s t ∧
        ∀ a, a ≠ u → t.tile a = s.tile a) ∧
      (∀ i, h.rev ≠ 0x1B0 ∨ h.poison ≠ [] → s.inst (s.tile u).part r.inst = some i → ∃ t, exec .huskRestore s = .next t ∧
        t.inst (s.tile u).part r.inst = none)) ∧
    (∀ (d a b : Reg), s.atS s.cur = false → exec (.husksave d a b) s = .next (s.trapC .bound 0x8000 none) ∧
      exec (.huskload d a b) s = .next (s.trapC .bound 0x8000 none)) ∧
    (∀ (d a b : Reg), s.atS s.cur = true → s.free [a, b, d] → s.clean [a, b] → (s.c s.cur).ops = [] →
      let p := s.partOf s.cur
      let bulk (ptr : Word) (n : Nat) : Prop := ptr.toNat / 2 ^ 60 = 4 ∧ ptr.toNat / 2 ^ 48 % 4096 = 0 ∧ ptr.toNat % 2 ^ 48 + n ≤ 2 ^ 48
      (let v : Tile := Fin.ofNat 64 (s.sr s.cur a).toNat
       let slot : Fin 2 := if (s.sr s.cur a).getLsbD 8 then 1 else 0
       let ptr := s.sr s.cur b
       (s.part p).has v = true → bulk ptr 0x400000 →
         (ptr.toNat % 64 ≠ 0 → exec (.husksave d a b) s = .next (s.trapC .align 0x800 (some ptr))) ∧
         (ptr.toNat % 64 = 0 → (s.tile v).husks[slot] = none → exec (.husksave d a b) s = .next (s.trapC .bound 0 none)) ∧
         (∀ h l0 ls s2, ptr.toNat % 64 = 0 → s.slotHusk v slot = some h → s.placeRange s.cur .w ptr 0x400000 = (.ok l0, s) →
           let bs := Mem.read (s.tile v).slice (image slot) (256 + Mem.num (s.tile v).slice (image slot + 32) 4)
           (s.keepBody { h with poison := [] } bs).placeRange s.cur .w ptr bs.length = (.ok ls, s2) →
           ∃ t, exec (.husksave d a b) s = .next t ∧ (t.tile v).husks[slot] = none ∧ (t.c s.cur).pc = (s.c s.cur).pc + 4 ∧
             (∀ k, h.logic.task = some k → ∀ r ∈ (t.tile v).tiller, ¬ (r.inst = k.inst ∧ r.idx = k.idx)) ∧
             (t.sr s.cur d = if d = 0 then 0 else BitVec.ofNat 64 bs.length) ∧
             ∀ l, ls = [(l, bs.length)] → h.poison = [] → s2.memOk → s2.noMigration → s2.hostOpen s.cur → wrote s2 t l bs)) ∧
      (let v : Tile := Fin.ofNat 64 (s.sr s.cur b).toNat
       let ptr := s.sr s.cur a
       ∀ ls ls2 h body, (s.part p).has v = true → bulk ptr 256 → ptr.toNat % 64 = 0 →
         s.placeRange s.cur .r ptr 256 = (.ok ls, s) → (s.readPieces s.cur true ls).1 = h.map (fun x => (x, false)) →
         let n := min (fieldAt h 32 4) 2883328
         bulk ptr (256 + n) → s.placeRange s.cur .r (ptr + 256) n = (.ok ls2, s) → (s.readPieces s.cur true ls2).1 = body.map (fun x => (x, false)) →
         let answers (code : Nat) : Prop := ∃ t, exec (.huskload d a b) s = .next t ∧ returns s t d (BitVec.ofNat 64 code)
         (fieldAt h 0 4 ≠ 0x4B535548 ∨ fieldAt h 4 2 ≠ 1 → answers 4) ∧
         (fieldAt h 0 4 = 0x4B535548 → fieldAt h 4 2 = 1 → fieldAt h 6 2 ≠ 0x1B0 → answers 1) ∧
         (headCode p h = 0 → (h.drop 192).take 64 ≠ shake256 64 body → answers 2) ∧
         (∀ x, huskCode p h body = 0 → s.huskOf h body = some x →
           ((s.tile v).freeSlot = none → answers 3) ∧
           (∀ slot, (s.tile v).freeSlot = some slot → x.tile ≠ v → x.logic.owed = true → exec (.huskload d a b) s = .next (s.cRetry false)) ∧
           (∀ slot, (s.tile v).freeSlot = some slot → x.tile = v → (∀ y ∈ (s.tile v).away, y.isOf x = false) →
             ∃ t, exec (.huskload d a b) s = .next t ∧
             (t.tile v).husks[slot] = some { x with poison := [] } ∧ (t.c s.cur).pc = (s.c s.cur).pc + 4 ∧ t.sr s.cur d = 0 ∧
             (Memory.wf (s.tile v).slice = true → h.length + body.length ≤ 0x400000 →
               onlyImage t v slot ∧ Mem.read (t.tile v).slice (image slot) (h.length + body.length) = h ++ body) ∧
             ∀ k, x.logic.task = some k → ∃ r ∈ (t.tile v).tiller, r.inst = k.inst ∧ r.idx = k.idx ∧ r.st = .frozen slot)))) ∧
    (let p := s.ev.p
     let f := s.ev.f
     let x := s.part p
     (x.switch = none → x.world = some f → exec .worldSwitch s = .next s) ∧
     ((s.vf f).part = some p → (s.vf f).flr = false → x.world ≠ some f → x.switch = none → (x.world = none ∨ x.sliceEnd ≤ s.dtime) →
       (∀ v ∈ x.tileList, (s.tile v).freezing = none) → s.pf.d3hot = false → s.pf.dchange = false → s.inTrial 0 = false → x.migration = none →
       ∃ t, exec .worldSwitch s = .next t ∧ sameBytes s t ∧ (t.part p).world = x.world ∧
         (t.part p).switch = some { to_ := f, slice := s.ev.v.toNat, began := s.dtime, save := none } ∧
         ∀ v ∈ x.tileList, (s.task v).isSome → (t.tile v).freezing = some { slot := none, at_ := s.dtime, by_ := none }) ∧
     (∀ w, x.switch = some w → w.save = none →
       (s.exchanged p = false → exec .worldSwitch s = .next s) ∧
       (s.exchanged p = true → ∃ t, exec .worldSwitch s = .next t ∧ sameBytes s t ∧ (t.part p).world = none ∧
         (t.part p).switch = some { w with save := some (s.dtime - w.began), began := s.dtime } ∧
         (∀ v ∈ x.tileList, t.task v = none ∧ (t.tile v).tiller = [] ∧ (∀ i : Fin 2, (t.tile v).husks[i] = none) ∧
           ∀ b ∈ (t.tile v).dirty, (s.tile v).slim ≤ b) ∧
         (∀ v, v ∉ x.tileList → t.tile v = s.tile v) ∧
         ∃ y ∈ (t.part p).saved, y.vf = x.world ∧ ∀ v ∈ x.tileList, ∀ k, s.task v = some k →
           ∃ h, (v, h) ∈ y.husks ∧ h.logic.task = some k ∧ h.inst = k.inst)) ∧
     (∀ w n, x.switch = some w → w.save = some n → ∃ t, exec .worldSwitch s = .next t ∧
       ((∀ y ∈ x.saved, y.vf ≠ some w.to_) → sameBytes s t ∧ (t.part p).world = some w.to_ ∧ (t.part p).switch = none ∧
         (t.part p).sliceEnd = s.dtime + max w.slice ((x.costs.find? (fun e => e.1 = w.to_)).elim 0 (fun e => e.2 + 20000)) ∧
         (t.part p).costs.find? (fun e => e.1 = w.to_) = some (w.to_, n + (s.dtime - w.began))) ∧
       (∀ y v h r k slot, x.saved = [y] → y.vf = some w.to_ → y.bins = [] → y.tillers = [(v, [r])] → y.husks = [(v, h)] →
         h.logic.task = some k → r.inst = k.inst → r.idx = k.idx → r.st = .frozen slot →
         (t.tile v).husks[slot] = some { h with poison := [] } ∧ (t.tile v).tiller = [r])))

/-- R328–R332: Thresher decides each work queue of a new eviction once: it completes when it fits before the deadline;
a queue that is checkpointed is frozen and leaves its tiles; one that is discarded ends. A finished record makes its
bins clean and settles the queue; what has not completed 10 µs before the deadline ends. The model's choices (log
entries): a checkpoint in one step, its record in another (97). -/
def Obligations.ThresherResults : Prop :=
  ∀ (s : State) (e : Eviction) (i : Inst),
    let p := s.ev.p
    (s.part p).evictions = [e] → e.no = s.ev.k →
    (e.decided = false → e.plan = [] → s.workQueues p e = [i] → s.inst p i.no = some i →
      (24 * s.dtime + s.finCk p i * ckTime s.pf.eff + 24 * 5000 ≤ 24 * e.deadline → ∃ t, exec .thresherDecision s = .next t ∧
        (t.part p).evictions = [{ e with decided := true, plan := [{ inst := i.no, choice := .complete, esc := false, settled := none }] }] ∧
        t.tiles = s.tiles ∧ (t.part p).insts = (s.part p).insts ∧ sameBytes s t) ∧
      (s.chooseFor p e [] i = .discard → ∃ t, exec .thresherDecision s = .next t ∧ t.inst p i.no = none) ∧
      (s.chooseFor p e [] i = .checkpoint → i.st = .running → (∀ u, s.mover p i.no u = none) → ∃ t j, exec .thresherDecision s = .next t ∧ t.inst p i.no = some j ∧ j.st = .parked ∧
        (∀ u, (t.task u).all (fun k => !k.isOf p i.no) ∧ ((t.tile u).part = p → ∀ r ∈ (t.tile u).tiller, r.inst ≠ i.no)) ∧
        (∃ k ∈ (t.part p).parked, k.inst = i.no ∧ ∀ u c, s.task u = some c → c.isOf p i.no = true →
          ∃ h, (u, h) ∈ k.husks ∧ h.logic.task = some c) ∧ sameBytes s t)) ∧
    (e.decided = true → exec .thresherDecision s = .next s) ∧
    (∀ k, s.inst p s.ev.j = some i → e.decided = true → (s.part p).parked = [k] → k.inst = s.ev.j → k.written = false → e.report = 0 →
      e.plan = [{ inst := s.ev.j, choice := .checkpoint, esc := false, settled := none }] →
      (k.quiet = true → ∃ t y, exec .checkpointDone s = .next t ∧ (t.part p).evictions = [] ∧ (t.part p).parked = [y] ∧ y.inst = k.inst ∧
        y.written = true ∧ ∀ u ∈ i.tiles, ∀ b ∈ s.binsOf i u, b ∉ (t.tile u).dirty) ∧
      (k.quiet = false → exec .checkpointDone s = .next s)) ∧
    (e.plan = [] → exec .checkpointDone s = .next s) ∧
    (∀ q, e.decided = true → e.plan = [q] → q.choice = .complete → q.settled = none → s.inst p q.inst = some i →
      (e.deadline ≤ s.dtime + 10000 → ∃ t, exec .escalation s = .next t ∧ t.inst p q.inst = none ∧ (t.part p).evictions = []) ∧
      (s.dtime + 10000 < e.deadline → exec .escalation s = .next s))

/-! ## Granary -/

/-- R346, R347, R349: the warrant instructions on registers: their effect where every check passes, and otherwise CAP
with the lowest cause and its register, by RISC-V's own entry, with nothing else changed. The model's choices (log
entries): the standard's entry (24). -/
def Obligations.WarrantResults : Prop :=
  ∀ (s : State) (cr b a d : Reg),
    let c := s.core
    let w := c.wr a
    let k := c.wr b
    let y := (c.xr b).toNat
    let lo (v : Warrant) : Nat := v.bits.toNat / 2 ^ 88
    let hi (v : Warrant) : Nat := v.bits.toNat / 2 ^ 48 % 2 ^ 40
    let rights (v : Warrant) : BitVec 8 := v.bits.extractLsb' 40 8
    let key (v : Warrant) : Nat := v.bits.toNat / 2 ^ 24 % 2 ^ 16
    let isW (v : Warrant) (l h : Nat) (r : BitVec 8) (n : Nat) : Prop :=
      v.v = w.v ∧ lo v = l ∧ hi v = h ∧ rights v = r ∧ key v = n ∧ v.bits.toNat % 2 ^ 24 = w.bits.toNat % 2 ^ 24
    let cap (cause : Nat) (r : Reg) : State := s.modCore (fun c => c.except 24 (BitVec.ofNat 64 (0x2000 + 256 * r.toNat + cause)))
    let x (v : Word) : Out := .next (s.modCore (fun c => { c.setX d v with pc := c.pc + 4 }))
    let wd (v : Warrant) : State := s.modCore (fun c => { c.setW d v with pc := c.pc + 4 })
    let grants : Prop := 1 ≤ lo k ∧ hi k ≤ 0xFFFF ∧ lo k ≤ hi k
    exec (.cgetb a d) s = x (BitVec.ofNat 64 (lo w)) ∧
    exec (.cgetl a d) s = x (BitVec.ofInt 64 ((hi w : Int) - (lo w : Int) + 1)) ∧
    exec (.cgetp a d) s = x (BitVec.ofNat 64 ((rights w).toNat + 256 * key w)) ∧
    exec (.ctag a d) s = x (BitVec.ofNat 64 ((if w.v then 1 else 0) + (if key w = 0 then 0 else 2))) ∧
    exec (.cmove a d) s = .next (wd w) ∧
    (∃ v, isW v (lo w) (hi w) (rights w &&& (c.xr b).extractLsb' 0 8) (key w) ∧
      exec (.candp b a d) s = .next (if key w ≠ 0 then cap 2 a else wd v)) ∧
    (∃ v, (grants → isW v (lo w) (hi w) (rights w) (lo k)) ∧
      exec (.cseal b a d) s = .next (
        if w.v = false then cap 1 a else if k.v = false then cap 1 b else if key w ≠ 0 then cap 2 a else if key k ≠ 0 then cap 2 b
        else if (rights k).getLsbD 5 = false then cap 3 b else if ¬ (1 ≤ lo k ∧ hi k ≤ 0xFFFF ∧ lo k ≤ hi k) then cap 7 b else wd v)) ∧
    (∃ v, isW v (lo w) (hi w) (rights w) 0 ∧
      exec (.cunseal b a d) s = .next (
        if w.v = false then cap 1 a else if k.v = false then cap 1 b else if key k ≠ 0 then cap 2 b
        else if (rights k).getLsbD 6 = false then cap 3 b
        else if key w = 0 ∨ key w < lo k ∨ hi k < key w then cap 7 a
        else if ¬ (1 ≤ lo k ∧ hi k ≤ 0xFFFF ∧ lo k ≤ hi k) then cap 7 b else wd v)) ∧
    (∃ v, (lo w + y + (c.xr cr).toNat ≤ 2 ^ 40 → 0 < (c.xr cr).toNat → isW v (lo w + y) (lo w + y + (c.xr cr).toNat - 1) (rights w) (key w)) ∧
      exec (.csetb cr b a d) s = .next (
        if w.v = false then cap 1 a else if key w ≠ 0 then cap 2 a else if hi w + 1 < lo w + y + (c.xr cr).toNat then cap 5 a
        else if (c.xr cr).toNat = 0 ∨ 2 ^ 40 < lo w + y + (c.xr cr).toNat then cap 6 a else wd v)) ∧
    exec (.cjalr b a d) s = .next (
      if w.v = false then cap 1 a else if key w ≠ 0 then cap 2 a else if (rights w).getLsbD 2 = false then cap 3 a
      else if hi w < lo w + y + 1 then cap 4 a else if (lo w + y) % 2 = 1 then cap 12 a
      else s.modCore (fun c => { (c.setX d (c.pc + 4 - BitVec.ofNat 64 (lo c.wpc))).setW d c.wpc with
        pc := BitVec.ofNat 64 (lo w + y), wpc := w }))

/-- R344, R345, R347, R350: CLD, CST, CLDC and CSTC under a warrant that permits the access, in private SRAM and in
the warrant store, an access fault for a poisoned block, and the causes of CAP where it does not; standard loads raise LEGACY; fifteen of the standard
integer operations, BLT, ECALL and MRET have their meanings in RV64IM and the privileged architecture. The model's
choices (log entries): the standard's encodings and registers (23, 24), the open mtval (25, 26). -/
def Obligations.GranaryCoreResults : Prop :=
  ∀ (s : State) (w b a d : Reg) (i7 : BitVec 7) (i2 : BitVec 2) (n : BitVec 2),
    let c := s.core
    let m := c.wr w
    let lo := m.bits.toNat / 2 ^ 88
    let hi := m.bits.toNat / 2 ^ 48 % 2 ^ 40
    let rights : BitVec 8 := m.bits.extractLsb' 40 8
    let open_ : Prop := m.v = true ∧ m.bits.toNat / 2 ^ 24 % 2 ^ 16 = 0
    let cap (cause : Nat) (r : Reg) : Out := .next (s.modCore (fun c => c.except 24 (BitVec.ofNat 64 (0x2000 + 256 * r.toNat + cause))))
    let addr (i : BitVec 7) (k : Nat) : Nat := (((lo : Int) + (c.xr a).toNat + i.toInt * k) % 2 ^ 40).toNat
    let len := 2 ^ n.toNat
    let xl := addr i7 len
    let xs := addr (i2 ++ d) len
    let xcl := addr i7 16
    let xcs := addr (i2 ++ d) 16
    let reaches (x k bit : Nat) : Prop := open_ ∧ rights.getLsbD bit = true ∧ lo ≤ x ∧ x + k - 1 ≤ hi ∧ x % k = 0
    (reaches xl len 0 → xl < 0x3C0000 → s.granary.poison.contains (xl / 64) = true → exec (.cld w i7 a n d) s =
      .next (s.modCore (fun c => c.except 5 (BitVec.ofNat 64 xl)))) ∧
    (reaches xl len 0 → xl < 0x3C0000 → s.granary.poison.contains (xl / 64) = false → exec (.cld w i7 a n d) s =
      .next (s.modCore (fun c => { c.setX d (BitVec.ofNat 64 (leNat (Mem.read s.granary.sram xl len))) with pc := c.pc + 4 }))) ∧
    (reaches xl len 0 → 0x410000 ≤ xl → xl < 0x800000 →
      exec (.cld w i7 a n d) s = .next (s.modCore (fun c => c.except 5 (BitVec.ofNat 64 xl)))) ∧
    (reaches xs len 1 → xs < 0x3C0000 → Memory.wf s.granary.sram = true → ∃ t, exec (.cst w i2 b a n d) s = .next t ∧
      (∀ y, Mem.byte t.granary.sram y = if xs ≤ y ∧ y < xs + len then BitVec.ofNat 8 ((c.xr b).toNat / 2 ^ (8 * (y - xs)))
        else Mem.byte s.granary.sram y) ∧
      t.granary.cores = (s.modCore (fun c => { c with pc := c.pc + 4 })).granary.cores ∧ t.granary.wstore = s.granary.wstore ∧
      t.granary.wvalid = s.granary.wvalid ∧ t.granary.bank = s.granary.bank ∧ sameBytes s t) ∧
    (reaches xcl 16 0 → 0x3C0000 ≤ xcl → xcl < 0x400000 → s.granary.poison.contains (xcl / 64) = false →
      let v : Warrant := ⟨BitVec.ofNat 128 (leNat (Mem.read s.granary.wstore (xcl - 0x3C0000) 16)),
        s.granary.wvalid.contains ((xcl - 0x3C0000) / 16)⟩
      exec (.cldc w i7 a d) s = .next (s.modCore (fun c => { c.setW d v with pc := c.pc + 4 }))) ∧
    (reaches xcs 16 1 → 0x3C0000 ≤ xcs → xcs < 0x400000 → Memory.wf s.granary.wstore = true →
      let v := c.wr b
      let slot := (xcs - 0x3C0000) / 16
      (v.v = true ∧ v.bits.getLsbD 44 = false → exec (.cstc w i2 b a d) s = cap 9 b) ∧
      ((v.v = true → v.bits.getLsbD 44 = true) → ∃ t, exec (.cstc w i2 b a d) s = .next t ∧
        Mem.read t.granary.wstore (16 * slot) 16 = leBytes 16 v.bits.toNat ∧
        (∀ y, y < 16 * slot ∨ 16 * slot + 16 ≤ y → Mem.byte t.granary.wstore y = Mem.byte s.granary.wstore y) ∧
        (∀ k, k ∈ t.granary.wvalid ↔ if k = slot then v.v = true else k ∈ s.granary.wvalid) ∧
        t.granary.cores = (s.modCore (fun c => { c with pc := c.pc + 4 })).granary.cores ∧ t.granary.sram = s.granary.sram ∧ sameBytes s t)) ∧
    (m.v = false → exec (.cld w i7 a n d) s = cap 1 w ∧ exec (.cst w i2 b a n d) s = cap 1 w ∧ exec (.cldc w i7 a d) s = cap 1 w ∧
      exec (.cstc w i2 b a d) s = cap 1 w) ∧
    (m.v = true → ¬ open_ → exec (.cld w i7 a n d) s = cap 2 w ∧ exec (.cstc w i2 b a d) s = cap 2 w) ∧
    (open_ → rights.getLsbD 0 = false → exec (.cld w i7 a n d) s = cap 3 w ∧ exec (.cldc w i7 a d) s = cap 3 w) ∧
    (open_ → rights.getLsbD 1 = false → exec (.cst w i2 b a n d) s = cap 3 w ∧ exec (.cstc w i2 b a d) s = cap 3 w) ∧
    (reaches xl len 0 → 0x3C0000 ≤ xl → xl < 0x400000 → exec (.cld w i7 a n d) s = cap 8 w) ∧
    (reaches xcl 16 0 → xcl < 0x3C0000 → exec (.cldc w i7 a d) s = cap 8 w) ∧
    (∀ f o, ∃ r : Nat, r < 64 ∧ ∃ t, exec (.rv64 false (.load f d a o)) s = .next t ∧
      t = s.drawn.modCore (fun c => c.except 24 (BitVec.ofNat 64 (256 * r + 0x0B)))) ∧
    (∀ e ∈ ([(.add, fun p q => p + q), (.sub, fun p q => p - q), (.xor, fun p q => p ^^^ q), (.or, fun p q => p ||| q),
        (.and, fun p q => p &&& q), (.sll, fun p q => BitVec.ofNat 64 (p.toNat * 2 ^ (q.toNat % 64))),
        (.srl, fun p q => BitVec.ofNat 64 (p.toNat / 2 ^ (q.toNat % 64))), (.sra, fun p q => BitVec.ofInt 64 (p.toInt / 2 ^ (q.toNat % 64))),
        (.slt, fun p q => if p.toInt < q.toInt then 1 else 0), (.sltu, fun p q => if p.toNat < q.toNat then 1 else 0),
        (.mulh, fun p q => BitVec.ofInt 64 (p.toInt * q.toInt / 2 ^ 64)), (.mulhu, fun p q => BitVec.ofNat 64 (p.toNat * q.toNat / 2 ^ 64)),
        (.div, fun p q => if q = 0 then BitVec.allOnes 64 else BitVec.ofInt 64 (p.toInt.tdiv q.toInt)),
        (.remu, fun p q => if q = 0 then p else BitVec.ofNat 64 (p.toNat % q.toNat)),
        (.addw, fun p q => BitVec.ofInt 64 ((p.toInt + q.toInt).bmod (2 ^ 32)))] : List (RvOp × (Word → Word → Word))),
      exec (.rv64 false (.op e.1 d a b)) s =
        .next (s.modCore (fun c => { c.setX d (e.2 (c.xr a) (c.xr b)) with pc := c.pc + 4 }))) ∧
    (∀ off, exec (.rv64 false (.branch .lt a b off)) s = .next (s.modCore (fun c =>
      { c with pc := if (c.xr a).toInt < (c.xr b).toInt then c.pc + BitVec.ofInt 64 off.toInt else c.pc + 4 }))) ∧
    exec (.rv64 false .ecall) s = .next (s.modCore (fun c => c.except (if c.mach then 11 else 8) 0)) ∧
    (c.mach = true → ∃ t, exec (.rv64 false .mret) s = .next t ∧ t.core.pc = c.mepc ∧
      (t.core.mach = true ↔ c.mstatus.toNat / 2 ^ 11 % 4 = 3) ∧ t.core.mstatus.getLsbD 3 = c.mstatus.getLsbD 7 ∧ t.core.x = c.x)

/-- R354–R359: the update commands and what ends a trial: VERIFY and its end, SWITCH with its checks in order,
HANDOVER-ACCEPT, HEARTBEAT and ABORT; fallback makes the trial bank INVALID and the other ACTIVE again, with its code;
an ACTIVE image that misses its heartbeat is restarted. No tile, partition or memory changes. The model's choices (log
entries): the strictness of a gap (99), SWITCH and ABORT beside a verification (155), the standards' functions (100, 101), where an image enters (102, 103). -/
def Obligations.FirmwareResults : Prop :=
  ∀ (s : State),
    let c := s.ev.c
    let x := s.ctrl c
    let other := !x.run
    let ends (out : Out) (y : CtrlSt → Prop) : Prop := ∃ t, out = .next t ∧ y (t.ctrl c) ∧ (∀ d, d ≠ c → t.ctrl d = s.ctrl d) ∧ sameBytes s t ∧
      t.tiles = s.tiles ∧ t.parts = s.parts ∧ (c ≠ 0 → t.granary.cores = s.granary.cores)
    let notes (out : Out) : Prop := ∃ t, out = .next t ∧
      t.sent = if s.pf.msix[(2 : Fin 4)].masked ∨ s.hostUp = false then s.sent else s.sent ++ [MsixSent.mk 0 2]
    let fell (out : Out) (code : Nat) : Prop := notes out ∧ ends out (fun y => y.run = other ∧ y.bankSt x.run = .invalid ∧
      y.bankSt other = .active ∧ y.trial = none ∧ y.err = code ∧ y.falls = min 255 (x.falls + 1) ∧ y.bankA = x.bankA ∧ y.bankB = x.bankB ∧
      y.live = x.live ∧ y.base = x.base)
    (x.trial = none → x.verifying = false → ends (exec .ucmdVerify s) (fun y => y = { x with verifying := true })) ∧
    (x.trial.isSome ∨ x.verifying = true → ends (exec .ucmdVerify s) (fun y => y = { x with err := 12 })) ∧
    (x.verifying = true → s.pf.recov = false →
      ends (exec .verificationDone s) (fun y => y.bankSt other = (if x.verifyCode c = 0 then .staged else .invalid) ∧
        y.bankSt x.run = x.bankSt x.run ∧ y.verifying = false ∧ y.err = (if x.verifyCode c = 0 then x.err else x.verifyCode c) ∧ y.run = x.run) ∧
      (fieldAt x.idleBank 0 4 ≠ 0x474D4946 → ends (exec .verificationDone s) (fun y => y.bankSt other = .invalid ∧
        y.bankSt x.run = x.bankSt x.run ∧ y.verifying = false ∧ y.err = 1 ∧ y.run = x.run)) ∧
      (x.mbWaits = true → ∃ t, exec .verificationDone s = .next t ∧
        t.pf.mbResult = some (if x.verifyCode c = 0 then 0 else 16 + x.verifyCode c))) ∧
    (x.verifying = false → exec .verificationDone s = .next s) ∧
    (s.ev.bytes = [] →
      (c ≠ 0 → s.inTrial 0 = true → ends (exec .ucmdSwitch s) (fun y => y = { x with err := 13 })) ∧
      (c = 0 ∨ s.inTrial 0 = false →
        (x.bankSt other ≠ .staged ∨ x.trial.isSome ∨ x.verifying = true → ends (exec .ucmdSwitch s) (fun y => y = { x with err := 12 })) ∧
        (x.bankSt other = .staged → x.trial = none →
          x.verifying = false →
          (s.liveCurrent c = false → ends (exec .ucmdSwitch s) (fun y => y = { x with err := 14 })) ∧
          (s.liveCurrent c = true → ends (exec .ucmdSwitch s) (fun y => y.run = other ∧ y.bankSt other = .trial ∧ y.bankSt x.run = .idle ∧
            y.base = x.live ∧ y.trial = some s.dtime ∧ y.beat = none ∧ y.err = x.err) ∧
            (c = 0 → ∃ t, exec .ucmdSwitch s = .next t ∧ ∀ k : Fin 8,
              (t.granary.cores[k]).pc = Config.imageEntry other (fieldAt x.idleBank 16 4) ∧ (t.granary.cores[k]).mach = true ∧
              (t.granary.cores[k]).running = true))))) ∧
    (∀ t0, x.trial = some t0 →
      let last := max t0 (x.beat.getD t0)
      let gap : Prop := last + 10000000 ≤ t0 + 100000000
      let limit : Nat := if gap then last + 10000000 else t0 + 100000000
      let code : Nat := if gap then 10 else 9
      (s.dtime < limit → ends (exec .ucmdHandoverAccept s) (fun y => y.bankSt x.run = .active ∧ y.bankSt other = x.bankSt other ∧
        y.run = x.run ∧ y.trial = none ∧ y.err = x.err)) ∧
      (limit ≤ s.dtime → fell (exec .ucmdHandoverAccept s) code ∧ (s.ev.bytes = [] → fell (exec .ucmdHeartbeat s) code)) ∧
      (s.dtime < t0 + 100000000 → exec .handoverTimeout s = .next s) ∧
      (t0 + 100000000 ≤ s.dtime → fell (exec .handoverTimeout s) 9) ∧
      (s.ev.bytes = [] → s.dtime < limit → ends (exec .ucmdHeartbeat s) (fun y => y = { x with beat := some s.dtime })) ∧
      (s.dtime < last + 10000000 → exec .trialHeartbeatGap s = .next s) ∧
      (last + 10000000 ≤ s.dtime → fell (exec .trialHeartbeatGap s) 10) ∧
      fell (exec .controllerResetInTrial s) 11) ∧
    (x.trial = none →
      ends (exec .ucmdHandoverAccept s) (fun y => y = { x with err := 12 }) ∧
      (s.ev.bytes = [] → (∀ b, x.beat = some b → s.dtime ≤ b + 10000000) →
        ends (exec .ucmdHeartbeat s) (fun y => y = { x with beat := some s.dtime })) ∧
      exec .controllerResetInTrial s = .next s ∧
      (∀ b, x.beat = some b →
        (s.ev.bytes = [] → b + 10000000 < s.dtime → notes (exec .ucmdHeartbeat s) ∧
          ends (exec .ucmdHeartbeat s) (fun y => y = { x with beat := some s.dtime, err := 10, falls := min 255 (x.falls + 1) })) ∧
        (b + 10000000 < s.dtime → x.bankSt x.run = .active → x.held = false → notes (exec .heartbeatGap s) ∧
          ends (exec .heartbeatGap s) (fun y => y = { x with beat := some s.dtime, err := 10, falls := min 255 (x.falls + 1) })) ∧
        (s.dtime ≤ b + 10000000 → exec .heartbeatGap s = .next s))) ∧
    (x.bankSt other = .staged → x.verifying = false → ends (exec .ucmdAbort s) (fun y => y.bankSt other = .invalid ∧ y.bankSt x.run = x.bankSt x.run ∧ y.err = x.err)) ∧
    (x.bankSt other ≠ .staged ∨ x.verifying = true → ends (exec .ucmdAbort s) (fun y => y = { x with err := 12 }))

/-! ## The host -/

/-- R364–R367, R370–R372, R374: NOTIFY moves TAIL and the front end reads the new record, or ERR is set; QCTL enables,
disables and empties a queue; a record's completion writes its entry, sends its vector and moves HEAD; accesses
through BAR2 reach the VF's partition, and none during an FLR; unmasking sends a pending message once; the host reads
queue pages, the PF's registers and the MSI-X tables. The model's choices (log entries): EN 1 during a disabling (108);
the host port (161, 162), self-refresh (165), the reads' widths (173). -/
def Obligations.QueueResults : Prop :=
  ∀ (s : State) (p : PartId),
    let f := s.ev.f
    let q := s.ev.q
    let y := s.queue f q
    let v := s.ev.v
    let tail : BitVec 16 := v.extractLsb' 0 16
    let fits : Prop := y.en = true ∧ (tail - y.head).toNat ≤ 2 ^ y.log2n.toNat ∧ (y.rd - y.head).toNat ≤ (tail - y.head).toNat
    let up : Prop := s.hostUp = true ∧ s.pf.selfRefresh = 0
    ((s.vf f).part = some p → (s.vf f).flr = false → up →
      (¬ fits → exec .notify s = .next (s.modQueue f q (fun y => { y with err := true }))) ∧
      (∀ bs s2, fits → tail = y.rd + 1 → s.inTrial 0 = false →
        (s.modQueue f q (fun y => { y with tail := tail, blocked := false })).ptrRead p
          (y.base + BitVec.ofNat 64 (64 * (y.rd.toNat % 2 ^ y.log2n.toNat))) 64 = (some bs, s2) →
        exec .notify s = .next (s2.modQueue f q (fun y =>
          { y with pend := y.pend ++ [{ idx := y.rd, bytes := bs, st := .read }], rd := y.rd + 1 }))) ∧
      (fits → s.inTrial 0 = true → exec .notify s = .next (s.modQueue f q (fun y => { y with tail := tail, blocked := false }))) ∧
      (y.en = false → ∃ t, exec .queueEnable s = .next t ∧
        (let ok : Prop := 2 ≤ v.toNat % 16 ∧ v.toNat % 16 ≤ 12 ∧ ∀ b ∈ [y.base, y.cbase], (b.toNat / 2 ^ 60 = 4 ∨ b.toNat / 2 ^ 60 = 7) ∧ b.toNat % 64 = 0
         (ok → t.queue f q = { y with en := true, log2n := v.extractLsb' 0 4, disabling := false, err := y.err && !v.getLsbD 62 }) ∧
         (¬ ok → t.queue f q = { y with log2n := v.extractLsb' 0 4, err := true })) ∧ sameBytes s t) ∧
      (y.en = true → ∃ t, exec .queueDisable s = .next t ∧
        t.queue f q = { y with en := false, disabling := true, err := y.err && !v.getLsbD 62 } ∧ sameBytes s t)) ∧
    ((s.vf f).part = none ∨ (s.vf f).flr = true ∨ s.hostUp = false →
      exec .notify s = .next s ∧ exec .queueEnable s = .next s ∧ exec .queueDisable s = .next s) ∧
    (y.disabling = true → y.pend = [] → ∃ t, exec .queueDisableDone s = .next t ∧
      t.queue f q = { y with head := 0, tail := 0, rd := 0, disabling := false, blocked := false } ∧ sameBytes s t) ∧
    (y.pend ≠ [] → exec .queueDisableDone s = .next s) ∧
    (∀ r status value, up → (s.vf f).part = some p → (s.vf f).flr = false → y.pend = [r] → r.bytes.length = 64 → r.st = .ended status value → r.idx.toNat = s.ev.k →
      let slot : Word := y.cbase + BitVec.ofNat 64 (16 * (r.idx.toNat % 2 ^ y.log2n.toNat))
      let flags := fieldAt r.bytes 1 1
      let done (t : State) : Prop := t.queue f q = { y with head := y.head + 1, pend := [] } ∧
        t.sent = (if flags / 2 % 2 = 1 ∧ (s.vf f).msix[(0 : Fin 4)].masked = false then s.sent ++ [MsixSent.mk (f.val + 1) 0] else s.sent)
      (flags % 2 = 0 → ∃ t, exec .recordComplete s = .next t ∧ done t ∧ sameBytes s t) ∧
      (∀ l s2, flags % 2 = 1 → s.memOk → s.noMigration → s.hostPtr p slot 16 = true →
        s.placeAll (s.part p).home p .w [slot] = (.ok [l], s2) → s2.memOk →
        ∃ t bs, exec .recordComplete s = .next t ∧
          (slot.toNat / 2 ^ 60 = 7 ∧ t.queue f q = { y with head := y.head + 1, pend := [], err := true } ∧ sameBytes s2 t ∨
          done t ∧ wrote s2 t l bs ∧ bs.length = 16 ∧ fieldAt bs 0 4 = fieldAt r.bytes 4 4 ∧ fieldAt bs 4 1 = fieldAt r.bytes 0 1 ∧ fieldAt bs 5 1 = status % 256 ∧
          fieldAt bs 6 1 = r.idx.toNat / 2 ^ y.log2n.toNat % 2 ∧ fieldAt bs 7 1 = 0 ∧ fieldAt bs 8 8 = value.toNat))) ∧
    (s.pf.selfRefresh ≠ 0 → exec .bar2Read s = .next s ∧ exec .bar2Write s = .next s) ∧
    ((s.vf f).part = some p → up →
      (∀ pa l s2, (s.vf f).flr = false → 0 < s.ev.k → v.toNat % 65536 + s.ev.k ≤ 65536 → v.toNat + s.ev.k ≤ 2 ^ 36 →
        s.translate none p false v.toNat .r = (.ok pa l, s2) →
        exec .bar2Read s = .next { s2 with bar2Data := some (Mem.read s2.bulk pa s.ev.k) }) ∧
      (∀ pa l s2, (s.vf f).flr = false → 0 < s.ev.bytes.length → v.toNat % 65536 + s.ev.bytes.length ≤ 65536 →
        v.toNat + s.ev.bytes.length ≤ 2 ^ 36 → s.noMigration → s2.memOk →
        s.translate none p false v.toNat .w = (.ok pa l, s2) →
        ∃ t, exec .bar2Write s = .next t ∧ wrote s2 t (.bulk p v.toNat pa l true) s.ev.bytes) ∧
      ((s.vf f).flr = true → exec .bar2Read s = .next { s with bar2Data := none } ∧ exec .bar2Write s = .next s)) ∧
    (s.ev.j < 4 → s.hostUp = true →
      (s.ev.k = 0 → s.pf.d3hot = false → s.pf.cold = false → ∃ t, exec .vectorUnmask s = .next t ∧ sameBytes s t ∧ (t.pf.msix[(Fin.ofNat 4 s.ev.j)]).masked = false ∧
        (t.pf.msix[(Fin.ofNat 4 s.ev.j)]).pending = false ∧
        t.sent = (if (s.pf.msix[(Fin.ofNat 4 s.ev.j)]).pending then s.sent ++ [MsixSent.mk 0 s.ev.j] else s.sent)) ∧
      (∀ g : VfId, s.ev.k = g.val + 1 → (s.vf g).flr = false → ∃ t, exec .vectorUnmask s = .next t ∧ sameBytes s t ∧
        ((t.vf g).msix[(Fin.ofNat 4 s.ev.j)]).masked = false ∧ ((t.vf g).msix[(Fin.ofNat 4 s.ev.j)]).pending = false ∧
        t.sent = (if ((s.vf g).msix[(Fin.ofNat 4 s.ev.j)]).pending then s.sent ++ [MsixSent.mk (g.val + 1) s.ev.j] else s.sent))) ∧
    (s.hostUp = true →
      let reads (r : HostRead) (v : Word) : Prop := s.hostRead r = { s with hostData := some v }
      (∀ g off, (s.vf g).part = none → (s.vf g).flr = false → reads (.vfBar0 g off) (BitVec.allOnes 64)) ∧
      (∀ g off, (s.vf g).flr = true → s.hostRead (.vfBar0 g off) = { s with hostData := none } ∧ s.hostRead (.vfBar4 g off) = { s with hostData := none }) ∧
      (∀ g (n : QueueId), (s.vf g).part.isSome → (s.vf g).flr = false →
        let x := s.queue g n
        reads (.vfBar0 g (4096 * n.val)) (BitVec.ofNat 64 (x.head.toNat * 2 ^ 16 + x.tail.toNat)) ∧
        reads (.vfBar0 g (4096 * n.val + 8)) x.base ∧
        reads (.vfBar0 g (4096 * n.val + 16)) (BitVec.ofNat 64 (x.log2n.toNat + (if x.en then 2 ^ 63 else 0) + if x.err then 2 ^ 62 else 0)) ∧
        reads (.vfBar0 g (4096 * n.val + 24)) x.cbase) ∧
      (s.pf.d3hot = false → s.pf.cold = false →
        reads (.pfBar0 0) 0 ∧ reads (.pfBar0 0x28) (BitVec.ofNat 64 (s.pf.result.toNat + 256 * s.pf.last.toNat + if s.pf.busy then 2 ^ 63 else 0)) ∧
        reads (.pfBar0 0x100) (BitVec.ofNat 64 s.pf.level.toNat) ∧ reads (.pfBar0 0x120) (BitVec.ofNat 64 s.pf.hbmsr.toNat) ∧
        reads (.pfBar0 0x108) (BitVec.ofNat 64 (s.pf.eff.toNat + (if s.pf.ready then 4 else 0) + (if s.pf.recov then 8 else 0) + s.pf.tj.toNat * 256)) ∧
        ∀ k : Fin 4, reads (.pfBar0 (8 + 8 * k.val)) s.pf.mbargs[k]) ∧
      (s.pf.d3hot = true → ∀ off, s.hostRead (.pfBar4 off) = { s with hostData := none }))

/-- R284, R285, R328, R368, R369: the operations of launch records end with their status and value: a stream is
created from its descriptor, or destroyed when nothing of it is pending; a graph is queued; pages are mapped, unmapped
and given other rights, unless tier 1 cannot hold them; an eviction is posted. The model's choices (log entries):
reserved bytes of a payload (106), MEM-MAP of no bytes (107), the heap (15), the ring's control block (86), a full tier 1
(163). -/
def Obligations.RecordResults : Prop :=
  ∀ (s : State) (p : PartId) (r : PendRec), s.recordAt p r →
    let num (o n : Nat) : Nat := leNat ((r.bytes.drop o).take n)
    let zero (o n : Nat) : Prop := zeroAt r.bytes o n = true
    let s1 := s.startRecord s.ev.f s.ev.q r.idx
    let x := s.part p
    let ends (out : Out) (status value : Nat) : Prop :=
      ∃ t, out = .next t ∧ s.recordEnds t r status (BitVec.ofNat 64 value) ∧ t.part p = x ∧ sameBytes s t
    let ptr (o n : Nat) : Prop := (num o 8 / 2 ^ 60 = 4 ∨ num o 8 / 2 ^ 60 = 7) ∧ num o 8 / 2 ^ 48 % 4096 = 0 ∧ num o 8 % 2 ^ 48 + n ≤ 2 ^ 48
    ((num 0 1 = 0 ∨ 6 < num 0 1) → ends (exec .unknownOp s) 16 0) ∧
    (num 0 1 = 1 → num 8 4 < 1024 → zero 12 4 → zero 24 40 → ptr 16 192 → ∀ d s2, s1.ptrRead p (BitVec.ofNat 64 (num 16 8)) 192 = (some d, s2) →
      let n := num 8 4
      let fld (o k : Nat) : Nat := leNat ((d.drop o).take k)
      let ring := fld 16 8 % 2 ^ 48
      (s2.streamOk p d = true → (s2.part p).stream n = none → (s2.hwPieces p ring 64).isSome → s2.hwPoisoned p ring 64 = false → fld 36 4 = 0 → (s2.part p).pins.length ≤ (s2.part p).q0 →
        ∃ t st, exec .streamCreate s = .next t ∧ s.recordEnds t r 0 0 ∧ (t.part p).streams = (s2.part p).streams ++ [(n, st)] ∧
          st.period = fld 0 8 ∧ st.deadoff = fld 8 8 ∧ st.ring.toNat = fld 16 8 ∧ st.nslot = fld 24 4 ∧ st.slotsz = fld 28 4 ∧
          st.nrung = fld 32 1 ∧ st.rung = fld 33 1 ∧ st.cls = fld 34 1 ∧ st.wdns = fld 48 8 ∧ st.iparam.toNat = fld 56 8 ∧
          st.prod = s2.hwNum p ring 8 ∧ st.commit = s2.hwNum p (ring + 8) 8 ∧ st.vf = some s.ev.f ∧ st.pend = none ∧ st.overrun = 0 ∧
          sameBytes s2 t) ∧
      (s2.streamOk p d = true → ((s2.part p).stream n).isSome → ∃ t, exec .streamCreate s = .next t ∧ s.recordEnds t r 18 0) ∧
      (s2.streamOk p d = false → ∃ t, exec .streamCreate s = .next t ∧ s.recordEnds t r 17 0)) ∧
    (num 0 1 = 1 → 1024 ≤ num 8 4 → ends (exec .streamCreate s) 17 0) ∧
    (num 0 1 = 2 → num 8 4 < 1024 → zero 12 52 →
      (x.stream (num 8 4) = none → ends (exec .streamDestroy s) 18 0) ∧
      (∀ st, x.stream (num 8 4) = some st → st.destroying = none →
        ((∀ i ∈ x.insts, i.src ≠ .stream (num 8 4)) → ∃ t, exec .streamDestroy s = .next t ∧ s.recordEnds t r 0 (BitVec.ofNat 64 st.commit) ∧
          (t.part p).streams = x.streams.filter (fun e => e.1 != num 8 4) ∧ (t.part p).insts = x.insts ∧ sameBytes s t) ∧
        ((∃ i ∈ x.insts, i.src = .stream (num 8 4)) → ∃ t st', exec .streamDestroy s = .next t ∧ s.recordStarts t r ∧
          (t.part p).stream (num 8 4) = some st' ∧ st'.destroying = some (s.ev.f, s.ev.q, r.idx.toNat) ∧ (t.part p).insts = x.insts ∧
          sameBytes s t))) ∧
    (num 0 1 = 3 → num 32 1 ≤ 3 → zero 33 31 → ptr 8 64 →
      (x.queueLen < 256 → ∃ t j, exec .graphLaunch s = .next t ∧ s.recordStarts t r ∧ (t.part p).insts = x.insts ++ [j] ∧ j.no = x.instNo + 1 ∧
        j.graphPtr = BitVec.ofNat 64 (num 8 8) ∧ j.iparam = BitVec.ofNat 64 (num 16 8) ∧ j.dl = num 24 8 ∧ j.cls = num 32 1 ∧
        j.world = some s.ev.f ∧ j.src = .host s.ev.f s.ev.q r.idx.toNat ∧ j.st = .queued ∧ sameBytes s t) ∧
      (256 ≤ x.queueLen → ends (exec .graphLaunch s) 18 0)) ∧
    (num 0 1 = 3 → 3 < num 32 1 → ends (exec .graphLaunch s) 17 0) ∧
    (let va := num 8 8
     let n := num 16 8 / 65536
     let mode (k : Nat) : Prop := num 0 1 = 4 ∧ num 32 1 = k ∧ num 33 1 ≤ 7 ∧ zero 34 30 ∧ va % 65536 = 0 ∧ num 16 8 % 65536 = 0 ∧ va + num 16 8 ≤ 2 ^ 48
     let done (host : Bool) (out : Out) (value : Nat) (t : State) : Prop := out = .next t ∧ s.recordEnds t r 0 (BitVec.ofNat 64 value) ∧
       ∀ e, (e ∈ t.dieTb ∨ ∃ u, e ∈ (t.tile u).tb) → ¬ (e.part = p ∧ e.host = host ∧ e.va < va + 65536 * n ∧ va < e.va + e.size)
     let leaf (host : Bool) (e a : Nat) : Prop := n = 1 ∧ walkFrom s.bulk va 3 (s.tableRoot p host) = .leaf e a 0 ∧ s.memOk
     let fits (x : State) : Prop := x.tier1Full = false
     let sets (t : State) (a e : Nat) : Prop := Mem.read t.bulk a 8 = leBytes 8 e ∧ ∀ z, (∀ k, k < 8 → z ≠ .bulk (a + k)) → t.byteAt z = s.byteAt z
     (mode 0 → s.holdsStructure p va (65536 * n) = false → grainsOf s.bulk 3 (s.tableRoot p false) - s.mappedIn p false va n + n ≤ x.q1 →
       let a := s1.allocRange p (num 33 1) va n
       (fits a → ∃ t, done false (exec .memMapAlloc s) n t ∧ t.bulk = a.bulk) ∧
       (a.tier1Full = true → s.tier1Used < a.tier1Used → ends (exec .memMapAlloc s) 18 0)) ∧
     (mode 0 → x.q1 < grainsOf s.bulk 3 (s.tableRoot p false) - s.mappedIn p false va n + n → ends (exec .memMapAlloc s) 18 0) ∧
     (mode 1 → s.holdsStructure p va (65536 * n) = false → fits (s1.unmapRange p false va n) → ∃ t, done false (exec .memMapFree s) (s.mappedIn p false va n) t ∧
       (∀ g ∈ (t.part p).resident, g < va / 65536 ∨ va / 65536 + n ≤ g) ∧ ∀ e a, leaf false e a → sets t a 0) ∧
     (mode 1 → s.holdsStructure p va (65536 * n) = true → ends (exec .memMapFree s) 18 0) ∧
     (mode 2 → num 24 8 % 65536 = 0 → num 24 8 + num 16 8 ≤ 2 ^ 52 →
       fits ((s1.unmapRange p true va n).mapRange p true (num 33 1) n va (num 24 8) n) → ∃ t, done true (exec .memMapHwin s) n t ∧ t.host = s.host) ∧
     (mode 2 → num 24 8 % 65536 ≠ 0 → ends (exec .memMapHwin s) 17 0) ∧
     (mode 3 → fits (s1.unmapRange p true va n) → ∃ t, done true (exec .memMapHunmap s) (s.mappedIn p true va n) t ∧ ∀ e a, leaf true e a → sets t a 0) ∧
     (mode 4 → fits (s1.editPages p false va n (fun e => e / 32 * 32 + e % 4 + 4 * num 33 1)) → ∃ t, done false (exec .memMapProtect s) (s.mappedIn p false va n) t ∧
       ∀ e a, leaf false e a → sets t a (e / 32 * 32 + e % 4 + 4 * num 33 1))) ∧
    (num 0 1 = 5 → zero 16 48 → ptr 8 64 → ∀ d s2, s1.ptrRead p (BitVec.ofNat 64 (num 8 8)) 64 = (some d, s2) →
      let deadline := leNat ((d.drop 8).take 8)
      (s2.evictOk p d true = true → s2.dtime + 60000 ≤ deadline → ∃ t e, exec .evict s = .next t ∧ s.recordStarts t r ∧
        (t.part p).evictions = (s2.part p).evictions ++ [e] ∧ e.no = (s2.part p).evNo + 1 ∧ e.deadline = deadline ∧
        e.tiles.toNat = leNat (d.take 8) ∧ e.host = some (s.ev.f, s.ev.q, r.idx.toNat) ∧ e.decided = false ∧ sameBytes s2 t) ∧
      (s2.evictOk p d true = true → deadline < s2.dtime + 60000 → ∃ t, exec .evict s = .next t ∧ s.recordEnds t r 18 0) ∧
      (s2.evictOk p d true = false → ∃ t, exec .evict s = .next t ∧ s.recordEnds t r 17 0))

/-- R360, R373–R376: the phases of a migration, each with the result of its record; a round fetches and clears the
bitmap word by word, copies each page marked to the peer, block by block, and ends with the pages copied; an FLR drops
the VF's records and instances at its latch, which waits for the end of a trial of controller 0, and leaves queues and
vectors at their reset values at its end. The model's choices (log entries): layouts and statuses of a migration
(109–113), the moves of a round (167), a latch in a trial (174). -/
def Obligations.MigrationResults : Prop :=
  (∀ (s : State) (p : PartId) (r : PendRec), s.recordAt p r →
    let num (o n : Nat) : Nat := leNat ((r.bytes.drop o).take n)
    let zero (o n : Nat) : Prop := zeroAt r.bytes o n = true
    let s1 := s.startRecord s.ev.f s.ev.q r.idx
    let phase (k : Nat) : Prop := num 0 1 = 6 ∧ num 8 1 = k ∧ zero 9 7
    let ends (out : Out) (status : Nat) : Prop := ∃ t, out = .next t ∧ s.recordEnds t r status 0 ∧ t.part p = s.part p ∧ sameBytes s t
    let mine (m : Migration) : Prop := (s.part p).migration = some m ∧ m.vf = s.ev.f
    let tiles := (s.part p).tileList.length
    (phase 0 → zero 48 16 → num 24 8 % 65536 = 0 → num 24 8 ≤ 2 ^ 48 → num 32 10 ≤ 1023 → num 42 6 ≤ 39 →
      let words := (num 24 8 + 4194303) / 4194304
      let bmap : Word := BitVec.ofNat 64 (num 16 8)
      let map := (List.range (8 * words)).map (s.mappedByte p (num 24 8)) ++ List.replicate (512 * tiles) 0
      s.hostPtr p bmap (8 * words + 512 * tiles) = true →
      ((s.part p).migration.isSome → ends (exec .migrateStart s) 18) ∧
      (∀ g s2, (s.part p).migration = none → s.domEntry p (num 32 10) = some g → g.rpart = num 42 6 → grants g.rights .w = true →
        s1.ptrWrites p bmap map (cutsOf (wbits bmap 0 48) map.length) = (true, s2) → ∃ t, exec .migrateStart s = .next t ∧ s.recordEnds t r 0 (BitVec.ofNat 64 (popcount map)) ∧
          (t.part p).migration = some { vf := s.ev.f, bmap := bmap, span := num 24 8, dev := num 32 10, part := num 42 6, stopped := false, round := none } ∧
          sameBytes s2 t)) ∧
    (phase 1 → zero 16 48 →
      ((s.part p).migration = none → ends (exec .migrateRound s) 18) ∧
      (∀ m, mine m → m.round = none → ∃ t, exec .migrateRound s = .next t ∧ s.recordStarts t r ∧ sameBytes s t ∧
        (t.part p).migration = some { m with round := some ⟨s.ev.q, r.idx, 0, [], 0, 0, false⟩ })) ∧
    (phase 2 → zero 16 48 →
      ((s.part p).world = some s.ev.f → s.switchable p = false → exec .migrateStop s = .next s) ∧
      ((s.part p).world ≠ some s.ev.f → (s.part p).migration = none → ends (exec .migrateStop s) 18) ∧
      (∀ m, mine m → m.stopped = true → m.round = none → (s.part p).world ≠ some s.ev.f → ends (exec .migrateStop s) 18) ∧
      (∀ m, mine m → m.stopped = false → m.round = none → ((s.part p).world = some s.ev.f → s.switchable p = true) →
        ∃ t, exec .migrateStop s = .next t ∧ s.recordStarts t r ∧ (t.part p).world ≠ some s.ev.f ∧
          (t.part p).migration = some { m with stopped := true, round := some ⟨s.ev.q, r.idx, 0, [], 0, 0, true⟩ })) ∧
    (phase 3 → zero 16 16 → num 32 10 ≤ 1023 → zero 42 22 →
      (s.ckptVa p = 0 → ends (exec .migrateResume s) 18) ∧
      (∀ bs, s.ckptVa p ≠ 0 → s.hwRead p (s.ckptVa p) (65536 * s.hwNum p (s.ckptVa p + 4) 4) = some bs → ∃ t, exec .migrateResume s = .next t ∧
        match Config.arrival (num 32 10) bs with
        | some a => if a.rev = 0x1B0 then s.recordEnds t r 0 (BitVec.ofNat 64 a.husks.length) ∧
            ((a.husks = [] ∨ ∃ g, g ≠ s.ev.f ∧ (s.part p).world = some g) → ∀ i ∈ a.insts, { i with world := some s.ev.f } ∈ (t.part p).insts) ∧
            ((s.part p).world = none → (t.part p).world = some s.ev.f)
          else s.recordEnds t r 18 0
        | none => s.recordEnds t r 18 0)) ∧
    (phase 4 → zero 16 48 →
      ((s.part p).migration = none → ends (exec .migrateCancel s) 18) ∧
      (∀ m, mine m → m.round = none → m.stopped = false →
        ∃ t, exec .migrateCancel s = .next t ∧ s.recordEnds t r 0 0 ∧ (t.part p).migration = none ∧ sameBytes s t) ∧
      (∀ m, mine m → m.round = none → m.stopped = true → (s.part p).world = none → (∀ w ∈ (s.part p).saved, w.vf ≠ some s.ev.f) →
        ∃ t, exec .migrateCancel s = .next t ∧ s.recordEnds t r 0 0 ∧ (t.part p).migration = none ∧ (t.part p).world = some s.ev.f)) ∧
    (num 0 1 = 6 → 4 < num 8 1 → ends (exec .migrateStart s) 17)) ∧
  (∀ (s : State) (p : PartId) (m : Migration) (rd : Round) (r : PendRec),
    (s.vf s.ev.f).part = some p → (s.part p).migration = some m → m.vf = s.ev.f → m.round = some rd → rd.q = s.ev.q → r.idx = rd.idx →
    let i : Instr := if rd.stop then .migrateStop else .migrateRound
    let to_ (t : State) (x : Option Round) : Prop := (t.part p).migration = some { m with round := x }
    let word : Word := m.bmap + BitVec.ofNat 64 (8 * rd.word)
    let last : Prop := m.pageWords + 64 * (s.part p).tileList.length ≤ rd.word
    (rd.todo = [] → ¬ last →
      (∀ bs s2 s3, s.ptrRead p word 8 = (some bs, s2) → s2.ptrWrite p word (List.replicate 8 0) = (true, s3) →
        ∃ t, exec i s = .next t ∧ sameBytes s3 t ∧
          let bits := ((List.range 64).filter (fun k => (leNat bs).testBit k)).map (fun k => 64 * rd.word + k)
          to_ t (some { rd with word := rd.word + 1, todo := bits })) ∧
      (∀ s2, s.ptrRead p word 8 = (none, s2) → ∃ t, exec i s = .next t ∧ sameBytes s2 t ∧ s.recordEnds t r 19 0 ∧ to_ t none)) ∧
    (∀ bit rest bs, rd.todo = bit :: rest → bit < 64 * m.pageWords → m.dev ≠ s.fabric.own → ((s.domEntry p m.dev).map s.livePlanes).getD [] ≠ [] →
      s.memOk → s.hwRead p (65536 * bit + 64 * rd.blk) 64 = some bs →
      ∃ t, exec i s = .next t ∧ wrote s t (.fabric p m.dev (65536 * bit + 64 * rd.blk)) bs ∧
        to_ t (some (if rd.blk < 1023 then { rd with blk := rd.blk + 1 } else { rd with todo := rest, blk := 0, done := rd.done + 1 }))) ∧
    (rd.todo = [] → last → rd.stop = false →
      ∃ t, exec i s = .next t ∧ s.recordEnds t r 0 (BitVec.ofNat 64 rd.done) ∧ to_ t none ∧ sameBytes s t) ∧
    (rd.todo = [] → last → rd.stop = true →
      ∃ t v img, exec i s = .next t ∧ s.recordEnds t r 0 v ∧ (t.part p).migration = some { m with stopped := true, round := none } ∧
        t.fabric.outbox = (m.dev, m.part, .image img) :: s.fabric.outbox ∧ sameBytes s t)) ∧
  ∀ (s : State),
    let f := s.ev.f
    ((s.vf f).flr = true → exec .flr s = .next s) ∧
    ((s.vf f).flr = false → s.inTrial 0 = true → exec .flr s = .next (s.modVf f (fun x => { x with flr := true }))) ∧
    ((s.vf f).flr = false → s.inTrial 0 = false → ∃ t, exec .flr s = .next t ∧ (t.vf f).flr = true ∧ (∀ q : QueueId, (t.queue f q).pend = []) ∧
      ∀ p, (s.vf f).part = some p → (∀ i ∈ (t.part p).insts, i.world ≠ some f) ∧ ∀ m, (t.part p).migration = some m → m.vf ≠ f) ∧
    ((s.vf f).flr = false ∨ s.inTrial 0 = true → exec .flrDone s = .next s) ∧
    ((s.vf f).flr = true → s.inTrial 0 = false → ∃ t, exec .flrDone s = .next t ∧ (t.vf f).flr = false ∧ (t.vf f).queues = VfSt.reset.queues ∧
      (t.vf f).msix = VfSt.reset.msix ∧ ∀ p, (s.vf f).part = some p → ∀ n st, (n, st) ∈ (t.part p).streams → st.vf ≠ some f)

/-- R4, R324, R361, R366, R371, R377–R379, R381: writes of the PF's and the queues' registers; the mailbox commands,
each with its effect and its result, one at a time, or result 3 where the host serves a pointer with an error;
MAILBOX_DONE reports the result and sends PF vector 3. The model's choices (log entries): when commands run (115), their
pointers (116), banks in use (117), the domain map (118), the checks of PART (119), errors of the host (161). -/
def Obligations.MailboxResults : Prop :=
  ∀ (s : State),
    let x := s.pf
    let arg (k : Fin 4) : Nat := (x.mbargs[k]).toNat
    let up : Prop := x.d3hot = false ∧ x.cold = false ∧ s.hostUp = true
    let fault (out : Out) : Prop := out = .next (s.drawn.modPf (fun x => { x with mbResult := some 3 }))
    let due (code : Nat) : Prop := x.busy = true ∧ x.mbcmd.toNat = code ∧ x.mbResult = none ∧ x.ready = true ∧ x.recov = false ∧
      s.inTrial 0 = false ∧ ∀ c ∈ s.granary.ctrls.toList, c.mbWaits = false
    let gives (out : Out) (r : Nat) : Prop := out = .next (s.modPf (fun x => { x with mbResult := some r }))
    let host (k : Fin 4) (n a : Nat) : Prop := arg k = 7 * 2 ^ 60 + a ∧ a + n ≤ 2 ^ 48 ∧ a < 2 ^ 48
    let c : CtrlId := Fin.ofNat 27 (arg 0)
    let w := s.ctrl c
    (up →
      (∀ k, s.ev.reg = .mbarg k → exec .registerWrite s = .next (s.modPf (fun x => { x with mbargs := x.mbargs.set k s.ev.v }))) ∧
      (s.ev.reg = .mbcmd → x.busy = false → exec .registerWrite s =
        .next (s.modPf (fun x => { x with mbcmd := s.ev.v.extractLsb' 0 8, busy := true, mbResult := none }))) ∧
      (s.ev.reg = .mbcmd → x.busy = true → exec .registerWrite s = .next s)) ∧
    (∀ f q, s.ev.reg = .qbase f q →
      ((s.vf f).part.isSome → (s.vf f).flr = false → s.hostUp = true → (s.queue f q).en = false →
        exec .registerWrite s = .next (s.modQueue f q (fun y => { y with base := s.ev.v }))) ∧
      ((s.queue f q).en = true → exec .registerWrite s = .next s)) ∧
    (s.ev.reg = .readOnly → exec .registerWrite s = .next s) ∧
    (∀ r, x.busy = true → x.mbResult = some r → ∃ t, exec .mailboxDone s = .next t ∧ t.pf.busy = false ∧ t.pf.last = x.mbcmd ∧
      t.pf.result.toNat = r % 256 ∧ t.pf.mbResult = none ∧ sameBytes s t ∧
      t.sent = if s.hostUp = false ∨ x.msix[(3 : Fin 4)].masked = true then s.sent else s.sent ++ [MsixSent.mk 0 3]) ∧
    (∀ k, due k → k = 0 ∨ 8 < k → gives (exec .unknownCmd s) 1) ∧
    (due 1 → 26 < arg 0 → gives (exec .image s) 1) ∧
    (∀ a b, due 1 → arg 0 ≤ 26 → arg 2 ≤ (if arg 0 = 0 then 0x100000 else 0x80000) → host 1 (arg 2) a → host 3 57 b →
      w.bankSt (!w.run) ≠ .active → w.trial = none → w.verifying = false →
      ∃ t, exec .image s = .next t ∧ (t.pf = { x with mbResult := some 3 } ∧ sameBytes s t ∨ (t.ctrl c).idleBank = Mem.read s.host a (arg 2) ∧ (t.ctrl c).idleKey = Mem.read s.host b 57 ∧
        (t.ctrl c).running = w.running ∧ (t.ctrl c).bankSt (!w.run) = .invalid ∧ (t.ctrl c).run = w.run ∧ (t.ctrl c).verifying = true ∧
        t.pf = x ∧ sameBytes s t)) ∧
    (∀ a, due 1 → arg 0 ≤ 26 → arg 2 ≤ (if arg 0 = 0 then 0x100000 else 0x80000) → host 1 (arg 2) a → s.hostUp = false → fault (exec .image s)) ∧
    (due 2 → arg 0 ≤ 26 → s.ev.bytes = [] → w.bankSt (!w.run) ≠ .staged → ∃ t, exec .switch s = .next t ∧ t.pf.mbResult = some 28 ∧
      t.ctrl c = { w with err := 12 } ∧ sameBytes s t) ∧
    (due 2 → arg 0 ≤ 26 → s.ev.bytes = [] → w.bankSt (!w.run) = .staged → w.trial = none → w.verifying = false → s.liveCurrent c = true →
      ∃ t, exec .switch s = .next t ∧ t.pf.mbResult = some 0 ∧ (t.ctrl c).run = (!w.run) ∧ (t.ctrl c).bankSt (!w.run) = .trial ∧
        (t.ctrl c).bankSt w.run = .idle ∧ (t.ctrl c).trial = some s.dtime ∧ (t.ctrl c).err = w.err ∧ sameBytes s t) ∧
    (due 3 → arg 0 ≤ 26 → w.bankSt (!w.run) = .staged → w.verifying = false → ∃ t, exec .abort s = .next t ∧ t.pf.mbResult = some 0 ∧
      (t.ctrl c).bankSt (!w.run) = .invalid ∧ (t.ctrl c).bankSt w.run = w.bankSt w.run ∧ (t.ctrl c).err = w.err ∧ sameBytes s t) ∧
    (due 3 → 26 < arg 0 → gives (exec .abort s) 1) ∧
    (∀ a r b, due 4 → host 0 64 a → host 1 2450 r → arg 2 = 7 * 2 ^ 60 + b → b < 2 ^ 48 → s.memOk →
      let chain := certChain s.digests
      ∃ t, exec .attest s = .next t ∧
        (arg 3 < chain.length ∨ 2 ^ 48 < b + chain.length → s.hostUp = true →
          t.pf = { x with mbResult := some 1 } ∨ t.pf = { x with mbResult := some 3 }) ∧
        (s.hostUp = false → chain.length ≤ arg 3 → b + chain.length ≤ 2 ^ 48 → fault (exec .attest s)) ∧
        (chain.length ≤ arg 3 → b + chain.length ≤ 2 ^ 48 → r + 2450 ≤ b ∨ b + chain.length ≤ r →
          t.pf.mbResult = some 3 ∧ sameBytes s t ∨ ∃ rep, t.pf.mbResult = some 0 ∧ Mem.read t.host r 2450 = rep ∧ fieldAt rep 0 4 = 0x54534C41 ∧
            fieldAt rep 4 2 = 1 ∧ fieldAt rep 8 8 = s.dtime % 2 ^ 64 ∧ (rep.drop 16).take 64 = Mem.read s.host a 64 ∧
            Mem.read t.host b chain.length = chain ∧
            ∀ z, z < r ∨ r + 2450 ≤ z → z < b ∨ b + chain.length ≤ z → Mem.byte t.host z = Mem.byte s.host z)) ∧
    (∀ a, due 5 → host 0 2112 a → arg 1 ≤ 39 →
      let p : PartId := Fin.ofNat 40 (arg 1)
      let b := Mem.read s.host a 2112
      let mask : Word := BitVec.ofNat 64 (fieldAt b 0 8)
      let gives (out : Out) (n : Nat) : Prop := fault out ∨ out = .next (s.drawn.modPf (fun x => { x with mbResult := some n }))
      (s.hostUp = false → fault (exec .part s)) ∧
      (s.blockOk p b = false → gives (exec .part s) 1) ∧
      (s.blockOk p b = true → (s.part p).insts ≠ [] → gives (exec .part s) 2) ∧
      (s.blockOk p b = true → (s.part p).insts = [] → (∀ u ∈ (s.part p).tileList, (s.tile u).held = false) →
        fault (exec .part s) ∨ ∃ t, exec .part s = .next t ∧ t.pf.mbResult = some 0 ∧ (t.part p).tiles = mask ∧ (t.part p).inUse = decide (mask ≠ 0) ∧
          (t.part p).home.val = fieldAt b 10 1 ∧ (t.part p).slim = fieldAt b 8 2 ∧ (t.part p).q0 = fieldAt b 12 4 ∧
          (t.part p).q1 = fieldAt b 16 4 ∧ (t.part p).budget.refill = fieldAt b 20 3 ∧ (t.part p).budget.window = fieldAt b 23 2 ∧
          (∀ u, mask.getLsbD u.val = true → (t.tile u).part = p ∧ (t.tile u).slim = fieldAt b 8 2 ∧ (t.tile u).tb = []) ∧
          (∀ u, mask.getLsbD u.val = false → (s.part p).tiles.getLsbD u.val = false → t.tile u = s.tile u) ∧
          (∀ q, q ≠ p → t.part q = s.part q) ∧ sameBytes s t)) ∧
    (∀ f : VfId, arg 0 = f.val + 1 → arg 1 ≤ 39 →
      let p : PartId := Fin.ofNat 40 (arg 1)
      (due 6 → (s.vf f).part.isSome → gives (exec .bind s) 2) ∧
      (due 6 → (s.vf f).part = none → ∃ t, exec .bind s = .next t ∧ t.pf.mbResult = some 0 ∧ (t.vf f).part = some p ∧
        (∀ v, (s.part p).world = some v → t.part p = s.part p) ∧ ((s.part p).world = none → (t.part p).world = some f)) ∧
      (due 7 → (s.vf f).part = none → gives (exec .unbind s) 2) ∧
      (∀ q, due 7 → (s.vf f).part = some q → (s.part q).switch = none → ∃ t, exec .unbind s = .next t ∧ t.pf.mbResult = some 0 ∧ (t.vf f).part = none ∧
        (t.vf f).queues = VfSt.reset.queues ∧ (t.vf f).msix = VfSt.reset.msix ∧ (t.part q).world ≠ some f ∧
        ∀ i ∈ (t.part q).insts, i.world ≠ some f)) ∧
    (due 6 → arg 0 = 0 ∨ 256 < arg 0 → gives (exec .bind s) 1) ∧
    (∀ a, due 8 → host 0 0 a → (s.hostUp = false → fault (exec .domain s)) ∧
      (fault (exec .domain s) ∨ exec .domain s = .next ((s.drawn.modFab (fun f => { f with
        domain := (Config.domainMap s.host a (arg 1)).take (arg 1) })).modPf (fun x => { x with mbResult := some 0 }))))

/-! ## Power and the fabric -/

/-- R386–R396: a reset brings every controller that was in no trial up from its recorded bank, and tiles, partitions,
VFs and bulk memory to the reset state; clock level, trip and effective level; tile power states and why a write is
refused; D3hot freezes and retains, D0 wakes; the scrubber's marks and the counters, which a read clears. The model's
choices (log entries): what survives (19), trials at reset (20), the order of reasons (121), the steps of a D-state
(122), held controllers (162), what a tile loses (123), soft errors (125). -/
def Obligations.PowerResults : Prop :=
  ∀ (s : State),
    let x := s.pf
    let up : Prop := x.d3hot = false ∧ x.cold = false ∧ s.hostUp = true
    let u := s.ev.t
    let kept (t : State) : Prop := t.tiles = State.reset.tiles ∧ t.parts = State.reset.parts ∧ t.vfs = State.reset.vfs ∧ t.bulk = [] ∧ t.ck = 0 ∧
      t.dtime = 0 ∧ t.host = s.host ∧ ∀ c, (t.ctrl c).bankA = (s.ctrl c).bankA ∧ (t.ctrl c).bankB = (s.ctrl c).bankB
    let pf (out : Out) (f : PfSt → PfSt) : Prop := out = .next (s.modPf f)
    (∃ t, exec .reset s = .next t ∧ kept t ∧
      (∀ c, (s.ctrl c).stA ≠ .trial → (s.ctrl c).stB ≠ .trial →
        let b := (s.ctrl c).recorded
        if (s.ctrl c).bankCode c b = 0 then (t.ctrl c).run = b ∧ (t.ctrl c).bankSt b = .active ∧ (t.ctrl c).held = false
        else if (s.ctrl c).bankCode c (!b) = 0 then (t.ctrl c).run = (!b) ∧ (t.ctrl c).bankSt (!b) = .active ∧
          (t.ctrl c).bankSt b = .invalid ∧ (t.ctrl c).held = false
        else (t.ctrl c).bankSt b = .invalid ∧ (t.ctrl c).bankSt (!b) = .invalid ∧ (t.ctrl c).held = true) ∧
      t.pf.recov = (t.ctrl 0).held ∧ t.pf.ready = !(t.ctrl 0).held ∧ t.pf.d3hot = false ∧ t.pf.cold = false ∧ t.pf.trip = false) ∧
    (∃ t, exec .d3cold s = .next t ∧ kept t ∧ t.pf.cold = true) ∧
    (105 ≤ x.tj.toNat → x.trip = false → x.cold = false → (s.ctrl 26).held = false → ∃ t, exec .thermalTrip s = .next t ∧ t.pf.trip = true ∧ sameBytes s t ∧ t.tiles = s.tiles ∧
      t.sent = if s.hostUp = false ∨ x.msix[(3 : Fin 4)].masked = true then s.sent else s.sent ++ [MsixSent.mk 0 3]) ∧
    ((s.ctrl 26).held = true → exec .thermalTrip s = .next s) ∧
    (x.tj.toNat < 105 → exec .thermalTrip s = .next s) ∧
    (up → x.tj.toNat < 95 → pf (exec .tripclr s) (fun x => { x with trip := false })) ∧
    (95 ≤ x.tj.toNat → exec .tripclr s = .next s) ∧
    (up → s.ev.v.toNat % 4 ≠ 3 → pf (exec .level s) (fun x => { x with level := s.ev.v.extractLsb' 0 2 })) ∧
    (s.ev.v.toNat % 4 = 3 → exec .level s = .next s) ∧
    (x.trip = true → pf (exec .effChange s) (fun x => { x with eff := 0 })) ∧
    (x.trip = false → pf (exec .effChange s) (fun x => { x with eff := x.level })) ∧
    (∀ k : Fin 2, up → s.ev.k = k.val →
      let v := s.ev.v
      let old := x.tilepwr[k]
      let code (w : Word) (a : Tile) : Nat := w.toNat / 2 ^ (2 * (a.val % 32)) % 4
      let mine (a : Tile) : Prop := a.val / 32 = k.val
      ((∃ a, mine a ∧ code old a = 0 ∧ code v a ≠ 0 ∧ (s.tile a).held = true) → pf (exec .tilepwr s) (fun x => { x with pwrerr := 1 })) ∧
      ((∀ a, mine a → code old a = 0 → code v a ≠ 0 → (s.tile a).held = false) →
        (∃ a p, mine a ∧ code old a ≠ 3 ∧ code v a = 3 ∧ (s.part p).has a = true) → pf (exec .tilepwr s) (fun x => { x with pwrerr := 2 })) ∧
      (s.pwrRefusal k.val v = 0 → ∃ t, exec .tilepwr s = .next t ∧ t.pf = { x with tilepwr := x.tilepwr.set k v } ∧
        (∀ a, mine a → code old a ≠ code v a →
          (code v a = 0 → t.tile a = { s.tile a with waking := decide ((s.tile a).pwr ≠ .on) }) ∧
          (code v a = 1 → (t.tile a).pwr = .gated ∧ (t.tile a).logic = (s.tile a).logic) ∧
          (code v a = 2 → (t.tile a).pwr = .retain ∧ ((s.tile a).pwr ≠ .off → (t.tile a).slice = (s.tile a).slice)) ∧
          (code v a = 3 → (t.tile a).pwr = .off)) ∧
        (∀ a, ¬ mine a ∨ code old a = code v a → t.tile a = s.tile a) ∧ t.parts = s.parts ∧ t.bulk = s.bulk)) ∧
    ((s.tile u).waking = true → (s.tile u).heldOver = none → ∃ t, exec .tileWake s = .next t ∧ (t.tile u).pwr = .on ∧
      (t.tile u).waking = false ∧ (∀ a, a ≠ u → t.tile a = s.tile a) ∧
      ((s.tile u).pwr = .off → (t.tile u).slice = [] ∧ (t.tile u).empty = [] ∧ (t.tile u).sync = []) ∧
      ((s.tile u).pwr ≠ .off → t.tile u = { s.tile u with pwr := .on, waking := false })) ∧
    ((s.tile u).waking = false → exec .tileWake s = .next s) ∧
    (up → pf (exec .pwrerrRead s) (fun x => { x with readData := x.pwrerr.setWidth 64, pwrerr := 0 })) ∧
    (up → s.memOk → (∀ a, (s.tile a).waking = false) → (∀ p, (s.part p).inUse = true → s.switchable p = true) →
      ∃ t, exec .d3hotEntry s = .next t ∧ t.pf.d3hot = true ∧ t.pf.selfRefresh = x.hbmsr ∧ (∀ a, (t.tile a).pwr = .retain ∧ t.task a = none) ∧
        (∀ a z, (s.tile a).pwr ≠ .off → z < 0xF800000 → Mem.byte (t.tile a).slice z = Mem.byte (s.tile a).slice z) ∧
        (∀ a k slot, s.task a = some k → (s.tile a).freeSlot = some slot → ∃ h, vGet (t.tile a).husks slot.val = some h ∧ h.logic = s.logic a) ∧
        ((∀ a, s.task a ≠ none → (s.tile a).freeSlot ≠ none) → t.bulk = s.bulk)) ∧
    (x.d3hot = true → ∃ t, exec .d0Return s = .next t ∧ t.pf.d3hot = false ∧ t.pf.dchange = true ∧ t.pf.selfRefresh = 0 ∧
      (∀ a, (t.tile a).waking = decide ((s.tile a).pwr ≠ .on)) ∧ sameBytes s t) ∧
    (∀ a b : Nat, s.ev.found = .corrected → (∀ h, s.ev.scrub = .slice h a → pf (exec .patrolScrub s) (fun x =>
      { x with ecorrSlice := min 0xFFFFFFFF (x.ecorrSlice + 1) })) ∧
      (s.ev.scrub = .hbm b → pf (exec .patrolScrub s) (fun x => { x with ecorrHbm := min 0xFFFFFFFF (x.ecorrHbm + 1) }))) ∧
    (∀ b, s.ev.found = .uncorrectable → s.ev.scrub = .hbm b → ∃ t, exec .patrolScrub s = .next t ∧ sameBytes s t ∧
      (∀ k, k ∈ t.bulkPoison ↔ k = b ∨ k ∈ s.bulkPoison) ∧ t.pf = { x with epoisHbm := min 0xFFFFFFFF (x.epoisHbm + 1) } ∧ t.tiles = s.tiles) ∧
    (∀ h b, s.ev.found = .uncorrectable → s.ev.scrub = .slice h b → b < 0x400000 → ∃ t, exec .patrolScrub s = .next t ∧ sameBytes s t ∧
      (∀ k, k ∈ (t.tile h).poison ↔ k = b ∨ k ∈ (s.tile h).poison) ∧ t.pf = { x with epoisSlice := min 0xFFFFFFFF (x.epoisSlice + 1) }) ∧
    (∀ h k i, s.ev.found = .uncorrectable → s.ev.scrub = .logic h → s.task h = some k → s.inst k.part k.inst = some i →
      ∃ t, exec .patrolScrub s = .next t ∧ t.inst k.part k.inst = none ∧ t.task h = none ∧
        t.pf.esoftLogic = min 0xFFFFFFFF (x.esoftLogic + 1)) ∧
    (s.ev.found = .clean → exec .patrolScrub s = .next s) ∧
    (up →
      (s.ev.k = 0 → pf (exec .errorCounterRead s) (fun x =>
        { x with readData := BitVec.ofNat 64 (x.ecorrHbm * 2 ^ 32 + x.ecorrSlice), ecorrHbm := 0, ecorrSlice := 0 })) ∧
      (s.ev.k = 1 → pf (exec .errorCounterRead s) (fun x =>
        { x with readData := BitVec.ofNat 64 (x.epoisHbm * 2 ^ 32 + x.epoisSlice), epoisHbm := 0, epoisSlice := 0 })) ∧
      (s.ev.k = 2 → pf (exec .errorCounterRead s) (fun x =>
        { x with readData := BitVec.ofNat 64 (x.esoftRolled * 2 ^ 32 + x.esoftLogic), esoftRolled := 0, esoftLogic := 0 })))

/-- R380–R384, R392, R395: a request of another device is translated by the named partition's bulk table and answered
with the bytes and their poison, the old value of an atomic or a flag operation (once only for one tag), not present,
refused or a poisoned table; it waits while a stack is in self-refresh; requests are reissued on a live plane; a lost port is reported; an access for which no plane was live for 1 ms takes a FABRIC trap with RETRY. The
model's choices (log entries): answers of other devices (37), the plane (39), waiting without a plane (40), kept
results (127), flag requests (171). -/
def Obligations.FabricResults : Prop :=
  ∀ (s : State),
    (s.pf.selfRefresh ≠ 0 → exec .fabricRequestServe s = .next s) ∧
    (∀ r, s.ev.fabric = some r → s.pf.selfRefresh = 0 →
      let kept : Prop := ∃ k ∈ s.fabric.kept, k.source = r.source ∧ k.tag = r.tag
      let answers (s2 : State) (a : FabAnswer) : Prop := exec .fabricRequestServe s = .next (s2.modFab (fun f => { f with answer := a }))
      (∀ n pa l s2, r.op = .load n → s.translate none r.part false r.offset .r = (.ok pa l, s2) → answers s2 (.data (Mem.read s2.bulk pa n) ((List.range n).map (fun i => s2.poisonedAt (.bulk r.part r.offset (pa + i) l true) 1)))) ∧
      (∀ bs bad pa l s2, r.op = .store bs bad → s.translate none r.part false r.offset .w = (.ok pa l, s2) → s.noMigration → s2.memOk →
        ∃ t, exec .fabricRequestServe s = .next t ∧ wrote s2 t (.bulk r.part r.offset pa l true) bs ∧ t.fabric.answer = .data [] [] ∧
          (bad = true → bs ≠ [] → t.poisonedAt (.bulk r.part r.offset pa l true) bs.length = true)) ∧
      (∀ o b e pa l s2, r.op = .amo o b e → ¬ kept → s.translate none r.part false r.offset .rw = (.ok pa l, s2) → s.noMigration → s2.memOk →
        let m : Word := BitVec.ofNat 64 (leNat (Mem.read s2.bulk pa 8))
        let bad := s2.poisonedAt (.bulk r.part r.offset pa l true) 8
        ∃ t k, exec .fabricRequestServe s = .next t ∧ t.fabric.answer = .data (leBytes 8 m.toNat) (List.replicate 8 bad) ∧
          t.fabric.kept = k :: s.fabric.kept ∧ k.source = r.source ∧ k.tag = r.tag ∧ k.value = m ∧ k.poison = bad ∧ k.at_ = s.dtime ∧
          (o = .add → wrote s2 t (.bulk r.part r.offset pa l true) (leBytes 8 (m + b).toNat)) ∧
          (o = .cas → m ≠ e → sameBytes s2 t)) ∧
      (∀ o b e k, r.op = .amo o b e → s.fabric.kept.find? (fun k => decide (k.source = r.source) && decide (k.tag = r.tag)) = some k →
        answers s (.data (leBytes 8 k.value.toNat) (List.replicate 8 k.poison))) ∧
      (∀ fn home bit, r.op = .flag fn home bit → ¬ kept → (s.part r.part).has home = true → bit < 4096 →
        let old := (s.tile home).flag bit
        s.memOk → ∃ t k, exec .fabricRequestServe s = .next t ∧ (∀ z, z ≠ .sync home (bit / 8) → t.byteAt z = s.byteAt z) ∧ t.fabric.answer = .data (leBytes 1 (if old then 1 else 0)) [false] ∧
          t.fabric.kept = k :: s.fabric.kept ∧ k.source = r.source ∧ k.tag = r.tag ∧
          (t.tile home).flag bit = (match fn with | .set => true | .clr => false | .test => old | .tas => true)) ∧
      (∀ fn home bit, r.op = .flag fn home bit → ¬ kept → (s.part r.part).has home = false → answers s .refused) ∧
      (∀ n s2, r.op = .load n → s.translate none r.part false r.offset .r = (.ecc, s2) → answers s2 .poisonedTable) ∧
      (∀ n lv s2, r.op = .load n → s.translate none r.part false r.offset .r = (.np lv, s2) → answers s2 .notPresent) ∧
      (∀ n lv b s2, r.op = .load n → s.translate none r.part false r.offset .r = (.perm lv b, s2) → answers s2 .refused)) ∧
    (∀ r p, s.fabric.reqs[s.ev.k]? = some r → (s.planesFor r.tile r.dev).filter (fun q => q ≠ r.plane) = [p] →
      (r.sent + 20000 ≤ s.dtime ∨ s.fabric.ports.getLsbD r.plane = false → ∃ t, exec .fabricReissue s = .next t ∧ sameBytes s t ∧
        t.fabric = { s.fabric with reqs := s.fabric.reqs.set s.ev.k { r with plane := p, sent := s.dtime } }) ∧
      (s.dtime < r.sent + 20000 → s.fabric.ports.getLsbD r.plane = true → exec .fabricReissue s = .next s)) ∧
    (s.ev.k < 16 → s.fabric.ports.getLsbD s.ev.k = true → ∃ t, exec .portLost s = .next t ∧ sameBytes s t ∧
      (∀ n, n < 16 → t.fabric.ports.getLsbD n = (decide (n ≠ s.ev.k) && s.fabric.ports.getLsbD n)) ∧
      t.sent = if s.hostUp = false ∨ s.pf.msix[(3 : Fin 4)].masked = true then s.sent else s.sent ++ [MsixSent.mk 0 3]) ∧
    (∀ a w since, (s.tile s.cur).runs = true →
      let lost : Prop := since + 1000000 ≤ s.dtime ∧ s.planesFor s.cur (a.toNat / 2 ^ 48 % 1024) = []
      let status : Word := 0x10000 ||| (if w then 0x800 else 0)
      (s.ev.u = .c → (s.c s.cur).wait = .noPlane a w since →
        (lost → exec .fabricNoPlane s = .next (s.trapC .fabric status (some a))) ∧ (¬ lost → exec .fabricNoPlane s = .next s)) ∧
      (∀ u, u = .l ∨ u = .s → s.ev.u = u → (s.seq s.cur u).wait = .noPlane a w since →
        (lost → exec .fabricNoPlane s = .next (s.trapSeq u .fabric status (some a))) ∧ (¬ lost → exec .fabricNoPlane s = .next s)) ∧
      (∀ c, s.ev.u = .m → (s.copy s.cur).q.find? (fun c => decide (c.seq = s.ev.k)) = some c → c.noPlane = some (a, w, since) → c.st = .running →
        (lost → exec .fabricNoPlane s = .next (s.failCmd s.cur c w ⟨.fabric, 0x10000, some a⟩)) ∧ (¬ lost → exec .fabricNoPlane s = .next s))) ∧
    (∀ k, s.fabric.kept[s.ev.k]? = some k →
      (k.at_ + 2000000 ≤ s.dtime → exec .atomicResultExpiry s = .next (s.modFab (fun f => { f with kept := f.kept.eraseIdx s.ev.k }))) ∧
      (s.dtime < k.at_ + 2000000 → exec .atomicResultExpiry s = .next s))

/-! ## Steps, encodings, invariants -/

/-- R42, R53, R57, R58, R246, R306, R344: a step executes the instruction that the agenda's agent fetches and its
decoder reads, at the state without the agenda's entry; a word that is none is ILLEGAL; a fetch that fails is a fault of
the instruction; C waits while a load waits for a full bin or a fenced store is outstanding; an event is executed with
its particulars; the clock advances time by the ck of the effective level. The agenda itself is the model's. The model's
choices (log entries): the agenda, its clock and the particulars of events (1–7). -/
def Obligations.StepRunsDecoded : Prop :=
  ∀ (s s1 : State) (t : Tile) (r : List Pick) (w : W32) (nxt : Option W32),
    (let s0 : State := { s with schedule := r, cur := t, curSq := .c }
     s.schedule = .seq t .c :: r → (s.tile t).runs = true → (s.c t).canIssue = true →
       (s.binStall t = true → step s = .next s0) ∧
       (s.binStall t = false → s0.fetchC t = (.ok (w, nxt), s1) →
         (∀ i, decode .c w nxt = .ok i → step s = exec i s1) ∧ (∀ e, decode .c w nxt = .error e → step s = exec (.illegal w) s1)) ∧
       (∀ f, s.binStall t = false → s0.fetchC t = (.fail f, s1) → step s = .next (s1.failC f)) ∧
       (s.binStall t = false → s0.fetchC t = (.wait, s1) → step s = .next s1) ∧
       ((s.c t).spaceBad = false → (s.c t).fetched = [] → (s.c t).pc.toNat % 4 = 0 →
         (s.c t).pc.toNat / 64 * 64 + 64 ≤ (s.tile t).slim * 65536 → (s.tile t).slim ≤ 4096 →
         s.poisonedAt (.slice t ((s.c t).pc.toNat / 64 * 64)) 64 = false →
         (∀ o ∈ (s.c t).ops, o.fenced = true → o.loc.overlaps o.width (.slice t ((s.c t).pc.toNat / 64 * 64)) 64 = false) → ∃ w nxt, s0.fetchC t = (.ok (w, nxt), s0) ∧
           w.toNat = leNat (Mem.read (s.tile t).slice (s.c t).pc.toNat 4) ∧
           nxt.map BitVec.toNat = if (s.c t).pc.toNat % 64 = 60 then none
             else some (leNat (Mem.read (s.tile t).slice ((s.c t).pc.toNat + 4) 4)))) ∧
    (∀ u x, u ≠ .c → s.schedule = .seq t u :: r → (s.tile t).runs = true → (s.seq t u).stop = none → (s.seq t u).wait ≠ .push →
      (s.seq t u).run = some x → x.issued = 0 →
      let s0 : State := { s with schedule := r, cur := t, curSq := u }
      (s0.fetchStep t u x = (.ok (w, nxt), s1) →
        let s2 := s1.modSeq t u (fun y => { y with run := y.run.map (fun r => { r with word := some (w, nxt) }) })
        (∀ i, decode (mapOf u) w nxt = .ok i → step s = exec i s2) ∧ (∀ e, decode (mapOf u) w nxt = .error e → step s = exec (.illegal w) s2)) ∧
      (∀ f, s0.fetchStep t u x = (.fail f, s1) → step s = .next (s1.failSeq u f)) ∧
      (let at_ := x.base.toNat + 4 * x.step
       let word (k : Nat) : W32 := BitVec.ofNat 32 (leNat (Mem.read (s.tile t).slice (at_ + 4 * k) 4))
       (s.seq t u).started = none → x.ahead = [] → at_ + 8 ≤ (s.tile t).slim * 65536 → (s.tile t).slim ≤ 4096 →
         s.poisonedAt (.slice t at_) 8 = false → (s.c t).ops = [] →
         (decode (mapOf u) (word 0) none ≠ .error .truncated → s0.fetchStep t u x = (.ok (word 0, none), s0)) ∧
         (decode (mapOf u) (word 0) none = .error .truncated → x.step + 1 < x.len →
           s0.fetchStep t u x = (.ok (word 0, some (word 1)), s0)))) ∧
    (∀ p i, s.schedule = .rachis t :: r → (s.tile t).runs = true → (s.rachis t).pass = some p →
      w.toNat = leNat (Mem.read (s.rachis t).store (4 * (p.upc % 4096)) 4) → decode .h w none = .ok i →
      step s = exec i { s with schedule := r, cur := t }) ∧
    (∀ k i, s.schedule = .granary k :: r → (s.granary.cores[k]).running = true →
      let s0 : State := { s with schedule := r, curCore := k }
      s0.gFetch = .word w → decode .g w none = .ok i → step s = exec i s0) ∧
    (∀ i a, s.schedule = .event i a :: r → i.wfIn .e = true →
      step s = exec i { s with schedule := r, ev := a, cur := a.t, curSq := a.u }) ∧
    (∀ n, s.schedule = .clock n 0 :: r → s.pf.cold = false → (∀ p, ∀ i ∈ (s.part p).insts, i.exchDue = none) → ∃ t, step s = .next t ∧ t.ck = s.ck + n ∧
      24 * t.dtime + t.dfrac = 24 * s.dtime + s.dfrac + n * ckTime s.pf.eff ∧ t.dfrac < 24 ∧ sameBytes s t)

/-- R48–R51, R344, R348: the words that the spec gives with their assembly, and some written from its layouts, decode to their
instructions. -/
def Obligations.DecodeSanity : Prop :=
  (∀ e ∈ ([(0x04611000, .add 3 1 2), (0x05021810, .mulh 8 2 3), (0x44A0FFFE, .bne 5 0 0xFFFE), (0x88863940, .amoadd 4 6 7 1 1),
      (0x94442800, .trun 2 4 5), (0x6520FFFF, .loop 9 0xFFFF), (0xA5442820, .kvalloc 10 4 5 1), (0xB0640000, .atgo 3 4),
      (0xB4642800, .svc 3 4 5), (0xA8C74005, .rung 6 7 8)] : List (W32 × Instr)), decode .c e.1 none = .ok e.2) ∧
  decode .c 0x2D200000 (some 0x12345678) = .ok (.liw 9 0x12345678) ∧ (∃ e, decode .c 0x2D200000 none = .error e) ∧
  (∀ e ∈ ([(0x04129408, .vld 0 1 5 2 1 8), (0x64A00000, .lnop 1 2), (0x54025003, .bwait 0 0 5 3), (0x1801307F, .mald 0 0 1 3 127)] :
      List (W32 × Instr)), decode .l e.1 none = .ok e.2) ∧
  (∀ e ∈ ([(0x0911845C, .vadd 2 1 3 1 2 7 0), (0xC0002A00, .mcfg 0 0 0 0x2A00), (0x05000088, .vcfg 2 0 0x88)] : List (W32 × Instr)),
    decode .m e.1 none = .ok e.2) ∧
  decode .s 0x3407600F none = .ok (.est 0 0 7 6 15) ∧ decode .h 0x44000000 none = .ok .hdrain ∧
  (∀ e ∈ ([(0x58A0928B, .csetb 11 10 1 5), (0x1020332B, .cld 2 2 0 3 6), (0x10C1808B, .cjalr 12 3 1),
      (0x00C58533, .rv64 false (.op .add 10 11 12))] : List (W32 × Instr)), decode .g e.1 none = .ok e.2)

/-- R42, R48–R52, R250, R348: decoding the words of a well-formed instruction of a map gives the instruction, whatever its operands, and
an instruction decoded from a word has that word as its encoding. (RV64's own encodings are not the spec's and are left out.) -/
def Obligations.EncodingRoundTrip : Prop :=
  (∀ (mp : IMap) (i : Instr) (w : W32) (rest : List W32) (nxt : Option W32), mp ≠ .e → (∀ b j, i ≠ .rv64 b j) → i.wfIn mp = true →
    encodeWords i = w :: rest → (∀ x y, rest = x :: y → nxt = some x) → decode mp w nxt = .ok i ∧ rest.length ≤ 1) ∧
  ∀ (mp : IMap) (i : Instr) (w : W32) (nxt : Option W32), (∀ b j, i ≠ .rv64 b j) → decode mp w nxt = .ok i →
    i.wfIn mp = true ∧ (encodeWords i = [w] ∨ ∃ x, nxt = some x ∧ encodeWords i = [w, x])

/-- Every step keeps the slices, the sync spaces, bulk and host memory, Granary's memories and the bins that are put
away in their canonical form: addresses rising, no entry of the value that an unlisted byte reads as. The form is the
model's. The model's choices (log entries): the form, and what an unlisted byte reads as (17). -/
def Obligations.MemoryCanonical : Prop := ∀ (s t : State), s.memOk → step s = .next t → t.memOk

/-- R27, R87, R103, R346, R355, R388, and the canonical form of the model's memories: what reset leaves. The model's
choices (log entries): empty memories (17), the empty warrant store (21), tiles with no task or record (9); the other
values that entries 9–18 choose are not stated. -/
def Obligations.ResetState : Prop :=
  State.reset.memOk ∧
  (∀ t, (State.reset.tile t).empty = [] ∧ (State.reset.tile t).tokLim.toNat = 0x01000000 ∧ (State.reset.vec t).fflags = 0 ∧
    State.reset.task t = none ∧ (State.reset.tile t).latch = []) ∧
  (∀ t q, State.reset.toks t q = []) ∧
  (∀ k : Fin 8, let c := State.reset.granary.cores[k]
    c.pc.toNat = 0x400000 ∧ (c.wr 1).v = true ∧ (c.wr 1).lo = 0 ∧ (c.wr 1).hi = 2 ^ 40 - 1 ∧ (c.wr 1).rights = 0x1B ∧ (c.wr 1).key = 0 ∧
    (c.wr 2).v = true ∧ (c.wr 2).lo = 1 ∧ (c.wr 2).hi = 0xFFFF ∧ (c.wr 2).rights = 0x70 ∧ (c.wr 2).key = 0 ∧
    c.wpc.v = true ∧ c.wpc.lo = 0 ∧ c.wpc.hi = 2 ^ 40 - 1 ∧ c.wpc.rights = 0x05 ∧ c.wpc.key = 0) ∧
  State.reset.granary.wvalid = [] ∧
  (∀ c, (State.reset.ctrl c).run = false ∧ (State.reset.ctrl c).stA = .active ∧ (State.reset.ctrl c).stB = .invalid) ∧
  State.reset.pf.level = 2 ∧ State.reset.pf.trip = false

end
end

