-- ==== Sys2Proof/Laws/Mem.lean ====
section
/-! SUPPORT. The memory laws: every operation keeps the canonical form, a read after a write gives the bytes written and leaves
every other byte alone, and little-endian values round-trip. -/

namespace Sys2Proof.Machine

/-! ## The canonical form -/

/-- The canonical form, said of the list: addresses rise and no entry is zero. -/
theorem Memory.wf_iff (m : Mem) : Memory.wf m = true ↔ m.Pairwise (fun a b => a.1 < b.1) ∧ ∀ c ∈ m, c.2 ≠ 0 := by
  induction m with
  | nil => simp [Memory.wf]
  | cons c r ih =>
    obtain ⟨a, b⟩ := c
    simp only [Memory.wf, Bool.and_eq_true, List.all_eq_true, ih, List.pairwise_cons, List.mem_cons, forall_eq_or_imp,
      bne_iff_ne, ne_eq, decide_eq_true_eq]
    constructor
    · rintro ⟨h1, h2, h3, h4⟩; exact ⟨⟨h2, h3⟩, h1, h4⟩
    · rintro ⟨⟨h2, h3⟩, h1, h4⟩; exact ⟨h1, h2, h3, h4⟩

theorem Memory.wf_nil : Memory.wf [] = true := rfl

theorem cellsAt_bounds (a : Nat) (bs : List Byte) : ∀ c ∈ cellsAt a bs, a ≤ c.1 ∧ c.1 < a + bs.length ∧ c.2 ≠ 0 := by
  induction bs generalizing a with
  | nil => simp [cellsAt]
  | cons b bs ih =>
    intro c hc
    unfold cellsAt at hc
    split at hc
    · obtain ⟨h1, h2, h3⟩ := ih (a + 1) c hc
      simp only [List.length_cons]; exact ⟨by omega, by omega, h3⟩
    · rename_i hb
      rcases List.mem_cons.1 hc with rfl | hc
      · simp only [List.length_cons]; exact ⟨Nat.le_refl _, by omega, hb⟩
      · obtain ⟨h1, h2, h3⟩ := ih (a + 1) c hc
        simp only [List.length_cons]; exact ⟨by omega, by omega, h3⟩

theorem cellsAt_rising (a : Nat) (bs : List Byte) : (cellsAt a bs).Pairwise (fun x y => x.1 < y.1) := by
  induction bs generalizing a with
  | nil => simp [cellsAt]
  | cons b bs ih =>
    unfold cellsAt
    split
    · exact ih (a + 1)
    · refine List.pairwise_cons.2 ⟨fun c hc => ?_, ih (a + 1)⟩
      have := cellsAt_bounds (a + 1) bs c hc
      simp only; omega

/-- A part below an address, a part of a range and a part above it, put together. -/
theorem Memory.wf_parts (m x : Mem) (a n : Nat) (hm : Memory.wf m = true) (hx : x.Pairwise (fun a b => a.1 < b.1))
    (hb : ∀ c ∈ x, a ≤ c.1 ∧ c.1 < a + n ∧ c.2 ≠ 0) :
    Memory.wf (m.filter (fun c => c.1 < a) ++ (x ++ m.filter (fun c => a + n ≤ c.1))) = true := by
  rw [Memory.wf_iff] at hm ⊢
  obtain ⟨hs, hz⟩ := hm
  refine ⟨?_, ?_⟩
  · rw [List.pairwise_append, List.pairwise_append]
    refine ⟨hs.filter _, ⟨hx, hs.filter _, ?_⟩, ?_⟩
    · intro c hc d hd
      have h1 := hb c hc
      have h2 := (List.mem_filter.1 hd).2
      simp only [decide_eq_true_eq] at h2; omega
    · intro c hc d hd
      have h1 := (List.mem_filter.1 hc).2
      simp only [decide_eq_true_eq] at h1
      rcases List.mem_append.1 hd with hd | hd
      · have := hb d hd; omega
      · have h2 := (List.mem_filter.1 hd).2
        simp only [decide_eq_true_eq] at h2; omega
  · intro c hc
    rcases List.mem_append.1 hc with h | h
    · exact hz c (List.mem_filter.1 h).1
    · rcases List.mem_append.1 h with h | h
      · exact (hb c h).2.2
      · exact hz c (List.mem_filter.1 h).1

/-- A write keeps the canonical form. -/
theorem Mem.write_wf (m : Mem) (a : Nat) (bs : List Byte) (h : Memory.wf m = true) : Memory.wf (Mem.write m a bs) = true :=
  Memory.wf_parts m _ a bs.length h (cellsAt_rising a bs) (cellsAt_bounds a bs)

/-- A masked write keeps the canonical form. -/
theorem Mem.writeMasked_wf (m : Mem) (a : Nat) (bs : List Byte) (keep : Nat → Bool) (h : Memory.wf m = true) :
    Memory.wf (Mem.writeMasked m a bs keep) = true := Mem.write_wf m a _ h

/-- A filtered memory keeps the canonical form; clearing is one such. -/
theorem Memory.wf_filter (m : Mem) (f : Nat × Byte → Bool) (h : Memory.wf m = true) : Memory.wf (m.filter f) = true := by
  rw [Memory.wf_iff] at h ⊢
  exact ⟨h.1.filter _, fun c hc => h.2 c (List.mem_filter.1 hc).1⟩
theorem Mem.clear_wf (m : Mem) (a n : Nat) (h : Memory.wf m = true) : Memory.wf (Mem.clear m a n) = true :=
  Memory.wf_filter m _ h

/-- A slice of a memory is in canonical form. -/
theorem Mem.slice_wf (m : Mem) (a n : Nat) (h : Memory.wf m = true) : Memory.wf (Mem.slice m a n) = true := by
  rw [Memory.wf_iff] at h ⊢
  refine ⟨List.pairwise_map.2 ((h.1.filter _).imp_of_mem ?_), ?_⟩
  · intro x y hx hy hxy
    have h1 := (List.mem_filter.1 hx).2
    have h2 := (List.mem_filter.1 hy).2
    simp only [Bool.and_eq_true, decide_eq_true_eq] at h1 h2
    simp only; omega
  · intro c hc
    obtain ⟨d, hd, rfl⟩ := List.mem_map.1 hc
    exact h.2 d (List.mem_filter.1 hd).1

/-- Putting an own memory at an address keeps the canonical form. -/
theorem Mem.place_wf (m : Mem) (a n : Nat) (x : Mem) (h : Memory.wf m = true) (hx : Memory.wf x = true) :
    Memory.wf (Mem.place m a n x) = true := by
  rw [Memory.wf_iff] at hx
  refine Memory.wf_parts m _ a n h (List.pairwise_map.2 ((hx.1.filter _).imp ?_)) ?_
  · intro x y hxy; simp only; omega
  · intro c hc
    obtain ⟨d, hd, rfl⟩ := List.mem_map.1 hc
    have h1 := (List.mem_filter.1 hd)
    simp only [decide_eq_true_eq] at h1
    exact ⟨by simp, by simp only; omega, hx.2 d h1.1⟩

/-! ## Bytes after a write -/

theorem Mem.byte_none (m : Mem) (a : Nat) (h : ∀ c ∈ m, c.1 ≠ a) : Mem.byte m a = 0 := by
  induction m with
  | nil => rfl
  | cons c r ih =>
    obtain ⟨k, b⟩ := c
    have hk : k ≠ a := h (k, b) (List.mem_cons_self ..)
    simp only [Mem.byte, if_neg hk]
    split
    · rfl
    · exact ih (fun c hc => h c (List.mem_cons_of_mem _ hc))

theorem Mem.byte_append (m x : Mem) (a : Nat) (hs : (m ++ x).Pairwise (fun a b => a.1 < b.1)) :
    Mem.byte (m ++ x) a = if ∃ c ∈ m, c.1 = a then Mem.byte m a else Mem.byte x a := by
  induction m with
  | nil => simp
  | cons c r ih =>
    obtain ⟨k, b⟩ := c
    rw [List.cons_append, List.pairwise_cons] at hs
    by_cases hk : k = a
    · subst hk; simp [Mem.byte]
    · simp only [List.cons_append, Mem.byte, if_neg hk]
      by_cases ha : a < k
      · have h1 : ¬ ∃ c ∈ (k, b) :: r, c.1 = a := by
          rintro ⟨c, hc, rfl⟩
          rcases List.mem_cons.1 hc with rfl | hc
          · exact hk rfl
          · have := hs.1 c (List.mem_append_left _ hc); simp only at this; omega
        have h2 : Mem.byte x a = 0 := Mem.byte_none x a (fun c hc e => by
          have := hs.1 c (List.mem_append_right _ hc); simp only at this; omega)
        rw [if_pos ha, if_neg h1, h2]
      · rw [if_neg ha, ih hs.2]
        have : (∃ c ∈ (k, b) :: r, c.1 = a) ↔ ∃ c ∈ r, c.1 = a := by
          simp [List.mem_cons, hk]
        simp only [if_neg ha, this]

theorem Mem.byte_filter (m : Mem) (f : Nat × Byte → Bool) (a : Nat) (hs : m.Pairwise (fun a b => a.1 < b.1))
    (h : ∀ c ∈ m, c.1 = a → f c = true) : Mem.byte (m.filter f) a = Mem.byte m a := by
  induction m with
  | nil => rfl
  | cons c r ih =>
    obtain ⟨k, b⟩ := c
    rw [List.pairwise_cons] at hs
    have ih := ih hs.2 (fun c hc => h c (List.mem_cons_of_mem _ hc))
    by_cases hk : k = a
    · subst hk
      rw [List.filter_cons_of_pos (h (k, b) (List.mem_cons_self ..) rfl)]; simp [Mem.byte]
    · by_cases hf : f (k, b) = true
      · rw [List.filter_cons_of_pos hf]; simp [Mem.byte, hk, ih]
      · rw [List.filter_cons_of_neg hf, ih]
        simp only [Mem.byte, if_neg hk]
        split
        · rename_i ha
          exact Mem.byte_none r a (fun c hc e => by have := hs.1 c hc; simp only at this; omega)
        · rfl

theorem cellsAt_cons (a : Nat) (b : Byte) (bs : List Byte) :
    cellsAt a (b :: bs) = if b = 0 then cellsAt (a + 1) bs else (a, b) :: cellsAt (a + 1) bs := rfl

theorem cellsAt_byte (a : Nat) (bs : List Byte) (x : Nat) (h : a ≤ x) : Mem.byte (cellsAt a bs) x = bs.getD (x - a) 0 := by
  induction bs generalizing a with
  | nil => simp [cellsAt, Mem.byte]
  | cons b bs ih =>
    by_cases hx : x = a
    · subst hx
      rw [cellsAt_cons]
      split
      · rename_i hb
        rw [Mem.byte_none _ _ (fun c hc => by have := cellsAt_bounds (x + 1) bs c hc; omega)]; simp [hb]
      · simp [Mem.byte]
    · have h1 : a + 1 ≤ x := by omega
      have h2 : x - a = (x - (a + 1)) + 1 := by omega
      rw [h2, List.getD_cons_succ, ← ih (a + 1) h1, cellsAt_cons]
      split
      · rfl
      · have e1 : ¬ a = x := by omega
        have e2 : ¬ x < a := by omega
        simp only [Mem.byte, if_neg e1, if_neg e2]

/-- READ AFTER WRITE: a byte inside the range is the one written, a byte outside it is as before. -/
theorem Mem.byte_write (m : Mem) (a : Nat) (bs : List Byte) (x : Nat) (h : Memory.wf m = true) :
    Mem.byte (Mem.write m a bs) x = if a ≤ x ∧ x < a + bs.length then bs.getD (x - a) 0 else Mem.byte m x := by
  have hw := ((Memory.wf_iff _).1 (Mem.write_wf m a bs h)).1
  have hs := ((Memory.wf_iff m).1 h).1
  unfold Mem.write at hw ⊢
  rw [Mem.byte_append _ _ _ hw, Mem.byte_append _ _ _ (List.pairwise_append.1 hw).2.1]
  by_cases h1 : x < a
  · have h0 : ¬ (a ≤ x ∧ x < a + bs.length) := by omega
    rw [if_neg h0]
    by_cases h2 : ∃ c ∈ m.filter (fun c => c.1 < a), c.1 = x
    · rw [if_pos h2, Mem.byte_filter _ _ _ hs (fun c _ e => by simp only [e, h1, decide_true])]
    · rw [if_neg h2]
      have h3 : Mem.byte m x = 0 := Mem.byte_none m x (fun c hc e =>
        h2 ⟨c, List.mem_filter.2 ⟨hc, by simp only [e, h1, decide_true]⟩, e⟩)
      have h4 : ¬ ∃ c ∈ cellsAt a bs, c.1 = x := by
        rintro ⟨c, hc, e⟩; have := cellsAt_bounds a bs c hc; omega
      rw [if_neg h4, h3, Mem.byte_none _ _ (fun c hc e => by
        have := (List.mem_filter.1 hc).2; simp only [decide_eq_true_eq] at this; omega)]
  · have h2 : ¬ ∃ c ∈ m.filter (fun c => c.1 < a), c.1 = x := by
      rintro ⟨c, hc, e⟩; have := (List.mem_filter.1 hc).2; simp only [decide_eq_true_eq] at this; omega
    rw [if_neg h2]
    by_cases h3 : x < a + bs.length
    · have h0 : a ≤ x ∧ x < a + bs.length := by omega
      rw [if_pos h0]
      split
      · exact cellsAt_byte a bs x (by omega)
      · rename_i h4
        rw [Mem.byte_none _ _ (fun c hc e => by
          have := (List.mem_filter.1 hc).2; simp only [decide_eq_true_eq] at this; omega),
          ← cellsAt_byte a bs x (by omega), Mem.byte_none (cellsAt a bs) x (fun c hc e => h4 ⟨c, hc, e⟩)]
    · have h0 : ¬ (a ≤ x ∧ x < a + bs.length) := by omega
      have h4 : ¬ ∃ c ∈ cellsAt a bs, c.1 = x := by
        rintro ⟨c, hc, e⟩; have := cellsAt_bounds a bs c hc; omega
      rw [if_neg h0, if_neg h4, Mem.byte_filter _ _ _ hs (fun c _ e => by simp only [decide_eq_true_eq]; omega)]

theorem Mem.byte_write_outside (m : Mem) (a : Nat) (bs : List Byte) (x : Nat) (h : Memory.wf m = true)
    (hx : x < a ∨ a + bs.length ≤ x) : Mem.byte (Mem.write m a bs) x = Mem.byte m x := by
  rw [Mem.byte_write m a bs x h, if_neg (by omega)]

theorem Mem.byte_clear (m : Mem) (a n x : Nat) (h : Memory.wf m = true) :
    Mem.byte (Mem.clear m a n) x = if a ≤ x ∧ x < a + n then 0 else Mem.byte m x := by
  split
  · rename_i hx
    refine Mem.byte_none _ _ (fun c hc e => ?_)
    have := (List.mem_filter.1 hc).2
    simp only [Bool.or_eq_true, decide_eq_true_eq] at this; omega
  · rename_i hx
    exact Mem.byte_filter m _ x ((Memory.wf_iff m).1 h).1 (fun c _ e => by
      simp only [Bool.or_eq_true, decide_eq_true_eq]; omega)

@[simp] theorem Mem.read_length (m : Mem) (a n : Nat) : (Mem.read m a n).length = n := by simp [Mem.read]

/-- The bytes read where they were written. -/
theorem Mem.read_write (m : Mem) (a : Nat) (bs : List Byte) (h : Memory.wf m = true) :
    Mem.read (Mem.write m a bs) a bs.length = bs := by
  apply List.ext_getElem
  · simp
  · intro i h1 h2
    simp only [Mem.read, List.getElem_map, List.getElem_range, Mem.byte_write m a bs _ h]
    rw [if_pos ⟨by omega, by omega⟩, show a + i - a = i by omega]
    simp [List.getD_eq_getElem?_getD, h2]

/-! ## Little-endian values -/

@[simp] theorem leBytes_length (n v : Nat) : (leBytes n v).length = n := by
  induction n generalizing v with
  | zero => rfl
  | succ n ih => simp [leBytes, ih]

theorem leNat_leBytes (n v : Nat) : leNat (leBytes n v) = v % 256 ^ n := by
  induction n generalizing v with
  | zero => simp [leBytes, leNat, Nat.mod_one]
  | succ n ih =>
    simp only [leBytes, leNat, ih, BitVec.toNat_ofNat]
    rw [Nat.pow_succ 256 n, Nat.mul_comm (256 ^ n) 256, Nat.mod_mul]

theorem leNat_lt (bs : List Byte) : leNat bs < 256 ^ bs.length := by
  induction bs with
  | nil => simp [leNat]
  | cons b bs ih =>
    have := b.isLt
    simp only [leNat, List.length_cons, Nat.pow_succ]
    omega

/-- A value read where it was written. -/
theorem Mem.num_write (m : Mem) (a n v : Nat) (h : Memory.wf m = true) :
    Mem.num (Mem.write m a (leBytes n v)) a n = v % 256 ^ n := by
  have := Mem.read_write m a (leBytes n v) h
  rw [leBytes_length] at this
  rw [Mem.num, this, leNat_leBytes]

end Sys2Proof.Machine
end

