-- ==== Sys2Proof/Laws/State.lean ====
section
/-! SUPPORT. What each update of the state leaves alone, field by field, and reads after updates: later proofs unfold no record
update. -/

namespace Sys2Proof.Machine

/-! ## Fields that an update leaves alone -/

/-! ### State.setTile -/
@[simp] theorem State.setTile_cur (s : State) (t : Tile) (x : TileSt) : (s.setTile t x).cur = s.cur := rfl
@[simp] theorem State.setTile_curSq (s : State) (t : Tile) (x : TileSt) : (s.setTile t x).curSq = s.curSq := rfl
@[simp] theorem State.setTile_curCore (s : State) (t : Tile) (x : TileSt) : (s.setTile t x).curCore = s.curCore := rfl
@[simp] theorem State.setTile_ev (s : State) (t : Tile) (x : TileSt) : (s.setTile t x).ev = s.ev := rfl
@[simp] theorem State.setTile_schedule (s : State) (t : Tile) (x : TileSt) : (s.setTile t x).schedule = s.schedule := rfl
@[simp] theorem State.setTile_idlePick (s : State) (t : Tile) (x : TileSt) : (s.setTile t x).idlePick = s.idlePick := rfl
@[simp] theorem State.setTile_freeCount (s : State) (t : Tile) (x : TileSt) : (s.setTile t x).freeCount = s.freeCount := rfl
@[simp] theorem State.setTile_ck (s : State) (t : Tile) (x : TileSt) : (s.setTile t x).ck = s.ck := rfl
@[simp] theorem State.setTile_dtime (s : State) (t : Tile) (x : TileSt) : (s.setTile t x).dtime = s.dtime := rfl
@[simp] theorem State.setTile_dfrac (s : State) (t : Tile) (x : TileSt) : (s.setTile t x).dfrac = s.dfrac := rfl
@[simp] theorem State.setTile_parts (s : State) (t : Tile) (x : TileSt) : (s.setTile t x).parts = s.parts := rfl
@[simp] theorem State.setTile_bulk (s : State) (t : Tile) (x : TileSt) : (s.setTile t x).bulk = s.bulk := rfl
@[simp] theorem State.setTile_bulkPoison (s : State) (t : Tile) (x : TileSt) : (s.setTile t x).bulkPoison = s.bulkPoison := rfl
@[simp] theorem State.setTile_heap (s : State) (t : Tile) (x : TileSt) : (s.setTile t x).heap = s.heap := rfl
@[simp] theorem State.setTile_dieTb (s : State) (t : Tile) (x : TileSt) : (s.setTile t x).dieTb = s.dieTb := rfl
@[simp] theorem State.setTile_host (s : State) (t : Tile) (x : TileSt) : (s.setTile t x).host = s.host := rfl
@[simp] theorem State.setTile_pf (s : State) (t : Tile) (x : TileSt) : (s.setTile t x).pf = s.pf := rfl
@[simp] theorem State.setTile_vfs (s : State) (t : Tile) (x : TileSt) : (s.setTile t x).vfs = s.vfs := rfl
@[simp] theorem State.setTile_sent (s : State) (t : Tile) (x : TileSt) : (s.setTile t x).sent = s.sent := rfl
@[simp] theorem State.setTile_bar2Data (s : State) (t : Tile) (x : TileSt) : (s.setTile t x).bar2Data = s.bar2Data := rfl
@[simp] theorem State.setTile_granary (s : State) (t : Tile) (x : TileSt) : (s.setTile t x).granary = s.granary := rfl
@[simp] theorem State.setTile_fabric (s : State) (t : Tile) (x : TileSt) : (s.setTile t x).fabric = s.fabric := rfl
@[simp] theorem State.setTile_encs (s : State) (t : Tile) (x : TileSt) : (s.setTile t x).encs = s.encs := rfl
@[simp] theorem State.setTile_monitors (s : State) (t : Tile) (x : TileSt) : (s.setTile t x).monitors = s.monitors := rfl
@[simp] theorem State.setTile_flagWaits (s : State) (t : Tile) (x : TileSt) : (s.setTile t x).flagWaits = s.flagWaits := rfl
@[simp] theorem State.setTile_cmdNo (s : State) (t : Tile) (x : TileSt) : (s.setTile t x).cmdNo = s.cmdNo := rfl
@[simp] theorem State.setTile_bodies (s : State) (t : Tile) (x : TileSt) : (s.setTile t x).bodies = s.bodies := rfl
@[simp] theorem State.setTile_scrubq (s : State) (t : Tile) (x : TileSt) : (s.setTile t x).scrubq = s.scrubq := rfl
@[simp] theorem State.setTile_freePages (s : State) (t : Tile) (x : TileSt) : (s.setTile t x).freePages = s.freePages := rfl
@[simp] theorem State.setTile_tables (s : State) (t : Tile) (x : TileSt) : (s.setTile t x).tables = s.tables := rfl
@[simp] theorem State.setTile_hostData (s : State) (t : Tile) (x : TileSt) : (s.setTile t x).hostData = s.hostData := rfl

/-! ### State.modTile -/
@[simp] theorem State.modTile_cur (s : State) (t : Tile) (f : TileSt → TileSt) : (s.modTile t f).cur = s.cur := rfl
@[simp] theorem State.modTile_curSq (s : State) (t : Tile) (f : TileSt → TileSt) : (s.modTile t f).curSq = s.curSq := rfl
@[simp] theorem State.modTile_curCore (s : State) (t : Tile) (f : TileSt → TileSt) : (s.modTile t f).curCore = s.curCore := rfl
@[simp] theorem State.modTile_ev (s : State) (t : Tile) (f : TileSt → TileSt) : (s.modTile t f).ev = s.ev := rfl
@[simp] theorem State.modTile_schedule (s : State) (t : Tile) (f : TileSt → TileSt) : (s.modTile t f).schedule = s.schedule := rfl
@[simp] theorem State.modTile_idlePick (s : State) (t : Tile) (f : TileSt → TileSt) : (s.modTile t f).idlePick = s.idlePick := rfl
@[simp] theorem State.modTile_freeCount (s : State) (t : Tile) (f : TileSt → TileSt) : (s.modTile t f).freeCount = s.freeCount := rfl
@[simp] theorem State.modTile_ck (s : State) (t : Tile) (f : TileSt → TileSt) : (s.modTile t f).ck = s.ck := rfl
@[simp] theorem State.modTile_dtime (s : State) (t : Tile) (f : TileSt → TileSt) : (s.modTile t f).dtime = s.dtime := rfl
@[simp] theorem State.modTile_dfrac (s : State) (t : Tile) (f : TileSt → TileSt) : (s.modTile t f).dfrac = s.dfrac := rfl
@[simp] theorem State.modTile_parts (s : State) (t : Tile) (f : TileSt → TileSt) : (s.modTile t f).parts = s.parts := rfl
@[simp] theorem State.modTile_bulk (s : State) (t : Tile) (f : TileSt → TileSt) : (s.modTile t f).bulk = s.bulk := rfl
@[simp] theorem State.modTile_bulkPoison (s : State) (t : Tile) (f : TileSt → TileSt) : (s.modTile t f).bulkPoison = s.bulkPoison := rfl
@[simp] theorem State.modTile_heap (s : State) (t : Tile) (f : TileSt → TileSt) : (s.modTile t f).heap = s.heap := rfl
@[simp] theorem State.modTile_dieTb (s : State) (t : Tile) (f : TileSt → TileSt) : (s.modTile t f).dieTb = s.dieTb := rfl
@[simp] theorem State.modTile_host (s : State) (t : Tile) (f : TileSt → TileSt) : (s.modTile t f).host = s.host := rfl
@[simp] theorem State.modTile_pf (s : State) (t : Tile) (f : TileSt → TileSt) : (s.modTile t f).pf = s.pf := rfl
@[simp] theorem State.modTile_vfs (s : State) (t : Tile) (f : TileSt → TileSt) : (s.modTile t f).vfs = s.vfs := rfl
@[simp] theorem State.modTile_sent (s : State) (t : Tile) (f : TileSt → TileSt) : (s.modTile t f).sent = s.sent := rfl
@[simp] theorem State.modTile_bar2Data (s : State) (t : Tile) (f : TileSt → TileSt) : (s.modTile t f).bar2Data = s.bar2Data := rfl
@[simp] theorem State.modTile_granary (s : State) (t : Tile) (f : TileSt → TileSt) : (s.modTile t f).granary = s.granary := rfl
@[simp] theorem State.modTile_fabric (s : State) (t : Tile) (f : TileSt → TileSt) : (s.modTile t f).fabric = s.fabric := rfl
@[simp] theorem State.modTile_encs (s : State) (t : Tile) (f : TileSt → TileSt) : (s.modTile t f).encs = s.encs := rfl
@[simp] theorem State.modTile_monitors (s : State) (t : Tile) (f : TileSt → TileSt) : (s.modTile t f).monitors = s.monitors := rfl
@[simp] theorem State.modTile_flagWaits (s : State) (t : Tile) (f : TileSt → TileSt) : (s.modTile t f).flagWaits = s.flagWaits := rfl
@[simp] theorem State.modTile_cmdNo (s : State) (t : Tile) (f : TileSt → TileSt) : (s.modTile t f).cmdNo = s.cmdNo := rfl
@[simp] theorem State.modTile_bodies (s : State) (t : Tile) (f : TileSt → TileSt) : (s.modTile t f).bodies = s.bodies := rfl
@[simp] theorem State.modTile_scrubq (s : State) (t : Tile) (f : TileSt → TileSt) : (s.modTile t f).scrubq = s.scrubq := rfl
@[simp] theorem State.modTile_freePages (s : State) (t : Tile) (f : TileSt → TileSt) : (s.modTile t f).freePages = s.freePages := rfl
@[simp] theorem State.modTile_tables (s : State) (t : Tile) (f : TileSt → TileSt) : (s.modTile t f).tables = s.tables := rfl
@[simp] theorem State.modTile_hostData (s : State) (t : Tile) (f : TileSt → TileSt) : (s.modTile t f).hostData = s.hostData := rfl

/-! ### State.modLogic -/
@[simp] theorem State.modLogic_cur (s : State) (t : Tile) (f : Logic → Logic) : (s.modLogic t f).cur = s.cur := rfl
@[simp] theorem State.modLogic_curSq (s : State) (t : Tile) (f : Logic → Logic) : (s.modLogic t f).curSq = s.curSq := rfl
@[simp] theorem State.modLogic_curCore (s : State) (t : Tile) (f : Logic → Logic) : (s.modLogic t f).curCore = s.curCore := rfl
@[simp] theorem State.modLogic_ev (s : State) (t : Tile) (f : Logic → Logic) : (s.modLogic t f).ev = s.ev := rfl
@[simp] theorem State.modLogic_schedule (s : State) (t : Tile) (f : Logic → Logic) : (s.modLogic t f).schedule = s.schedule := rfl
@[simp] theorem State.modLogic_idlePick (s : State) (t : Tile) (f : Logic → Logic) : (s.modLogic t f).idlePick = s.idlePick := rfl
@[simp] theorem State.modLogic_freeCount (s : State) (t : Tile) (f : Logic → Logic) : (s.modLogic t f).freeCount = s.freeCount := rfl
@[simp] theorem State.modLogic_ck (s : State) (t : Tile) (f : Logic → Logic) : (s.modLogic t f).ck = s.ck := rfl
@[simp] theorem State.modLogic_dtime (s : State) (t : Tile) (f : Logic → Logic) : (s.modLogic t f).dtime = s.dtime := rfl
@[simp] theorem State.modLogic_dfrac (s : State) (t : Tile) (f : Logic → Logic) : (s.modLogic t f).dfrac = s.dfrac := rfl
@[simp] theorem State.modLogic_parts (s : State) (t : Tile) (f : Logic → Logic) : (s.modLogic t f).parts = s.parts := rfl
@[simp] theorem State.modLogic_bulk (s : State) (t : Tile) (f : Logic → Logic) : (s.modLogic t f).bulk = s.bulk := rfl
@[simp] theorem State.modLogic_bulkPoison (s : State) (t : Tile) (f : Logic → Logic) : (s.modLogic t f).bulkPoison = s.bulkPoison := rfl
@[simp] theorem State.modLogic_heap (s : State) (t : Tile) (f : Logic → Logic) : (s.modLogic t f).heap = s.heap := rfl
@[simp] theorem State.modLogic_dieTb (s : State) (t : Tile) (f : Logic → Logic) : (s.modLogic t f).dieTb = s.dieTb := rfl
@[simp] theorem State.modLogic_host (s : State) (t : Tile) (f : Logic → Logic) : (s.modLogic t f).host = s.host := rfl
@[simp] theorem State.modLogic_pf (s : State) (t : Tile) (f : Logic → Logic) : (s.modLogic t f).pf = s.pf := rfl
@[simp] theorem State.modLogic_vfs (s : State) (t : Tile) (f : Logic → Logic) : (s.modLogic t f).vfs = s.vfs := rfl
@[simp] theorem State.modLogic_sent (s : State) (t : Tile) (f : Logic → Logic) : (s.modLogic t f).sent = s.sent := rfl
@[simp] theorem State.modLogic_bar2Data (s : State) (t : Tile) (f : Logic → Logic) : (s.modLogic t f).bar2Data = s.bar2Data := rfl
@[simp] theorem State.modLogic_granary (s : State) (t : Tile) (f : Logic → Logic) : (s.modLogic t f).granary = s.granary := rfl
@[simp] theorem State.modLogic_fabric (s : State) (t : Tile) (f : Logic → Logic) : (s.modLogic t f).fabric = s.fabric := rfl
@[simp] theorem State.modLogic_encs (s : State) (t : Tile) (f : Logic → Logic) : (s.modLogic t f).encs = s.encs := rfl
@[simp] theorem State.modLogic_monitors (s : State) (t : Tile) (f : Logic → Logic) : (s.modLogic t f).monitors = s.monitors := rfl
@[simp] theorem State.modLogic_flagWaits (s : State) (t : Tile) (f : Logic → Logic) : (s.modLogic t f).flagWaits = s.flagWaits := rfl
@[simp] theorem State.modLogic_cmdNo (s : State) (t : Tile) (f : Logic → Logic) : (s.modLogic t f).cmdNo = s.cmdNo := rfl
@[simp] theorem State.modLogic_bodies (s : State) (t : Tile) (f : Logic → Logic) : (s.modLogic t f).bodies = s.bodies := rfl
@[simp] theorem State.modLogic_scrubq (s : State) (t : Tile) (f : Logic → Logic) : (s.modLogic t f).scrubq = s.scrubq := rfl
@[simp] theorem State.modLogic_freePages (s : State) (t : Tile) (f : Logic → Logic) : (s.modLogic t f).freePages = s.freePages := rfl
@[simp] theorem State.modLogic_tables (s : State) (t : Tile) (f : Logic → Logic) : (s.modLogic t f).tables = s.tables := rfl
@[simp] theorem State.modLogic_hostData (s : State) (t : Tile) (f : Logic → Logic) : (s.modLogic t f).hostData = s.hostData := rfl

/-! ### State.modC -/
@[simp] theorem State.modC_cur (s : State) (t : Tile) (f : CSt → CSt) : (s.modC t f).cur = s.cur := rfl
@[simp] theorem State.modC_curSq (s : State) (t : Tile) (f : CSt → CSt) : (s.modC t f).curSq = s.curSq := rfl
@[simp] theorem State.modC_curCore (s : State) (t : Tile) (f : CSt → CSt) : (s.modC t f).curCore = s.curCore := rfl
@[simp] theorem State.modC_ev (s : State) (t : Tile) (f : CSt → CSt) : (s.modC t f).ev = s.ev := rfl
@[simp] theorem State.modC_schedule (s : State) (t : Tile) (f : CSt → CSt) : (s.modC t f).schedule = s.schedule := rfl
@[simp] theorem State.modC_idlePick (s : State) (t : Tile) (f : CSt → CSt) : (s.modC t f).idlePick = s.idlePick := rfl
@[simp] theorem State.modC_freeCount (s : State) (t : Tile) (f : CSt → CSt) : (s.modC t f).freeCount = s.freeCount := rfl
@[simp] theorem State.modC_ck (s : State) (t : Tile) (f : CSt → CSt) : (s.modC t f).ck = s.ck := rfl
@[simp] theorem State.modC_dtime (s : State) (t : Tile) (f : CSt → CSt) : (s.modC t f).dtime = s.dtime := rfl
@[simp] theorem State.modC_dfrac (s : State) (t : Tile) (f : CSt → CSt) : (s.modC t f).dfrac = s.dfrac := rfl
@[simp] theorem State.modC_parts (s : State) (t : Tile) (f : CSt → CSt) : (s.modC t f).parts = s.parts := rfl
@[simp] theorem State.modC_bulk (s : State) (t : Tile) (f : CSt → CSt) : (s.modC t f).bulk = s.bulk := rfl
@[simp] theorem State.modC_bulkPoison (s : State) (t : Tile) (f : CSt → CSt) : (s.modC t f).bulkPoison = s.bulkPoison := rfl
@[simp] theorem State.modC_heap (s : State) (t : Tile) (f : CSt → CSt) : (s.modC t f).heap = s.heap := rfl
@[simp] theorem State.modC_dieTb (s : State) (t : Tile) (f : CSt → CSt) : (s.modC t f).dieTb = s.dieTb := rfl
@[simp] theorem State.modC_host (s : State) (t : Tile) (f : CSt → CSt) : (s.modC t f).host = s.host := rfl
@[simp] theorem State.modC_pf (s : State) (t : Tile) (f : CSt → CSt) : (s.modC t f).pf = s.pf := rfl
@[simp] theorem State.modC_vfs (s : State) (t : Tile) (f : CSt → CSt) : (s.modC t f).vfs = s.vfs := rfl
@[simp] theorem State.modC_sent (s : State) (t : Tile) (f : CSt → CSt) : (s.modC t f).sent = s.sent := rfl
@[simp] theorem State.modC_bar2Data (s : State) (t : Tile) (f : CSt → CSt) : (s.modC t f).bar2Data = s.bar2Data := rfl
@[simp] theorem State.modC_granary (s : State) (t : Tile) (f : CSt → CSt) : (s.modC t f).granary = s.granary := rfl
@[simp] theorem State.modC_fabric (s : State) (t : Tile) (f : CSt → CSt) : (s.modC t f).fabric = s.fabric := rfl
@[simp] theorem State.modC_encs (s : State) (t : Tile) (f : CSt → CSt) : (s.modC t f).encs = s.encs := rfl
@[simp] theorem State.modC_monitors (s : State) (t : Tile) (f : CSt → CSt) : (s.modC t f).monitors = s.monitors := rfl
@[simp] theorem State.modC_flagWaits (s : State) (t : Tile) (f : CSt → CSt) : (s.modC t f).flagWaits = s.flagWaits := rfl
@[simp] theorem State.modC_cmdNo (s : State) (t : Tile) (f : CSt → CSt) : (s.modC t f).cmdNo = s.cmdNo := rfl
@[simp] theorem State.modC_bodies (s : State) (t : Tile) (f : CSt → CSt) : (s.modC t f).bodies = s.bodies := rfl
@[simp] theorem State.modC_scrubq (s : State) (t : Tile) (f : CSt → CSt) : (s.modC t f).scrubq = s.scrubq := rfl
@[simp] theorem State.modC_freePages (s : State) (t : Tile) (f : CSt → CSt) : (s.modC t f).freePages = s.freePages := rfl
@[simp] theorem State.modC_tables (s : State) (t : Tile) (f : CSt → CSt) : (s.modC t f).tables = s.tables := rfl
@[simp] theorem State.modC_hostData (s : State) (t : Tile) (f : CSt → CSt) : (s.modC t f).hostData = s.hostData := rfl

/-! ### State.modSeq -/
@[simp] theorem State.modSeq_cur (s : State) (t : Tile) (u : Sq) (f : SeqSt → SeqSt) : (s.modSeq t u f).cur = s.cur := rfl
@[simp] theorem State.modSeq_curSq (s : State) (t : Tile) (u : Sq) (f : SeqSt → SeqSt) : (s.modSeq t u f).curSq = s.curSq := rfl
@[simp] theorem State.modSeq_curCore (s : State) (t : Tile) (u : Sq) (f : SeqSt → SeqSt) : (s.modSeq t u f).curCore = s.curCore := rfl
@[simp] theorem State.modSeq_ev (s : State) (t : Tile) (u : Sq) (f : SeqSt → SeqSt) : (s.modSeq t u f).ev = s.ev := rfl
@[simp] theorem State.modSeq_schedule (s : State) (t : Tile) (u : Sq) (f : SeqSt → SeqSt) : (s.modSeq t u f).schedule = s.schedule := rfl
@[simp] theorem State.modSeq_idlePick (s : State) (t : Tile) (u : Sq) (f : SeqSt → SeqSt) : (s.modSeq t u f).idlePick = s.idlePick := rfl
@[simp] theorem State.modSeq_freeCount (s : State) (t : Tile) (u : Sq) (f : SeqSt → SeqSt) : (s.modSeq t u f).freeCount = s.freeCount := rfl
@[simp] theorem State.modSeq_ck (s : State) (t : Tile) (u : Sq) (f : SeqSt → SeqSt) : (s.modSeq t u f).ck = s.ck := rfl
@[simp] theorem State.modSeq_dtime (s : State) (t : Tile) (u : Sq) (f : SeqSt → SeqSt) : (s.modSeq t u f).dtime = s.dtime := rfl
@[simp] theorem State.modSeq_dfrac (s : State) (t : Tile) (u : Sq) (f : SeqSt → SeqSt) : (s.modSeq t u f).dfrac = s.dfrac := rfl
@[simp] theorem State.modSeq_parts (s : State) (t : Tile) (u : Sq) (f : SeqSt → SeqSt) : (s.modSeq t u f).parts = s.parts := rfl
@[simp] theorem State.modSeq_bulk (s : State) (t : Tile) (u : Sq) (f : SeqSt → SeqSt) : (s.modSeq t u f).bulk = s.bulk := rfl
@[simp] theorem State.modSeq_bulkPoison (s : State) (t : Tile) (u : Sq) (f : SeqSt → SeqSt) : (s.modSeq t u f).bulkPoison = s.bulkPoison := rfl
@[simp] theorem State.modSeq_heap (s : State) (t : Tile) (u : Sq) (f : SeqSt → SeqSt) : (s.modSeq t u f).heap = s.heap := rfl
@[simp] theorem State.modSeq_dieTb (s : State) (t : Tile) (u : Sq) (f : SeqSt → SeqSt) : (s.modSeq t u f).dieTb = s.dieTb := rfl
@[simp] theorem State.modSeq_host (s : State) (t : Tile) (u : Sq) (f : SeqSt → SeqSt) : (s.modSeq t u f).host = s.host := rfl
@[simp] theorem State.modSeq_pf (s : State) (t : Tile) (u : Sq) (f : SeqSt → SeqSt) : (s.modSeq t u f).pf = s.pf := rfl
@[simp] theorem State.modSeq_vfs (s : State) (t : Tile) (u : Sq) (f : SeqSt → SeqSt) : (s.modSeq t u f).vfs = s.vfs := rfl
@[simp] theorem State.modSeq_sent (s : State) (t : Tile) (u : Sq) (f : SeqSt → SeqSt) : (s.modSeq t u f).sent = s.sent := rfl
@[simp] theorem State.modSeq_bar2Data (s : State) (t : Tile) (u : Sq) (f : SeqSt → SeqSt) : (s.modSeq t u f).bar2Data = s.bar2Data := rfl
@[simp] theorem State.modSeq_granary (s : State) (t : Tile) (u : Sq) (f : SeqSt → SeqSt) : (s.modSeq t u f).granary = s.granary := rfl
@[simp] theorem State.modSeq_fabric (s : State) (t : Tile) (u : Sq) (f : SeqSt → SeqSt) : (s.modSeq t u f).fabric = s.fabric := rfl
@[simp] theorem State.modSeq_encs (s : State) (t : Tile) (u : Sq) (f : SeqSt → SeqSt) : (s.modSeq t u f).encs = s.encs := rfl
@[simp] theorem State.modSeq_monitors (s : State) (t : Tile) (u : Sq) (f : SeqSt → SeqSt) : (s.modSeq t u f).monitors = s.monitors := rfl
@[simp] theorem State.modSeq_flagWaits (s : State) (t : Tile) (u : Sq) (f : SeqSt → SeqSt) : (s.modSeq t u f).flagWaits = s.flagWaits := rfl
@[simp] theorem State.modSeq_cmdNo (s : State) (t : Tile) (u : Sq) (f : SeqSt → SeqSt) : (s.modSeq t u f).cmdNo = s.cmdNo := rfl
@[simp] theorem State.modSeq_bodies (s : State) (t : Tile) (u : Sq) (f : SeqSt → SeqSt) : (s.modSeq t u f).bodies = s.bodies := rfl
@[simp] theorem State.modSeq_scrubq (s : State) (t : Tile) (u : Sq) (f : SeqSt → SeqSt) : (s.modSeq t u f).scrubq = s.scrubq := rfl
@[simp] theorem State.modSeq_freePages (s : State) (t : Tile) (u : Sq) (f : SeqSt → SeqSt) : (s.modSeq t u f).freePages = s.freePages := rfl
@[simp] theorem State.modSeq_tables (s : State) (t : Tile) (u : Sq) (f : SeqSt → SeqSt) : (s.modSeq t u f).tables = s.tables := rfl
@[simp] theorem State.modSeq_hostData (s : State) (t : Tile) (u : Sq) (f : SeqSt → SeqSt) : (s.modSeq t u f).hostData = s.hostData := rfl

/-! ### State.cNextTo -/
@[simp] theorem State.cNextTo_cur (s : State) (pc : Word) : (s.cNextTo pc).cur = s.cur := rfl
@[simp] theorem State.cNextTo_curSq (s : State) (pc : Word) : (s.cNextTo pc).curSq = s.curSq := rfl
@[simp] theorem State.cNextTo_curCore (s : State) (pc : Word) : (s.cNextTo pc).curCore = s.curCore := rfl
@[simp] theorem State.cNextTo_ev (s : State) (pc : Word) : (s.cNextTo pc).ev = s.ev := rfl
@[simp] theorem State.cNextTo_schedule (s : State) (pc : Word) : (s.cNextTo pc).schedule = s.schedule := rfl
@[simp] theorem State.cNextTo_idlePick (s : State) (pc : Word) : (s.cNextTo pc).idlePick = s.idlePick := rfl
@[simp] theorem State.cNextTo_freeCount (s : State) (pc : Word) : (s.cNextTo pc).freeCount = s.freeCount := rfl
@[simp] theorem State.cNextTo_ck (s : State) (pc : Word) : (s.cNextTo pc).ck = s.ck := rfl
@[simp] theorem State.cNextTo_dtime (s : State) (pc : Word) : (s.cNextTo pc).dtime = s.dtime := rfl
@[simp] theorem State.cNextTo_dfrac (s : State) (pc : Word) : (s.cNextTo pc).dfrac = s.dfrac := rfl
@[simp] theorem State.cNextTo_parts (s : State) (pc : Word) : (s.cNextTo pc).parts = s.parts := rfl
@[simp] theorem State.cNextTo_bulk (s : State) (pc : Word) : (s.cNextTo pc).bulk = s.bulk := rfl
@[simp] theorem State.cNextTo_bulkPoison (s : State) (pc : Word) : (s.cNextTo pc).bulkPoison = s.bulkPoison := rfl
@[simp] theorem State.cNextTo_heap (s : State) (pc : Word) : (s.cNextTo pc).heap = s.heap := rfl
@[simp] theorem State.cNextTo_dieTb (s : State) (pc : Word) : (s.cNextTo pc).dieTb = s.dieTb := rfl
@[simp] theorem State.cNextTo_host (s : State) (pc : Word) : (s.cNextTo pc).host = s.host := rfl
@[simp] theorem State.cNextTo_pf (s : State) (pc : Word) : (s.cNextTo pc).pf = s.pf := rfl
@[simp] theorem State.cNextTo_vfs (s : State) (pc : Word) : (s.cNextTo pc).vfs = s.vfs := rfl
@[simp] theorem State.cNextTo_sent (s : State) (pc : Word) : (s.cNextTo pc).sent = s.sent := rfl
@[simp] theorem State.cNextTo_bar2Data (s : State) (pc : Word) : (s.cNextTo pc).bar2Data = s.bar2Data := rfl
@[simp] theorem State.cNextTo_granary (s : State) (pc : Word) : (s.cNextTo pc).granary = s.granary := rfl
@[simp] theorem State.cNextTo_fabric (s : State) (pc : Word) : (s.cNextTo pc).fabric = s.fabric := rfl
@[simp] theorem State.cNextTo_encs (s : State) (pc : Word) : (s.cNextTo pc).encs = s.encs := rfl
@[simp] theorem State.cNextTo_monitors (s : State) (pc : Word) : (s.cNextTo pc).monitors = s.monitors := rfl
@[simp] theorem State.cNextTo_flagWaits (s : State) (pc : Word) : (s.cNextTo pc).flagWaits = s.flagWaits := rfl
@[simp] theorem State.cNextTo_cmdNo (s : State) (pc : Word) : (s.cNextTo pc).cmdNo = s.cmdNo := rfl
@[simp] theorem State.cNextTo_bodies (s : State) (pc : Word) : (s.cNextTo pc).bodies = s.bodies := rfl
@[simp] theorem State.cNextTo_scrubq (s : State) (pc : Word) : (s.cNextTo pc).scrubq = s.scrubq := rfl
@[simp] theorem State.cNextTo_freePages (s : State) (pc : Word) : (s.cNextTo pc).freePages = s.freePages := rfl
@[simp] theorem State.cNextTo_tables (s : State) (pc : Word) : (s.cNextTo pc).tables = s.tables := rfl
@[simp] theorem State.cNextTo_hostData (s : State) (pc : Word) : (s.cNextTo pc).hostData = s.hostData := rfl

/-! ### State.cNext -/
@[simp] theorem State.cNext_cur (s : State) : (s.cNext).cur = s.cur := rfl
@[simp] theorem State.cNext_curSq (s : State) : (s.cNext).curSq = s.curSq := rfl
@[simp] theorem State.cNext_curCore (s : State) : (s.cNext).curCore = s.curCore := rfl
@[simp] theorem State.cNext_ev (s : State) : (s.cNext).ev = s.ev := rfl
@[simp] theorem State.cNext_schedule (s : State) : (s.cNext).schedule = s.schedule := rfl
@[simp] theorem State.cNext_idlePick (s : State) : (s.cNext).idlePick = s.idlePick := rfl
@[simp] theorem State.cNext_freeCount (s : State) : (s.cNext).freeCount = s.freeCount := rfl
@[simp] theorem State.cNext_ck (s : State) : (s.cNext).ck = s.ck := rfl
@[simp] theorem State.cNext_dtime (s : State) : (s.cNext).dtime = s.dtime := rfl
@[simp] theorem State.cNext_dfrac (s : State) : (s.cNext).dfrac = s.dfrac := rfl
@[simp] theorem State.cNext_parts (s : State) : (s.cNext).parts = s.parts := rfl
@[simp] theorem State.cNext_bulk (s : State) : (s.cNext).bulk = s.bulk := rfl
@[simp] theorem State.cNext_bulkPoison (s : State) : (s.cNext).bulkPoison = s.bulkPoison := rfl
@[simp] theorem State.cNext_heap (s : State) : (s.cNext).heap = s.heap := rfl
@[simp] theorem State.cNext_dieTb (s : State) : (s.cNext).dieTb = s.dieTb := rfl
@[simp] theorem State.cNext_host (s : State) : (s.cNext).host = s.host := rfl
@[simp] theorem State.cNext_pf (s : State) : (s.cNext).pf = s.pf := rfl
@[simp] theorem State.cNext_vfs (s : State) : (s.cNext).vfs = s.vfs := rfl
@[simp] theorem State.cNext_sent (s : State) : (s.cNext).sent = s.sent := rfl
@[simp] theorem State.cNext_bar2Data (s : State) : (s.cNext).bar2Data = s.bar2Data := rfl
@[simp] theorem State.cNext_granary (s : State) : (s.cNext).granary = s.granary := rfl
@[simp] theorem State.cNext_fabric (s : State) : (s.cNext).fabric = s.fabric := rfl
@[simp] theorem State.cNext_encs (s : State) : (s.cNext).encs = s.encs := rfl
@[simp] theorem State.cNext_monitors (s : State) : (s.cNext).monitors = s.monitors := rfl
@[simp] theorem State.cNext_flagWaits (s : State) : (s.cNext).flagWaits = s.flagWaits := rfl
@[simp] theorem State.cNext_cmdNo (s : State) : (s.cNext).cmdNo = s.cmdNo := rfl
@[simp] theorem State.cNext_bodies (s : State) : (s.cNext).bodies = s.bodies := rfl
@[simp] theorem State.cNext_scrubq (s : State) : (s.cNext).scrubq = s.scrubq := rfl
@[simp] theorem State.cNext_freePages (s : State) : (s.cNext).freePages = s.freePages := rfl
@[simp] theorem State.cNext_tables (s : State) : (s.cNext).tables = s.tables := rfl
@[simp] theorem State.cNext_hostData (s : State) : (s.cNext).hostData = s.hostData := rfl

/-! ### State.setPart -/
@[simp] theorem State.setPart_cur (s : State) (p : PartId) (x : PartSt) : (s.setPart p x).cur = s.cur := rfl
@[simp] theorem State.setPart_curSq (s : State) (p : PartId) (x : PartSt) : (s.setPart p x).curSq = s.curSq := rfl
@[simp] theorem State.setPart_curCore (s : State) (p : PartId) (x : PartSt) : (s.setPart p x).curCore = s.curCore := rfl
@[simp] theorem State.setPart_ev (s : State) (p : PartId) (x : PartSt) : (s.setPart p x).ev = s.ev := rfl
@[simp] theorem State.setPart_schedule (s : State) (p : PartId) (x : PartSt) : (s.setPart p x).schedule = s.schedule := rfl
@[simp] theorem State.setPart_idlePick (s : State) (p : PartId) (x : PartSt) : (s.setPart p x).idlePick = s.idlePick := rfl
@[simp] theorem State.setPart_freeCount (s : State) (p : PartId) (x : PartSt) : (s.setPart p x).freeCount = s.freeCount := rfl
@[simp] theorem State.setPart_ck (s : State) (p : PartId) (x : PartSt) : (s.setPart p x).ck = s.ck := rfl
@[simp] theorem State.setPart_dtime (s : State) (p : PartId) (x : PartSt) : (s.setPart p x).dtime = s.dtime := rfl
@[simp] theorem State.setPart_dfrac (s : State) (p : PartId) (x : PartSt) : (s.setPart p x).dfrac = s.dfrac := rfl
@[simp] theorem State.setPart_tiles (s : State) (p : PartId) (x : PartSt) : (s.setPart p x).tiles = s.tiles := rfl
@[simp] theorem State.setPart_bulk (s : State) (p : PartId) (x : PartSt) : (s.setPart p x).bulk = s.bulk := rfl
@[simp] theorem State.setPart_bulkPoison (s : State) (p : PartId) (x : PartSt) : (s.setPart p x).bulkPoison = s.bulkPoison := rfl
@[simp] theorem State.setPart_heap (s : State) (p : PartId) (x : PartSt) : (s.setPart p x).heap = s.heap := rfl
@[simp] theorem State.setPart_dieTb (s : State) (p : PartId) (x : PartSt) : (s.setPart p x).dieTb = s.dieTb := rfl
@[simp] theorem State.setPart_host (s : State) (p : PartId) (x : PartSt) : (s.setPart p x).host = s.host := rfl
@[simp] theorem State.setPart_pf (s : State) (p : PartId) (x : PartSt) : (s.setPart p x).pf = s.pf := rfl
@[simp] theorem State.setPart_vfs (s : State) (p : PartId) (x : PartSt) : (s.setPart p x).vfs = s.vfs := rfl
@[simp] theorem State.setPart_sent (s : State) (p : PartId) (x : PartSt) : (s.setPart p x).sent = s.sent := rfl
@[simp] theorem State.setPart_bar2Data (s : State) (p : PartId) (x : PartSt) : (s.setPart p x).bar2Data = s.bar2Data := rfl
@[simp] theorem State.setPart_granary (s : State) (p : PartId) (x : PartSt) : (s.setPart p x).granary = s.granary := rfl
@[simp] theorem State.setPart_fabric (s : State) (p : PartId) (x : PartSt) : (s.setPart p x).fabric = s.fabric := rfl
@[simp] theorem State.setPart_encs (s : State) (p : PartId) (x : PartSt) : (s.setPart p x).encs = s.encs := rfl
@[simp] theorem State.setPart_monitors (s : State) (p : PartId) (x : PartSt) : (s.setPart p x).monitors = s.monitors := rfl
@[simp] theorem State.setPart_flagWaits (s : State) (p : PartId) (x : PartSt) : (s.setPart p x).flagWaits = s.flagWaits := rfl
@[simp] theorem State.setPart_cmdNo (s : State) (p : PartId) (x : PartSt) : (s.setPart p x).cmdNo = s.cmdNo := rfl
@[simp] theorem State.setPart_bodies (s : State) (p : PartId) (x : PartSt) : (s.setPart p x).bodies = s.bodies := rfl
@[simp] theorem State.setPart_scrubq (s : State) (p : PartId) (x : PartSt) : (s.setPart p x).scrubq = s.scrubq := rfl
@[simp] theorem State.setPart_freePages (s : State) (p : PartId) (x : PartSt) : (s.setPart p x).freePages = s.freePages := rfl
@[simp] theorem State.setPart_tables (s : State) (p : PartId) (x : PartSt) : (s.setPart p x).tables = s.tables := rfl
@[simp] theorem State.setPart_hostData (s : State) (p : PartId) (x : PartSt) : (s.setPart p x).hostData = s.hostData := rfl

/-! ### State.modPart -/
@[simp] theorem State.modPart_cur (s : State) (p : PartId) (f : PartSt → PartSt) : (s.modPart p f).cur = s.cur := rfl
@[simp] theorem State.modPart_curSq (s : State) (p : PartId) (f : PartSt → PartSt) : (s.modPart p f).curSq = s.curSq := rfl
@[simp] theorem State.modPart_curCore (s : State) (p : PartId) (f : PartSt → PartSt) : (s.modPart p f).curCore = s.curCore := rfl
@[simp] theorem State.modPart_ev (s : State) (p : PartId) (f : PartSt → PartSt) : (s.modPart p f).ev = s.ev := rfl
@[simp] theorem State.modPart_schedule (s : State) (p : PartId) (f : PartSt → PartSt) : (s.modPart p f).schedule = s.schedule := rfl
@[simp] theorem State.modPart_idlePick (s : State) (p : PartId) (f : PartSt → PartSt) : (s.modPart p f).idlePick = s.idlePick := rfl
@[simp] theorem State.modPart_freeCount (s : State) (p : PartId) (f : PartSt → PartSt) : (s.modPart p f).freeCount = s.freeCount := rfl
@[simp] theorem State.modPart_ck (s : State) (p : PartId) (f : PartSt → PartSt) : (s.modPart p f).ck = s.ck := rfl
@[simp] theorem State.modPart_dtime (s : State) (p : PartId) (f : PartSt → PartSt) : (s.modPart p f).dtime = s.dtime := rfl
@[simp] theorem State.modPart_dfrac (s : State) (p : PartId) (f : PartSt → PartSt) : (s.modPart p f).dfrac = s.dfrac := rfl
@[simp] theorem State.modPart_tiles (s : State) (p : PartId) (f : PartSt → PartSt) : (s.modPart p f).tiles = s.tiles := rfl
@[simp] theorem State.modPart_bulk (s : State) (p : PartId) (f : PartSt → PartSt) : (s.modPart p f).bulk = s.bulk := rfl
@[simp] theorem State.modPart_bulkPoison (s : State) (p : PartId) (f : PartSt → PartSt) : (s.modPart p f).bulkPoison = s.bulkPoison := rfl
@[simp] theorem State.modPart_heap (s : State) (p : PartId) (f : PartSt → PartSt) : (s.modPart p f).heap = s.heap := rfl
@[simp] theorem State.modPart_dieTb (s : State) (p : PartId) (f : PartSt → PartSt) : (s.modPart p f).dieTb = s.dieTb := rfl
@[simp] theorem State.modPart_host (s : State) (p : PartId) (f : PartSt → PartSt) : (s.modPart p f).host = s.host := rfl
@[simp] theorem State.modPart_pf (s : State) (p : PartId) (f : PartSt → PartSt) : (s.modPart p f).pf = s.pf := rfl
@[simp] theorem State.modPart_vfs (s : State) (p : PartId) (f : PartSt → PartSt) : (s.modPart p f).vfs = s.vfs := rfl
@[simp] theorem State.modPart_sent (s : State) (p : PartId) (f : PartSt → PartSt) : (s.modPart p f).sent = s.sent := rfl
@[simp] theorem State.modPart_bar2Data (s : State) (p : PartId) (f : PartSt → PartSt) : (s.modPart p f).bar2Data = s.bar2Data := rfl
@[simp] theorem State.modPart_granary (s : State) (p : PartId) (f : PartSt → PartSt) : (s.modPart p f).granary = s.granary := rfl
@[simp] theorem State.modPart_fabric (s : State) (p : PartId) (f : PartSt → PartSt) : (s.modPart p f).fabric = s.fabric := rfl
@[simp] theorem State.modPart_encs (s : State) (p : PartId) (f : PartSt → PartSt) : (s.modPart p f).encs = s.encs := rfl
@[simp] theorem State.modPart_monitors (s : State) (p : PartId) (f : PartSt → PartSt) : (s.modPart p f).monitors = s.monitors := rfl
@[simp] theorem State.modPart_flagWaits (s : State) (p : PartId) (f : PartSt → PartSt) : (s.modPart p f).flagWaits = s.flagWaits := rfl
@[simp] theorem State.modPart_cmdNo (s : State) (p : PartId) (f : PartSt → PartSt) : (s.modPart p f).cmdNo = s.cmdNo := rfl
@[simp] theorem State.modPart_bodies (s : State) (p : PartId) (f : PartSt → PartSt) : (s.modPart p f).bodies = s.bodies := rfl
@[simp] theorem State.modPart_scrubq (s : State) (p : PartId) (f : PartSt → PartSt) : (s.modPart p f).scrubq = s.scrubq := rfl
@[simp] theorem State.modPart_freePages (s : State) (p : PartId) (f : PartSt → PartSt) : (s.modPart p f).freePages = s.freePages := rfl
@[simp] theorem State.modPart_tables (s : State) (p : PartId) (f : PartSt → PartSt) : (s.modPart p f).tables = s.tables := rfl
@[simp] theorem State.modPart_hostData (s : State) (p : PartId) (f : PartSt → PartSt) : (s.modPart p f).hostData = s.hostData := rfl

/-! ### State.modVf -/
@[simp] theorem State.modVf_cur (s : State) (f : VfId) (g : VfSt → VfSt) : (s.modVf f g).cur = s.cur := rfl
@[simp] theorem State.modVf_curSq (s : State) (f : VfId) (g : VfSt → VfSt) : (s.modVf f g).curSq = s.curSq := rfl
@[simp] theorem State.modVf_curCore (s : State) (f : VfId) (g : VfSt → VfSt) : (s.modVf f g).curCore = s.curCore := rfl
@[simp] theorem State.modVf_ev (s : State) (f : VfId) (g : VfSt → VfSt) : (s.modVf f g).ev = s.ev := rfl
@[simp] theorem State.modVf_schedule (s : State) (f : VfId) (g : VfSt → VfSt) : (s.modVf f g).schedule = s.schedule := rfl
@[simp] theorem State.modVf_idlePick (s : State) (f : VfId) (g : VfSt → VfSt) : (s.modVf f g).idlePick = s.idlePick := rfl
@[simp] theorem State.modVf_freeCount (s : State) (f : VfId) (g : VfSt → VfSt) : (s.modVf f g).freeCount = s.freeCount := rfl
@[simp] theorem State.modVf_ck (s : State) (f : VfId) (g : VfSt → VfSt) : (s.modVf f g).ck = s.ck := rfl
@[simp] theorem State.modVf_dtime (s : State) (f : VfId) (g : VfSt → VfSt) : (s.modVf f g).dtime = s.dtime := rfl
@[simp] theorem State.modVf_dfrac (s : State) (f : VfId) (g : VfSt → VfSt) : (s.modVf f g).dfrac = s.dfrac := rfl
@[simp] theorem State.modVf_tiles (s : State) (f : VfId) (g : VfSt → VfSt) : (s.modVf f g).tiles = s.tiles := rfl
@[simp] theorem State.modVf_parts (s : State) (f : VfId) (g : VfSt → VfSt) : (s.modVf f g).parts = s.parts := rfl
@[simp] theorem State.modVf_bulk (s : State) (f : VfId) (g : VfSt → VfSt) : (s.modVf f g).bulk = s.bulk := rfl
@[simp] theorem State.modVf_bulkPoison (s : State) (f : VfId) (g : VfSt → VfSt) : (s.modVf f g).bulkPoison = s.bulkPoison := rfl
@[simp] theorem State.modVf_heap (s : State) (f : VfId) (g : VfSt → VfSt) : (s.modVf f g).heap = s.heap := rfl
@[simp] theorem State.modVf_dieTb (s : State) (f : VfId) (g : VfSt → VfSt) : (s.modVf f g).dieTb = s.dieTb := rfl
@[simp] theorem State.modVf_host (s : State) (f : VfId) (g : VfSt → VfSt) : (s.modVf f g).host = s.host := rfl
@[simp] theorem State.modVf_pf (s : State) (f : VfId) (g : VfSt → VfSt) : (s.modVf f g).pf = s.pf := rfl
@[simp] theorem State.modVf_sent (s : State) (f : VfId) (g : VfSt → VfSt) : (s.modVf f g).sent = s.sent := rfl
@[simp] theorem State.modVf_bar2Data (s : State) (f : VfId) (g : VfSt → VfSt) : (s.modVf f g).bar2Data = s.bar2Data := rfl
@[simp] theorem State.modVf_granary (s : State) (f : VfId) (g : VfSt → VfSt) : (s.modVf f g).granary = s.granary := rfl
@[simp] theorem State.modVf_fabric (s : State) (f : VfId) (g : VfSt → VfSt) : (s.modVf f g).fabric = s.fabric := rfl
@[simp] theorem State.modVf_encs (s : State) (f : VfId) (g : VfSt → VfSt) : (s.modVf f g).encs = s.encs := rfl
@[simp] theorem State.modVf_monitors (s : State) (f : VfId) (g : VfSt → VfSt) : (s.modVf f g).monitors = s.monitors := rfl
@[simp] theorem State.modVf_flagWaits (s : State) (f : VfId) (g : VfSt → VfSt) : (s.modVf f g).flagWaits = s.flagWaits := rfl
@[simp] theorem State.modVf_cmdNo (s : State) (f : VfId) (g : VfSt → VfSt) : (s.modVf f g).cmdNo = s.cmdNo := rfl
@[simp] theorem State.modVf_bodies (s : State) (f : VfId) (g : VfSt → VfSt) : (s.modVf f g).bodies = s.bodies := rfl
@[simp] theorem State.modVf_scrubq (s : State) (f : VfId) (g : VfSt → VfSt) : (s.modVf f g).scrubq = s.scrubq := rfl
@[simp] theorem State.modVf_freePages (s : State) (f : VfId) (g : VfSt → VfSt) : (s.modVf f g).freePages = s.freePages := rfl
@[simp] theorem State.modVf_tables (s : State) (f : VfId) (g : VfSt → VfSt) : (s.modVf f g).tables = s.tables := rfl
@[simp] theorem State.modVf_hostData (s : State) (f : VfId) (g : VfSt → VfSt) : (s.modVf f g).hostData = s.hostData := rfl

/-! ### State.modPf -/
@[simp] theorem State.modPf_cur (s : State) (f : PfSt → PfSt) : (s.modPf f).cur = s.cur := rfl
@[simp] theorem State.modPf_curSq (s : State) (f : PfSt → PfSt) : (s.modPf f).curSq = s.curSq := rfl
@[simp] theorem State.modPf_curCore (s : State) (f : PfSt → PfSt) : (s.modPf f).curCore = s.curCore := rfl
@[simp] theorem State.modPf_ev (s : State) (f : PfSt → PfSt) : (s.modPf f).ev = s.ev := rfl
@[simp] theorem State.modPf_schedule (s : State) (f : PfSt → PfSt) : (s.modPf f).schedule = s.schedule := rfl
@[simp] theorem State.modPf_idlePick (s : State) (f : PfSt → PfSt) : (s.modPf f).idlePick = s.idlePick := rfl
@[simp] theorem State.modPf_freeCount (s : State) (f : PfSt → PfSt) : (s.modPf f).freeCount = s.freeCount := rfl
@[simp] theorem State.modPf_ck (s : State) (f : PfSt → PfSt) : (s.modPf f).ck = s.ck := rfl
@[simp] theorem State.modPf_dtime (s : State) (f : PfSt → PfSt) : (s.modPf f).dtime = s.dtime := rfl
@[simp] theorem State.modPf_dfrac (s : State) (f : PfSt → PfSt) : (s.modPf f).dfrac = s.dfrac := rfl
@[simp] theorem State.modPf_tiles (s : State) (f : PfSt → PfSt) : (s.modPf f).tiles = s.tiles := rfl
@[simp] theorem State.modPf_parts (s : State) (f : PfSt → PfSt) : (s.modPf f).parts = s.parts := rfl
@[simp] theorem State.modPf_bulk (s : State) (f : PfSt → PfSt) : (s.modPf f).bulk = s.bulk := rfl
@[simp] theorem State.modPf_bulkPoison (s : State) (f : PfSt → PfSt) : (s.modPf f).bulkPoison = s.bulkPoison := rfl
@[simp] theorem State.modPf_heap (s : State) (f : PfSt → PfSt) : (s.modPf f).heap = s.heap := rfl
@[simp] theorem State.modPf_dieTb (s : State) (f : PfSt → PfSt) : (s.modPf f).dieTb = s.dieTb := rfl
@[simp] theorem State.modPf_host (s : State) (f : PfSt → PfSt) : (s.modPf f).host = s.host := rfl
@[simp] theorem State.modPf_vfs (s : State) (f : PfSt → PfSt) : (s.modPf f).vfs = s.vfs := rfl
@[simp] theorem State.modPf_sent (s : State) (f : PfSt → PfSt) : (s.modPf f).sent = s.sent := rfl
@[simp] theorem State.modPf_bar2Data (s : State) (f : PfSt → PfSt) : (s.modPf f).bar2Data = s.bar2Data := rfl
@[simp] theorem State.modPf_granary (s : State) (f : PfSt → PfSt) : (s.modPf f).granary = s.granary := rfl
@[simp] theorem State.modPf_fabric (s : State) (f : PfSt → PfSt) : (s.modPf f).fabric = s.fabric := rfl
@[simp] theorem State.modPf_encs (s : State) (f : PfSt → PfSt) : (s.modPf f).encs = s.encs := rfl
@[simp] theorem State.modPf_monitors (s : State) (f : PfSt → PfSt) : (s.modPf f).monitors = s.monitors := rfl
@[simp] theorem State.modPf_flagWaits (s : State) (f : PfSt → PfSt) : (s.modPf f).flagWaits = s.flagWaits := rfl
@[simp] theorem State.modPf_cmdNo (s : State) (f : PfSt → PfSt) : (s.modPf f).cmdNo = s.cmdNo := rfl
@[simp] theorem State.modPf_bodies (s : State) (f : PfSt → PfSt) : (s.modPf f).bodies = s.bodies := rfl
@[simp] theorem State.modPf_scrubq (s : State) (f : PfSt → PfSt) : (s.modPf f).scrubq = s.scrubq := rfl
@[simp] theorem State.modPf_freePages (s : State) (f : PfSt → PfSt) : (s.modPf f).freePages = s.freePages := rfl
@[simp] theorem State.modPf_tables (s : State) (f : PfSt → PfSt) : (s.modPf f).tables = s.tables := rfl
@[simp] theorem State.modPf_hostData (s : State) (f : PfSt → PfSt) : (s.modPf f).hostData = s.hostData := rfl

/-! ### State.modGran -/
@[simp] theorem State.modGran_cur (s : State) (f : GranarySt → GranarySt) : (s.modGran f).cur = s.cur := rfl
@[simp] theorem State.modGran_curSq (s : State) (f : GranarySt → GranarySt) : (s.modGran f).curSq = s.curSq := rfl
@[simp] theorem State.modGran_curCore (s : State) (f : GranarySt → GranarySt) : (s.modGran f).curCore = s.curCore := rfl
@[simp] theorem State.modGran_ev (s : State) (f : GranarySt → GranarySt) : (s.modGran f).ev = s.ev := rfl
@[simp] theorem State.modGran_schedule (s : State) (f : GranarySt → GranarySt) : (s.modGran f).schedule = s.schedule := rfl
@[simp] theorem State.modGran_idlePick (s : State) (f : GranarySt → GranarySt) : (s.modGran f).idlePick = s.idlePick := rfl
@[simp] theorem State.modGran_freeCount (s : State) (f : GranarySt → GranarySt) : (s.modGran f).freeCount = s.freeCount := rfl
@[simp] theorem State.modGran_ck (s : State) (f : GranarySt → GranarySt) : (s.modGran f).ck = s.ck := rfl
@[simp] theorem State.modGran_dtime (s : State) (f : GranarySt → GranarySt) : (s.modGran f).dtime = s.dtime := rfl
@[simp] theorem State.modGran_dfrac (s : State) (f : GranarySt → GranarySt) : (s.modGran f).dfrac = s.dfrac := rfl
@[simp] theorem State.modGran_tiles (s : State) (f : GranarySt → GranarySt) : (s.modGran f).tiles = s.tiles := rfl
@[simp] theorem State.modGran_parts (s : State) (f : GranarySt → GranarySt) : (s.modGran f).parts = s.parts := rfl
@[simp] theorem State.modGran_bulk (s : State) (f : GranarySt → GranarySt) : (s.modGran f).bulk = s.bulk := rfl
@[simp] theorem State.modGran_bulkPoison (s : State) (f : GranarySt → GranarySt) : (s.modGran f).bulkPoison = s.bulkPoison := rfl
@[simp] theorem State.modGran_heap (s : State) (f : GranarySt → GranarySt) : (s.modGran f).heap = s.heap := rfl
@[simp] theorem State.modGran_dieTb (s : State) (f : GranarySt → GranarySt) : (s.modGran f).dieTb = s.dieTb := rfl
@[simp] theorem State.modGran_host (s : State) (f : GranarySt → GranarySt) : (s.modGran f).host = s.host := rfl
@[simp] theorem State.modGran_pf (s : State) (f : GranarySt → GranarySt) : (s.modGran f).pf = s.pf := rfl
@[simp] theorem State.modGran_vfs (s : State) (f : GranarySt → GranarySt) : (s.modGran f).vfs = s.vfs := rfl
@[simp] theorem State.modGran_sent (s : State) (f : GranarySt → GranarySt) : (s.modGran f).sent = s.sent := rfl
@[simp] theorem State.modGran_bar2Data (s : State) (f : GranarySt → GranarySt) : (s.modGran f).bar2Data = s.bar2Data := rfl
@[simp] theorem State.modGran_fabric (s : State) (f : GranarySt → GranarySt) : (s.modGran f).fabric = s.fabric := rfl
@[simp] theorem State.modGran_encs (s : State) (f : GranarySt → GranarySt) : (s.modGran f).encs = s.encs := rfl
@[simp] theorem State.modGran_monitors (s : State) (f : GranarySt → GranarySt) : (s.modGran f).monitors = s.monitors := rfl
@[simp] theorem State.modGran_flagWaits (s : State) (f : GranarySt → GranarySt) : (s.modGran f).flagWaits = s.flagWaits := rfl
@[simp] theorem State.modGran_cmdNo (s : State) (f : GranarySt → GranarySt) : (s.modGran f).cmdNo = s.cmdNo := rfl
@[simp] theorem State.modGran_bodies (s : State) (f : GranarySt → GranarySt) : (s.modGran f).bodies = s.bodies := rfl
@[simp] theorem State.modGran_scrubq (s : State) (f : GranarySt → GranarySt) : (s.modGran f).scrubq = s.scrubq := rfl
@[simp] theorem State.modGran_freePages (s : State) (f : GranarySt → GranarySt) : (s.modGran f).freePages = s.freePages := rfl
@[simp] theorem State.modGran_tables (s : State) (f : GranarySt → GranarySt) : (s.modGran f).tables = s.tables := rfl
@[simp] theorem State.modGran_hostData (s : State) (f : GranarySt → GranarySt) : (s.modGran f).hostData = s.hostData := rfl

/-! ### State.modFab -/
@[simp] theorem State.modFab_cur (s : State) (f : FabricSt → FabricSt) : (s.modFab f).cur = s.cur := rfl
@[simp] theorem State.modFab_curSq (s : State) (f : FabricSt → FabricSt) : (s.modFab f).curSq = s.curSq := rfl
@[simp] theorem State.modFab_curCore (s : State) (f : FabricSt → FabricSt) : (s.modFab f).curCore = s.curCore := rfl
@[simp] theorem State.modFab_ev (s : State) (f : FabricSt → FabricSt) : (s.modFab f).ev = s.ev := rfl
@[simp] theorem State.modFab_schedule (s : State) (f : FabricSt → FabricSt) : (s.modFab f).schedule = s.schedule := rfl
@[simp] theorem State.modFab_idlePick (s : State) (f : FabricSt → FabricSt) : (s.modFab f).idlePick = s.idlePick := rfl
@[simp] theorem State.modFab_freeCount (s : State) (f : FabricSt → FabricSt) : (s.modFab f).freeCount = s.freeCount := rfl
@[simp] theorem State.modFab_ck (s : State) (f : FabricSt → FabricSt) : (s.modFab f).ck = s.ck := rfl
@[simp] theorem State.modFab_dtime (s : State) (f : FabricSt → FabricSt) : (s.modFab f).dtime = s.dtime := rfl
@[simp] theorem State.modFab_dfrac (s : State) (f : FabricSt → FabricSt) : (s.modFab f).dfrac = s.dfrac := rfl
@[simp] theorem State.modFab_tiles (s : State) (f : FabricSt → FabricSt) : (s.modFab f).tiles = s.tiles := rfl
@[simp] theorem State.modFab_parts (s : State) (f : FabricSt → FabricSt) : (s.modFab f).parts = s.parts := rfl
@[simp] theorem State.modFab_bulk (s : State) (f : FabricSt → FabricSt) : (s.modFab f).bulk = s.bulk := rfl
@[simp] theorem State.modFab_bulkPoison (s : State) (f : FabricSt → FabricSt) : (s.modFab f).bulkPoison = s.bulkPoison := rfl
@[simp] theorem State.modFab_heap (s : State) (f : FabricSt → FabricSt) : (s.modFab f).heap = s.heap := rfl
@[simp] theorem State.modFab_dieTb (s : State) (f : FabricSt → FabricSt) : (s.modFab f).dieTb = s.dieTb := rfl
@[simp] theorem State.modFab_host (s : State) (f : FabricSt → FabricSt) : (s.modFab f).host = s.host := rfl
@[simp] theorem State.modFab_pf (s : State) (f : FabricSt → FabricSt) : (s.modFab f).pf = s.pf := rfl
@[simp] theorem State.modFab_vfs (s : State) (f : FabricSt → FabricSt) : (s.modFab f).vfs = s.vfs := rfl
@[simp] theorem State.modFab_sent (s : State) (f : FabricSt → FabricSt) : (s.modFab f).sent = s.sent := rfl
@[simp] theorem State.modFab_bar2Data (s : State) (f : FabricSt → FabricSt) : (s.modFab f).bar2Data = s.bar2Data := rfl
@[simp] theorem State.modFab_granary (s : State) (f : FabricSt → FabricSt) : (s.modFab f).granary = s.granary := rfl
@[simp] theorem State.modFab_encs (s : State) (f : FabricSt → FabricSt) : (s.modFab f).encs = s.encs := rfl
@[simp] theorem State.modFab_monitors (s : State) (f : FabricSt → FabricSt) : (s.modFab f).monitors = s.monitors := rfl
@[simp] theorem State.modFab_flagWaits (s : State) (f : FabricSt → FabricSt) : (s.modFab f).flagWaits = s.flagWaits := rfl
@[simp] theorem State.modFab_cmdNo (s : State) (f : FabricSt → FabricSt) : (s.modFab f).cmdNo = s.cmdNo := rfl
@[simp] theorem State.modFab_bodies (s : State) (f : FabricSt → FabricSt) : (s.modFab f).bodies = s.bodies := rfl
@[simp] theorem State.modFab_scrubq (s : State) (f : FabricSt → FabricSt) : (s.modFab f).scrubq = s.scrubq := rfl
@[simp] theorem State.modFab_freePages (s : State) (f : FabricSt → FabricSt) : (s.modFab f).freePages = s.freePages := rfl
@[simp] theorem State.modFab_tables (s : State) (f : FabricSt → FabricSt) : (s.modFab f).tables = s.tables := rfl
@[simp] theorem State.modFab_hostData (s : State) (f : FabricSt → FabricSt) : (s.modFab f).hostData = s.hostData := rfl

/-! ### State.modEnc -/
@[simp] theorem State.modEnc_cur (s : State) (e : Fin 8) (f : EncSt → EncSt) : (s.modEnc e f).cur = s.cur := rfl
@[simp] theorem State.modEnc_curSq (s : State) (e : Fin 8) (f : EncSt → EncSt) : (s.modEnc e f).curSq = s.curSq := rfl
@[simp] theorem State.modEnc_curCore (s : State) (e : Fin 8) (f : EncSt → EncSt) : (s.modEnc e f).curCore = s.curCore := rfl
@[simp] theorem State.modEnc_ev (s : State) (e : Fin 8) (f : EncSt → EncSt) : (s.modEnc e f).ev = s.ev := rfl
@[simp] theorem State.modEnc_schedule (s : State) (e : Fin 8) (f : EncSt → EncSt) : (s.modEnc e f).schedule = s.schedule := rfl
@[simp] theorem State.modEnc_idlePick (s : State) (e : Fin 8) (f : EncSt → EncSt) : (s.modEnc e f).idlePick = s.idlePick := rfl
@[simp] theorem State.modEnc_freeCount (s : State) (e : Fin 8) (f : EncSt → EncSt) : (s.modEnc e f).freeCount = s.freeCount := rfl
@[simp] theorem State.modEnc_ck (s : State) (e : Fin 8) (f : EncSt → EncSt) : (s.modEnc e f).ck = s.ck := rfl
@[simp] theorem State.modEnc_dtime (s : State) (e : Fin 8) (f : EncSt → EncSt) : (s.modEnc e f).dtime = s.dtime := rfl
@[simp] theorem State.modEnc_dfrac (s : State) (e : Fin 8) (f : EncSt → EncSt) : (s.modEnc e f).dfrac = s.dfrac := rfl
@[simp] theorem State.modEnc_tiles (s : State) (e : Fin 8) (f : EncSt → EncSt) : (s.modEnc e f).tiles = s.tiles := rfl
@[simp] theorem State.modEnc_parts (s : State) (e : Fin 8) (f : EncSt → EncSt) : (s.modEnc e f).parts = s.parts := rfl
@[simp] theorem State.modEnc_bulk (s : State) (e : Fin 8) (f : EncSt → EncSt) : (s.modEnc e f).bulk = s.bulk := rfl
@[simp] theorem State.modEnc_bulkPoison (s : State) (e : Fin 8) (f : EncSt → EncSt) : (s.modEnc e f).bulkPoison = s.bulkPoison := rfl
@[simp] theorem State.modEnc_heap (s : State) (e : Fin 8) (f : EncSt → EncSt) : (s.modEnc e f).heap = s.heap := rfl
@[simp] theorem State.modEnc_dieTb (s : State) (e : Fin 8) (f : EncSt → EncSt) : (s.modEnc e f).dieTb = s.dieTb := rfl
@[simp] theorem State.modEnc_host (s : State) (e : Fin 8) (f : EncSt → EncSt) : (s.modEnc e f).host = s.host := rfl
@[simp] theorem State.modEnc_pf (s : State) (e : Fin 8) (f : EncSt → EncSt) : (s.modEnc e f).pf = s.pf := rfl
@[simp] theorem State.modEnc_vfs (s : State) (e : Fin 8) (f : EncSt → EncSt) : (s.modEnc e f).vfs = s.vfs := rfl
@[simp] theorem State.modEnc_sent (s : State) (e : Fin 8) (f : EncSt → EncSt) : (s.modEnc e f).sent = s.sent := rfl
@[simp] theorem State.modEnc_bar2Data (s : State) (e : Fin 8) (f : EncSt → EncSt) : (s.modEnc e f).bar2Data = s.bar2Data := rfl
@[simp] theorem State.modEnc_granary (s : State) (e : Fin 8) (f : EncSt → EncSt) : (s.modEnc e f).granary = s.granary := rfl
@[simp] theorem State.modEnc_fabric (s : State) (e : Fin 8) (f : EncSt → EncSt) : (s.modEnc e f).fabric = s.fabric := rfl
@[simp] theorem State.modEnc_monitors (s : State) (e : Fin 8) (f : EncSt → EncSt) : (s.modEnc e f).monitors = s.monitors := rfl
@[simp] theorem State.modEnc_flagWaits (s : State) (e : Fin 8) (f : EncSt → EncSt) : (s.modEnc e f).flagWaits = s.flagWaits := rfl
@[simp] theorem State.modEnc_cmdNo (s : State) (e : Fin 8) (f : EncSt → EncSt) : (s.modEnc e f).cmdNo = s.cmdNo := rfl
@[simp] theorem State.modEnc_bodies (s : State) (e : Fin 8) (f : EncSt → EncSt) : (s.modEnc e f).bodies = s.bodies := rfl
@[simp] theorem State.modEnc_scrubq (s : State) (e : Fin 8) (f : EncSt → EncSt) : (s.modEnc e f).scrubq = s.scrubq := rfl
@[simp] theorem State.modEnc_freePages (s : State) (e : Fin 8) (f : EncSt → EncSt) : (s.modEnc e f).freePages = s.freePages := rfl
@[simp] theorem State.modEnc_tables (s : State) (e : Fin 8) (f : EncSt → EncSt) : (s.modEnc e f).tables = s.tables := rfl
@[simp] theorem State.modEnc_hostData (s : State) (e : Fin 8) (f : EncSt → EncSt) : (s.modEnc e f).hostData = s.hostData := rfl

/-! ### State.drawn -/
@[simp] theorem State.drawn_cur (s : State) : (s.drawn).cur = s.cur := rfl
@[simp] theorem State.drawn_curSq (s : State) : (s.drawn).curSq = s.curSq := rfl
@[simp] theorem State.drawn_curCore (s : State) : (s.drawn).curCore = s.curCore := rfl
@[simp] theorem State.drawn_ev (s : State) : (s.drawn).ev = s.ev := rfl
@[simp] theorem State.drawn_schedule (s : State) : (s.drawn).schedule = s.schedule := rfl
@[simp] theorem State.drawn_idlePick (s : State) : (s.drawn).idlePick = s.idlePick := rfl
@[simp] theorem State.drawn_ck (s : State) : (s.drawn).ck = s.ck := rfl
@[simp] theorem State.drawn_dtime (s : State) : (s.drawn).dtime = s.dtime := rfl
@[simp] theorem State.drawn_dfrac (s : State) : (s.drawn).dfrac = s.dfrac := rfl
@[simp] theorem State.drawn_tiles (s : State) : (s.drawn).tiles = s.tiles := rfl
@[simp] theorem State.drawn_parts (s : State) : (s.drawn).parts = s.parts := rfl
@[simp] theorem State.drawn_bulk (s : State) : (s.drawn).bulk = s.bulk := rfl
@[simp] theorem State.drawn_bulkPoison (s : State) : (s.drawn).bulkPoison = s.bulkPoison := rfl
@[simp] theorem State.drawn_heap (s : State) : (s.drawn).heap = s.heap := rfl
@[simp] theorem State.drawn_dieTb (s : State) : (s.drawn).dieTb = s.dieTb := rfl
@[simp] theorem State.drawn_host (s : State) : (s.drawn).host = s.host := rfl
@[simp] theorem State.drawn_pf (s : State) : (s.drawn).pf = s.pf := rfl
@[simp] theorem State.drawn_vfs (s : State) : (s.drawn).vfs = s.vfs := rfl
@[simp] theorem State.drawn_sent (s : State) : (s.drawn).sent = s.sent := rfl
@[simp] theorem State.drawn_bar2Data (s : State) : (s.drawn).bar2Data = s.bar2Data := rfl
@[simp] theorem State.drawn_granary (s : State) : (s.drawn).granary = s.granary := rfl
@[simp] theorem State.drawn_fabric (s : State) : (s.drawn).fabric = s.fabric := rfl
@[simp] theorem State.drawn_encs (s : State) : (s.drawn).encs = s.encs := rfl
@[simp] theorem State.drawn_monitors (s : State) : (s.drawn).monitors = s.monitors := rfl
@[simp] theorem State.drawn_flagWaits (s : State) : (s.drawn).flagWaits = s.flagWaits := rfl
@[simp] theorem State.drawn_cmdNo (s : State) : (s.drawn).cmdNo = s.cmdNo := rfl
@[simp] theorem State.drawn_bodies (s : State) : (s.drawn).bodies = s.bodies := rfl
@[simp] theorem State.drawn_scrubq (s : State) : (s.drawn).scrubq = s.scrubq := rfl
@[simp] theorem State.drawn_freePages (s : State) : (s.drawn).freePages = s.freePages := rfl
@[simp] theorem State.drawn_tables (s : State) : (s.drawn).tables = s.tables := rfl
@[simp] theorem State.drawn_hostData (s : State) : (s.drawn).hostData = s.hostData := rfl

/-! ## Reads of vectors after updates -/

theorem vector_set_get {α : Type} {n : Nat} (v : Vector α n) (i j : Fin n) (x : α) :
    (v.set i x)[j] = if i = j then x else v[j] := by
  simp only [Fin.getElem_fin, Vector.getElem_set, Fin.ext_iff]

@[simp] theorem vGet_vSet_same {α : Type} {n : Nat} [NeZero n] (v : Vector α n) (i : Nat) (x : α) (h : i < n) :
    vGet (vSet v i x) i = x := by
  simp [vGet, vSet, h, Fin.ofNat, Nat.mod_eq_of_lt h]

theorem vGet_vSet_other {α : Type} {n : Nat} [NeZero n] (v : Vector α n) (i j : Nat) (x : α) (hj : j < n) (h : i ≠ j) :
    vGet (vSet v i x) j = vGet v j := by
  unfold vSet vGet
  split
  · simp [Fin.ofNat, Nat.mod_eq_of_lt hj, h]
  · rfl

@[simp] theorem vGet_vecOf {α : Type} {n : Nat} [NeZero n] (f : Nat → α) (i : Nat) (h : i < n) : vGet (vecOf n f) i = f i := by
  simp [vGet, vecOf, Fin.ofNat, Nat.mod_eq_of_lt h]

/-! ## Tiles -/

@[simp] theorem State.setTile_tile (s : State) (t u : Tile) (x : TileSt) :
    (s.setTile t x).tile u = if t = u then x else s.tile u := vector_set_get s.tiles t u x
@[simp] theorem State.modTile_tile (s : State) (t u : Tile) (f : TileSt → TileSt) :
    (s.modTile t f).tile u = if t = u then f (s.tile u) else s.tile u := by
  simp only [State.modTile, State.setTile_tile]; split <;> simp_all
@[simp] theorem State.modLogic_tile (s : State) (t u : Tile) (f : Logic → Logic) :
    (s.modLogic t f).tile u = if t = u then { s.tile u with logic := f (s.tile u).logic } else s.tile u :=
  State.modTile_tile s t u _
@[simp] theorem State.modLogic_logic (s : State) (t u : Tile) (f : Logic → Logic) :
    (s.modLogic t f).logic u = if t = u then f (s.logic u) else s.logic u := by
  unfold State.logic; rw [State.modLogic_tile]; split <;> rfl
@[simp] theorem State.modC_logic (s : State) (t u : Tile) (f : CSt → CSt) :
    (s.modC t f).logic u = if t = u then { s.logic u with c := f (s.logic u).c } else s.logic u := State.modLogic_logic s t u _
@[simp] theorem State.modC_c (s : State) (t u : Tile) (f : CSt → CSt) :
    (s.modC t f).c u = if t = u then f (s.c u) else s.c u := by
  unfold State.c; rw [State.modC_logic]; split <;> rfl
@[simp] theorem State.modSeq_logic (s : State) (t v : Tile) (u : Sq) (f : SeqSt → SeqSt) :
    (s.modSeq t u f).logic v = if t = v then (s.logic v).modSeq u f else s.logic v := State.modLogic_logic s t v _
@[simp] theorem State.cNextTo_c (s : State) (pc : Word) (u : Tile) :
    (s.cNextTo pc).c u = if s.cur = u then { s.c u with pc := pc, wait := .none, stall := 0 } else s.c u := State.modC_c ..
@[simp] theorem State.cNext_c (s : State) (u : Tile) :
    s.cNext.c u = if s.cur = u then { s.c u with pc := (s.c u).pc + 4, wait := .none, stall := 0 } else s.c u := by
  unfold State.cNext; rw [State.cNextTo_c]; split <;> simp_all

theorem vector_set_set {α : Type} {n : Nat} (v : Vector α n) (i : Fin n) (x y : α) : (v.set i x).set i y = v.set i y := by
  apply Vector.ext; intro j hj; simp only [Vector.getElem_set]; split <;> simp_all
theorem vector_set_self {α : Type} {n : Nat} (v : Vector α n) (i : Fin n) : v.set i v[i] = v := by
  apply Vector.ext; intro j hj; simp only [Vector.getElem_set, Fin.getElem_fin]; split <;> simp_all

@[simp] theorem State.setTile_setTile (s : State) (t : Tile) (x y : TileSt) : (s.setTile t x).setTile t y = s.setTile t y := by
  simp only [State.setTile, vector_set_set]
@[simp] theorem State.setTile_self (s : State) (t : Tile) : s.setTile t (s.tile t) = s := by
  unfold State.setTile State.tile; rw [vector_set_self]
theorem State.modTile_modTile (s : State) (t : Tile) (f g : TileSt → TileSt) :
    (s.modTile t f).modTile t g = s.modTile t (fun x => g (f x)) := by
  unfold State.modTile; rw [State.setTile_setTile, State.setTile_tile, if_pos rfl]
theorem State.modLogic_modLogic (s : State) (t : Tile) (f g : Logic → Logic) :
    (s.modLogic t f).modLogic t g = s.modLogic t (fun x => g (f x)) := State.modTile_modTile s t _ _
theorem State.modC_modC (s : State) (t : Tile) (f g : CSt → CSt) : (s.modC t f).modC t g = s.modC t (fun x => g (f x)) :=
  State.modLogic_modLogic s t _ _
theorem State.modC_self (s : State) (t : Tile) : s.modC t (fun _ => s.c t) = s := State.setTile_self s t
/-- Putting C's part back undoes any change of it. -/
theorem State.modC_back (s : State) (t : Tile) (f : CSt → CSt) : (s.modC t f).modC t (fun _ => s.c t) = s := by
  rw [State.modC_modC]; exact State.modC_self s t
theorem State.cNextTo_eq (s : State) (pc : Word) :
    s.cNextTo pc = s.modC s.cur (fun c => { c with pc := pc, wait := .none, stall := 0 }) := rfl
theorem State.cNext_eq (s : State) : s.cNext = s.modC s.cur (fun c => { c with pc := c.pc + 4, wait := .none, stall := 0 }) := by
  unfold State.cNext State.cNextTo State.modC State.modLogic State.modTile; rfl

/-! ## Partitions, functions and encoders -/

@[simp] theorem State.setPart_part (s : State) (p q : PartId) (x : PartSt) :
    (s.setPart p x).part q = if p = q then x else s.part q := vector_set_get s.parts p q x
@[simp] theorem State.modPart_part (s : State) (p q : PartId) (f : PartSt → PartSt) :
    (s.modPart p f).part q = if p = q then f (s.part q) else s.part q := by
  simp only [State.modPart, State.setPart_part]; split <;> simp_all
@[simp] theorem State.modVf_vf (s : State) (f q : VfId) (g : VfSt → VfSt) :
    (s.modVf f g).vf q = if f = q then g (s.vf q) else s.vf q := by
  have h := vector_set_get s.vfs f q (g (s.vf f))
  simp only [State.modVf, State.vf] at h ⊢
  rw [h]; split <;> simp_all
@[simp] theorem State.modPf_pf (s : State) (f : PfSt → PfSt) : (s.modPf f).pf = f s.pf := rfl
@[simp] theorem State.modGran_granary (s : State) (f : GranarySt → GranarySt) : (s.modGran f).granary = f s.granary := rfl
@[simp] theorem State.modFab_fabric (s : State) (f : FabricSt → FabricSt) : (s.modFab f).fabric = f s.fabric := rfl
@[simp] theorem State.drawn_freeCount (s : State) : s.drawn.freeCount = s.freeCount + 1 := rfl

/-! ## Scalar registers (R54) -/

@[simp] theorem State.sr_zero (s : State) (t : Tile) : s.sr t 0 = 0 := rfl
@[simp] theorem CSt.put_zero (c : CSt) (v : Word) : c.put 0 v = c := rfl
@[simp] theorem CSt.putP_zero (c : CSt) (v : Word) (b : Bool) : c.putP 0 v b = c := rfl
theorem CSt.putP_s (c : CSt) (r : Reg) (v : Word) (b : Bool) : (c.putP r v b).s = if r = 0 then c.s else c.s.set r.toFin v := by
  unfold CSt.putP; split <;> rfl
@[simp] theorem CSt.putP_pc (c : CSt) (r : Reg) (v : Word) (b : Bool) : (c.putP r v b).pc = c.pc := by
  unfold CSt.putP; split <;> rfl
@[simp] theorem CSt.putP_ops (c : CSt) (r : Reg) (v : Word) (b : Bool) : (c.putP r v b).ops = c.ops := by
  unfold CSt.putP; split <;> rfl
@[simp] theorem CSt.putP_wait (c : CSt) (r : Reg) (v : Word) (b : Bool) : (c.putP r v b).wait = c.wait := by
  unfold CSt.putP; split <;> rfl
@[simp] theorem CSt.putP_stop (c : CSt) (r : Reg) (v : Word) (b : Bool) : (c.putP r v b).stop = c.stop := by
  unfold CSt.putP; split <;> rfl

/-- A scalar register read after a write of a scalar register: s0 stays zero. -/
theorem CSt.putP_get (c : CSt) (d r : Reg) (v : Word) (b : Bool) :
    (c.putP d v b).s[r.toFin] = if d ≠ 0 ∧ d = r then v else c.s[r.toFin] := by
  rw [CSt.putP_s]
  by_cases h : d = 0
  · simp [h]
  · rw [if_neg h, vector_set_get]
    have : (d.toFin = r.toFin) ↔ d = r := ⟨fun e => BitVec.eq_of_toFin_eq e, fun e => by rw [e]⟩
    simp only [Fin.getElem_fin, this]
    by_cases e : d = r <;> simp_all

end Sys2Proof.Machine
end

