-- ==== Sys2Proof/Laws/Issue.lean ====
section
/-! SUPPORT. The issue of an instruction of C: what the shared operations answer once the registers are free, and the frame that
they share. -/

namespace Sys2Proof.Machine

/-- An instruction whose registers are free issues. -/
theorem State.cIssue_free (s : State) (rs : List Reg) (body : State → State) (h : s.free rs) : s.cIssue rs body = .next (body s) := by
  unfold State.cIssue
  rw [if_neg]
  simp only [List.any_eq_true, not_exists, not_and, Bool.not_eq_true]
  exact h

/-- A register with a result pending holds the instruction back: C tries again, and the wait counts toward no timeout. -/
theorem State.cIssue_held (s : State) (rs : List Reg) (body : State → State) (r : Reg) (hr : r ∈ rs)
    (h : (s.c s.cur).pending r = true) : s.cIssue rs body = .next (s.cRetry false) := by
  unfold State.cIssue
  rw [if_pos]
  simp only [List.any_eq_true]
  exact ⟨r, hr, h⟩

/-- An instruction of C always answers a next state. -/
theorem State.cIssue_next (s : State) (rs : List Reg) (body : State → State) : ∃ t, s.cIssue rs body = .next t := by
  unfold State.cIssue; split <;> exact ⟨_, rfl⟩

theorem State.cPoisoned_clean (s : State) (rs : List Reg) (h : s.clean rs) : s.cPoisoned rs = false := by
  unfold State.cPoisoned
  simp only [List.any_eq_false, Bool.not_eq_true]
  exact h

/-- An instruction whose control operands are clean issues; poison among them raises ECC instead (R395). -/
theorem State.cIssueCtl_clean (s : State) (ctl rs : List Reg) (body : State → State) (h : s.free (ctl ++ rs)) (hc : s.clean ctl) :
    s.cIssueCtl ctl rs body = .next (body s) := by
  unfold State.cIssueCtl
  rw [State.cIssue_free _ _ _ h, State.cPoisoned_clean _ _ hc]; rfl
theorem State.cIssueCtl_poison (s : State) (ctl rs : List Reg) (body : State → State) (h : s.free (ctl ++ rs))
    (hc : s.cPoisoned ctl = true) : s.cIssueCtl ctl rs body = .next (s.trapC .ecc 0 none) := by
  unfold State.cIssueCtl
  rw [State.cIssue_free _ _ _ h, hc]; rfl

/-! ## Results -/

theorem State.sr_of_c {s t : State} {u : Tile} (h : t.c u = s.c u) (r : Reg) : t.sr u r = s.sr u r := by
  unfold State.sr; rw [h]

/-- The registers of C after a write. -/
theorem State.sr_putP (s t : State) (u : Tile) (d : Reg) (v : Word) (b : Bool) (h : (t.c u).s = ((s.c u).putP d v b).s) (r : Reg) :
    t.sr u r = if r ≠ 0 ∧ r = d then v else s.sr u r := by
  unfold State.sr
  by_cases hr : r = 0
  · simp [hr]
  · rw [if_neg hr, if_neg hr, h, CSt.putP_get]
    by_cases hd : r = d
    · subst hd; simp [hr]
    · rw [if_neg (fun e => hd e.2.symm), if_neg (fun e => hd e.2)]

theorem CSt.putP_poisoned (c : CSt) (d r : Reg) (v : Word) (b : Bool) (h : r ≠ d) : (c.putP d v b).poisoned r = c.poisoned r := by
  unfold CSt.putP CSt.poisoned
  have hn : d.toNat ≠ r.toNat := fun e => h (BitVec.eq_of_toNat_eq e.symm)
  split
  · rfl
  · have hlt : r.toNat < 32 := r.isLt
    cases b <;> simp [BitVec.getLsbD_or, BitVec.getLsbD_and, BitVec.getLsbD_not, BitVec.getLsbD_shiftLeft, hlt]
    all_goals intros; omega

@[simp] theorem CSt.putP_fetched (c : CSt) (r : Reg) (v : Word) (b : Bool) : (c.putP r v b).fetched = c.fetched := by
  unfold CSt.putP; split <;> rfl

/-- What a write of a register and a move of the PC leave: any such change of C is described by `goesTo`. -/
theorem goesTo_of_modC (s : State) (d : Reg) (v pc : Word) (b : Bool) (f : CSt → CSt)
    (hs : (f (s.c s.cur)).s = ((s.c s.cur).putP d v b).s) (hp : (f (s.c s.cur)).poison = ((s.c s.cur).putP d v b).poison)
    (hpc : (f (s.c s.cur)).pc = pc) (ho : (f (s.c s.cur)).ops = (s.c s.cur).ops) (hw : (f (s.c s.cur)).wait = .none)
    (ht : (f (s.c s.cur)).stop = (s.c s.cur).stop) (hf : (f (s.c s.cur)).fetched = (s.c s.cur).fetched) :
    goesTo s (s.modC s.cur f) d v pc := by
  have hc : (s.modC s.cur f).c s.cur = f (s.c s.cur) := by rw [State.modC_c, if_pos rfl]
  refine ⟨State.modC_back s s.cur f, fun r => ?_, ?_, fun r hr => ?_, ?_, ?_, ?_, ?_⟩
  · exact State.sr_putP s _ s.cur d v b (by rw [hc]; exact hs) r
  · rw [hc, hpc]
  · rw [hc]; unfold CSt.poisoned; rw [hp]; exact CSt.putP_poisoned _ d r v b hr
  · rw [hc, ho]
  · rw [hc, hw]
  · rw [hc, ht]
  · rw [hc, hf]

/-- C writes a result and goes on. -/
theorem State.cDone_returns (s : State) (d : Reg) (v : Word) (p : Bool) : returns s (s.cDone d v p) d v := by
  unfold State.cDone
  rw [State.cNext_eq, State.modC_cur, State.modC_modC]
  exact goesTo_of_modC s d v _ p _ (by simp) rfl (by simp) (by simp) rfl (by simp) (by simp)

/-- C goes on without a result. -/
theorem State.cNextTo_goesTo (s : State) (pc : Word) : goesTo s (s.cNextTo pc) 0 0 pc := by
  rw [State.cNextTo_eq]
  exact goesTo_of_modC s 0 0 _ false _ rfl rfl rfl rfl rfl rfl rfl
theorem State.cNext_goesTo (s : State) : goesTo s s.cNext 0 0 ((s.c s.cur).pc + 4) := State.cNextTo_goesTo s _

/-- An ALU instruction whose registers are free writes its value to d and goes on. -/
theorem State.cAlu_returns (s : State) (d : Reg) (srcs : List Reg) (v : State → Word) (h : s.free (d :: srcs)) :
    ∃ t, s.cAlu d srcs v = .next t ∧ returns s t d (v s) :=
  ⟨_, State.cIssue_free s _ _ h, State.cDone_returns s d (v s) _⟩

/-- C jumps. -/
theorem State.cJump_goesTo (s : State) (pc : Word) : goesTo s (s.cJump pc) 0 0 pc := by
  unfold State.cJump
  rw [State.cNextTo_eq, State.modC_cur, State.modC_modC]
  exact goesTo_of_modC s 0 0 _ false _ rfl rfl rfl rfl rfl rfl rfl

/-- C links and jumps. -/
theorem State.setS_cJump_goesTo (s : State) (d : Reg) (v pc : Word) : goesTo s ((s.setS s.cur d v).cJump pc) d v pc := by
  unfold State.cJump State.setS
  rw [State.cNextTo_eq]
  simp only [State.modC_cur, State.modC_modC]
  exact goesTo_of_modC s d v _ false _ (by simp) rfl (by simp) (by simp) rfl (by simp) (by simp)
theorem State.setS_cNext_goesTo (s : State) (d : Reg) (v : Word) : goesTo s ((s.setS s.cur d v).cNext) d v ((s.c s.cur).pc + 4) := by
  unfold State.setS
  rw [State.cNext_eq]
  simp only [State.modC_cur, State.modC_modC]
  exact goesTo_of_modC s d v _ false _ (by simp) rfl (by simp) (by simp) rfl (by simp) (by simp)

end Sys2Proof.Machine
end

