-- ==== Sys2Proof/Laws/Micro.lean ====
section
/-! SUPPORT. The issue of a micro-order of L, S and M: what the shared operations answer when it has started and nothing is
outstanding. -/

namespace Sys2Proof.Machine

/-- What `start` does with a micro-order that starts. -/
theorem State.start_of (s s' : State) (u : Sq) (p : BitVec 3) (v : Word) (body : Word → State → State) (h : s.starts u p v s') :
    s.start u p body = .next (body v s') := by
  unfold State.start
  rcases h with ⟨h, rfl⟩ | ⟨h, hp, rfl, rfl⟩ | ⟨q, r, h, hp, ht, rfl⟩ <;> simp [*]

/-- A pop that finds no token waits, and nothing else changes. -/
theorem State.start_empty (s : State) (u : Sq) (p : BitVec 3) (q : Fin 12) (body : Word → State → State)
    (h : (s.seq s.cur u).started = none) (hp : popQueue u p = some q) (ht : s.toks s.cur q = []) :
    s.start u p body = .next (s.seqWait u .pop) := by
  unfold State.start; simp [h, hp, ht]

@[simp] theorem State.setToks_cur (s : State) (t : Tile) (q : Fin 12) (x : List Word) : (s.setToks t q x).cur = s.cur := rfl
theorem State.starts_cur {s s' : State} {u : Sq} {p : BitVec 3} {v : Word} (h : s.starts u p v s') : s'.cur = s.cur := by
  rcases h with ⟨-, rfl⟩ | ⟨-, -, -, rfl⟩ | ⟨q, r, -, -, -, rfl⟩ <;> rfl
theorem State.starts_curSq {s s' : State} {u : Sq} {p : BitVec 3} {v : Word} (h : s.starts u p v s') : s'.curSq = s.curSq := by
  rcases h with ⟨-, rfl⟩ | ⟨-, -, -, rfl⟩ | ⟨q, r, -, -, -, rfl⟩ <;> rfl

theorem State.modLogic_congr (s : State) (t : Tile) (f f' : Logic → Logic) (h : f (s.logic t) = f' (s.logic t)) :
    s.modLogic t f = s.modLogic t f' := by
  unfold State.modLogic State.modTile; unfold State.logic at h; simp only [h]

theorem Logic.modSeq_seq (g : Logic) (u : Sq) (f : SeqSt → SeqSt) (h : u ≠ .c) : (g.modSeq u f).seq u = f (g.seq u) := by
  cases u <;> first | rfl | exact absurd rfl h

theorem Logic.push_eq (g : Logic) (u : Sq) (q : BitVec 3) (v : Word) :
    g.push (pushQueue u q) v = { g with tok := (g.push (pushQueue u q) v).tok } := by
  unfold Logic.push; split <;> rfl

/-- A finished micro-order that is not the last of its repeat: the run stands at the next one. -/
theorem Logic.settle_next (g : Logic) (u : Sq) (hu : u ≠ .c) (r : Run) (hr : (g.seq u).run = some r) (hi : r.issued ≠ 0)
    (hl : r.step + r.issued < r.len) (hs : (g.seq u).stopping = false) :
    g.settle u = g.modSeq u (fun x => { x with run := some { r with step := r.step + r.issued, issued := 0, word := none } }) := by
  unfold Logic.settle Logic.advance
  simp only [hr, if_neg hi, if_pos hl]
  rw [if_neg]
  rw [Logic.modSeq_seq _ _ _ hu]
  simp [hs]

theorem Logic.modSeq_modSeq (g : Logic) (u : Sq) (f f' : SeqSt → SeqSt) :
    (g.modSeq u f).modSeq u f' = g.modSeq u (fun x => f' (f x)) := by
  cases u <;> rfl

theorem Logic.push_seq (g : Logic) (u : Sq) (q : Option (Fin 12)) (v : Word) : (g.push q v).seq u = g.seq u := by
  cases u <;> unfold Logic.push <;> split <;> rfl
theorem Logic.push_modSeq (g : Logic) (u : Sq) (q : Option (Fin 12)) (v : Word) (f : SeqSt → SeqSt) :
    (g.push q v).modSeq u f = (g.modSeq u f).push q v := by
  cases u <;> unfold Logic.push <;> split <;> rfl
/-- A sequencer that waits for nothing has no push wait to end. -/
theorem Logic.noPushWait (g : Logic) (u : Sq) (hw : (g.seq u).wait = .none) : g.modSeq u (·.pushWaits false) = g := by
  have hid : ∀ x : SeqSt, x.wait = .none → x.pushWaits false = x := by
    intro x h; unfold SeqSt.pushWaits; rw [if_neg (by decide), if_neg (by rw [h]; decide)]
  cases u
  · rfl
  all_goals simp only [Logic.seq] at hw; simp only [Logic.modSeq, hid _ hw]

/-- The retirement of one micro-order without an access, whose push has room. -/
theorem Logic.retireList_one (g : Logic) (u : Sq) (q : Option (Fin 12)) (tok : Word) (run : Option Run)
    (hw : (g.seq u).wait = .none) (hk : ∀ k, q = some k → (g.tok[k]).length < 255) :
    g.retireList u [{ store := false, data := .none, blks := [], push := q, tok := tok, run := run }] = (g.push q tok, []) := by
  have hc : g.canPush q = true := by
    unfold Logic.canPush; split
    · rename_i k; simpa using hk k rfl
    · rfl
  have hp : ((g.push q tok).seq u).wait = .none := by rw [Logic.push_seq]; exact hw
  unfold Logic.retireList
  simp only [List.all_nil, if_true, Logic.landed, hc, Logic.noPushWait g u hw]
  unfold Logic.retireList
  rw [Logic.noPushWait _ u hp]

/-- An address micro-order of L or S, or another without an access, when nothing is in flight: its update is made, its token
pushed, and the sequencer goes on. -/
theorem State.lsDone_past (s : State) (u : Sq) (hu : u = .l ∨ u = .s) (words : Nat) (q : BitVec 3) (tok : Word)
    (a : LsSt → Vector Word 16) (b : LsSt → Vector Word 16) (hin : (s.lsX u).inflight = []) (hh : (s.logic s.cur).inHand u words q) :
    s.lsDone u words q tok (fun x => { x with a := a x, stride := b x }) =
      s.modLogic s.cur (fun g => (g.modLs (isS u) (fun x => { x with a := a x, stride := b x })).past u words q tok) := by
  obtain ⟨⟨r, hr, hi, hl, hw⟩, hs, hk⟩ := hh
  unfold State.lsDone State.lsPut State.issued State.modSeq State.modLs
  simp only [State.modLogic_cur, State.modLogic_modLogic]
  apply State.modLogic_congr
  have hin' : ((s.logic s.cur).ls (isS u)).inflight = [] := hin
  generalize s.logic s.cur = g at *
  have huc : u ≠ .c := by rcases hu with rfl | rfl <;> decide
  obtain ⟨c, ⟨⟨lr, lq, lst, lsd, lw, ls, lsl⟩, la, lss, li⟩, m, ⟨⟨sr, sq, sst, ssd, sw, ss, ssl⟩, sa, sss, si⟩, tok', v, mm, ra, co, ta⟩ := g
  rcases hu with rfl | rfl
  all_goals
    simp only [Logic.ls, isS, Logic.seq, decide_true, decide_false, if_true, Bool.false_eq_true, if_false, reduceCtorEq] at hin' hr hs
    subst hin' hr hs
    unfold Logic.retire
    simp only [Logic.ls, Logic.modLs, Logic.modSeq, isS, decide_true, decide_false, if_true, Bool.false_eq_true, if_false, reduceCtorEq,
      Option.map_some, List.nil_append]
    rw [Logic.retireList_one _ _ _ _ _ (by rfl) (by intro k h; exact hk k h)]
    simp only [List.isEmpty_nil, if_true]
    rw [Logic.settle_next _ _ huc { r with issued := words }]
    · unfold Logic.past Logic.push
      cases pushQueue _ q <;> simp only [Logic.modSeq, SeqSt.past, Option.map_some, hi]
    · cases pushQueue _ q <;> rfl
    · exact Nat.ne_of_gt hw
    · exact hl
    · cases pushQueue _ q <;> rfl

/-! ## M -/

theorem State.starts_list {s s' : State} {p : BitVec 3} {v : Word} (h : s.starts .m p v s') :
    (s'.logic s.cur).m.list = (s.logic s.cur).m.list := by
  rcases h with ⟨-, rfl⟩ | ⟨-, -, -, rfl⟩ | ⟨q, r, -, -, -, rfl⟩
  · rfl
  · rw [State.modSeq_logic, if_pos rfl]; rfl
  · rw [State.modSeq_logic, if_pos rfl]; unfold State.setToks; rw [State.modLogic_logic, if_pos rfl]; rfl

/-- M issues a micro-order when no matrix operation is outstanding and nothing holds it. -/
theorem State.mIssue_of (s s' : State) (u : Use) (p : BitVec 3) (v : Word) (body : Word → State → State)
    (hl : (s.logic s.cur).m.list = []) (h : s.starts .m p v s') : s.mIssue u false p body = .next (body v s') := by
  unfold State.mIssue
  rw [hl]
  simp only [List.any_nil, Bool.or_false, Bool.and_false, Bool.false_eq_true, if_false]
  exact State.start_of s s' .m p v body h

/-- The retirement of M's one finished micro-order, whose push has room. -/
theorem Logic.mRetireList_one (g : Logic) (act : MAct) (q : Option (Fin 12)) (tok : Word) (run : Option Run)
    (hw : (g.seq .m).wait = .none) (hk : ∀ k, q = some k → (g.tok[k]).length < 255) :
    g.mRetireList [{ act := act, done := true, push := q, tok := tok, run := run }] = (g.push q tok, []) := by
  have hc : g.canPush q = true := by
    unfold Logic.canPush; split
    · rename_i k; simpa using hk k rfl
    · rfl
  have hp : ((g.push q tok).seq .m).wait = .none := by rw [Logic.push_seq]; exact hw
  unfold Logic.mRetireList
  simp only [Bool.not_true, Bool.false_eq_true, if_false, hc, if_true, Logic.noPushWait g .m hw]
  unfold Logic.mRetireList
  rw [Logic.noPushWait _ .m hp]

theorem Logic.mRetire_empty (g g' : Logic) (h : g.mRetireList g.m.list = (g', [])) :
    g.mRetire = ({ g' with m := { g'.m with list := [] } } : Logic).settle .m := by
  unfold Logic.mRetire; simp only [h, List.getLast?_nil, Option.all_none, if_true]

/-- A micro-order of M that has its effect at issue, when no other is outstanding. -/
theorem State.mDone_past (s : State) (q : BitVec 3) (tok : Word) (hin : (s.logic s.cur).m.list = [])
    (hh : (s.logic s.cur).inHand .m 1 q) : s.mDone q tok = s.modLogic s.cur (fun g => g.past .m 1 q tok) := by
  obtain ⟨⟨r, hr, hi, hl, hw⟩, hs, hk⟩ := hh
  unfold State.mDone State.mPut State.issued State.modSeq
  simp only [State.modLogic_modLogic]
  apply State.modLogic_congr
  generalize s.logic s.cur = g at *
  obtain ⟨c, l, ⟨⟨mr, mq, mst, msd, mw, ms, msl⟩, ml⟩, x, tok', v, mm, ra, co, ta⟩ := g
  simp only [Logic.seq] at hin hr hs
  subst hin hr hs
  rw [Logic.mRetire_empty _ _ (Logic.mRetireList_one _ _ _ _ _ (by rfl) (by intro k h; exact hk k h))]
  simp only [Logic.modSeq, Option.map_some]
  rw [Logic.settle_next _ .m (by decide) { r with issued := 1 }]
  · unfold Logic.past Logic.push
    cases pushQueue _ q <;> simp only [Logic.modSeq, SeqSt.past, Option.map_some, hi]
  · cases pushQueue _ q <;> rfl
  · exact Nat.one_ne_zero
  · exact hl
  · cases pushQueue _ q <;> rfl

/-- A micro-order of M that the matrix engine takes, when no other is outstanding. -/
theorem State.mPut_first (s : State) (q : BitVec 3) (tok : Word) (act : MAct) (hin : (s.logic s.cur).m.list = []) :
    s.mPut q tok act false = s.modLogic s.cur (fun g =>
      { g with m := { seq := { g.m.seq with run := g.m.seq.run.map (fun r => { r with issued := 1 }), started := none, wait := .none,
                                             stall := 0 },
                      list := [{ act := act, done := false, push := pushQueue .m q, tok := tok, run := g.m.seq.run }] } }) := by
  unfold State.mPut State.issued State.modSeq
  simp only [State.modLogic_modLogic]
  apply State.modLogic_congr
  have : s.seq s.cur .m = (s.logic s.cur).m.seq := rfl
  rw [this]
  generalize s.logic s.cur = g at *
  obtain ⟨c, l, ⟨⟨mr, mq, mst, msd, mw, ms, msl⟩, ml⟩, x, tok', v, mm, ra, co, ta⟩ := g
  simp only at hin
  subst hin
  rfl

/-- A vector micro-order whose sources are there, on clean operands: its registers, its flags, its push. -/
theorem State.vOpOn_of (s s' : State) (rd : BitVec 64) (p q : BitVec 3) (wr : BitVec 64) (pk : List Nat) (srcs : VecSt → List Src)
    (arith : Bool) (ok : VecSt → Bool) (eff : VecSt → List VReg → Bool → Word → VRes) (tok : Word) (vs : List VReg) (x : VecSt) (bad : Bool)
    (hl : (s.logic s.cur).m.list = []) (h : s.starts .m p tok s') (hh : (s'.logic s.cur).inHand .m 1 q)
    (hok : ok (s'.vec s.cur) = true) (hsrc : s'.sources s.cur (srcs (s.vec s.cur)) (s'.vec s.cur) = .ok vs x bad)
    (hbad : (bad && arith) = false) (hpk : ∀ k ∈ pk, k = 7 ∨ x.ppoison.getLsbD k = false) :
    s.vOpOn false rd p q wr pk srcs arith ok eff =
      .next (s'.modLogic s.cur (fun g => { (g.past .m 1 q (eff x vs bad tok).tok) with
        vec := (eff x vs bad tok).x.raise (eff x vs bad tok).flags })) := by
  unfold State.vOpOn
  rw [State.mIssue_of s s' _ p tok _ hl h]
  have hcur := State.starts_cur h
  have hpk' : pk.any (fun k => k != 7 && x.ppoison.getLsbD k) = false := by
    simp only [List.any_eq_false, Bool.not_eq_true]
    intro k hk; rcases hpk k hk with rfl | h <;> simp_all
  simp only [hcur, hok, hsrc, hbad, hpk', Bool.not_true, Bool.false_eq_true, if_false, Bool.or_false]
  rw [State.mDone_past]
  · unfold State.modVec
    simp only [State.modLogic_cur, hcur, State.modLogic_modLogic]
    congr 1
    apply State.modLogic_congr
    unfold Logic.past Logic.push
    cases pushQueue _ q <;> rfl
  · unfold State.modVec; rw [State.modLogic_logic]; simp only [State.modLogic_cur, hcur, if_true]
    rw [State.starts_list h]; exact hl
  · unfold State.modVec; simp only [State.modLogic_cur, State.modLogic_logic, hcur, if_true]; exact hh

end Sys2Proof.Machine
end

