-- ==== Sys2Proof/Laws/Home.lean ====
section
/-! SUPPORT. A write at its home: which bytes of memory it changes, and that it changes no other. -/

namespace Sys2Proof.Machine

/-- Same bytes everywhere. -/
theorem sameBytes.refl (s : State) : sameBytes s s := fun _ => rfl
theorem sameBytes.trans {s t u : State} (h : sameBytes s t) (k : sameBytes t u) : sameBytes s u := fun x => (k x).trans (h x)

/-- A change of a tile that leaves its slice and its sync space alone leaves memory alone. -/
theorem State.modTile_sameBytes (s : State) (t : Tile) (f : TileSt → TileSt)
    (h1 : (f (s.tile t)).slice = (s.tile t).slice) (h2 : (f (s.tile t)).sync = (s.tile t).sync) : sameBytes s (s.modTile t f) := by
  intro x
  cases x with
  | slice u a => simp only [State.byteAt, State.modTile_tile]; split
                 · rename_i h; subst h; rw [h1]
                 · rfl
  | sync u a => simp only [State.byteAt, State.modTile_tile]; split
                · rename_i h; subst h; rw [h2]
                · rfl
  | bulk a => rfl
  | host a => rfl
  | remote a => rfl
theorem State.modLogic_sameBytes (s : State) (t : Tile) (f : Logic → Logic) : sameBytes s (s.modLogic t f) :=
  State.modTile_sameBytes s t _ rfl rfl
theorem State.modC_sameBytes (s : State) (t : Tile) (f : CSt → CSt) : sameBytes s (s.modC t f) := State.modLogic_sameBytes s t _
theorem State.modPart_sameBytes (s : State) (p : PartId) (f : PartSt → PartSt) : sameBytes s (s.modPart p f) := by
  intro x; cases x <;> rfl

theorem State.wakeBlock_sameBytes (s : State) (l : Loc) (n : Nat) : sameBytes s (s.wakeBlock l n) := by
  intro x; cases x <;> rfl
theorem State.noteSync_sameBytes (s : State) (t : Tile) : sameBytes s (s.noteSync t) := State.modC_sameBytes s t _
theorem State.wakeBlock_part (s : State) (l : Loc) (n : Nat) (p : PartId) : (s.wakeBlock l n).part p = s.part p := rfl

theorem State.logBin_none (s : State) (t : Tile) (off n : Nat) (h : s.noMigration) : s.logBin t off n = s := by
  unfold State.logBin; simp only [h _]
theorem State.logPage_none (s : State) (p : PartId) (va n : Nat) (h : s.noMigration) : s.logPage p va n = s := by
  unfold State.logPage; simp only [h _]

/-- A write into a slice. -/
theorem State.writeSlice_wrote (s : State) (t : Tile) (off : Nat) (bs : List Byte) (b : Bool) (h : s.noMigration) (hm : s.memOk) :
    wrote s (s.writeSlice t off bs b) (.slice t off) bs := by
  have key : ∀ x, (s.writeSlice t off bs b).byteAt x =
      match x with
      | .slice u a => if u = t ∧ off ≤ a ∧ a < off + bs.length then bs.getD (a - off) 0 else s.byteAt x
      | _ => s.byteAt x := by
    intro x
    unfold State.writeSlice
    split
    · rename_i hb; subst hb
      cases x <;> simp only [List.length_nil, Nat.add_zero] <;> (try rw [if_neg (by omega)])
    · dsimp only
      rw [State.logBin_none _ _ _ _ (by intro p; exact h p), State.wakeBlock_sameBytes]
      cases x with
      | slice u a =>
        simp only [State.byteAt, State.modTile_tile]
        by_cases e : t = u
        · subst e; simp only [if_true, true_and, TileSt.markArrivals, Mem.byte_write _ _ _ _ (hm.2.2.1 t).1]
        · rw [if_neg e, if_neg (fun k => e k.1.symm)]
      | sync u a => simp only [State.byteAt, State.modTile_tile]; split <;> rfl
      | bulk a => rfl
      | host a => rfl
      | remote a => rfl
  refine ⟨fun k x hk hx _ => ?_, fun x hx _ => ?_⟩
  · cases hx
    rw [key]; dsimp only
    rw [if_pos ⟨rfl, by omega, by omega⟩]; congr 1; omega
  · rw [key]
    cases x <;> dsimp only
    next u a _ =>
    rw [if_neg]
    rintro ⟨rfl, h1, h2⟩
    exact hx (a - off) (by omega) (by simp only [Loc.site]; congr 2; omega)

/-- A write into a sync space. -/
theorem State.writeSync_wrote (s : State) (t : Tile) (off : Nat) (bs : List Byte) (hm : s.memOk) :
    wrote s (s.writeSync t off bs) (.sync t off) bs := by
  have key : ∀ x, (s.writeSync t off bs).byteAt x =
      match x with
      | .sync u a => if u = t ∧ off ≤ a ∧ a < off + bs.length then bs.getD (a - off) 0 else s.byteAt x
      | _ => s.byteAt x := by
    intro x
    unfold State.writeSync
    rw [State.noteSync_sameBytes, State.wakeBlock_sameBytes]
    cases x with
    | slice u a => simp only [State.byteAt, State.modTile_tile]; split <;> rfl
    | sync u a =>
      simp only [State.byteAt, State.modTile_tile]
      by_cases e : t = u
      · subst e; simp only [if_true, true_and, Mem.byte_write _ _ _ _ (hm.2.2.1 t).2]
      · rw [if_neg e, if_neg (fun k => e k.1.symm)]
    | bulk a => rfl
    | host a => rfl
    | remote a => rfl
  refine ⟨fun k x hk hx _ => ?_, fun x hx _ => ?_⟩
  · cases hx
    rw [key]; dsimp only
    rw [if_pos ⟨rfl, by omega, by omega⟩]; congr 1; omega
  · rw [key]
    cases x <;> dsimp only
    next u a _ =>
    rw [if_neg]
    rintro ⟨rfl, h1, h2⟩
    exact hx (a - off) (by omega) (by simp only [Loc.site]; congr 2; omega)

/-- The D bit changes bytes of the entry only. -/
theorem State.setEntryBit_byteAt (s : State) (e bit : Nat) (hb : Memory.wf s.bulk = true) (x : Site)
    (h : ∀ a, x = .bulk a → ¬ (e ≤ a ∧ a < e + 8)) : (s.setEntryBit e bit).byteAt x = s.byteAt x := by
  unfold State.setEntryBit
  dsimp only
  split
  · cases x with
    | bulk a =>
      simp only [State.byteAt]
      exact Mem.byte_write_outside _ _ _ _ hb (by have := h a rfl; simp only [leBytes_length]; omega)
    | slice u a => rfl
    | sync u a => rfl
    | host a => rfl
    | remote a => rfl
  · rfl

/-- A write to the sites of a location, from the bytes that it leaves. -/
theorem wrote_of_bulk (s t : State) (l : Loc) (bs : List Byte) (pa e : Nat)
    (hl : ∀ k, l.site k = some (.bulk (pa + k))) (hleaf : ∀ a, l.leafSite (.bulk a) ↔ e ≠ 0 ∧ e ≤ a ∧ a < e + 8)
    (ho : ∀ x, (∀ a, x ≠ .bulk a) → t.byteAt x = s.byteAt x)
    (hb : ∀ a, ¬ (e ≠ 0 ∧ e ≤ a ∧ a < e + 8) → t.byteAt (.bulk a) = Mem.byte (Mem.write s.bulk pa bs) a)
    (hm : Memory.wf s.bulk = true) : wrote s t l bs := by
  refine ⟨fun k x hk hx hn => ?_, fun x hx hn => ?_⟩
  · rw [hl] at hx; cases hx
    rw [hb _ (fun h => hn ((hleaf _).2 h)), Mem.byte_write _ _ _ _ hm, if_pos ⟨by omega, by omega⟩]; congr 1; omega
  · cases x with
    | bulk a =>
      rw [hb _ (fun h => hn ((hleaf _).2 h)), Mem.byte_write _ _ _ _ hm, if_neg]
      · rfl
      · rintro ⟨h1, h2⟩
        exact hx (a - pa) (by omega) (by rw [hl]; congr 2; omega)
    | slice u a => exact ho _ (by intro a; simp)
    | sync u a => exact ho _ (by intro a; simp)
    | host a => exact ho _ (by intro a; simp)
    | remote a => exact ho _ (by intro a; simp)

theorem State.dropLines_sameBytes (s : State) (t : Tile) (p : PartId) (va n : Nat) : sameBytes s (s.dropLines t p va n) :=
  State.modTile_sameBytes s t _ rfl rfl
theorem State.emptyLines_sameBytes (s : State) (t : Tile) : sameBytes s (s.emptyLines t) := State.modTile_sameBytes s t _ rfl rfl
theorem State.modInst_sameBytes (s : State) (p : PartId) (n : Nat) (f : Inst → Inst) : sameBytes s (s.modInst p n f) :=
  State.modPart_sameBytes s p _

theorem State.modPart_noMigration {s : State} (h : s.noMigration) (p : PartId) (f : PartSt → PartSt)
    (hf : ∀ x, (f x).migration = x.migration) : (s.modPart p f).noMigration := by
  intro q; rw [State.modPart_part]; split
  · rw [hf]; exact h q
  · exact h q

theorem State.setEntryBit_part (s : State) (e bit : Nat) (p : PartId) : (s.setEntryBit e bit).part p = s.part p := by
  unfold State.setEntryBit; dsimp only; split <;> rfl

/-- A write into bulk memory. -/
theorem State.writeBulk_wrote (s : State) (by_ : Option Tile) (p : PartId) (va pa e : Nat) (st : Bool) (bs : List Byte) (b : Bool)
    (h : s.noMigration) (hm : s.memOk) : wrote s (s.writeBulk by_ p va pa e bs b) (.bulk p va pa e st) bs := by
  by_cases hbs : bs = []
  · subst hbs; unfold State.writeBulk; rw [if_pos rfl]
    exact ⟨fun k x hk => absurd hk (by simp), fun _ _ _ => rfl⟩
  · unfold State.writeBulk
    rw [if_neg hbs]
    dsimp only
    generalize h1 : ({ s with bulk := Mem.write s.bulk pa bs, bulkPoison := poisonAfter s.bulkPoison pa bs.length b } : State) = s1
    have p1 : ∀ q, s1.part q = s.part q := by intro q; rw [← h1]; rfl
    have w1 : Memory.wf s1.bulk = true := by rw [← h1]; exact Mem.write_wf _ _ _ hm.1
    generalize h2 : (if e = 0 then s1 else s1.setEntryBit e 6) = s2
    have p2 : s2.noMigration := by
      intro q; rw [← h2]; split
      · rw [p1]; exact h q
      · rw [State.setEntryBit_part, p1]; exact h q
    have b2 : ∀ x, (∀ a, x = .bulk a → ¬ (e ≠ 0 ∧ e ≤ a ∧ a < e + 8)) → s2.byteAt x = s1.byteAt x := by
      intro x hx; rw [← h2]; split
      · rfl
      · rename_i he
        exact State.setEntryBit_byteAt _ _ _ w1 _ (fun a hxa hr => hx a hxa ⟨he, hr⟩)
    have key : ∀ s3 : State, s3.noMigration → sameBytes s2 s3 → wrote s (s3.logPage p va bs.length) (.bulk p va pa e st) bs := by
      intro s3 h3 hs3
      rw [State.logPage_none _ _ _ _ h3]
      refine wrote_of_bulk s s3 _ bs pa e (fun _ => rfl) (fun _ => Iff.rfl) (fun x hx => ?_) (fun a ha => ?_) hm.1
      · rw [hs3, b2 _ (fun a hxa => absurd hxa (hx a)), ← h1]
        cases x with
        | bulk a => exact absurd rfl (hx a)
        | slice u a => rfl
        | sync u a => rfl
        | host a => rfl
        | remote a => rfl
      · rw [hs3, b2 _ (fun a' hxa => by cases hxa; exact ha), ← h1]; rfl
    cases by_ with
    | none => exact key s2 p2 (sameBytes.refl s2)
    | some t =>
      dsimp only
      have pd : (s2.dropLines t p va bs.length).noMigration := p2
      split
      · refine key _ (State.modPart_noMigration pd _ _ (fun _ => rfl)) ?_
        exact sameBytes.trans (State.dropLines_sameBytes s2 t p va bs.length) (State.modInst_sameBytes _ _ _ _)
      · exact key _ pd (State.dropLines_sameBytes s2 t p va bs.length)

/-- What a write into another device's memory leaves of one byte. -/
theorem FabricSt.remoteWrite_byte (x : FabricSt) (a : Nat) (bs : List Byte) (b : Bool) (k : Nat) (h : Memory.wf x.remote = true) :
    Mem.byte (x.remoteWrite a bs b).remote k ^^^ Config.remoteInit k =
      if a ≤ k ∧ k < a + bs.length then bs.getD (k - a) 0 else Mem.byte x.remote k ^^^ Config.remoteInit k := by
  unfold FabricSt.remoteWrite
  dsimp only
  rw [Mem.byte_write _ _ _ _ h]
  simp only [List.length_map, List.length_zipIdx]
  split
  · rename_i hk
    have e : a + (k - a) = k := by omega
    have hl : k - a < bs.length := by omega
    simp only [List.getD_eq_getElem?_getD, List.getElem?_map, List.getElem?_zipIdx, List.getElem?_eq_getElem hl, Option.map_some,
      Option.getD_some, Nat.zero_add, e, BitVec.xor_assoc, BitVec.xor_self, BitVec.xor_zero]
  · rfl

/-- What a write at a home changes of memory: the bytes of its location, and the D bit of the entry through which it was reached. -/
theorem State.homeWrite_wrote (s : State) (by_ : Option Tile) (l : Loc) (bs : List Byte) (b : Bool) (h : s.noMigration) (hm : s.memOk)
    (hu : s.hostUp = true) (ho : ∀ t, by_ = some t → s.hostBlocked t = false) : wrote s (s.homeWrite by_ l bs b) l bs := by
  cases l with
  | slice t o => exact State.writeSlice_wrote s t o bs b h hm
  | sync t o => exact State.writeSync_wrote s t o bs hm
  | bulk p va pa e st => exact State.writeBulk_wrote s by_ p va pa e st bs b h hm
  | fabric p d o =>
    have hr := hm.2.2.2.2.2.2.2
    have key : ∀ a, (s.homeWrite by_ (.fabric p d o) bs b).byteAt (.remote a) =
        if remoteAt d o ≤ a ∧ a < remoteAt d o + bs.length then bs.getD (a - remoteAt d o) 0 else s.byteAt (.remote a) :=
      fun a => FabricSt.remoteWrite_byte s.fabric (remoteAt d o) bs b a hr
    refine ⟨fun k x hk hx _ => ?_, fun x hx _ => ?_⟩
    · cases hx
      rw [key, if_pos ⟨by omega, by omega⟩]; congr 1; omega
    · cases x with
      | remote a =>
        rw [key, if_neg]
        rintro ⟨h1, h2⟩
        exact hx (a - remoteAt d o) (by omega) (by simp only [Loc.site]; congr 2; omega)
      | slice u a => rfl
      | sync u a => rfl
      | bulk a => rfl
      | host a => rfl
  | host p o e =>
    have hb : s.homeWrite by_ (.host p o e) bs b =
        (if e = 0 then ({ s with host := Mem.write s.host o bs } : State) else ({ s with host := Mem.write s.host o bs } : State).setEntryBit e 6) := by
      cases by_ with
      | none => simp only [State.homeWrite, hu, Bool.not_true, Bool.or_false, Bool.false_eq_true, if_false]
      | some t => have := ho t rfl; simp only [State.homeWrite, hu, this, Bool.not_true, Bool.or_false, Bool.false_eq_true, if_false]
    rw [hb]
    generalize h1 : ({ s with host := Mem.write s.host o bs } : State) = s1
    have b1 : ∀ x, s1.byteAt x = match x with
        | .host a => if o ≤ a ∧ a < o + bs.length then bs.getD (a - o) 0 else s.byteAt (.host a)
        | x => s.byteAt x := by
      intro x; rw [← h1]; cases x with
      | host a => simp only [State.byteAt]; exact Mem.byte_write _ _ _ _ hm.2.1
      | slice u a => rfl
      | sync u a => rfl
      | bulk a => rfl
      | remote a => rfl
    have w1 : Memory.wf s1.bulk = true := by rw [← h1]; exact hm.1
    have b2 : ∀ x, ¬ (Loc.host p o e).leafSite x → (if e = 0 then s1 else s1.setEntryBit e 6).byteAt x = s1.byteAt x := by
      intro x hx; split
      · rfl
      · rename_i he
        exact State.setEntryBit_byteAt _ _ _ w1 _ (fun a hxa hr => hx (by subst hxa; exact ⟨he, hr⟩))
    refine ⟨fun k x hk hx hn => ?_, fun x hx hn => ?_⟩
    · cases hx; rw [b2 _ hn, b1]; dsimp only
      rw [if_pos ⟨by omega, by omega⟩]; congr 1; omega
    · rw [b2 _ hn, b1]
      cases x with
      | host a =>
        dsimp only
        rw [if_neg]
        rintro ⟨h1, h2⟩
        exact hx (a - o) (by omega) (by simp only [Loc.site]; congr 2; omega)
      | slice u a => rfl
      | sync u a => rfl
      | bulk a => rfl
      | remote a => rfl

/-- A change of a tile that leaves its memories in the canonical form leaves them all in it. -/
theorem State.modTile_memOk (s : State) (t : Tile) (f : TileSt → TileSt) (h : s.memOk)
    (h1 : Memory.wf (f (s.tile t)).slice = true) (h2 : Memory.wf (f (s.tile t)).sync = true) : (s.modTile t f).memOk := by
  obtain ⟨hb, hh, ht, hp⟩ := h
  refine ⟨hb, hh, fun u => ?_, hp⟩
  rw [State.modTile_tile]; split
  · rename_i e; subst e; exact ⟨h1, h2⟩
  · exact ht u
theorem State.modLogic_memOk (s : State) (t : Tile) (f : Logic → Logic) (h : s.memOk) : (s.modLogic t f).memOk :=
  State.modTile_memOk s t _ h (h.2.2.1 t).1 (h.2.2.1 t).2
theorem State.modC_memOk (s : State) (t : Tile) (f : CSt → CSt) (h : s.memOk) : (s.modC t f).memOk := State.modLogic_memOk s t _ h
/-- A change of a partition that puts no bins away leaves every memory in the canonical form. -/
theorem State.modPart_memOk (s : State) (p : PartId) (f : PartSt → PartSt) (h : s.memOk)
    (h1 : (f (s.part p)).saved = (s.part p).saved) (h2 : (f (s.part p)).parked = (s.part p).parked) : (s.modPart p f).memOk := by
  obtain ⟨hb, hh, ht, hp, hg⟩ := h
  refine ⟨hb, hh, ht, fun q => ?_, hg⟩
  rw [State.modPart_part]; split
  · rename_i e; subst e; rw [h1, h2]; exact hp _
  · exact hp q

end Sys2Proof.Machine
end

