-- ==== Sys2Proof/Tests/Slice0.lean ====
section
/-! SUPPORT. The tests: well-formedness refuses ill-formed terms; the words of the encodings decode; single steps; and for every
obligation with hypotheses, states and operands that meet them (`met_<Obligation>`, one theorem per group of clauses). The kernel
evaluates the states; none of the free values of Config is looked at. -/

namespace Sys2Proof.Tests
open Sys2Proof Sys2Proof.Machine
-- One theorem after the other: elaborating the kernel evaluations side by side takes a thread and its stack for each.
set_option Elab.async false

/-! ## Well-formedness: each check refuses an ill-formed term -/

/-- Shift immediates stop at 63; a bit field ends within the word (R71, R73). -/
theorem test_wf_immediates : [Instr.shli 1 2 64, .shri 1 2 64, .sari 1 2 0xFFFF, .bext 1 2 60 4, .bins 1 2 63 1].all
    (fun i => !i.wfIn .c) = true := by decide
/-- Scopes 6 and 7, a scope with order none, and orders that a function does not take (R13, R44, R78, R120, R146). -/
theorem test_wf_orders : [Instr.amoadd 1 2 3 6 3, .amoadd 1 2 3 1 0, .amocas 1 2 3 7 1, .fset 1 2 1 1, .fclr 1 2 1 3, .ftest 1 2 3 1 2, .ftas 1 2 3 6 3,
    .fwait 1 2 1 2, .fwaitc 1 2 1 3, .waita 1 2 3 1 2, .xcopy 1 2 3 2 0 0, .xwaitc 1 2 1 2, .phase 1 1 0, .phase 1 0 1, .pharr 1 2 1 1,
    .phwait 1 2 1 2, .pharr 1 2 0 2, .fence 0 0, .rels 1 2 6, .acqs 1 2 7].all (fun i => !i.wfIn .c) = true := by decide
/-- Targets, queues and n registers that do not exist (R82, R88, R95). -/
theorem test_wf_targets : [Instr.trun 0 1 2, .trun 4 1 2, .tbase 2 1 3, .tbase 1 1 16, .tstop 0, .twait 4, .tcut 1 0, .tstat 1 4, .tkput 1 3, .tkget 1 6,
    .tkget 1 10, .tkcnt 1 12, .tkreset 1 2 12, .setn 8 1].all (fun i => !i.wfIn .c) = true := by decide
/-- Queues that are not the sequencer's, registers beyond their file, an entry of the other sequencer (R46, R47, R50). -/
theorem test_wf_ls : [Instr.vld 5 0 1 1 0 0, .vld 0 3 1 1 0 0, .vlds 0 0 1 16 1, .vlds 0 0 1 1 16, .vldg 0 0 1 16 1, .pld 0 0 8 1 0 0, .vst 0 0 1 1 0 0,
    .aadd 0 0 16 1 1, .aadd 0 0 1 16 1, .aadd 0 0 1 1 16, .astep 0 0 1 0, .lnop 5 0].all (fun i => !i.wfIn .l) = true ∧
    [Instr.vst 3 0 1 1 0 0, .vsts 0 0 1 16 1, .vstg 0 0 1 1 16, .vstm 0 0 1 16 1, .pst 0 0 8 1 0 0, .est 0 3 1 1 1, .vld 0 0 1 1 0 0, .mald 0 0 0 1 1,
      .qbind 0 0 1 1 1, .pfb 0 0 1 1].all (fun i => !i.wfIn .s) = true := by decide
/-- Types, stream registers, register groups, predicate and field numbers of M (R46, R153, R159, R160, R164, R178, R186, R204). -/
theorem test_wf_m : [Instr.vcfg 0 0 11, .vadd 3 0 1 2 3 0 0, .vadd 0 4 1 2 3 0 0, .vadd 0 0 1 8 3 0 1, .vadd 0 0 1 2 8 0 2, .vabs 0 0 1 8 0 1, .vcmp 0 0 8 2 3 0 0,
    .vsfu 0 0 1 2 9 0 0, .vred 0 0 1 2 3 0 0, .vscan 0 0 1 2 3 0 0, .vzip 0 0 1 2 3 0 0, .vunzip 0 0 3 2 3 0 0, .vcvt 0 0 1 2 15 0 0, .vwmul 0 0 1 2 3 0 0,
    .vwadd 0 0 1 2 3 0 0, .vnarr 0 0 1 3 4 0 0, .vmxq 0 0 1 2 3 0 0, .vmxq 0 0 3 4 3 0 0, .vmxd 0 0 2 2 3 0 0, .vqpop 0 0 1 8 0 0].all
      (fun i => !i.wfIn .m) = true ∧
    [Instr.plog 0 0 8 1 1 0, .plog 0 0 1 8 1 0, .plog 0 0 1 1 8 0, .plog 0 0 1 1 1 7, .plog 0 0 1 1 1 4, .pcnt 0 0 8, .vtos 0 0 8 0 1, .mcfg 0 0 5 0,
    .mcfg 0 0 0 1, .mcfg 0 0 0 0x1800, .mcfg 0 0 0 0x300, .mcfg 0 0 1 0x400, .mcfg 0 0 3 0x80, .mcfg 0 0 4 0x20, .mma 0 0 1 1 0 0 0, .mdrain 0 0 10 1 1 0,
    .mdrain 0 0 1 4 1 0, .mdrain 0 0 1 1 4 0, .kmaskKmax 0 0 1 4, .kmaskKkeep 0 0 4 1 1, .kmaskKkeep 0 0 1 4 1, .kmaskKrange 0 0 4, .kmaskKclr 0 0 4,
    .kmaskKor 0 0 4 1, .kmaskKor 0 0 1 4, .kmaskKtop 0 0 8 1, .kmaskKtop 0 0 1 4, .kmaskKfromp 0 0 4 1, .kmaskKfromp 0 0 1 8, .epset 0 0 4 1 0,
    .epset 0 0 1 8 1].all (fun i => !i.wfIn .m) = true := by decide
/-- Rachis: a flag function and a scope that do not exist, a pass selector; an instruction of another map (R250, R254, R255). -/
theorem test_wf_maps : [Instr.hflag 1 2 1 3, .hflag 1 2 6 0, .hkv 1 2 0 2, .add 1 2 3].all (fun i => !i.wfIn .h) = true ∧ (Instr.hnop).wfIn .c = false ∧
    (Instr.cmove 1 2).wfIn .c = false ∧ (Instr.add 1 2 3).wfIn .g = false ∧ (Instr.flr).wfIn .c = false ∧ (Instr.illegal 0).wfIn .c = false := by decide

/-! ## Decoding: the words of the encodings of spec/opcode_table.json, one for each row that has one -/

/-- Each word decodes, in the map, to the instruction beside it. -/
def decodesTo (p : IMap) (l : List (W32 × Instr)) : Bool := l.all (fun e => (decode p e.1 none).toOption == some e.2)

theorem test_decode_c1 : decodesTo .c [
    (0x04653800, .add 3 5 7), (0x04653801, .sub 3 5 7), (0x04653802, .and 3 5 7), (0x04653803, .or 3 5 7), (0x04653804, .xor 3 5 7),
    (0x04653805, .shl 3 5 7), (0x04653806, .shr 3 5 7), (0x04653807, .sar 3 5 7), (0x04653808, .min 3 5 7), (0x04653809, .max 3 5 7),
    (0x0465380A, .minu 3 5 7), (0x0465380B, .maxu 3 5 7), (0x0465380C, .slt 3 5 7), (0x0465380D, .sltu 3 5 7), (0x0465380E, .seq 3 5 7),
    (0x0465380F, .mul 3 5 7), (0x04653810, .mulh 3 5 7), (0x04653811, .div 3 5 7), (0x04653812, .divu 3 5 7),
    (0x04653813, .rem 3 5 7)] = true := by decide
theorem test_decode_c2 : decodesTo .c [
    (0x04653814, .remu 3 5 7), (0x04650015, .clz 3 5), (0x04650016, .ctz 3 5), (0x04650017, .popc 3 5), (0x04653818, .fshl 3 5 7),
    (0x04653819, .fshr 3 5 7), (0x0465001A, .sextb 3 5), (0x0465001B, .sexth 3 5), (0x0465001C, .sextw 3 5), (0x08650007, .addi 3 5 7),
    (0x0C650007, .andi 3 5 7), (0x10650007, .ori 3 5 7), (0x14650007, .xori 3 5 7), (0x18650007, .shli 3 5 7), (0x1C650007, .shri 3 5 7),
    (0x20650007, .sari 3 5 7), (0x24650007, .slti 3 5 7), (0x28600005, .li 3 5), (0x34650470, .bext 3 5 1 7),
    (0x38650470, .bins 3 5 1 7)] = true := by decide
theorem test_decode_c3 : decodesTo .c [
    (0x3C653800, .bextv 3 5 7), (0x40650000, .beq 3 5 0), (0x44650000, .bne 3 5 0), (0x48650000, .blt 3 5 0), (0x4C650000, .bge 3 5 0),
    (0x50650000, .bltu 3 5 0), (0x54650000, .bgeu 3 5 0), (0x58000000, .j 0), (0x5C000000, .jal 0), (0x60650000, .jr 3 5),
    (0x64600000, .loop 3 0), (0x68650007, .sldb 3 5 7), (0x6C650007, .sldh 3 5 7), (0x70650007, .sldw 3 5 7), (0x74650007, .sldd 3 5 7),
    (0x78650007, .sstb 3 5 7), (0x7C650007, .ssth 3 5 7), (0x80650007, .sstw 3 5 7), (0x84650007, .sstd 3 5 7),
    (0x88653AC0, .amoadd 3 5 7 2 3)] = true := by decide
theorem test_decode_c4 : decodesTo .c [
    (0x88653AC1, .amoswp 3 5 7 2 3), (0x88653AC2, .amocas 3 5 7 2 3), (0x88653AC3, .amomax 3 5 7 2 3), (0x88653AC4, .amomin 3 5 7 2 3),
    (0x88653AC5, .amoor 3 5 7 2 3), (0x88653AC6, .amoand 3 5 7 2 3), (0x8C032D80, .fset 3 5 5 2), (0x8C032D81, .fclr 3 5 5 2),
    (0x8C653C42, .ftest 3 5 7 4 1), (0x8C653AC3, .ftas 3 5 7 2 3), (0x8C032C44, .fwait 3 5 4 1), (0x8C032C45, .fwaitc 3 5 4 1),
    (0x90653C40, .waita 3 5 7 4 1), (0x94653800, .trun 3 5 7), (0x94653801, .tbase 3 5 7), (0x94600002, .tstop 3), (0x94600003, .twait 3),
    (0x94620004, .tcut 3 2), (0x94630005, .tstat 3 3), (0x98030800, .tkput 3 1)] = true := by decide
theorem test_decode_c5 : decodesTo .c [
    (0x98604801, .tkget 3 9), (0x98602802, .tkcnt 3 5), (0x98653803, .tkreset 3 5 7), (0x9C650000, .setn 3 5),
    (0xA06539E0, .xcopy 3 5 7 1 3 1), (0xA06501E1, .xgath 3 5 1 3 1), (0xA06501E2, .xscat 3 5 1 3 1), (0xA06501E3, .xcoll 3 5 1 3 1),
    (0xA06501E4, .xpref 3 5 1 3 1), (0xA06001E5, .xlayer 3 1 3 1), (0xA06501E6, .xpin 3 5 1 3 1), (0xA06501E7, .xunpin 3 5 1 3 1),
    (0xA0650008, .xgen 3 5), (0xA0650449, .xwaitc 3 5 4 1), (0xA065000A, .xqstat 3 5), (0xA06501EB, .egsub 3 5 1 3 1),
    (0xA4653820, .kvalloc 3 5 7 1), (0xA4650001, .kvfree 3 5), (0xA4650002, .kvref 3 5), (0xA4653803, .kvlook 3 5 7)] = true := by decide
theorem test_decode_c6 : decodesTo .c [
    (0xA4653804, .kvmap 3 5 7), (0xA8650000, .taskpost 3 5), (0xA8000001, .taskend), (0xA8600002, .taskyld 3), (0xA8650003, .glaunch 3 5),
    (0xA8600004, .slack 3), (0xA8653805, .rung 3 5 7), (0xA8650006, .frmacq 3 5), (0xA8653807, .frmcommit 3 5 7),
    (0xAC600000, .phase 3 0 0), (0xAC650581, .pharr 3 5 5 2), (0xAC032C42, .phwait 3 5 4 1), (0xAC000343, .fence 3 1),
    (0xAC032984, .rels 3 5 1), (0xAC650145, .acqs 3 5 1), (0xB0650000, .atgo 3 5), (0xB0650001, .atwait 3 5), (0xB0032802, .atload 3 5),
    (0xB0600003, .atstat 3), (0xB4653800, .svc 3 5 7)] = true := by decide
theorem test_decode_c7 : decodesTo .c [
    (0xB4653801, .trapret 3 5 7), (0xB4653802, .yrd 3 5 7), (0xB4653803, .ywr 3 5 7), (0xB4650004, .idle 3 5), (0xB4000005, .halt),
    (0xB4650006, .tqpop 3 5), (0xB4650007, .freeze 3 5), (0xB4653808, .husksave 3 5 7), (0xB4653809, .huskload 3 5 7),
    (0xB465000A, .evpost 3 5), (0xB400000B, .brkpt)] = true := by decide
theorem test_decode_l1 : decodesTo .l [
    (0x04A1AC00, .vld 1 2 3 5 1 0), (0x08A194E0, .vlds 1 2 3 5 7), (0x0CA194E0, .vldg 1 2 3 5 7), (0x10A1AC00, .vldb 1 2 3 5 1 0),
    (0x14A1AC00, .pld 1 2 3 5 1 0), (0x18A13005, .mald 1 2 1 3 5), (0x1CA35007, .wld 1 2 3 5 7), (0x20A35007, .zld 1 2 3 5 7),
    (0x3CA194E0, .aadd 1 2 3 5 7), (0x40A35007, .aaddi 1 2 3 5 7), (0x48A35000, .amov 1 2 3 5), (0x48A30001, .amovTok 1 2 3),
    (0x4CA35007, .awrap 1 2 3 5 7), (0x50A30005, .astep 1 2 3 5), (0x50A35000, .astepReg 1 2 3 5), (0x54A03005, .bfull 1 2 3 5),
    (0x54A13005, .bempty 1 2 3 5), (0x54A23005, .bwait 1 2 3 5), (0x54A33005, .btest 1 2 3 5),
    (0x58A13005, .qbind 1 2 1 3 5)] = true := by decide
theorem test_decode_l2 : decodesTo .l [
    (0x5CA10000, .qfree 1 2 1), (0x60A03005, .pfb 1 2 3 5), (0x64A00000, .lnop 1 2)] = true := by decide
theorem test_decode_s1 : decodesTo .s [
    (0x24A1AC00, .vst 1 2 3 5 1 0), (0x28A194E0, .vsts 1 2 3 5 7), (0x2CA194E0, .vstg 1 2 3 5 7), (0x30A1941C, .vstm 1 2 3 5 7),
    (0x34A35007, .est 1 2 3 5 7), (0x38A1AC00, .pst 1 2 3 5 1 0)] = true := by decide
theorem test_decode_m1 : decodesTo .m [
    (0x04A00003, .vcfg 1 2 3), (0x08A194E7, .vadd 1 2 3 5 7 1 3), (0x0CA194E7, .vsub 1 2 3 5 7 1 3), (0x10A194E7, .vmul 1 2 3 5 7 1 3),
    (0x14A194E7, .vfma 1 2 3 5 7 1 3), (0x18A194E7, .vfms 1 2 3 5 7 1 3), (0x1CA194E7, .vmin 1 2 3 5 7 1 3),
    (0x20A194E7, .vmax 1 2 3 5 7 1 3), (0x24A194E7, .vand 1 2 3 5 7 1 3), (0x28A194E7, .vor 1 2 3 5 7 1 3),
    (0x2CA194E7, .vxor 1 2 3 5 7 1 3), (0x30A194E7, .vshl 1 2 3 5 7 1 3), (0x34A194E7, .vshr 1 2 3 5 7 1 3),
    (0x38A194E7, .vsar 1 2 3 5 7 1 3)] = true := by decide
theorem test_decode_m2 : decodesTo .m [
    (0x3CA1941D, .vabs 1 2 3 5 7 1), (0x40A1941D, .vneg 1 2 3 5 7 1), (0x44A194E7, .vcmp 1 2 3 5 7 1 3), (0x48A194E7, .vsel 1 2 3 5 7 1 3),
    (0x4CA1941D, .vmov 1 2 3 5 7 1), (0x50A18005, .vbci 1 2 3 5), (0x54A194E5, .vsfu 1 2 3 5 7 1 1), (0x58A19425, .vred 1 2 3 5 1 1 1),
    (0x5CA19445, .vscan 1 2 3 5 2 1 1), (0x60A194E7, .vperm 1 2 3 5 7 1 3), (0x64A314E7, .vzip 1 2 6 5 7 1 3),
    (0x68A314E7, .vunzip 1 2 6 5 7 1 3), (0x6CA194E5, .vcvt 1 2 3 5 7 1 1), (0x70A314E7, .vwmul 1 2 6 5 7 1 3)] = true := by decide
theorem test_decode_m3 : decodesTo .m [
    (0x74A314E7, .vwadd 1 2 6 5 7 1 3), (0x78A194E7, .vnarr 1 2 3 5 7 1 3), (0x7CA194E5, .vmxq 1 2 3 5 7 1 1),
    (0x80A614E7, .vmxd 1 2 12 5 7 1 3), (0x84A18014, .vidx 1 2 3 5), (0x88A194E7, .vslide 1 2 3 5 7 1 3), (0x8CA194E5, .vqpop 1 2 3 5 7 1),
    (0x90A194E4, .plog 1 2 3 5 7 1), (0x94A00C1C, .pcnt 1 2 3), (0x98A00C15, .vtos 1 2 3 5 1), (0x9CA18014, .vfrs 1 2 3 5),
    (0xC0A18005, .mcfg 1 2 3 5), (0xC4AD900B, .mma 1 2 3 1 1 1 11), (0xC8AC5000, .mzero 1 2 3 5)] = true := by decide
theorem test_decode_m4 : decodesTo .m [
    (0xCCA28864, .mdrain 1 2 5 2 3 1), (0xD0AC5007, .scout 1 2 3 5 7), (0xD4A18800, .kmaskKmax 1 2 3 2),
    (0xD4A088E4, .kmaskKkeep 1 2 1 2 7), (0xD4A18008, .kmaskKrange 1 2 3), (0xD4A1800C, .kmaskKclr 1 2 3), (0xD4A08810, .kmaskKor 1 2 1 2),
    (0xD4A38814, .kmaskKtop 1 2 7 2), (0xD4A11418, .kmaskKfromp 1 2 2 5), (0xD8A1941D, .epset 1 2 3 5 1), (0xDCA00003, .wsel 1 2 3),
    (0xDCA08000, .wselTok 1 2), (0xE0A00000, .mnop 1 2)] = true := by decide
theorem test_decode_h1 : decodesTo .h [
    (0x04C00005, .hset 3 5), (0x04C40000, .hsetTile 3), (0x08D40007, .hadd 3 5 7), (0x0CC00000, .hloop 3 0), (0x10D40000, .hbr 3 5 0),
    (0x14000000, .hwait), (0x18D40005, .hflag 3 5 1 1), (0x1CD40005, .hkv 3 5 1 1), (0x20D40000, .hscout 3 5), (0x24C00000, .hwin 3),
    (0x28C00000, .hqk 3), (0x2C000000, .htree), (0x30000000, .hmax), (0x34000000, .hexp), (0x38000000, .hsum), (0x3C000000, .hresc),
    (0x40000000, .hpv), (0x44000000, .hdrain), (0x48000000, .hnop), (0x4C000000, .hend)] = true := by decide
theorem test_decode_g1 : decodesTo .g [
    (0x0001828B, .cgetb 3 5), (0x0201828B, .cgetl 3 5), (0x0401828B, .cgetp 3 5), (0x0601828B, .ctag 3 5), (0x0832838B, .candp 3 5 7),
    (0x0A32838B, .cseal 3 5 7), (0x0C32838B, .cunseal 3 5 7), (0x0E01828B, .cmove 3 5), (0x1032838B, .cjalr 3 5 7),
    (0x1853948B, .csetb 3 5 7 9), (0x185395AB, .cld 3 5 7 1 11), (0x1853C4AB, .cldc 3 5 7 9), (0x1A74B6FB, .cst 3 1 7 9 3 13),
    (0x1A74C5FB, .cstc 3 1 7 9 11)] = true := by decide
theorem test_decode_shared : decodesTo .s [
    (0x3CA194E0, .aadd 1 2 3 5 7), (0x40A35007, .aaddi 1 2 3 5 7), (0x48A35000, .amov 1 2 3 5), (0x48A30001, .amovTok 1 2 3),
    (0x4CA35007, .awrap 1 2 3 5 7), (0x50A30005, .astep 1 2 3 5), (0x50A35000, .astepReg 1 2 3 5), (0x54A03005, .bfull 1 2 3 5),
    (0x54A13005, .bempty 1 2 3 5), (0x54A23005, .bwait 1 2 3 5), (0x54A33005, .btest 1 2 3 5), (0x64A00000, .lnop 1 2)] = true := by decide
/-- The two-word instructions, and one whose second word is not there (R52, R72, R107). -/
theorem test_decode_two_words : (decode .c 0x2D200000 (some 0x12345678)).toOption = some (.liw 9 0x12345678) ∧
    (decode .c 0x31200000 (some 0xFFFFFFFF)).toOption = some (.lihw 9 0xFFFFFFFF) ∧ (decode .c 0x2D200000 none).toOption = none ∧
    (decode .l 0x44035007 (some 0x12345678)).toOption = some (.aset 0 0 3 5 7 0x12345678) ∧ (decode .l 0x44035007 none).toOption = none := by decide
/-- The words that the spec prints beside their assembly: C. -/
theorem test_decode_printed_c : decodesTo .c [(0x04611000, .add 3 1 2), (0x05021810, .mulh 8 2 3), (0x34643070, .bext 3 4 12 7), (0x6520FFFF, .loop 9 0xFFFF),
    (0x44A0FFFE, .bne 5 0 0xFFFE), (0x8C053144, .fwait 5 6 1 1), (0x90862240, .waita 4 6 4 2 1), (0x88863940, .amoadd 4 6 7 1 1),
    (0x88A84AC2, .amocas 5 8 9 2 3), (0x98030800, .tkput 3 1), (0x98E04001, .tkget 7 8), (0x98401803, .tkreset 2 0 3), (0x94442800, .trun 2 4 5),
    (0x94410004, .tcut 2 1), (0xAC600000, .phase 3 0 0), (0xACA60181, .pharr 5 6 1 2), (0xAC062942, .phwait 6 5 1 1), (0xAC0001C3, .fence 1 3),
    (0xAC063984, .rels 6 7 1), (0xACA60145, .acqs 5 6 1), (0xA5442820, .kvalloc 10 4 5 1), (0xB0043002, .atload 4 6), (0xA8C74005, .rung 6 7 8),
    (0xB4642800, .svc 3 4 5), (0xB4801002, .yrd 4 0 2), (0xB4C02003, .ywr 6 0 4), (0xA12A5820, .xcopy 9 10 11 0 0 1)] = true := by decide
/-- The same of L, S and M. -/
theorem test_decode_printed_lsm : decodesTo .l [(0x04129408, .vld 0 1 5 2 1 8), (0x04108808, .vld 0 1 1 1 0 8), (0x64A00000, .lnop 1 2),
    (0x54025003, .bwait 0 0 5 3), (0x1801307F, .mald 0 0 1 3 127)] = true ∧ decodesTo .s [(0x3407600F, .est 0 0 7 6 15)] = true ∧
    decodesTo .m [(0x0911845C, .vadd 2 1 3 1 2 7 0), (0x05000088, .vcfg 2 0 0x88), (0xC0002A00, .mcfg 0 0 0 0x2A00), (0xDC000880, .wsel 0 0 0x880),
      (0xC8081000, .mzero 0 0 2 1), (0xCC008E00, .mdrain 0 0 1 3 16 0), (0xD4008924, .kmaskKkeep 0 0 1 2 9)] = true := by decide
/-- The warrant words that the spec prints, and standard words of RV64IMC (the RISC-V manual's encodings). -/
theorem test_decode_printed_g : decodesTo .g [(0x58A0928B, .csetb 11 10 1 5), (0x1020332B, .cld 2 2 0 3 6), (0x0874C17B, .cstc 1 0 7 9 2),
    (0x10C1808B, .cjalr 12 3 1), (0x00C58533, .rv64 false (.op .add 10 11 12)), (0x02C5D533, .rv64 false (.op .divu 10 11 12)),
    (0xFFF00513, .rv64 false (.opImm .add 10 0 0xFFF)), (0x00000073, .rv64 false .ecall), (0x30200073, .rv64 false .mret)] = true := by decide
/-- Majors 0 and reserved, a function code past the list, a field that is not zero: not instructions (R49, R52). -/
theorem test_decode_refuses : [(IMap.c, 0x00000000), (.c, 0xFC000000), (.c, 0x0400001D), (.c, 0x04611815), (.l, 0x00000000), (.s, 0x04129408), (.m, 0x00000000),
    (.h, 0x00000000), (.h, 0x44000001)].all (fun e => (decode e.1 (BitVec.ofNat 32 e.2) none).toOption.isNone) = true := by decide

/-! ## The states of the witnesses: two tiles of partition 0 hold the tasks of one instance -/

def regs (l : List (Nat × Word)) : Vector Word 32 := l.foldl (fun v e => v.set! e.1 e.2) (Vector.replicate 32 0)
def cS (l : List (Nat × Word)) : CSt := { CSt.reset with s := regs l, pc := 0x1008 }
def rc0 : TaskRec := { entry := 0x1000, param := 0, ltab := 0, mtab := 0, stab := 0, cost := 10, deps := 0, tile := 0, attr := 0, succ := [], wdog := 0 }
def ctl : TaskCtl := { part := 0, inst := 1, idx := 0, rc := rc0, cls := 2, super := false, u := 0, lifted := false }
def gr0 : Graph := { fcols := 2, frows := 1, bin0 := 0, nbins := 8, groups := none, phases := [{ tasks := [rc0, { rc0 with tile := 1 }], xlen := 0, exch := [] }] }
def inst1 : Inst := { no := 1, graphPtr := 0x4000000000000000, graph := some gr0, cls := 2, dl := 0, iparam := 5, src := .stream 0, launched := 0, world := none, col0 := 0, row0 := 0, phase := 0, st := .running, posted := [], live := [0,1], barriers := Vector.replicate 8 { count := 0, arrived := [] }, snap := [], own := [] }
def nums (m : Mem) (l : List (Nat × Nat)) : Mem := l.foldl (fun m e => Mem.write m e.1 (leBytes 8 e.2)) m
def tables : Mem := nums [] [(0x1000,0x2001),(0x2000,0x3001),(0x3000,0x20001F),(0x3008,0x600007),(0x11000,0x12001),(0x12000,0x13001),(0x13000,0x40001F),(0x13008,0x800007)]
def part0 : PartSt := { PartSt.reset with inUse := true, tiles := 3, slim := 10, home := 0, insts := [inst1], instNo := 1, ctx := ((Vector.replicate 8 0).set 0 0x1000).set 1 0x11000 }
def base : State := ({((State.reset.modTile 0 fun x => { x with slim := 10, part := 0, logic := { x.logic with task := some ctl } }).modTile 1 fun x => { x with slim := 10, part := 0, logic := {x.logic with task := some {ctl with idx := 1}} }).setPart 0
  part0 with bulk := tables}).modFab fun f => { f with domain := [{part := 0, dev := 1, rpart := 0, rights := 7, planes := 3},{part := 0, dev := 0, rpart := 0, rights := 7, planes := 3}] }
def withC (c : CSt) : State := base.modC 0 fun _ => c
def big : List (Nat × Word) := [(1, 0x8000000000000000), (2, BitVec.allOnes 64), (3, 5), (4, 0x123456789ABCDEF0), (5, 64), (6,3*64+65), (7, 0x1FF)]

/-! ## Single steps, the expected values worked out by hand from the rules -/

/-- The state after one step. -/
def after (s : State) : State := match step s with
  | .next t => t
  | _ => s
/-- C runs the word with these s registers. -/
def cRun (w : Nat) (l : List (Nat × Word)) (w1 : Nat := 0) : State :=
  after ((State.reset.withFetchWord 64 (w + w1 * 2 ^ 32)).modC 0 fun c => { c with s := regs l })

/-- R69, R70: MIN64 by −1 gives MIN64, and the remainder of a division by 0 is the dividend. -/
theorem test_div_min : (cRun 0x04653811 [(5, 0x8000000000000000), (7, 0xFFFFFFFFFFFFFFFF)]).sr 0 3 = 0x8000000000000000 ∧
    (cRun 0x04653811 [(5, 77)]).sr 0 3 = 0xFFFFFFFFFFFFFFFF ∧ (cRun 0x04653813 [(5, 77)]).sr 0 3 = 77 := by decide +kernel
/-- R69: MULH of −1 and 2 is −1; the pc moves to the next word. -/
theorem test_mulh_sign : let t := cRun 0x04653810 [(5, 0xFFFFFFFFFFFFFFFF), (7, 2)]
    t.sr 0 3 = 0xFFFFFFFFFFFFFFFF ∧ (t.c 0).pc = 4 := by decide +kernel
/-- s0 reads as zero and discards writes (R54); shift counts are taken mod 64 (R69). -/
theorem test_s0_and_shift : (cRun 0x04053800 [(5, 3), (7, 4)]).sr 0 0 = 0 ∧ (cRun 0x04653805 [(5, 3), (7, 65)]).sr 0 3 = 6 := by decide +kernel
/-- The immediate of ADDI and of ANDI is sign-extended (R71): ANDI with −16 clears bits 3:0. -/
theorem test_immediates : (cRun 0x0865FFFF [(5, 1)]).sr 0 3 = 0 ∧ (cRun 0x0C65FFF0 [(5, 0xFFFFFFFFFFFFFFFF)]).sr 0 3 = 0xFFFFFFFFFFFFFFF0 := by decide +kernel
/-- LIW takes the next word, sign-extended, and moves past both (R72). -/
theorem test_liw_two_words : let t := cRun 0x2D200000 [] 0x80000000
    t.sr 0 9 = 0xFFFFFFFF80000000 ∧ (t.c 0).pc = 8 := by decide +kernel
/-- The example of R70: the old s6 moves up 16 bits and takes in the top of s7. The example of R72: LIHW supplies the upper half. -/
theorem test_spec_examples : (cRun 0x04C74018 [(6, 0x0123456789ABCDEF), (7, 0xFEDCBA9876543210), (8, 16)]).sr 0 6 = 0x456789ABCDEFFEDC ∧
    (cRun 0x30800000 [(4, 0x56789ABC)] 0x40001234).sr 0 4 = 0x4000123456789ABC := by decide +kernel

/-! ## The statements' hypotheses are met: C -/

def st (l : List (Nat × Word)) : State := withC (cS l)
def alu : State := st [(1, 0x8000000000000000), (2, BitVec.allOnes 64), (3, 0x0123456789ABCDEF), (4, 0xFEDCBA9876543210), (5, 16), (6, 128)]

theorem met_AluResults : alu.free [3, 1, 2] ∧ alu.free [0, 1, 0] ∧ alu.free [31, 2, 1] := by unfold State.free; decide +kernel

theorem met_DivisionAndFunnelCorners : alu.free [3, 1, 0] ∧ alu.sr alu.cur 0 = 0 ∧
    (alu.free [3, 1, 2] ∧ (alu.sr alu.cur 1).toInt = -2 ^ 63 ∧ (alu.sr alu.cur 2).toInt = -1) ∧
    (alu.free [3, 1, 6] ∧ (alu.sr alu.cur 6).toNat % 64 = 0) ∧
    (alu.free [3, 4, 5] ∧ alu.sr alu.cur 3 = 0x0123456789ABCDEF ∧ alu.sr alu.cur 4 = 0xFEDCBA9876543210 ∧ alu.sr alu.cur 5 = 16) := by
  unfold State.free; decide +kernel

def bits : State := st [(3, 0xABCDE123), (4, 0x56789ABC)]

theorem met_BitFieldResults : (alu.free [3, 4, 5] ∧ (63 : BitVec 6).toNat + (0 : BitVec 6).toNat + 1 ≤ 64 ∧
    (0 : BitVec 6).toNat + (63 : BitVec 6).toNat + 1 ≤ 64) ∧ (bits.free [5, 3, 4] ∧ bits.sr bits.cur 3 = 0xABCDE123) ∧
    64 < (63 : BitVec 6).toNat + (1 : BitVec 6).toNat + 1 := by unfold State.free; decide +kernel

theorem met_ImmediateResults : (alu.free [3, 4] ∧ (63 : BitVec 16).toNat < 64) ∧ (bits.free [4, 3] ∧ bits.sr bits.cur 4 = 0x56789ABC) ∧
    63 < (64 : BitVec 16).toNat := by unfold State.free; decide +kernel

/-- R73, R71: a field past bit 63 and a shift past 63 are no words of C. -/
theorem test_rejects : (decode .c 0x34643FF0 none).toOption = none ∧ (decode .c 0x18640040 none).toOption = none ∧
    (decode .c 0x34643070 none).toOption = some (.bext 3 4 12 7) := by decide +kernel

def ld (d : Reg) : COp := { kind := .load, loc := .slice 0 8, width := 8, bit := 0, dst := d, ord := 0, scope := 0, poison := false }
def sto (v : Word) : COp := { ld 0 with kind := .store v }
def busy3 : State := withC { cS [] with ops := [ld 3] }
def marked : State := withC { cS [(3, 65)] with poison := 8 }

theorem met_ControlFlowResults : (alu.free [1, 2] ∧ alu.clean [1, 2]) ∧ (alu.free [3, 6, 31] ∧ alu.clean [6] ∧ (alu.sr alu.cur 6).toNat % 64 = 0) ∧
    ¬ busy3.free [3, 1, 2] ∧ (marked.free [3, 1] ∧ ¬ marked.clean [3, 1]) ∧
    (alu.free [5, 3] ∧ alu.clean [5] ∧ (alu.sr alu.cur 5).toNat % 64 ≠ 0) := by unfold State.free State.clean; decide +kernel

/-! ## C: token queues and start queues -/

/-- Queue 0 holds `n` tokens. -/
def toks (n : Nat) (s : State) : State := s.setToks 0 0 (List.replicate n 77)

theorem met_TokenQueueResults : let e := toks 0 (st [(1, 255), (2, 256)])
    e.free [1, 2] ∧ (e.c e.cur).ops = [] ∧ (e.toks e.cur 0).length < 255 ∧ e.toks e.cur 0 = [] ∧ e.clean [1] ∧ (e.sr e.cur 1).toNat ≤ 255 ∧
    e.clean [2] ∧ 255 < (e.sr e.cur 2).toNat ∧
    (let m := toks 254 e
     m.free [1, 2] ∧ (m.c m.cur).ops = [] ∧ (m.toks m.cur 0).length < 255 ∧ ∃ v r, m.toks m.cur 0 = v :: r) ∧
    (let f := toks 255 e
     f.free [1, 2] ∧ (f.c f.cur).ops = [] ∧ 255 ≤ (f.toks f.cur 0).length) ∧
    (busy3.free [1, 2] ∧ busy3.clean [1] ∧ (busy3.c busy3.cur).ops ≠ []) ∧
    (let p := e.modC 0 (fun c => { c with poison := 2 })
     p.free [1, 2] ∧ ¬ p.clean [1]) := by
  unfold State.free State.clean
  refine ⟨by decide +kernel, by decide +kernel, by decide +kernel, by decide +kernel, by decide +kernel, by decide +kernel, by decide +kernel,
    by decide +kernel, ⟨by decide +kernel, by decide +kernel, by decide +kernel, 77, List.replicate 253 77, by decide +kernel⟩, by decide +kernel, by decide +kernel, by decide +kernel⟩

def atq (u : Sq) (f : SeqSt → SeqSt) (s : State) : State := { s.modSeq 0 u f with curSq := u }
def stopped : Stop := { kind := .svc, tile := 1, tid := 9, status := 5, replay := true, latched := false, dst := 3 }
def run0 : Run := { base := 0x40, len := 3, rep := 2, step := 1, j := 0, issued := 0 }

theorem met_StartQueueResults : let s := st [(1, 0x40), (2, 0xFFF0000), (3, 512 * 65536 + 512), (4, 513 * 65536), (5, 65)]
    let full := atq .m (fun x => { x with startq := List.replicate 4 (.run 64 1 1 []) }) s
    s.free [1, 1, 2] ∧ s.clean [1, 2] ∧ (s.sr s.cur 1).toNat % 64 = 0 ∧
      s.spaceOk (s.partOf s.cur) fetchSpaces (s.sr s.cur 1) (4 * ((s.sr s.cur 2).toNat % 4096 + 1)) = true ∧ (s.sr s.cur 2).toNat < 2 ^ 28 ∧
    (s.seq s.cur .m).startq.length < 4 ∧ 4 ≤ (full.seq full.cur .m).startq.length ∧ full.free [1, 3, 2] ∧ full.clean [3, 2] ∧
    (s.free [1, 5, 2] ∧ s.clean [5, 2] ∧ (s.sr s.cur 5).toNat % 64 ≠ 0) ∧
    (s.free [1, 3, 2] ∧ s.clean [3, 2] ∧ (s.sr s.cur 3).toNat % 1024 ≤ 512 ∧ (s.sr s.cur 3).toNat / 65536 ≤ 512 ∧
      (s.sr s.cur 3).toNat / 1024 % 64 = 0) ∧
    (s.free [1, 4, 2] ∧ s.clean [4, 2] ∧ 512 < (s.sr s.cur 4).toNat / 65536) := by unfold State.free State.clean; decide +kernel

theorem met_StopWaitStatusResults : let s := st []
    let a := atq .m (fun x => { x with run := some run0 }) s
    let b := atq .m (fun x => { x with run := some run0, started := some 1, wait := .push }) s
    let c := atq .m (fun x => { x with run := some run0, stop := some { stopped with replay := false } }) s
    (target 2 = .m ∧ (a.seq a.cur .m).run = some run0 ∧ (a.seq a.cur .m).stop = none ∧ run0.issued = 0 ∧ (a.seq a.cur .m).started = none ∧
      (a.logic a.cur).abandonPush .m = a.logic a.cur ∧ (a.logic a.cur).idle .m = false ∧ a.free [2] ∧
      (a.seq a.cur .m).startq.length ≤ 4 ∧ run0.step < 4096 ∧ run0.j < 65536) ∧
    ((b.seq b.cur .m).run = some run0 ∧ (b.seq b.cur .m).stop = none ∧ (b.seq b.cur .m).started.isSome ∧
      (b.logic b.cur).abandonPush .m = b.logic b.cur) ∧
    ((c.seq c.cur .m).run = some run0 ∧ (c.seq c.cur .m).stop.isSome) ∧ (s.logic s.cur).idle .m = true ∧ (s.seq s.cur .m).run = none := by
  unfold State.free; decide +kernel

/-! ## C: memory -/

def mem (s : State) : State := { (s.modTile 0 fun x => { x with slice := Mem.write [] 8 [1, 2, 3, 4, 5, 6, 7, 0x88], sync := [(5, 0x08)] }) with
  host := Mem.write [] 0x400008 [9, 8, 7, 6, 5, 4, 3, 2], bulk := Mem.write s.bulk 0x200008 [1, 1, 1, 1, 1, 1, 1, 0xF1] }

theorem met_ScalarAccessIssue : let s := st [(1, 655352), (3, 0x1000000010000008), (4, 0x4000000000000008), (5, 655360)]
    let fl := withC { cS [(1, 8)] with ops := List.replicate 16 (ld 3) }
    let fs := withC { cS [(1, 8)] with ops := List.replicate 16 (sto 3) }
    (s.free [2, 1, 2] ∧ s.clean [1] ∧ (s.c s.cur).room true = true ∧ (s.c s.cur).room false = true ∧
      (s.access s.cur scalarSpaces .r (s.sr s.cur 1) 8 8).1 = .ok (.slice 0 655352) ∧
      (s.access s.cur scalarSpaces .w (s.sr s.cur 3) 8 8).1 = .ok (.slice 1 8) ∧
      (s.access s.cur scalarSpaces .r (s.sr s.cur 4) 8 8).1 = .ok (.bulk 0 8 0x200008 0x3000 false) ∧
      (s.access s.cur scalarSpaces .w (s.sr s.cur 5) 1 1).1 = .fail ⟨.bound, 0x800, some 655360⟩) ∧
    (fl.free [2, 1, 2] ∧ fl.clean [1] ∧ (fl.c fl.cur).room true = false) ∧ (fs.free [2, 1, 2] ∧ fs.clean [1] ∧ (fs.c fs.cur).room false = false) ∧
    (scalarSpaces 0 = true ∧ (2 ^ 28 - 8) / 2 ^ 60 = 0 ∧ ¬ (2 ^ 28 < 2 ^ 28 - 8 + 8) ∧ 2 ^ 28 < 2 ^ 28 - 7 + 8 ∧
      (s.tile 0).slim * 65536 < 655353 + 8 ∧ ¬ ((s.tile 0).slim * 65536 < 655352 + 8)) := by unfold State.free State.clean; decide +kernel

theorem met_AtomicAndFlagIssue : let s := st [(1, 655352), (2, 7), (3, 0x7000000000000008), (4, 0x30000000000101FF), (5, 8), (6, 0x3000000000000200)]
    let fl := withC { cS [(1, 0x3000000000000000), (2, 0)] with ops := List.replicate 16 (ld 3) }
    let isFlag (s : State) (ptr : Word) : Bool := ptr.toNat / 2 ^ 60 == 3 && ptr.toNat / 2 ^ 22 % 2 ^ 38 == 0 &&
      (s.part (s.partOf s.cur)).has (Fin.ofNat 64 (ptr.toNat / 65536 % 64)) && ptr.toNat % 65536 < 512
    (s.free [2, 1, 2] ∧ s.clean [1] ∧ (s.c s.cur).room true = true ∧
      (s.access s.cur (amoSpaces .add) .rw (s.sr s.cur 1) 8 8).1 = .ok (.slice 0 655352)) ∧
    (s.free [2, 5, 2] ∧ s.clean [5] ∧ (s.access s.cur (amoSpaces .cas) .rw (s.sr s.cur 5 - 4) 8 8).1 = .fail ⟨.align, 0x800, some 4⟩) ∧
    (s.free [2, 3, 2] ∧ s.clean [3] ∧ (s.sr s.cur 3).toNat / 2 ^ 48 = 7 * 2 ^ 12 ∧ amoSpaces .add 7 = true ∧ (s.sr s.cur 3).toNat % 8 = 0 ∧
      (s.translate (some s.cur) (s.partOf s.cur) true ((s.sr s.cur 3).toNat % 2 ^ 48) .rw).1 = .ok 0x400008 0x13000) ∧
    (s.free [7, 4, 2] ∧ s.clean [4, 2] ∧ isFlag s (s.sr s.cur 4) = true ∧ (s.sr s.cur 2).toNat < 8 ∧ (s.c s.cur).room true = true) ∧
    (fl.free [7, 1, 2] ∧ fl.clean [1, 2] ∧ isFlag fl (fl.sr fl.cur 1) = true ∧ (fl.sr fl.cur 2).toNat < 8 ∧ (fl.c fl.cur).room false = true) ∧
    (s.free [7, 6, 2] ∧ s.clean [6, 2] ∧ isFlag s (s.sr s.cur 6) = false) ∧
    (s.free [7, 4, 5] ∧ s.clean [4, 5] ∧ 8 ≤ (s.sr s.cur 5).toNat) := by
  unfold State.free State.clean; and_intros <;> decide +kernel

/-- C has these accesses outstanding, and its access `k` is the event's. -/
def opsSt (l : List COp) (k : Nat := 0) : State :=
  { (mem (st [])).modC 0 (fun c => { c with ops := l }) with curSq := .c, ev := { EvArgs.none with k := k } }
/-- What the statements on performed accesses ask of the state. -/
def performs (s : State) (k : Nat) (o : COp) : Prop :=
  s.curSq = .c ∧ s.ev.k = k ∧ s.ev.v = 0 ∧ (s.c s.cur).ops[k]? = some o ∧ s.memOk ∧ s.noMigration ∧ s.hostOpen s.cur ∧
    (s.tile s.cur).freezing = none

theorem mem_memOk : (mem (st [])).memOk := by unfold State.memOk; decide +kernel
theorem mem_noMigration : (mem (st [])).noMigration := by unfold State.noMigration; decide +kernel
theorem opsSt_performs (l : List COp) (k : Nat) (o : COp) (h : l[k]? = some o) : performs (opsSt l k) k o :=
  ⟨rfl, rfl, rfl, h, (State.modC_memOk _ 0 (fun c => { c with ops := l }) mem_memOk :), mem_noMigration, ⟨rfl, rfl⟩, rfl⟩

theorem met_StorePerform : let s := opsSt [sto 5]
    let late := opsSt [sto 1, sto 2] 1
    let fs : COp := { sto 0 with kind := .fset, loc := .sync 0 511, width := 1, bit := 7 }
    performs s 0 (sto 5) ∧ (CSt.clearOf [] (sto 5).loc 8 && (!releases (sto 5).ord || CSt.released [] 0 2) && s.fabricTurn 0 (sto 5).loc) = true ∧
    performs late 1 (sto 2) ∧ CSt.clearOf [sto 1] (sto 2).loc 8 = false ∧ performs (opsSt [fs]) 0 fs ∧ fs.bit < 8 := by
  exact ⟨opsSt_performs _ _ _ rfl, by decide +kernel, opsSt_performs _ _ _ rfl, by decide, opsSt_performs _ _ _ rfl, by decide⟩

theorem met_LoadReturns : let s := opsSt [ld 3]
    let aq : COp := { ld 3 with kind := .acqs, ord := 1, scope := 2 }
    let a := opsSt [aq]
    let ft : COp := { ld 3 with kind := .ftest, loc := .sync 0 5, bit := 3, width := 1 }
    performs s 0 (ld 3) ∧ s.cReady s.cur 0 (ld 3) = true ∧ s.fabricTurn s.cur (ld 3).loc = true ∧ s.locFull (ld 3).loc 8 = true ∧ (s.modTile 0 (fun x => { x with empty := [0] })).locFull (ld 3).loc 8 = false ∧
    performs a 0 aq ∧ a.locFull aq.loc 8 = true ∧ a.unlifted a.cur = true ∧ performs (opsSt [ft]) 0 ft ∧
    performs (opsSt [{ ft with kind := .ftas }]) 0 { ft with kind := .ftas } := by
  refine ⟨opsSt_performs _ _ _ rfl, by decide +kernel, by decide +kernel, by decide +kernel, by decide +kernel,
    opsSt_performs _ _ _ rfl, by decide +kernel, by decide +kernel, opsSt_performs _ _ _ rfl, opsSt_performs _ _ _ rfl⟩

theorem met_AtomicResults : let o : COp := { ld 3 with kind := .amo .cas 7 0x8807060504030201 }
    let b : COp := { ld 3 with kind := .amo .add 7 0, loc := .bulk 0 8 0x200008 0x3000 false }
    performs (opsSt [o]) 0 o ∧ o.width = 8 ∧ (opsSt [o]).cReady 0 0 o = true ∧ (opsSt [o]).fabricTurn 0 o.loc = true ∧
    performs (opsSt [b]) 0 b ∧ (opsSt [b]).cReady 0 0 b = true ∧ (opsSt [b]).fabricTurn 0 b.loc = true := by
  exact ⟨opsSt_performs _ _ _ rfl, by decide, by decide +kernel, by decide +kernel, opsSt_performs _ _ _ rfl, by decide +kernel, by decide +kernel⟩

/-- C waits so, and its monitor on flag 3 has been hit or not. -/
def waits (w : CWait) (hit : Bool) (s : State) : State := { (s.modC 0 fun c => { c with wait := w }) with monitors := [⟨0, .flag 0 3 true, hit⟩], ck := 20000 }

def waitSt : State := mem (st [(1, 0x3000000000000005), (2, 3), (3, 4), (4, 8), (5, 0x8807060504030201)])
theorem waitSt_access : waitSt.access waitSt.cur waitaSpaces .r (waitSt.sr waitSt.cur 4) 8 8 = (.ok (.slice 0 8), waitSt) := rfl

theorem met_WaitResults : let s := waitSt
    let w := waits (.flag 0 3 true 0 1) true s
    let n := waits (.flag 0 3 true 0 1) false s
    let b := waits (.word (.slice 0 8) 5 3616 0 1) true s
    let c := waits (.word (.slice 0 8) 5 3617 0 1) true s
    (s.free [1, 2] ∧ s.clean [1, 2] ∧ s.flagAt s.cur (s.sr s.cur 1) (s.sr s.cur 2) false = .ok (0, 43) ∧ (s.c s.cur).ops = [] ∧
      (s.tile 0).flag 43 = true ∧ s.flagAt s.cur (s.sr s.cur 1) (s.sr s.cur 3) false = .ok (0, 44) ∧ (s.tile 0).flag 44 = false) ∧
    ((w.c w.cur).wait = .flag 0 3 true 0 1 ∧ (w.tile w.cur).runs = true ∧ ∃ m ∈ w.monitors, m.waiter = w.cur ∧ m.hit = true) ∧
    ((n.c n.cur).wait = .flag 0 3 true 0 1 ∧ (n.tile n.cur).runs = true ∧ ∀ m ∈ n.monitors, m.waiter = n.cur → m.hit = false) ∧
    (s.free [6, 4, 3] ∧ s.clean [4] ∧ s.access s.cur waitaSpaces .r (s.sr s.cur 4) 8 8 = (.ok (.slice 0 8), s) ∧
      s.locFull (.slice 0 8) 8 = true ∧ BitVec.ofNat 64 (leNat (s.homeBytes (.slice 0 8) 8)) ≠ s.sr s.cur 3 ∧
      s.free [6, 4, 5] ∧ BitVec.ofNat 64 (leNat (s.homeBytes (.slice 0 8) 8)) = s.sr s.cur 5) ∧
    ((b.c b.cur).wait = .word (.slice 0 8) 5 3616 0 1 ∧ (b.tile b.cur).runs = true ∧ b.locFull (.slice 0 8) 8 = true ∧
      (∃ m ∈ b.monitors, m.waiter = b.cur ∧ m.hit = true) ∧ 3616 + 16384 ≤ b.ck) ∧
    ((c.c c.cur).wait = .word (.slice 0 8) 5 3617 0 1 ∧ (c.tile c.cur).runs = true ∧ c.locFull (.slice 0 8) 8 = true ∧ c.ck < 3617 + 16384) := by
  unfold State.free State.clean; and_intros <;> first | exact waitSt_access | decide +kernel | rfl

/-- Barrier 7 of the instance stands so. -/
def bars (b : Barrier) : Inst := { inst1 with barriers := inst1.barriers.set 7 b }
def arrivals (b : Barrier) (s : State) : State := s.modInst 0 1 (fun _ => bars b)

theorem met_OrderResults : let s := st [(1, 7), (2, 3), (3, 4), (4, 8)]
    let u := arrivals ⟨3, [1]⟩ s
    let v := arrivals ⟨3, [0]⟩ s
    let o := withC { cS [] with ops := [ld 3] }
    (u.task u.cur = some ctl ∧ u.inst 0 1 = some (bars ⟨3, [1]⟩) ∧ u.free [5, 1, 2] ∧ u.clean [1, 2] ∧ (u.c u.cur).ops = [] ∧
      (u.sr u.cur 1).toNat < 8 ∧ ¬ ctl.rc.tile ∈ (vGet (bars ⟨3, [1]⟩).barriers 7).arrived) ∧
    (v.task v.cur = some ctl ∧ v.inst 0 1 = some (bars ⟨3, [0]⟩) ∧ v.free [5, 1, 2] ∧ v.clean [1, 2] ∧
      ctl.rc.tile ∈ (vGet (bars ⟨3, [0]⟩).barriers 7).arrived ∧ (v.sr v.cur 2).toNat ≤ (vGet (bars ⟨3, [0]⟩).barriers 7).count ∧
      v.free [5, 1, 3] ∧ v.clean [1, 3] ∧ (vGet (bars ⟨3, [0]⟩).barriers 7).count < (v.sr v.cur 3).toNat) ∧
    (s.task s.cur = some ctl ∧ s.inst 0 1 = some inst1 ∧ s.free [5, 4, 2] ∧ s.clean [4, 2] ∧ 8 ≤ (s.sr s.cur 4).toNat) ∧
    (acquires 1 = true ∧ acquires 2 = false) ∧
    (o.task o.cur = some ctl ∧ o.inst 0 1 = some inst1 ∧ o.free [5, 1, 2] ∧ o.clean [1, 2] ∧ releases 2 = true ∧ acquires 1 = true ∧
      ∃ x ∈ (o.c o.cur).ops, x.returns = true) := by
  unfold State.free State.clean; and_intros <;> decide +kernel

/-! ## Traps and the system group -/

def s0 : State := { st [(1, 0x8000000000000000), (2, BitVec.allOnes 64), (3, 5)] with dtime := 12345, ck := 100 }
/-- Partition 0's trap queue has 8 entries and stands so. -/
def tq (h t : BitVec 16) (s : State) : State :=
  s.modPart 0 fun x => { x with trapq := BitVec.ofNat 64 (3 * 2 ^ 48 + 0x100000), head := h, tail := t }
def taskC (f : TaskCtl → TaskCtl) (s : State) : State := s.modLogic 0 fun g => { g with task := g.task.map f }
def sup (s : State) : State := taskC (fun k => { k with super := true }) s
def evp (f : EvArgs → EvArgs) (s : State) : State := { s with ev := f EvArgs.none }

theorem met_TrapEntryResults : let a := tq 5 10 s0
    let b := tq 5 11 s0
    (a.free [3, 1, 2] ∧ (a.c a.cur).ops = [] ∧ a.trapTurn a.cur .c 0 = true ∧ 2 < (a.part 0).trapFree ∧ (a.part 0).tqflag.getLsbD 63 = false ∧
      a.hwPieces 0 ((a.part 0).trapEntry (a.part 0).tail) 64 = some [(0x300080, 64)]) ∧
    (b.free [3, 1, 2] ∧ (b.c b.cur).ops = [] ∧ b.trapTurn b.cur .c 0 = true ∧ (b.part 0).trapFree ≤ 2) ∧
    (s0.task s0.cur = some ctl ∧ s0.inst 0 1 = some inst1 ∧ s0.curSq = .c) ∧
    (b.task b.cur = some ctl ∧ b.inst 0 1 = some inst1 ∧ b.curSq = .c ∧ 0 < (b.part 0).trapFree) ∧
    a.noMigration ∧ b.noMigration := by
  unfold State.free State.noMigration; and_intros <;> decide +kernel

def handler : State := (sup (st [(1, 9 * 2 ^ 24 + 1 * 2 ^ 8), (2, 0), (3, 44)])).modC 1 fun c => { c with pc := 0x2004, stop := some stopped }
/-- Tile 1 is freezing, its C stopped by an SVC (R321). -/
def frozenSvc : State := handler.modTile 1 fun x => { x with freezing := some { slot := some 0, at_ := 0, by_ := none } }

theorem met_TrapretResults : let s := handler
    let h := Handle.of (s.sr s.cur 1)
    let n := sup s0
    s0.atS s0.cur = false ∧
    (s.atS s.cur = true ∧ s.free [1, 2, 3] ∧ s.clean [1, 2] ∧ (s.part (s.partOf s.cur)).has (Fin.ofNat 64 h.tile) = true ∧ (s.sr s.cur 2).toNat = 0 ∧
      (s.part (s.partOf s.cur)).has 1 = true ∧ (1 : Tile) ≠ s.cur ∧ (s.c 1).stop = some stopped ∧ stopped.kind = .svc ∧ stopped.latched = false ∧
      stopped.replay = true ∧ stopped.move = false ∧ (s.logic 1).resolved .c stopped = false ∧ h.tile = stopped.tile.val ∧ h.unit = 0 ∧ h.tid = stopped.tid.toNat ∧
      (∀ g ∈ s.logicsOf (s.partOf s.cur), g.1.trapOf h = none ∨ g.2 = false ∧ g.1.trapOf h = some (.c, stopped)) ∧ (s.c s.cur).stop = none) ∧
    (n.atS n.cur = true ∧ n.free [0, 0, 3] ∧ n.clean [0, 0] ∧ (n.part (n.partOf n.cur)).has (Fin.ofNat 64 (Handle.of (n.sr n.cur 0)).tile) = true ∧
      (n.sr n.cur 0).toNat = 0 ∧ ∀ g ∈ n.logicsOf (n.partOf n.cur), g.1.trapOf (Handle.of (n.sr n.cur 0)) = none) ∧
    (let f := frozenSvc
     f.atS f.cur = true ∧ f.logicsOf (f.partOf f.cur) = [(f.logic f.cur, false), (f.logic 1, true)] ∧
      (f.part (f.partOf f.cur)).tileList = [f.cur, 1] ∧ (f.tile f.cur).freezing = none ∧ (f.tile 1).freezing.isSome ∧
      (f.logic f.cur).trapOf (Handle.of (f.sr f.cur 1)) = none ∧ (f.logic 1).trapOf (Handle.of (f.sr f.cur 1)) = some (.c, stopped)) := by
  unfold State.free State.clean; and_intros <;> decide +kernel

/-- A register's number in its two fields. -/
def yNum (n : Nat) : Nat := (BitVec.ofNat 5 (n / 32)).toNat * 32 + (BitVec.ofNat 5 n).toNat

theorem met_SpecialRegisterResults : let u := sup s0
    let w : State := { s0.modC 0 (fun c => { c with wait := .tlbInv 0x4000000000010000 }) with dieTb := [⟨0, true, 0x10000, 0x10000, 0, 0⟩] }
    s0.free [3] ∧ s0.clean [3] ∧ s0.atS s0.cur = false ∧ u.free [3] ∧ u.clean [3] ∧ u.atS u.cur = true ∧
    (∀ n ∈ List.range 0x28, yNum n = n) ∧ yNum 1023 = 1023 ∧ (s0.tile s0.cur).slim < 4096 ∧ (s0.part (s0.partOf s0.cur)).lost < 65536 ∧
    (w.c w.cur).wait = .tlbInv 0x4000000000010000 ∧ (w.tile w.cur).runs = true := by
  unfold State.free State.clean; and_intros <;> decide +kernel

def idles (w : CWait) : State := { s0.modC 0 fun c => { c with wait := w } with ck := 100 }
def trapRecs (h t : BitVec 16) : State :=
  tq h t (sup (st [(1, 65536 * 10 - 64)]))
theorem trapRecs_access : (trapRecs 1 3).access 0 localSpace .w ((trapRecs 1 3).sr 0 1) 64 64 = (.ok (.slice 0 655296), trapRecs 1 3) ∧
    (trapRecs 1 1).access 0 localSpace .w ((trapRecs 1 1).sr 0 1) 64 64 = (.ok (.slice 0 655296), trapRecs 1 1) := ⟨rfl, rfl⟩
def fatalRec : Latched := { rec_ := List.replicate 64 7, fatal := true, unit := .c }
def rescans : State := ((tq 0 7 s0).modPart 0 fun x => { x with rescan := true, tiles := 2 }).modTile 1 fun x => { x with latch := [fatalRec] }

theorem met_IdleAndTrapQueueResults : let i := idles (.idle 3 100 0 0 none)
    let j := idles (.idle 3 0 0 2 (some 90))
    let k := idles (.idle 3 0 0 0 none)
    let t := trapRecs 1 3
    let e := trapRecs 1 1
    (s0.free [3, 2] ∧ s0.clean [3]) ∧
    ((i.tile i.cur).runs = true ∧ i.headAhead i.cur = false ∧ (i.c i.cur).wait = .idle 3 100 0 0 none ∧ 0 + 100 ≤ i.ck) ∧
    ((j.tile j.cur).runs = true ∧ j.headAhead j.cur = false ∧ (j.c j.cur).wait = .idle 3 0 0 2 (some 90) ∧ (2 : BitVec 5) ≠ 0) ∧
    ((k.tile k.cur).runs = true ∧ k.headAhead k.cur = false ∧ (k.c k.cur).wait = .idle 3 0 0 0 none) ∧
    s0.atS s0.cur = false ∧
    (t.atS t.cur = true ∧ t.free [1, 2] ∧ t.clean [1] ∧ (t.c t.cur).ops = [] ∧ (t.part 0).head ≠ (t.part 0).tail ∧
      (t.hwRead 0 ((t.part 0).trapEntry (t.part 0).head) 64).isSome ∧ (t.tile t.cur).poison = []) ∧
    (e.atS e.cur = true ∧ e.free [1, 2] ∧ e.clean [1] ∧ (e.c e.cur).ops = [] ∧ (e.part 0).head = (e.part 0).tail) ∧
    (rescans.ev.p = 0 ∧ (rescans.part 0).rescan = true ∧ (rescans.part 0).tileList = [1] ∧ (rescans.tile 1).latch = [fatalRec] ∧
      fatalRec.fatal = true ∧ 0 < (rescans.part 0).trapFree) ∧ (s0.part s0.ev.p).rescan = false := by
  unfold State.free State.clean; and_intros <;> decide +kernel
theorem met_IdleAndTrapQueueResults_mem : (trapRecs 1 3).memOk ∧ (trapRecs 1 3).noMigration := by
  unfold State.memOk State.noMigration; decide +kernel

def atS (v : Word) : State := sup (st [(1, v)])
def mayfr (s : State) : State := s.modLogic 1 fun g => { g with task := g.task.map fun k => { k with rc := { k.rc with attr := 4 } } }
def evBlk (tiles dl : Nat) : List Byte := leBytes 8 tiles ++ leBytes 8 dl ++ List.replicate 48 0
/-- The slice of tile 0 holds `b` at 80H, and s1 points there. -/
def putBlk (b : List Byte) (s : State := st [(1, 0x80)]) : State := s.modTile 0 fun x => { x with slice := Mem.write x.slice 0x80 b }
def evSt : State := putBlk (evBlk 2 60000) (atS 0x80)
def evLate : State := putBlk (evBlk 2 59999) (atS 0x80)

theorem met_FreezeAndEvpostResults : let s := mayfr (atS 1)
    let n := (atS 1).modLogic 1 (fun g => { g with task := none })
    (s.atS s.cur = true ∧ s.free [1, 2] ∧ s.clean [1] ∧ (s.sr s.cur 1).toNat < 64 ∧ (s.part (s.partOf s.cur)).has 1 = true ∧ (1 : Tile) ≠ s.cur ∧
      (s.task 1).map (·.rc.mayfr) = some true ∧ (s.tile 1).freeSlot = some 0 ∧ (s.tile 1).runs = true) ∧
    (n.atS n.cur = true ∧ n.free [1, 2] ∧ n.clean [1] ∧ (n.sr n.cur 1).toNat < 64 ∧ (n.part (n.partOf n.cur)).has 1 = true ∧ n.task 1 = none) ∧
    ((atS 64).atS 0 = true ∧ (atS 64).free [1, 2] ∧ (atS 64).clean [1] ∧ ((atS 64).sr 0 1).toNat % 64 = (atS 64).cur.val) ∧
    ((evSt.modC 0 (fun c => { c with ops := [sto 5] })).c 0).ops ≠ [] ∧
    (evSt.atS 0 = true ∧ evSt.free [1, 2] ∧ evSt.clean [1] ∧ (evSt.c evSt.cur).ops = [] ∧ evSt.evictOk 0 (evBlk 2 60000) false = true ∧
      evSt.dtime + 60000 ≤ leNat (((evBlk 2 60000).drop 8).take 8)) ∧
    (evLate.atS 0 = true ∧ evLate.free [1, 2] ∧ evLate.clean [1] ∧ (evLate.c evLate.cur).ops = [] ∧ evLate.evictOk 0 (evBlk 2 59999) false = true ∧
      leNat (((evBlk 2 59999).drop 8).take 8) < evLate.dtime + 60000) := by
  unfold State.free State.clean; and_intros <;> decide +kernel
theorem met_FreezeAndEvpostResults_block : evSt.blockAt (evSt.sr evSt.cur 1) 64 (evBlk 2 60000) ∧ evLate.blockAt (evLate.sr evLate.cur 1) 64 (evBlk 2 59999) :=
  ⟨⟨0x80, rfl, by decide +kernel, by decide +kernel⟩, ⟨0x80, rfl, by decide +kernel, by decide +kernel⟩⟩

/-! ## Tasks, graphs and streams -/

def tRec (idx deps : Nat) (st : TillerSt) (cls : Nat := 2) : TillerRec :=
  { inst := 1, idx := idx, rc := { rc0 with attr := 4 }, deps := deps, st := st, age := 50, cls := cls, u := 3 }
def tillerSt (l : List TillerRec) (s : State := s0) : State := s.modTile 0 fun x => { x with tiller := l }
def succs (l : List Nat) (s : State) : State := taskC (fun k => { k with rc := { k.rc with succ := l, attr := 4 } }) s
def liveSt (l : List Nat) (s : State) : State := s.modInst 0 1 fun i => { i with live := l }

theorem met_TaskResults_end : let s := succs [1, 3] (tillerSt [tRec 0 0 .running, tRec 1 1 .waiting, tRec 2 1 .waiting])
    let l := liveSt [0] s
    let finished (s : State) : Bool := (s.logic s.cur).idle .l && (s.logic s.cur).idle .m && (s.logic s.cur).idle .s &&
      (s.logic s.cur).copy.q == [] && (s.logic s.cur).rachis.pass == none && (s.logic s.cur).c.ops == []
    ((s.task s.cur).isSome ∧ s.inst 0 1 = some inst1 ∧ finished s = true ∧ tRec 1 1 .waiting ∈ (s.tile s.cur).tiller ∧
      tRec 2 1 .waiting ∈ (s.tile s.cur).tiller ∧ inst1.live.filter (fun n => n != 0) ≠ []) ∧
    ((l.task l.cur).isSome ∧ l.inst 0 1 = some { inst1 with live := [0] } ∧ finished l = true ∧ [0].filter (fun n => n != 0) = [] ∧ inst1.graph.isSome) ∧
    (busy3.task busy3.cur = some ctl ∧ busy3.inst 0 1 = some inst1 ∧ finished busy3 = false) := by
  and_intros <;> decide +kernel

def block64 (l : List (Nat × Nat)) (l2 : List (Nat × List Byte)) : List Byte := Mem.read (l2.foldl (fun m e => Mem.write m e.1 e.2) (nums [] l)) 0 64
def postBlk : List Byte := block64 [(0, 0x4000000000001000), (8, 5)] [(40, [9, 0, 0, 0]), (46, [1]), (47, [3]), (48, List.replicate 8 0xFF)]
def launchBlk : List Byte := block64 [(0, 0x4000000000002000), (8, 5), (16, 777), (24, 2)] []
def manyInsts (n : Nat) (s : State) : State :=
  s.modPart 0 fun x => { x with insts := x.insts ++ (List.range n).map fun k => { inst1 with no := k + 2, st := .queued }, instNo := n + 1 }
def postSt : State := putBlk postBlk
def launchSt : State := putBlk launchBlk
def launchFull : State := manyInsts 256 launchSt

theorem met_TaskResults : let y := succs [] (tillerSt [tRec 0 0 .running, tRec 1 0 .ready 0])
    let r := TaskRec.ofBytes postBlk
    (busy3.task busy3.cur = some ctl ∧ busy3.inst 0 1 = some inst1 ∧ busy3.free [1, 2] ∧ busy3.clean [1] ∧ (busy3.c busy3.cur).ops ≠ []) ∧
    (postSt.task 0 = some ctl ∧ postSt.inst 0 1 = some inst1 ∧ (postSt.c postSt.cur).ops = [] ∧ postSt.free [1, 2] ∧ postSt.clean [1] ∧ r.deps = 0 ∧ r.succ = [] ∧
      postSt.recOk 0 inst1.fcols inst1.frows postBlk = true ∧ (postSt.tile (inst1.tileOf r.tile)).tiller.length < 64 ∧ inst1.posted.length < 256) ∧
    ((y.task y.cur).map (·.rc.mayfr) = some true ∧ y.inst 0 1 = some inst1 ∧ y.free [1, 2] ∧ y.clean [1] ∧ (y.tile y.cur).freeSlot = some 0 ∧
      y.headAhead y.cur = true) ∧ ((s0.tile s0.cur).freeSlot = some 0 ∧ s0.headAhead s0.cur = false) ∧
    (launchSt.task 0 = some ctl ∧ (launchSt.c launchSt.cur).ops = [] ∧ launchSt.inst 0 1 = some inst1 ∧ launchSt.free [1, 2] ∧ launchSt.clean [1] ∧ launchSt.launchFail launchBlk = none ∧
      (launchSt.part 0).queueLen < 256) ∧
    (launchFull.task 0 = some ctl ∧ (launchFull.c launchFull.cur).ops = [] ∧ launchFull.inst 0 1 = some inst1 ∧ launchFull.free [1, 2] ∧ launchFull.clean [1] ∧
      launchFull.launchFail launchBlk = none ∧ 256 ≤ (launchFull.part 0).queueLen) ∧
    (s0.task s0.cur = some ctl ∧ s0.inst 0 1 = some inst1 ∧ s0.free [1, 2] ∧ s0.clean [1]) := by
  unfold State.free State.clean; and_intros <;> decide +kernel
theorem met_TaskResults_block : postSt.blockAt (postSt.sr postSt.cur 1) 64 postBlk ∧ launchSt.blockAt (launchSt.sr launchSt.cur 1) 64 launchBlk ∧
    launchFull.blockAt (launchFull.sr launchFull.cur 1) 64 launchBlk :=
  ⟨⟨0x80, rfl, by decide +kernel, by decide +kernel⟩, ⟨0x80, rfl, by decide +kernel, by decide +kernel⟩,
    ⟨0x80, rfl, by decide +kernel, by decide +kernel⟩⟩

def st0 : Stream :=
  { period := 1000, deadoff := 100, ring := 0x4000000000100000, nslot := 4, slotsz := 512, nrung := 3, cls := 1, nanch := 0, anch := 0
    wdns := 0, iparam := 3, rungs := [(0x4000000000002000, 10), (0x4000000000003000, 8), (0x4000000000004000, 5)], rung := 1, rise := 2
    overrun := 7, pend := none, ended := [], skipped := false, prod := 9, commit := 6, vf := none, destroying := none }
def streams (x : Stream) (s : State) : State := s.modPart 0 fun y => { y with streams := [(5, x)] }
/-- The ring's count of frames consumed is `n`. -/
def ring (n : Nat) (s : State) : State := { s with bulk := nums s.bulk [(0x300010, n)] }

theorem met_StreamInstructionResults : let s := streams st0 (st [(1, 5), (2, 6), (3, BitVec.ofNat 64 (2 ^ 63 + 2)), (4, BitVec.ofNat 64 (2 ^ 63 + 3)), (5, 9)])
    s.noMigration ∧ (s.free [1, 2, 3] ∧ s.clean [1, 2] ∧ (s.sr s.cur 1).toNat < 1024 ∧ (s.part (s.partOf s.cur)).stream (s.sr s.cur 1).toNat = some st0) ∧
    (s.free [1, 0, 3] ∧ s.clean [1, 0] ∧ s.sr s.cur 0 = 0) ∧
    (s.free [1, 3, 3] ∧ s.clean [1, 3] ∧ 2 < st0.nrung ∧ (s.sr s.cur 3).toNat = 2 ^ 63 + 2) ∧
    (s.free [1, 4, 3] ∧ s.clean [1, 4] ∧ st0.nrung ≤ 3 ∧ (s.sr s.cur 4).toNat = 2 ^ 63 + 3) ∧
    (BitVec.ofNat 64 st0.prod - BitVec.ofNat 64 ((ring 6 s).hwNum 0 (st0.ringVa + 16) 8)).toNat < st0.nslot ∧
    st0.nslot ≤ (BitVec.ofNat 64 st0.prod - BitVec.ofNat 64 ((ring 5 s).hwNum 0 (st0.ringVa + 16) 8)).toNat ∧
    ((s.c s.cur).ops = [] ∧ (s.sr s.cur 2).toNat = st0.commit ∧ st0.commit < st0.prod) ∧
    (s.free [1, 5, 3] ∧ s.clean [1, 5] ∧ (s.sr s.cur 5).toNat ≠ st0.commit) := by
  unfold State.free State.clean State.noMigration; and_intros <;> decide +kernel

def exch : List ExchEntry := [{ soff := 0x100, doff := 0x1000, stile := 0, dest := 1, mc := false, flits := 1, t0 := 3 }]
def gr1 : Graph := { gr0 with phases := [{ tasks := [rc0, { rc0 with tile := 1, deps := 1 }], xlen := 10, exch := exch }, { tasks := [rc0], xlen := 0, exch := [] }] }
def qInst : Inst := { inst1 with graph := some gr1, st := .queued }
/-- The instance is the partition's one instance, and no tile has a task. -/
def placing (i : Inst) (tiles : Word := 3) : State :=
  { ((State.reset.modTile 0 fun x => { x with slim := 10 }).modTile 1 fun x => { x with slim := 10 }).setPart 0
    { part0 with tiles := tiles, insts := [i] } with ev := { EvArgs.none with p := 0, k := 1 }, ck := 200 }
/-- A flit that leaves at step clock 3 and lands at 4. -/
def flit (d : Option (List (List Byte × Bool))) : Flit := { leave := 3, land := 4, src := 0, soff := 0x100, dsts := [1], doff := 0x1000, data := d }
def flitData : List (List Byte × Bool) := List.replicate 8 (List.replicate 64 7, false)
def exchanging (fired : Nat) (flits : List Flit) (ends ph : Nat) : Inst := { qInst with st := .exchange fired flits ends, phase := ph }

theorem met_GraphPhaseResults : let p := placing qInst
    let o := (placing qInst).modTile 1 (fun x => { x with pwr := .off })
    let e := placing (exchanging 181 [flit none] 10 0)
    let m := placing (exchanging 180 [flit (some flitData)] 10 0)
    (p.pf.dchange = false ∧ p.pf.d3hot = false ∧ (p.part 0).switch = none ∧ (p.part 0).insts = [qInst] ∧ qInst.st = .queued ∧ qInst.world = none ∧ qInst.graph = some gr1 ∧
      originFor gr1 (p.tileFree 0 qInst) = some (0, 0)) ∧
    originFor gr1 (fun u => ((placing qInst 1).part 0).has u) = none ∧
    (originFor gr1 (fun u => (o.part 0).has u) ≠ none ∧ originFor gr1 (o.tileFree 0 qInst) = none) ∧
    (e.inst 0 1 = some (exchanging 181 [flit none] 10 0) ∧ e.ck < 185 + 16 ∧ 181 + 16 ≤ e.ck ∧ (flit none).leave ≤ e.ck - (181 + 16) ∧
      e.ck - (181 + 16) < (flit none).land) ∧
    (m.inst 0 1 = some (exchanging 180 [flit (some flitData)] 10 0) ∧ 180 + 16 ≤ m.ck ∧ (flit none).land ≤ m.ck - (180 + 16) ∧
      flitData.length = 8 ∧ (∀ d ∈ flitData, d.1.length = 64)) ∧
    (qInst.graph = some gr1 ∧ 174 + 16 + 10 ≤ e.ck ∧ 0 + 1 < gr1.phases.length ∧ 1 + 1 = gr1.phases.length ∧ e.ck < 175 + 16 + 10) ∧
    (routeOuts 0 1 = [0] ∧ (List.replicate 256 (BitVec.allOnes 64)).getD 0 0 ≠ 0 ∧ ∀ x ∈ [0], (List.replicate 256 (BitVec.allOnes 64)).getD x 0 = BitVec.allOnes 64) := by
  and_intros <;> decide +kernel
theorem met_GraphPhaseResults_mem : (placing (exchanging 180 [flit (some flitData)] 10 0)).memOk ∧ (placing (exchanging 180 [] 10 0)).noMigration := by
  unfold State.memOk State.noMigration; decide +kernel

def noTask0 (s : State) : State := s.modLogic 0 fun g => { g with task := none }
def shadowed : State := (noTask0 (tillerSt [tRec 0 0 .ready])).modTile 0 fun x => { x with shadow := some (1, 0) }

theorem met_TillerResults : let f := succs [] (tillerSt [tRec 0 0 .running, tRec 1 0 .ready 0])
    (shadowed.canStart 0 = some (tRec 0 0 .ready) ∧ (tRec 0 0 .ready).st = .ready ∧ shadowed.inst (shadowed.tile 0).part 1 = some inst1) ∧
    ((f.task 0).map (fun k => (k.cls, k.rc.mayfr)) = some (2, true) ∧ (f.tile 0).freeSlot = some 0 ∧ (f.tile 0).runs = true ∧
      tRec 1 0 .ready 0 ∈ (f.tile 0).tillerIn ∧ (tRec 1 0 .ready 0).isReady = true ∧ (tRec 1 0 .ready 0).cls = 0) := by
  and_intros <;> decide +kernel

def wdog (w u : Nat) : State := taskC (fun k => { k with u := u, rc := { k.rc with wdog := w } }) s0
def lateInst (dl : Nat) : State := { streams { st0 with wdns := 12300 } (s0.modInst 0 1 fun i => { i with src := .stream 5, dl := dl }) with ev := { EvArgs.none with k := 1 } }
def fires (x : Stream) (dt : Nat) (l : List Inst := []) : State :=
  { (streams x s0).modPart 0 (fun y => { y with insts := l, ttCyc := 1000, ttEpoch := 100, tt := [⟨10, 5, 3⟩] }) with dtime := dt }

theorem met_StreamTimeResults : let a := fires { st0 with ended := [-1] } 3110
    let i : Inst := { inst1 with src := .stream 5 }
    let b := fires st0 3110 [i]
    ((wdog 1 1025).task 0).map (fun k => (k.rc.wdog, k.u)) = some (1, 1025) ∧ ((wdog 1 1024).task 0).map (fun k => (k.rc.wdog, k.u)) = some (1, 1024) ∧
    (wdog 1 1025).inst 0 1 = some inst1 ∧ ((wdog 1 1025).tile 0).runs = true ∧ (wdog 1 1025).trapTurn 0 .tile 0 = true ∧ 0 < ((wdog 1 1025).part 0).trapFree ∧
    (((lateInst 45).inst 0 1).map (fun i => (i.src, i.dl, i.placed)) = some (.stream 5, 45, true) ∧ 45 + 12300 ≤ (lateInst 45).dtime ∧
      (∀ e ∈ (lateInst 45).tasksOf 0 1, (lateInst 45).trapTurn e.1 .tile 0 = true) ∧
      (lateInst 46).dtime < 46 + 12300) ∧
    ((a.part 0).nextFiring.map (fun f => (f.1, f.2.2.stream)) = some (3110, 5) ∧ (a.part 0).stream 5 = some { st0 with ended := [-1] } ∧
      a.pf.d3hot = false ∧ (a.part 0).queueLen < 256 ∧ (fires st0 3109).dtime < 3110 ∧ 3110 ≤ a.dtime ∧ (∀ i ∈ (a.part 0).insts, i.src ≠ .stream 5) ∧
      (∃ x ∈ ([-1] : List Int), x < 0)) ∧
    ((b.part 0).nextFiring.map (fun f => (f.1, f.2.2.stream)) = some (3110, 5) ∧ (b.part 0).stream 5 = some st0 ∧ (b.part 0).queueLen < 256 ∧
      ∃ i ∈ (b.part 0).insts, i.src = .stream 5) := by
  and_intros <;> decide +kernel

/-! ## Step tables, L and S -/

theorem met_SequencerResults : let a := atq .l (fun x => { x with startq := [.run 64 5 6 [], .addr 1 2] }) s0
    let b := atq .l (fun x => { x with startq := [.addr 15 2] }) s0
    let c := atq .s (fun x => { x with startq := [.addr 0 2] }) s0
    let d := atq .m (fun x => { x with startq := [.count 7 9] }) s0
    let lim (n : Nat) : State := { s0.modC 0 (fun c => { c with wait := .retry true, stall := n }) with curSq := .c }
    let pop (n : Nat) : State := atq .m (fun x => { x with wait := .pop, stall := n, run := some run0 }) s0
    let e := atq .l (fun x => { x with run := some run0 }) s0
    let f := atq .m (fun x => { x with run := some run0 }) s0
    (a.curSq = .l ∧ (a.tile a.cur).runs = true ∧ (a.seq a.cur .l).run = none ∧ (a.seq a.cur .l).startq = .run 64 5 6 [] :: [.addr 1 2]) ∧
    (b.curSq = .l ∧ (b.seq b.cur .l).run = none ∧ (b.seq b.cur .l).startq = .addr 15 2 :: []) ∧
    (c.curSq = .s ∧ (c.seq c.cur .s).run = none ∧ (c.seq c.cur .s).startq = .addr 0 2 :: []) ∧
    (d.curSq = .m ∧ (d.seq d.cur .m).run = none ∧ (d.seq d.cur .m).startq = .count 7 9 :: []) ∧
    (∀ n ∈ [0xFFFFFF, 0x1000000], ((lim n).tile 0).runs = true ∧ ((lim n).c 0).stop = none ∧ ((lim n).tile 0).tokLim.toNat = 0x1000000 ∧
      (lim n).curSq = .c ∧ ((lim n).c 0).wait = .retry true ∧ ((lim n).c 0).stall = n ∧
      ((pop n).tile 0).runs = true ∧ ((pop n).seq 0 .m).stop = none ∧ (pop n).curSq = .m ∧ ((pop n).seq 0 .m).wait = .pop ∧
      ((pop n).seq 0 .m).stall = n ∧ (((pop n).modSeq 0 .m (fun x => { x with wait := .push })).seq 0 .m).wait = .push) ∧
    (e.curSq = .l ∧ (e.seq e.cur .l).started = none ∧ popQueue .l 1 = some 0 ∧ e.toks e.cur 0 = []) ∧
    ((f.logic f.cur).m.list = [] ∧ (f.seq f.cur .m).started = none ∧ (popQueue .m 1).map (f.toks f.cur) = some []) := by
  and_intros <;> decide +kernel

/-- The sequencer has a started micro-order in hand, and its address registers hold `as`. -/
def handSt (u : Sq) (as : List Word) (step : Nat := 0) (tok : Word := 7) : State :=
  (atq u (fun x => { x with run := some ⟨64, 4, 1, step, 0, 0, [], none⟩, started := some tok }) s0).modLogic 0 fun g =>
    g.modLs (u == .s) fun y => { y with a := as.zipIdx.foldl (fun v e => v.set! e.2 e.1) y.a }
theorem handSt_starts (u : Sq) (hu : u = .l ∨ u = .s ∨ u = .m) (as : List Word) (step : Nat) (tok : Word) (p : BitVec 3) :
    (handSt u as step tok).starts u p tok (handSt u as step tok) := by
  rcases hu with rfl | rfl | rfl <;> exact .inl ⟨rfl, rfl⟩
/-- The same with nothing started: the pop takes a token. -/
def popSt : State := { (handSt .l [5, 6, 7]).modSeq 0 .l (fun x => { x with started := none }) with curSq := .l }.setToks 0 0 [9, 8]

theorem met_AddressResults : let s := handSt .l [5, 0x123456789ABCDEF0, BitVec.allOnes 64]
    let t := handSt .s [5, 6, 7] 1
    (s.curSq = .l ∧ s.starts .l 1 7 s ∧ (s.lsX .l).inflight = [] ∧ (s.logic s.cur).inHand .l 1 0 ∧ (s.logic s.cur).inHand .l 2 0) ∧
    (t.curSq = .s ∧ t.starts .s 1 7 t ∧ (t.lsX .s).inflight = [] ∧ (t.logic t.cur).inHand .s 2 0) ∧
    (popSt.curSq = .l ∧ ∃ s', popSt.starts .l 1 9 s' ∧ (s'.lsX .l).inflight = [] ∧ (s'.logic popSt.cur).inHand .l 1 0) ∧
    (6 ≤ (27 : Reg).toNat ∧ (27 : Reg).toNat ≤ 27 ∧ (5 : Reg).toNat < 6 ∧ 27 < (28 : Reg).toNat) := by
  refine ⟨⟨rfl, handSt_starts _ (by decide) _ _ _ _, by decide +kernel, ?_, ?_⟩, ⟨rfl, handSt_starts _ (by decide) _ _ _ _, by decide +kernel, ?_⟩,
    ⟨rfl, _, .inr (.inr ⟨0, [8], by decide +kernel, by decide +kernel, by decide +kernel, rfl⟩), by decide +kernel, ?_⟩, by decide⟩
  all_goals exact ⟨⟨⟨64, 4, 1, _, 0, 0, [], none⟩, rfl, by decide, by decide, by decide⟩, by decide +kernel, by decide +kernel⟩

def accSt (u : Sq) (as : List Word) : State := handSt u as
def gatherL : State := accSt .l [0, 0x1000, 0x40]
def gatherS : State := accSt .s [0, 0x1000, 0x40]

theorem met_VectorAccessIssue : let l := accSt .l [0, 655360 - 512, 64, 655360]
    let m := accSt .s [0, 655360 - 512, BitVec.ofInt 64 (-64)]
    let strided (s : State) (u : Sq) : List (Word × Nat) := (List.range 8).map (fun j => (s.ar u 1 + BitVec.ofNat 64 j * s.ar u 2, 64))
    (l.starts .l 0 7 l ∧ (l.lsX .l).inflight = [] ∧ (l.accessAll .r [(l.ar .l 1, 512)] none none false).1 = .ok ((List.range 8).map fun j => .slice 0 (655360 - 512 + 64 * j)) ∧
      (l.accessAll .r [(l.ar .l 3, 64)] none none false).1 = .fail ⟨.bound, 0, some 655360⟩ ∧
      (l.accessAll .r (strided l .l) none none false).1 = .ok ((List.range 8).map fun j => .slice 0 (655360 - 512 + 64 * j)) ∧
      (l.ar .l 2).toNat % 64 = 0) ∧
    (m.starts .s 0 7 m ∧ (m.lsX .s).inflight = [] ∧ (m.accessAll .w [(m.ar .s 1, 512)] none none false).1 = .ok ((List.range 8).map fun j => .slice 0 (655360 - 512 + 64 * j)) ∧
      (m.accessAll .w (strided m .s) none none true).1 = .ok ((List.range 8).map fun j => .slice 0 (655360 - 512 - 64 * j))) ∧
    ((m.vec m.cur).ppoison.getLsbD 1 = false ∧ l.rachisOwns = false ∧ (l.mat l.cur).slotSt[(1 : Fin 2)] = .free ∧ (m.mat m.cur).sbuf = [] ∧
      (l.ar .l 0).toNat + 64 * (2 ^ 12 - 1 + 1) ≤ 2 ^ 21) ∧
    (gatherL.starts .l 0 7 gatherL ∧ (gatherL.lsX .l).inflight = [] ∧ gatherL.locFull (.slice 0 0x40) 32 = true ∧
      gatherL.poisonedAt (.slice 0 0x40) 32 = false ∧
      gatherL.access 0 localSpace .r (gatherL.ar .l 2) 32 32 = (.ok (.slice 0 0x40), gatherL)) ∧
    (gatherS.starts .s 0 7 gatherS ∧ (gatherS.lsX .s).inflight = [] ∧ gatherS.locFull (.slice 0 0x40) 32 = true ∧
      gatherS.poisonedAt (.slice 0 0x40) 32 = false ∧
      gatherS.access 0 localSpace .r (gatherS.ar .s 2) 32 32 = (.ok (.slice 0 0x40), gatherS)) := by
  refine ⟨⟨handSt_starts _ (by decide) _ _ _ _, ?_⟩, ⟨handSt_starts _ (by decide) _ _ _ _, ?_⟩, ?_, ⟨handSt_starts _ (by decide) _ _ _ _, ?_, ?_, ?_, rfl⟩,
    ⟨handSt_starts _ (by decide) _ _ _ _, ?_, ?_, ?_, rfl⟩⟩ <;> decide +kernel

/-- These bins of both tiles are not full. -/
def emptyBins (l : List Nat) (s : State) : State := (s.modTile 0 fun x => { x with empty := l }).modTile 1 fun x => { x with empty := l }

/-- A load of L into v1 of a block at 0x80 of the own slice, which holds 5s, named twice; 7s were read ahead of it. -/
def loadsSt (ahead : Bool) : State :=
  let b (o : Nat) : Blk := { loc := .slice 0 0x80, off := o, len := 64, got := none, done := false, poison := false }
  let s := putBlk (List.replicate 64 5) ((st []).modLs 0 false fun x => { x with
    early := [(.slice 0 0x80, 64, List.replicate 64 7, false)],
    inflight := [{ store := false, data := .v 1, blks := [b 0, b 64], push := none, tok := 0, run := none }] })
  { s with curSq := .l, ev := { s.ev with v := if ahead then 1 else 0 } }
/-- R110, R137: each block of a load lands by itself, also where two name one place; the bytes may be those that were read ahead. -/
theorem test_loads : (match execLoadResponse (loadsSt false), execLoadResponse (loadsSt true) with
    | .next t, .next t' => ((t.vec 0).v[1] % 2 ^ 512 == (5 : BitVec 4096) * ((2 ^ 512 - 1) / 255)) &&
        ((t'.vec 0).v[1] % 2 ^ 512 == (7 : BitVec 4096) * ((2 ^ 512 - 1) / 255)) && (t.ls 0 false).early.isEmpty
    | _, _ => false) = true := by decide +kernel

theorem met_BinResults : let s := emptyBins [2, 5] (accSt .l [0, 0x20000, 0x80000, 0x1000, 0x1000000010020000, 0x2000000000000000, 0x0FFFFE00, 655360 - 1024])
    let off (n : BitVec 4) : Nat := (s.ar .l n).toNat % 2 ^ 28
    (s.curSq = .l ∧ (s.lsX .l).inflight = [] ∧ (s.tile 0).slim = 10 ∧ (s.tile 0).empty = [2, 5] ∧ (s.tile 0).empty.Nodup) ∧
    ((s.ar .l 1).toNat / 2 ^ 28 = 0 ∧ off 1 % 65536 = 0 ∧ off 1 / 65536 + 2 ≤ 10 ∧ ∃ k ∈ (s.tile 0).empty, off 1 / 65536 ≤ k ∧ k < off 1 / 65536 + 2) ∧
    (∀ k ∈ (s.tile 0).empty, ¬ (0 ≤ k ∧ k < 0 + 2)) ∧
    ((s.ar .l 2).toNat / 2 ^ 28 = 0 ∧ off 2 % 65536 = 0 ∧ off 2 / 65536 + 2 ≤ 10 ∧ 10 < off 2 / 65536 + 3) ∧
    ((s.ar .l 4).toNat / 2 ^ 60 = 1 ∧ (s.ar .l 4).toNat / 2 ^ 34 % 2 ^ 26 = 0 ∧ (s.part (s.partOf s.cur)).has 1 = true) ∧
    ((s.ar .l 5).toNat / 2 ^ 28 ≠ 0 ∧ (s.ar .l 5).toNat / 2 ^ 60 ≠ 1) ∧ ((s.ar .l 3).toNat / 2 ^ 28 = 0 ∧ off 3 % 65536 ≠ 0) ∧
    (off 7 + 512 * 2 ≤ 2 ^ 28 ∧ off 7 % 512 = 0 ∧ off 7 + 512 * 2 ≤ (s.tile 0).slim * 65536) ∧
    ((s.ar .l 7 + 1).toNat / 2 ^ 28 = 0 ∧ (off 7 + 1) % 512 ≠ 0) ∧ (off 6 + 512 ≤ 2 ^ 28 ∧ ¬ (off 6 + 512 * 2 ≤ 2 ^ 28)) := by
  and_intros <;> decide +kernel
theorem met_BinResults_hand : let s := emptyBins [2, 5] (accSt .l [0, 0x20000])
    s.starts .l 0 7 s ∧ (s.logic s.cur).inHand .l 1 0 :=
  ⟨.inl ⟨rfl, rfl⟩, ⟨⟨64, 4, 1, 0, 0, 0, [], none⟩, rfl, by decide, by decide, by decide⟩, by decide +kernel, by decide +kernel⟩
/-- A load of tile 1's C waits for bin 2 of tile 0. -/
def parkedLd : COp := { ld 3 with loc := .slice 0 0x20008, parked := true }
theorem met_BinResults_full : let s := emptyBins [2, 5] (accSt .l [0, 0x20000])
    let k := s.modC 1 fun c => { c with ops := [parkedLd] }
    let quiet (s : State) (v : Tile) : Prop := (∀ o ∈ (s.c v).ops, o.parked = false) ∧ (∀ e ∈ (s.ls v false).inflight, e.parked = false)
    (∀ v, quiet s v ∧ s.frozenAt v = []) ∧
    ((1 : Tile) ≠ k.cur ∧ (k.c 1).ops = [parkedLd] ∧ parkedLd.parked = true ∧ parkedLd.kind = .load ∧ parkedLd.loc = .slice 0 0x20008 ∧
      0 < parkedLd.width ∧ 2 * 65536 ≤ 0x20008 ∧ 0x20008 + parkedLd.width ≤ (2 + 2) * 65536 ∧ (k.tile 1).freezing = none ∧ (∀ w, k.frozenAt w = []) ∧
      (∀ w, w ≠ 1 → quiet k w) ∧ (∀ e ∈ (k.ls 1 false).inflight, e.parked = false)) := by
  and_intros <;> decide +kernel
theorem met_BinResults_mem : (emptyBins [2, 5] (accSt .l [0, 0x20000])).memOk := by unfold State.memOk; decide +kernel

/-! ## The vector unit -/

/-- M has a micro-order in hand that started with the token `tok`, and the vector unit is at reset but for VCFG. -/
def vecSt (v : BitVec 8) (tok : Word := 0x40) : State :=
  (handSt .m [] 0 tok).modLogic 0 fun g => { g with vec := { VecSt.reset with vcfg := v } }
theorem vecSt_starts (v : BitVec 8) (tok : Word) : (vecSt v tok).vecStarts (vecSt v tok) 0 0 tok :=
  ⟨.inl ⟨rfl, rfl⟩, rfl, ⟨⟨64, 4, 1, 0, 0, 0, [], none⟩, rfl, by decide, by decide, by decide⟩, rfl, fun _ h => nomatch h⟩
/-- The registers that two register sources give. -/
theorem vecSt_sources : ∀ v ∈ [3, 5, 6, 7, 8, 10], let s := vecSt v
    s.sources s.cur [srcA false 1 1, srcA false 2 1] (s.vec s.cur) = .ok [0, 0] (s.vec s.cur) false ∧
    s.sources s.cur [srcA false 1 1, srcA false 2 1, srcA false 3 1] (s.vec s.cur) = .ok [0, 0, 0] (s.vec s.cur) false ∧
    s.sources s.cur [srcA false 1 1] (s.vec s.cur) = .ok [0] (s.vec s.cur) false ∧
    s.sources s.cur [srcA false 4 4] (s.vec s.cur) = .ok [0, 0, 0, 0] (s.vec s.cur) false ∧
    s.sources s.cur [srcA false 2 2, srcA false 1 1] (s.vec s.cur) = .ok [0, 0, 0] (s.vec s.cur) false := by decide +kernel

/-- Stream register 2 has 4 chunks, is at chunk 1, and chunk 1 has arrived. -/
def bound2 : QBind := ⟨0, 4, 1, [8, 9, 10, 11, 12, 13, 14, 15]⟩

theorem met_VectorIntegerResults : (vecSt 5).vecStarts (vecSt 5) 0 0 0x40 ∧ ((vecSt 5).vec 0).predOk 7 ∧ ((vecSt 5).vec 0).predOk 0 ∧
    ((vecSt 5).vec 0).ty ≤ 5 ∧ ((vecSt 10).vec 0).ty ≤ 10 ∧ srcA ((0 : BitVec 2).getLsbD 0) 1 1 = srcA false 1 1 ∧
    VecSt.reset.q[(0 : Fin 8)] = none ∧
    (let x : VecSt := { VecSt.reset with q := VecSt.reset.q.set 2 (some bound2) }
     x.q[(2 : Fin 8)] = some bound2 ∧ bound2.chunks < bound2.pos + 4 ∧ bound2.pos + 3 ≤ bound2.chunks ∧
       (∃ j, 8 * bound2.pos ≤ j ∧ j < 8 * (bound2.pos + 3) ∧ ¬ j ∈ bound2.arrived) ∧
       (∀ j, 8 * bound2.pos ≤ j → j < 8 * (bound2.pos + 1) → j ∈ bound2.arrived)) := by
  refine ⟨vecSt_starts _ _, .inl rfl, .inr (by decide +kernel), by decide +kernel, by decide +kernel, by decide, by decide, by decide, by decide, by decide,
    ⟨16, by decide⟩, fun j h1 h2 => ?_⟩
  simp only [bound2] at *
  have : j = 8 ∨ j = 9 ∨ j = 10 ∨ j = 11 ∨ j = 12 ∨ j = 13 ∨ j = 14 ∨ j = 15 := by omega
  rcases this with h | h | h | h | h | h | h | h <;> subst h <;> decide

theorem met_VectorFloatResults : ∀ v ∈ [6, 7, 8], (vecSt v).vecStarts (vecSt v) 0 0 0x40 ∧ ((vecSt v).vec 0).predOk 7 ∧ 6 ≤ ((vecSt v).vec 0).ty ∧
    ((vecSt v).vec 0).ty ≤ 8 ∧ (typeFp ((vecSt v).vec 0).ty).isSome := by
  intro v hv
  refine ⟨vecSt_starts _ _, .inl rfl, ?_⟩
  revert v; decide +kernel

theorem met_VectorMoveResults : ∀ v ∈ [0, 5, 6, 8, 10], (vecSt v).vecStarts (vecSt v) 0 0 0x40 ∧ ((vecSt v).vec 0).predOk 7 ∧
    ((vecSt v).vec 0).ty ≤ 10 ∧ (((vecSt v).vec 0).ty ≤ 5 ∨ (6 ≤ ((vecSt v).vec 0).ty ∧ ((vecSt v).vec 0).ty ≤ 8 ∧
      (typeFp ((vecSt v).vec 0).ty).isSome) ∨ v = 10) ∧ ((vecSt v).vec 0).ppoison.getLsbD 0 = false := by
  intro v hv
  refine ⟨vecSt_starts _ _, .inl rfl, ?_⟩
  revert v; decide +kernel
/-- A stream register gives its next chunk. -/
theorem met_VectorMoveResults_stream : let s := (vecSt 0).modVec 0 (fun x => { x with q := x.q.set 2 (some bound2) })
    s.vecStarts s 0 0 0x40 ∧ ∃ vs y bad, s.sources s.cur [srcA true 2 1] (s.vec s.cur) = .ok vs y bad :=
  ⟨⟨.inl ⟨rfl, rfl⟩, rfl, ⟨⟨64, 4, 1, 0, 0, 0, [], none⟩, rfl, by decide, by decide, by decide⟩, rfl, fun _ h => nomatch h⟩, _, _, _, rfl⟩

/-- The sum of the active elements before `n`, and the least value where none is active. -/
theorem met_VectorReduceResults : let x := (vecSt 5).vec 0
    let act (k : BitVec 3) (n : Nat) : List Nat := ((List.range n).filter (fun j => x.on k j)).map (lane x.w 0)
    (vecSt 5).vecStarts (vecSt 5) 0 0 0x40 ∧ x.ty ≤ 5 ∧ x.predOk 7 ∧ x.predOk 0 ∧ (2 : Reg).toNat < 3 ∧ (30 : Reg).toNat < 31 ∧
    (∃ red : Nat → Int, ∀ n, red n = ((act 7 n).map (typeInt x.ty)).sum) ∧
    (∃ red : Nat → Int, ∀ n, if act 0 n = [] then red n = typeLo x.ty else
      red n ∈ (act 0 n).map (typeInt x.ty) ∧ ∀ y ∈ (act 0 n).map (typeInt x.ty), y ≤ red n) ∧
    ((vecSt 8).vecStarts (vecSt 8) 0 0 0x40 ∧ 6 ≤ ((vecSt 8).vec 0).ty ∧ ((vecSt 8).vec 0).ty ≤ 8 ∧ (typeFp ((vecSt 8).vec 0).ty).isSome) := by
  refine ⟨vecSt_starts _ _, by decide +kernel, .inl rfl, .inr (by decide +kernel), by decide, by decide, ⟨_, fun _ => rfl⟩, ⟨fun _ => typeLo ((vecSt 5).vec 0).ty, fun n => ?_⟩,
    vecSt_starts _ _, by decide +kernel, by decide +kernel, by decide +kernel⟩
  have : (List.range n).filter (fun j => ((vecSt 5).vec 0).on 0 j) = [] := by
    rw [List.filter_eq_nil_iff]; intro j _
    show ¬ ((0 : PReg).getLsbD j = true)
    simp
  simp only [this, List.map_nil, if_true]

theorem met_VectorConvertResults : (∀ v ∈ [3, 7, 8], (vecSt v).vecStarts (vecSt v) 0 0 0x40 ∧ ((vecSt v).vec 0).predOk 7 ∧ ((vecSt v).vec 0).ty ≤ 10) ∧
    (6 ≤ ((vecSt 8).vec 0).ty ∧ ((vecSt 8).vec 0).ty ≤ 8 ∧ (typeFp ((vecSt 8).vec 0).ty).isSome) ∧
    (let n := vcvtK 6 ((vecSt 8).vec 0).ty
     n ≠ 0 ∧ convW 6 ≤ ((vecSt 8).vec 0).w ∧ (4 : Reg).toNat % n = 0) ∧ (vcvtK 8 ((vecSt 7).vec 0).ty = 2 ∧ (3 : Reg).toNat % 2 ≠ 0) ∧
    (let n := vcvtK 8 ((vecSt 7).vec 0).ty
     n ≠ 0 ∧ ((vecSt 7).vec 0).w < convW 8 ∧ (2 : Reg).toNat % n = 0 ∧ n = 2) ∧
    (((vecSt 3).vec 0).ty ≤ 3 ∧ (30 : Reg).toNat < 31) ∧ (((vecSt 7).vec 0).ty = 7 ∧ (typeFp ((vecSt 7).vec 0).ty).isSome ∧ (28 : Reg).toNat < 29) := by
  refine ⟨fun v hv => ⟨vecSt_starts _ _, .inl rfl, ?_⟩, ?_⟩
  · revert v; decide +kernel
  · decide +kernel

/-! ## The matrix engine -/

def matSt (m : MatSt) (n : List Word := []) (tok : Word := 0x40) (es : List VReg := []) : State :=
  (vecSt 8 tok).modLogic 0 fun g => { g with mat := m, vec := { g.vec with
    n := n.zipIdx.foldl (fun v e => v.set! e.2 e.1) g.vec.n, e := es.zipIdx.foldl (fun v e => v.set! e.2 e.1) g.vec.e } }
theorem matSt_starts (m : MatSt) (n : List Word) (tok : Word) (es : List VReg) : (matSt m n tok es).vecStarts (matSt m n tok es) 0 0 tok :=
  ⟨.inl ⟨rfl, rfl⟩, rfl, ⟨⟨64, 4, 1, 0, 0, 0, [], none⟩, rfl, by decide, by decide, by decide⟩, rfl, fun _ h => nomatch h⟩
def mmode (shape afmt bsrc : Nat) (keep unit : Bool) : MatSt :=
  { MatSt.reset with mmode := BitVec.ofNat 15 (shape * 2 ^ 13 + afmt * 2 ^ 10 + bsrc * 2 ^ 8 + (if keep then 128 else 0) + (if unit then 32 else 0)) }

theorem met_MatrixConfigResults : let s := matSt MatSt.reset [] 0x1FFFC0
    s.vecStarts s 0 0 0x1FFFC0 ∧ s.rachisOwns = false ∧ ((0x1FFFC0 : Word).toNat < 2 ^ 21 ∧ (0x1FFFC0 : Word).toNat % 64 = 0) ∧
    (2 ^ 21 ≤ (0x200000 : Word).toNat ∧ (0x41 : Word).toNat % 64 ≠ 0) ∧
    s.sources s.cur [srcA false 1 1] (s.vec s.cur) = .ok [0] (s.vec s.cur) false ∧
    (s.vec s.cur).ppoison.getLsbD 0 = false ∧ (s.vec s.cur).poison.getLsbD 31 = false ∧
    ((0x03FF0010 : Word).toNat / 1024 % 64 = 0 ∧ (0x03FF0010 : Word).toNat / 2 ^ 26 = 0) := by
  refine ⟨matSt_starts _ _ _ _, ?_⟩; decide +kernel

theorem met_MatrixAcceptResults : let s := matSt (mmode 0 5 0 true true) [0x00800080, 0x00810080]
    let x := s.mat s.cur
    let y := s.vec s.cur
    let rows (i : Fin 8) : Nat := y.n[i].toNat / 65536 % 1024
    let cols (i : Fin 8) : Nat := y.n[i].toNat % 1024
    let segs (groups : Nat) : Nat := (groups + segGroups x.shape x.afmt - 1) / segGroups x.shape x.afmt
    s.vecStarts s 0 0 0x40 ∧ s.rachisOwns = false ∧
    (x.shape = 0 ∧ rows 0 ≤ shapeRows x.shape ∧ cols 0 ≤ shapeCols x.shape ∧ (x.afmt, x.bsrc) = (5, 0) ∧ segs 2 ≤ 2 ∧ 2 % 2 = 0) ∧
    (shapeRows x.shape < rows 1) ∧ (x.shape ≤ 1 ∧ x.afmt = 5 ∧ x.bsrc = 0 ∧ rows 0 ≤ 128 ∧ x.mkoff.toNat % 128 + (cols 0 + 63) / 64 ≤ 128) ∧
    (rows 0 ≤ 128 ∧ cols 0 ≤ 128 ∧ 128 < rows 1) ∧
    (y.epoison.getLsbD 0 = false ∧ 0 < rows 0 ∧ (16 : Reg) = 16 ∧ (1 : Reg).toNat < 2) := by
  refine ⟨matSt_starts _ _ _ _, ?_⟩; decide +kernel
/-- An epilogue block that one of the checks of R202 passes and one that none does; a poisoned block. -/
theorem met_MatrixAcceptResults_drain : let s := matSt MatSt.reset [0x00080008] 0x40 [5, 7, 0x70]
    let y := s.vec s.cur
    let e (i : Fin 4) : EpBlock := epOf y.e[i]
    s.epOk (e 0) 8 = true ∧ drainChunks false (e 0).outfmt 8 ≤ 32 ∧ s.epOk (e 1) 8 = false ∧ (s.epOk (e 2) 8 = true ∧ (e 2).outfmt = 7) ∧
    ({ y with epoison := 4 } : VecSt).epoison.getLsbD 2 = true := by
  and_intros <;> decide +kernel

def matOp : MatOp :=
  { shape := 0, afmt := 2, bsrc := 1, akeep := false, munit := false, koff := 0, kuse := false, mask := 0, kreg := 0, vr := 3, vc := 4
    groups := 2, wptr := 0, z := 1, g := 0, soff := 0, part := [], taken := true, firstSlot := 0 }
def mEntry (a : MAct) : MEntry := { act := a, done := false, push := some 3, tok := 9, run := none }
def drainOf (dest : Nat) (raw : Bool) (sent total : Nat) : Drain :=
  { dest, z := 1, e := 0, raw, vr := 3, vc := 5, vbase := 30, block := some 7, sent, takenS := 0, flags := 0, scales := none, total }
/-- One entry stands in the engine's list. -/
def engineSt (a : MAct) (f : MatSt → MatSt := id) : State :=
  (atq .m id s0).modLogic 0 fun g => { g with m := { g.m with list := [mEntry a] }, mat := f { MatSt.reset with slotSt := MatSt.reset.slotSt.set 0 .ready } }
def lsList (n : Nat) : State :=
  (atq .l id (toks n s0)).modLogic 0 fun g => g.modLs false fun y =>
    { y with inflight := [{ store := false, data := .none, blks := [], push := some 0, tok := 55, run := none }] }

theorem met_MatrixEngineResults : let s := engineSt (.mma matOp)
    let c := matOp.cols (s.mat s.cur).wbuf
    let d := engineSt (.drain (drainOf 0 true 2 3))
    let e := engineSt (.drain (drainOf 9 true 0 3))
    ((s.tile s.cur).runs = true ∧ (s.logic s.cur).m.list = [mEntry (.mma matOp)] ∧ s.ev.k = 0 ∧ (∀ i : Fin 4, Memory.wf (s.mat s.cur).z[i] = true) ∧
      c.bad = none ∧ matOp.late = [] ∧ matOp.taken = true ∧ matOp.kuse = false ∧ (s.mat s.cur).groupBad matOp c.next = false ∧
      (s.mat s.cur).accBad matOp = false ∧ matOp.shape < 4) ∧
    ((engineSt (.slots 1)).logic 0).m.list = [mEntry (.slots 1)] ∧ ((engineSt (.mzero 3 128 128)).logic 0).m.list = [mEntry (.mzero 3 128 128)] ∧
    ((d.logic d.cur).m.list = [mEntry (.drain (drainOf 0 true 2 3))] ∧ (drainOf 0 true 2 3).sent < (drainOf 0 true 2 3).total ∧
      d.epPoison d.cur (drainOf 0 true 2 3) (epOf ((drainOf 0 true 2 3).block.getD 0)) = false ∧ (d.mat d.cur).sbuf.length < 64 ∧
      (d.logic d.cur).s.inflight = []) ∧
    ((e.logic e.cur).m.list = [mEntry (.drain (drainOf 9 true 0 3))] ∧ (drainOf 9 true 0 3).dest = (7 : Fin 8).val + 2 ∧
      ((e.tile e.cur).egress[(7 : Fin 8)]).length < 64 ∧ (e.encs[(7 : Fin 8)]).frames = []) ∧
    (∀ n ∈ [254, 255], (lsList n).curSq = .l ∧ ((lsList n).tile 0).runs = true ∧ ((lsList n).seq 0 .l).stop = none ∧
      (((lsList n).ls 0 false).inflight).map (fun f => (f.blks, f.push)) = [([], some 0)] ∧ ((lsList n).toks 0 0).length = n) := by
  and_intros <;> decide +kernel

/-! ## The copy engine and the KV unit -/

def cmd0 : Cmd :=
  { seq := 5, id := 3, gen := 0, cls := 2, func := 0, ord := 0, scope := 0, sync := 0, src := 0, dst := 0, block := [], st := .waiting, elem := 0
    seg := 0, stop := none, discarded := false, lifted := false, acquired := false, fills := [], base := 0, noPlane := none }
def copySt (w p r : Word) (f : CopySt → CopySt := id) : State :=
  (st [(1, w), (2, p), (3, r)]).modCopy 0 fun x => f { x with counter := 7, gen := 3 }
def fullQ (x : CopySt) : CopySt := { x with q := (List.range 32).map fun i => { cmd0 with seq := i } }
def layered (s : State) : State := s.modPart 0 fun x => { x with layers := [{ base := 0, layers := 4, wrap := false, hot := [] }] }
def gathBlk : List Byte := block64 [(0, 128), (8, 0x10000), (16, 0x20000), (24, 0x400)] [(32, [3, 0, 0, 0])]
def gathBad : List Byte := block64 [(0, 129), (8, 0x10000), (16, 0x20000), (24, 0x400)] [(32, [3, 0, 0, 0])]
def collBlk : List Byte := block64 [(0, 8 * 64 + 1), (8, 0x10000), (16, 0x20000)] [(24, [4, 0, 0, 0]), (28, [7, 0])]
def egBlk : List Byte := block64 [(0, 0x10), (16, 0x4000000000001000), (40, 3), (56, 0x4000000000020000)]
  [(8, leBytes 2 64), (10, leBytes 2 32), (12, leBytes 4 255), (24, leBytes 4 4096), (30, leBytes 2 30)]
def gathSt : State := putBlk gathBlk (copySt 0 0x80 0)
def gathBadSt : State := putBlk gathBad (copySt 0 0x80 0)
def collSt : State := (putBlk collBlk (copySt 0 0x80 0)).modPart 0 fun x => { x with collGroups := [(7, [{ dev := 0, tile := 1 }, { dev := 0, tile := 0 }])] }
def egSt : State := putBlk egBlk (copySt 0 0x80 0)
/-- The synchronisation word asks for nothing that its order or its target does not allow. -/
def syncs (w : Word) (o : BitVec 2) (fill : Bool) : Bool :=
  w.toNat / 2 ^ 24 % 4 != 3 && (!w.getLsbD 44 || acquires o) && (!w.getLsbD 63 || releases o) && (!w.getLsbD 23 || fill)
def xferReqs (w p r : Word) : List PtrReq :=
  [⟨p, w.toNat % 2 ^ 23, vectorSpaces, 1, false⟩, ⟨r, w.toNat % 2 ^ 23, fun c => vectorSpaces c || c = 2, 1, true⟩]
def grainReqs (w p : Word) : List PtrReq := [⟨p, 65536 * (w.toNat % 2 ^ 23), fun c => c = 4, 65536, false⟩]
/-- The block's fields. -/
def num (b : List Byte) (o n : Nat) : Nat := leNat ((b.drop o).take n)
def wd (b : List Byte) (o : Nat) : Word := BitVec.ofNat 64 (num b o 8)

theorem met_CopyInstructionResults : let s := copySt 64 0x100 0x20000
    let f := copySt 64 0x100 0x20000 fullQ
    let g := copySt 1 0x4000000000010000 0
    let l := layered (copySt 3 0 0)
    (s.free [1, 2, 3] ∧ s.clean [1, 2, 3] ∧ (s.c s.cur).ops = [] ∧ (s.logic s.cur).copyUsed < 32 ∧
      syncs (s.sr s.cur 1) 0 true = true ∧ s.reqFail s.cur (s.sr s.cur 1) (xferReqs (s.sr s.cur 1) (s.sr s.cur 2) (s.sr s.cur 3)) false = none) ∧
    (f.free [1, 2, 3] ∧ f.clean [1, 2, 3] ∧ (f.c f.cur).ops = [] ∧ 32 ≤ (f.logic f.cur).copyUsed ∧
      f.reqFail f.cur (f.sr f.cur 1) (xferReqs (f.sr f.cur 1) (f.sr f.cur 2) (f.sr f.cur 3)) false = none) ∧
    ((s.reqFail s.cur 64 (xferReqs 64 0x100 0xFFFFFFF) false).isSome ∧ syncs 0x3000001 3 true = false) ∧
    (g.free [1, 2, 3] ∧ g.clean [1, 2, 3] ∧ (g.sr g.cur 1).toNat % 2 ^ 23 ≠ 0 ∧ syncs (g.sr g.cur 1) 0 false = true ∧
      g.reqFail g.cur 1 (grainReqs 1 0x4000000000010000) false = none ∧ (g.reqFail g.cur 1 (grainReqs 1 0x4000000000010001) false).isSome) ∧
    (l.free [1, 2, 3] ∧ l.clean [1, 2, 3] ∧ (l.sr l.cur 1).toNat / 2 ^ 16 % 2 ^ 7 = 0 ∧ ((l.part 0).layers[0]?).map (·.layers) = some 4 ∧
      (l.sr l.cur 1).toNat % 2 ^ 12 < 4 ∧ l.reqFail l.cur 3 [] false = none) ∧
    (s.free [2, 3] ∧ s.clean [2] ∧ (s.sr s.cur 2).toNat < 65536 ∧ 65536 ≤ (s.sr s.cur 3).toNat ∧ (7 : Word).toNat ≤ (s.copy s.cur).counter ∧
      (0 : Word).toNat ≤ (s.copy s.cur).done ∧ ¬ ((7 : Word).toNat ≤ (s.copy s.cur).done ∨ (7 : Word).toNat ∈ (s.copy s.cur).retired) ∧
      (s.copy s.cur).counter < (8 : Word).toNat) := by
  unfold State.free State.clean; and_intros <;> decide +kernel
theorem met_CopyInstructionResults_gather : let all := num gathBlk 32 4 * (num gathBlk 0 8 % 2 ^ 23)
    let e := num gathBlk 0 8 % 2 ^ 23
    gathSt.free [1, 2, 0] ∧ gathSt.clean [2] ∧ gathSt.blockAt (gathSt.sr gathSt.cur 2) 64 gathBlk ∧ gathBlk.length = 64 ∧
    (e % 64 = 0 ∧ e ≠ 0 ∧ num gathBlk 32 4 ≠ 0 ∧ num gathBlk 32 4 ≤ 65536 ∧ num gathBlk 36 4 = 0 ∧ num gathBlk 48 16 = 0 ∧
      syncs (wd gathBlk 0) 0 true = true ∧ gathSt.reqFail gathSt.cur (wd gathBlk 0) [⟨wd gathBlk 8, e, vectorSpaces, 64, false⟩,
        ⟨wd gathBlk 16, all, vectorSpaces, 64, true⟩, ⟨wd gathBlk 24, 4 * num gathBlk 32 4, localSpace, 4, false⟩] false = none) ∧
    (gathBadSt.free [1, 2, 0] ∧ gathBadSt.clean [2] ∧ gathBadSt.blockAt (gathBadSt.sr gathBadSt.cur 2) 64 gathBad ∧ gathBad.length = 64 ∧
      num gathBad 0 8 % 2 ^ 23 % 64 ≠ 0) := by
  refine ⟨by unfold State.free; decide +kernel, by unfold State.clean; decide +kernel, ⟨0x80, rfl, ?_, ?_⟩, ?_, ?_, by unfold State.free; decide +kernel,
    by unfold State.clean; decide +kernel, ⟨0x80, rfl, ?_, ?_⟩, ?_, ?_⟩ <;> decide +kernel
theorem met_CopyInstructionResults_coll : let l := (collSt.part (collSt.partOf collSt.cur)).group (num collBlk 28 2)
    collSt.free [1, 2, 0] ∧ collSt.clean [2] ∧ collSt.blockAt (collSt.sr collSt.cur 2) 64 collBlk ∧ collBlk.length = 64 ∧
    collSt.rankOf l collSt.cur = some 1 ∧ num collBlk 0 8 % 16 ≤ 4 ∧ num collBlk 0 8 / 16 % 4 < 3 ∧ num collBlk 0 8 / 64 % 16 ∈ [4, 7, 8] ∧
    num collBlk 0 8 / 2 ^ 10 % 2 ^ 13 = 0 ∧ num collBlk 24 4 ≠ 0 ∧ num collBlk 28 2 < 256 ∧ num collBlk 32 32 = 0 ∧ num collBlk 24 4 % l.length = 0 ∧
    num collBlk 30 2 < l.length ∧ syncs (wd collBlk 0) 0 false = true := by
  refine ⟨by unfold State.free; decide +kernel, by unfold State.clean; decide +kernel, ⟨0x80, rfl, ?_, ?_⟩, ?_⟩ <;> decide +kernel
theorem met_CopyInstructionResults_egsub : egSt.free [1, 2, 0] ∧ egSt.clean [2] ∧ egSt.blockAt (egSt.sr egSt.cur 2) 64 egBlk ∧ egBlk.length = 64 ∧
    num egBlk 0 8 / 2 ^ 18 % 32 = 0 ∧ num egBlk 0 8 / 64 % 8 + num egBlk 0 8 / 512 % 8 ≤ 4 ∧ num egBlk 0 8 / 2 ^ 13 % 32 < 24 ∧ num egBlk 8 2 % 2 = 0 ∧
    16 ≤ num egBlk 8 2 ∧ num egBlk 8 2 ≤ 4096 ∧ num egBlk 10 2 % 2 = 0 ∧ 16 ≤ num egBlk 10 2 ∧ num egBlk 10 2 ≤ 2304 ∧ num egBlk 12 4 ≤ 255 ∧
    4096 ≤ num egBlk 24 4 ∧ num egBlk 30 2 ≠ 0 ∧ num egBlk 30 2 ≤ 240 ∧ num egBlk 36 4 = 0 ∧ wd egBlk 40 ≠ 0 ∧
    wd egBlk 40 &&& ~~~(egSt.part (egSt.partOf egSt.cur)).tiles = 0 ∧ syncs (wd egBlk 0) 0 false = true := by
  refine ⟨by unfold State.free; decide +kernel, by unfold State.clean; decide +kernel, ⟨0x80, rfl, ?_, ?_⟩, ?_⟩ <;> decide +kernel

theorem met_CommandsComplete : let s := copySt 64 0x100 0x20000
    let g := copySt 1 0x4000000000010000 0
    let l := layered (copySt 3 0 0)
    let bulk (c : Nat) : Bool := c = 4
    (s.canPost [1, 2, 3] ∧ s.syncOk 64 0 (spaceOf (0x20000 : Word) ≤ 2) ∧ (s.sr 0 1, s.sr 0 2, s.sr 0 3) = (64, 0x100, 0x20000) ∧
      s.reaches ⟨0x100, 64, vectorSpaces, 1, false⟩ ∧ s.reaches ⟨0x20000, 64, fun c => vectorSpaces c || c = 2, 1, true⟩) ∧
    (g.canPost [1, 2] ∧ g.syncOk 1 0 False ∧ (g.sr 0 1, g.sr 0 2) = (1, 0x4000000000010000) ∧ g.reaches ⟨0x4000000000010000, 65536 * 1, bulk, 65536, false⟩) ∧
    (l.canPost [1] ∧ l.syncOk 3 0 False ∧ l.sr 0 1 = 3 ∧ ((l.part (l.partOf l.cur)).layers[3 / 2 ^ 12 % 16]?).map (·.layers) = some 4) := by
  unfold State.canPost State.free State.clean State.syncOk State.reaches; and_intros <;> decide +kernel
theorem met_CommandsComplete_blocks : let bulk (c : Nat) : Bool := c = 4
    (gathSt.canPost [2] ∧ gathSt.free [1] ∧ gathSt.syncOk (wd gathBlk 0) 0 (spaceOf (wd gathBlk 16) ≤ 2) ∧ num gathBlk 40 8 % 64 = 0 ∧
      gathSt.reaches ⟨wd gathBlk 24, 12, localSpace, 4, false⟩ ∧ gathSt.reaches ⟨wd gathBlk 8, 128, vectorSpaces, 64, false⟩ ∧
      gathSt.reaches ⟨wd gathBlk 16, 3 * 128, vectorSpaces, 64, true⟩ ∧ gathSt.reaches ⟨wd gathBlk 8, 3 * 128, vectorSpaces, 64, false⟩ ∧
      gathSt.reaches ⟨wd gathBlk 16, 128, vectorSpaces, 64, true⟩) ∧
    (collSt.canPost [2] ∧ collSt.free [1] ∧ collSt.syncOk (wd collBlk 0) 0 False ∧ collSt.reaches ⟨wd collBlk 8, 4 * 4, vectorSpaces, 4, false⟩ ∧
      collSt.reaches ⟨wd collBlk 16, 2 * 4, vectorSpaces, 4, true⟩ ∧ typeW 8 / 8 = 4 ∧ num collBlk 0 8 / 64 % 16 = 8 ∧ num collBlk 0 8 % 16 = 1) ∧
    (egSt.canPost [2] ∧ egSt.free [1] ∧ egSt.syncOk (wd egBlk 0) 0 False ∧ egSt.reaches ⟨wd egBlk 16, 4096, bulk, 64, true⟩ ∧
      egSt.reaches ⟨wd egBlk 56, 64 * 32 * 3 / 2, bulk, 1, true⟩ ∧ num egBlk 0 8 / 16 % 2 = 1) := by
  unfold State.canPost State.free State.clean State.syncOk State.reaches; and_intros <;> decide +kernel

/-- The copy queue holds the one command, and the event names it. -/
def cmdSt (c : Cmd) (f : PartSt → PartSt := id) : State :=
  evp (fun x => { x with k := c.seq }) (((mem (st [])).modCopy 0 fun x => { x with q := [c], counter := 7, done := 4 }).modPart 0 f)
theorem cmdSt_now (c : Cmd) (f : PartSt → PartSt) : ((cmdSt c f).copy 0).q = [c] ∧ c.seq = (cmdSt c f).ev.k := ⟨rfl, rfl⟩
def budgets (n : Int) (w r b : Nat) (x : PartSt) : PartSt := { x with budget := ⟨n, w, r, b⟩ }
def moving (q0 : Nat) (res : List Nat) (x : PartSt) : PartSt :=
  { x with q0, resident := res, moves := [⟨9, none, false⟩], pins := [(1, 2)], layers := [⟨0, 1, false, [2]⟩] }

theorem met_CopyEngineResults : let run := { cmd0 with st := .running, sync := 5000, src := 8, dst := 0x1000000010002000 }
    let s := cmdSt run
    let a := cmdSt { cmd0 with st := .acquiring, ord := 1, sync := 1 <<< 44 }
    let e : State := { (cmdSt { cmd0 with st := .acquiring, func := 11, acquired := true }) with
      encs := (cmdSt cmd0).encs.set 0 { (cmdSt cmd0).encs[0] with starts := [3] } }
    let n := cmdSt run (budgets 0 1 1 1)
    let at_ := BitVec.ofNat 64 (4096 * 1)
    (s.tile s.cur).runs = true ∧ (({ cmd0 with sync := 1 <<< 44 } : Cmd).sync.getLsbD 44 = true ∧ (¬ ∃ m ∈ a.flagWaits, m.cmd = 3 ∧ m.hit = true) ∧
      ∃ m ∈ ({ a with flagWaits := [⟨3, 0, 0, true⟩] } : State).flagWaits, m.cmd = 3 ∧ m.hit = true) ∧
    (run.st = .running ∧ run.func = 0 ∧ run.discarded = false ∧ 4096 * 1 < run.arg ∧ (n.part 0).budget.refill ≠ 0 ∧ run.cls ≠ 0 ∧
      (n.part 0).budget.count ≤ 0 ∧ (s.part 0).budget.refill = 0 ∧ run.sync.getLsbD 23 = false ∧ run.fills = [] ∧
      spaceOf (run.src + at_) ≤ 1 ∧ spaceOf (run.dst + at_) ≤ 1 ∧
      s.locFull (.slice (sliceHome 0 (run.src + at_)) (sliceOff (run.src + at_))) (min 4096 (run.arg - 4096 * 1)) = true) ∧
    (({ run with seg := 1, sync := 7 } : Cmd).arg ≤ 4096 * 1 ∧ s.tokRoom s.cur 10 = true ∧ (s.setToks 0 10 (List.replicate 255 1)).tokRoom 0 10 = false ∧
      (({ cmd0 with sync := 1 <<< 63 } : Cmd).sync.getLsbD 63 = true) ∧ (s.c s.cur).wait = .none) ∧
    (egEnc egBlk = 0 ∧ (e.encs[(0 : Fin 8)]).frames.length < 16 ∧ (e.encs[(0 : Fin 8)]).starts.head? = some cmd0.id ∧
      (∀ u, vGet (e.tile u).egress 0 = []) ∧ (s.encs[(0 : Fin 8)]).starts.head? ≠ some cmd0.id) ∧
    (let x := (cmdSt cmd0 (budgets (-3) 5 4 100)).part 0
     x.budget.refill ≠ 0 ∧ x.budget.window ≠ 0 ∧ x.budget.began + 1000 * x.budget.window ≤ 5100 ∧ 5099 < x.budget.began + 1000 * x.budget.window) ∧
    (let x := (cmdSt cmd0 (moving 4 [1, 2, 3])).part 0
     x.moves = [⟨9, none, false⟩] ∧ ¬ 9 ∈ x.resident ∧ x.resident.length < x.tier0 ∧ (cmdSt cmd0).pf.selfRefresh = 0) ∧
    (let x := (cmdSt cmd0 (moving 3 [1, 2, 3])).part 0
     x.tier0 ≤ x.resident.length ∧ x.victim = some 3) := by
  and_intros <;> decide +kernel
theorem met_CopyEngineResults_mem : (cmdSt cmd0).memOk ∧ (cmdSt cmd0).noMigration := by
  unfold State.memOk State.noMigration; decide +kernel

def frame : EncFrame := { cmd := 3, block := Mem.read ([(0, leBytes 8 (2 + 16)), (8, leBytes 2 64), (10, leBytes 2 32), (16, leBytes 8 0x4000000000001000),
  (24, leBytes 4 4096), (32, leBytes 4 77), (40, leBytes 8 1), (56, leBytes 8 0x4000000000020000)].foldl (fun m (e : Nat × List Byte) => Mem.write m e.1 e.2) []) 0 64 }
/-- Encoder 2 has the frame at its head, with a block of it that did not match, and every block of it arrived. -/
def frameSt (done : Nat) : State :=
  let s := cmdSt { cmd0 with st := .running, func := 11 }
  { s with ev := { s.ev with k := 2 }, encs := s.encs.set 2 { (s.encs[2]) with frames := [frame], blocksDone := done, mismatch := true } }

theorem met_CopyEngineResults_frame : let s := frameSt 3
    let out := encOutput s.encs[(2 : Fin 8)] frame.block []
    s.ev.k = 2 ∧ (s.encs[(2 : Fin 8)]).frames = frame :: [] ∧ (s.findCmd frame.cmd).map (·.1) = some 0 ∧ (s.tile 0).runs = true ∧
    (s.encs[(2 : Fin 8)]).blocksDone = (egBlocks frame.block).length ∧ egKey frame.block = true ∧ out.1 = 2 ∧ out.2.1 = [] ∧
    (s.placeRange 0 .w (wordAt frame.block 16 8) (64 + out.2.1.length)).1 = .ok [(.bulk 0 0x1000 0x201000 0x3000 false, 64)] ∧
    (∃ rs, ((s.placeRange 0 .w (wordAt frame.block 16 8) (64 + out.2.1.length)).2.placeRange 0 .w (wordAt frame.block 56 8) out.2.2.length).1 = .ok rs) ∧
    (frameSt 2).encs[(2 : Fin 8)].blocksDone ≠ (egBlocks frame.block).length := by
  and_intros <;> first | decide +kernel | exact ⟨_, rfl⟩

/-- One entry of the pool's table. -/
def kvEntry (m sq lb st refs : Nat) : Nat × List Byte :=
  (0x201000 + 16 * m, leBytes 4 sq ++ leBytes 3 lb ++ leBytes 1 st ++ leBytes 2 refs ++ leBytes 2 0 ++ leBytes 4 0xFFFFFFFF)
def putAll (l : List (Nat × List Byte)) (s : State) : State := { s with bulk := l.foldl (fun m e => Mem.write m e.1 e.2) s.bulk }
/-- A pool of 4 blocks at 40H of the partition's structures: block 0 is held by (7, 3), block 2 by no key with the last count. -/
def kvSt (x sq lb : Word) (clean : List Nat := []) : State :=
  (putAll ([(0x200040, leBytes 8 0x100000 ++ leBytes 4 4 ++ leBytes 1 0 ++ leBytes 1 3 ++ leBytes 2 0 ++ leBytes 8 0x1000 ++ leBytes 8 0x2000 ++
      leBytes 4 0xFFFFFFFF ++ leBytes 4 2), kvEntry 0 7 3 1 1, kvEntry 1 0xFFFFFFFF 0 2 5, kvEntry 2 0xFFFFFFFF 0 2 65535, kvEntry 3 0xFFFFFFFF 0 0 0] ++
      (List.range 8).map (fun i => (0x202000 + 4 * i, leBytes 4 (if i = ((7 * 2654435761) ^^^ (3 * 2246822507)) % 2 ^ 32 % 8 then 0 else 0xFFFFFFFF))))
    (st [(1, x), (2, sq), (3, lb)])).modPart 0 fun y => { y with ctx := y.ctx.set 4 0x40, clean := clean }
def pool0 : KvPool := { at_ := 64, base := 0x100000, nblk := 4, size := 65536, slots := 8, tab := 0x1000, hat := 0x2000 }

theorem met_KvResults : let s := kvSt 0 7 3
    (s0.free [1, 2, 3] ∧ s0.clean [1, 2, 3] ∧ s0.kvPool 0 = none) ∧
    (s.free [1, 2, 3] ∧ s.clean [1, 2, 3] ∧ (s.sr s.cur 2).toNat < 2 ^ 32 - 1 ∧ (s.sr s.cur 3).toNat < 2 ^ 24 ∧ (s.part 0).kvWaiters = [] ∧
      (s.c s.cur).ops = []) := by unfold State.free State.clean; decide +kernel
theorem met_KvResults_pool : (kvSt 0 7 3).kvPool 0 = some pool0 ∧ (kvSt 1 (2 ^ 32 - 1) 4 [3]).kvPool 0 = some pool0 ∧
    (kvSt 1 7 4 [3]).kvPool 0 = some pool0 := by decide +kernel
theorem met_KvResults_find : (kvSt 0 7 3).kvFind 0 pool0 7 3 = some 0 ∧ (kvSt 1 7 4 [3]).kvFind 0 pool0 7 4 = none ∧
    ((kvSt 1 7 4 [3]).part 0).clean = [3] ∧ (kvSt 1 7 4).kvFind 0 pool0 7 4 = none ∧ ((kvSt 1 7 4).part 0).clean = [] := by decide +kernel
theorem met_KvResults_key : let t := kvSt 1 (2 ^ 32 - 1) 4 [3]
    ¬ ((t.sr t.cur 2).toNat < 2 ^ 32 - 1) ∧ (t.sr t.cur 2).toNat = 2 ^ 32 - 1 ∧ (t.sr t.cur 3).toNat < 2 ^ 24 := by decide +kernel
theorem met_KvResults_held : let s := kvSt 0 7 3
    0 < pool0.nblk ∧ s.kvSt 0 pool0 0 = 1 ∧ s.kvRefs 0 pool0 0 = 1 ∧ s.kvSt 0 pool0 1 = 2 ∧ 1 < s.kvRefs 0 pool0 1 ∧ s.kvRefs 0 pool0 1 < 65535 ∧
    s.kvSt 0 pool0 2 = 2 ∧ s.kvRefs 0 pool0 2 = 65535 ∧ s.kvSt 0 pool0 3 = 0 := by decide +kernel
theorem met_KvResults_scrub : let r : State := { kvSt 1 7 4 [3] with scrubq := [(0, 3), (0, 1)] }
    r.kvPool 0 = some pool0 ∧ r.scrubq = (0, 3) :: [(0, 1)] ∧ r.pf.selfRefresh = 0 ∧ (r.part 0).kvWaiters = [] := by
  decide +kernel
/-- No block of a pool is poisoned; its descriptor is. -/
theorem met_KvResults_clean : ∀ va m, (kvSt 0 7 3).hwPoisoned 0 va m = false := by
  intro va m
  have h : (kvSt 0 7 3).bulkPoison = [] := rfl
  unfold State.hwPoisoned
  rw [h]
  simp
theorem met_KvResults_poison : let s : State := { kvSt 0 7 3 with bulkPoison := [0x200040 / 64] }
    s.kvPool 0 = some pool0 ∧ s.kvPoisoned 0 pool0 (s.kvKeyReads 0 7 3 pool0) = some 0x40 := by decide +kernel

/-! ## Rachis -/

/-- A descriptor of a pass (R247): its control word, addresses of its rows, lengths and counts. -/
def descOf (ctrl q qs o tree : Nat) (ctx : Nat := 200) (hq : Nat := 4) (nd : Nat := 0) : List Byte :=
  leBytes 8 ctrl ++ (List.range 15).flatMap (fun i => leBytes 8 (i * 1000 + 5)) ++ leBytes 8 q ++ leBytes 8 qs ++ leBytes 8 o ++ leBytes 8 0 ++
  leBytes 8 tree ++ leBytes 8 0 ++ leBytes 4 7 ++ leBytes 4 7 ++ leBytes 4 7 ++ leBytes 4 ctx ++ leBytes 4 0x3F800000 ++ leBytes 2 0 ++
  leBytes 2 1 ++ leBytes 2 1 ++ leBytes 1 hq ++ leBytes 1 1 ++ leBytes 1 0 ++ leBytes 1 2 ++ leBytes 1 0 ++ leBytes 1 nd ++ leBytes 4 256 ++
  leBytes 4 0 ++ leBytes 4 65536 ++ leBytes 292 0
def desc0 : List Byte := descOf 0 (4 * 2 ^ 60 + 0x40000) (4 * 2 ^ 60 + 0x41000) (4 * 2 ^ 60 + 0x42000) 0
def descBad : List Byte := descOf 0 (4 * 2 ^ 60 + 0x40000) (4 * 2 ^ 60 + 0x41000) (4 * 2 ^ 60 + 0x42000) 0 0
def descSt (d : List Byte) (b : Word) : State :=
  (kvSt 0x200 b 0).modTile 0 fun x => { x with slice := Mem.write [] 0x200 d }
def goSt : State := descSt desc0 0x00020005
def goBad : State := descSt descBad 0x00020005
/-- A pass runs in tile 0. -/
def passSt (f : Pass → Pass) (d : List Byte) (s : State := kvSt 0 0 0) : State :=
  s.modRachis 0 (fun r => { r with pass := some (f (Pass.begin d 2 3)), passNo := 9, last := 0x123456789, lastNo := 7 })
theorem passSt_pass (f : Pass → Pass) (d : List Byte) (s : State) : ((passSt f d s).rachis 0).pass = some (f (Pass.begin d 2 3)) := by
  simp [passSt, State.modRachis, State.rachis]
def waitFor (n : Word) (s : State) : State := s.modC 0 fun c => { c with s := regs [(1, n)] }

theorem met_AttnResults : let s := goSt
    let r := waitFor 9 (passSt id desc0)
    let e := waitFor 10 (passSt id desc0)
    (s.free [3, 1, 2] ∧ s.clean [1, 2] ∧ (s.c s.cur).ops = [] ∧ (s.rachis s.cur).pass = none ∧ s.kvPool (s.partOf s.cur) = some pool0 ∧
      (attOf desc0).bad desc0 pool0.size = false) ∧
    (goBad.free [3, 1, 2] ∧ goBad.clean [1, 2] ∧ goBad.kvPool 0 = some pool0 ∧ (attOf descBad).bad descBad pool0.size = true) ∧
    (r.free [3, 1, 2] ∧ r.clean [1, 2] ∧ (r.c r.cur).ops = [] ∧ (r.rachis r.cur).pass.isSome ∧ (r.sr r.cur 1).toNat = (r.rachis r.cur).passNo) ∧
    (e.free [3, 1, 2] ∧ (e.rachis e.cur).passNo < (e.sr e.cur 1).toNat) ∧
    (let v := (s.sr s.cur 2).toNat
     v / 4096 % 16 = 0 ∧ v / 2 ^ 28 = 0 ∧ v % 4096 + (v / 65536 % 4096 + 1) ≤ 4096 ∧ s.locFull (.slice s.cur 0x200) (4 * 3) = true ∧
       s.poisonedAt (.slice s.cur 0x200) (4 * 3) = false ∧ Memory.wf (s.rachis s.cur).store = true ∧
       4096 < 0x00030FFD % 4096 + (0x00030FFD / 65536 % 4096 + 1)) := by
  unfold State.free State.clean; and_intros <;> decide +kernel
theorem met_AttnResults_reqs : goSt.reqFail 0 ((attOf desc0).ctrl &&& 0xFE00000000000000) (attOf desc0).reqs false = none ∧
    goBad.reqFail 0 ((attOf descBad).ctrl &&& 0xFE00000000000000) (attOf descBad).reqs false = none := by decide +kernel
theorem met_AttnResults_block : goSt.blockAt (goSt.sr goSt.cur 1) 512 desc0 ∧ goBad.blockAt (goBad.sr goBad.cur 1) 512 descBad ∧
    goSt.access goSt.cur localSpace .r (goSt.sr goSt.cur 1) (4 * 3) 64 = (.ok (.slice goSt.cur 0x200), goSt) :=
  ⟨⟨0x200, rfl, by decide +kernel, by decide +kernel⟩, ⟨0x200, rfl, by decide +kernel, by decide +kernel⟩, rfl⟩

def hSet (l : List (Nat × Word)) (p : Pass) : Pass := { p with h := l.foldl (fun v e => v.set! e.1 e.2) p.h }
def kept (n : Nat) (s : State) : State := s.modVec s.cur fun x => { x with k := x.k.set 0 (BitVec.ofNat 1024 n) }
theorem kept_pass (n : Nat) (s : State) : ((kept n s).rachis 0).pass = (s.rachis 0).pass := by
  by_cases h : s.cur = 0 <;> simp [kept, State.modVec, State.rachis, h]

def ctlP : Pass := hSet [(1, 0x10), (2, 4), (3, 1)] (Pass.begin desc0 2 3)
def ctlSt : State := passSt (hSet [(1, 0x10), (2, 4), (3, 1)]) desc0 (mem (st []))
theorem met_RachisControlResults : (ctlSt.rachis 0).pass = some ctlP ∧ ctlP.stops = [] ∧ ctlP.upc < 4095 ∧
    ((0x10 : Word) - 1 ≠ 0 ∧ (1 : Word) - 1 = 0 ∧ (0 : Int) ≤ ctlP.upc + (5 : BitVec 18).toInt ∧ ctlP.upc + (5 : BitVec 18).toInt < 4096 ∧
      ctlP.upc + (-1 : BitVec 18).toInt < 0) ∧
    4095 ≤ ({ ctlP with upc := 4095 } : Pass).upc ∧ ctlP.att.anch = 0 ∧ ctlP.att.ctrl.getLsbD 63 = false ∧
    (attOf (descOf (2 ^ 63) 0 0 0 0)).ctrl.getLsbD 63 = true := by
  refine ⟨passSt_pass _ _ _, ?_⟩; decide +kernel
theorem met_RachisControlResults_flags : ctlSt.flagAt 0 0x3000000000000010 4 true = .ok (0, 132) ∧ (ctlSt.tile 0).flag 132 = false ∧
    ctlSt.flagAt 0 0x3000000000000005 3 false = .ok (0, 43) ∧ (ctlSt.tile 0).flag 43 = true :=
  ⟨rfl, by decide +kernel, rfl, by decide +kernel⟩
def kvP : Pass := hSet [(1, 3), (2, 1), (3, 0)] (Pass.begin desc0 2 3)
def kvPassSt : State := kept 0xA (passSt (hSet [(1, 3), (2, 1), (3, 0)]) desc0)
theorem met_RachisControlResults_kv : (kvPassSt.rachis 0).pass = some kvP ∧ kvPassSt.kvPool 0 = some pool0 ∧ kvP.att.nbc < 4 + 1 ∧ 3 + 1 ≤ kvP.att.nbc ∧
    (vGet (kvPassSt.vec 0).k kvP.kreg).getLsbD 3 = true ∧ (kvPassSt.kvFind 0 pool0 kvP.att.sseq 3).isSome ∧
    (kvPassSt.kvFind 0 pool0 kvP.att.kseq 3).isSome ∧ (kvPassSt.kvFind 0 pool0 kvP.att.vseq 3).isSome ∧
    kvPassSt.kvFind 0 pool0 kvP.att.sseq 1 = none := by
  refine ⟨(kept_pass _ _).trans (passSt_pass _ _ _), ?_⟩; decide +kernel
theorem met_RachisControlResults_clean : ∀ va m, kvPassSt.hwPoisoned (kvPassSt.partOf kvPassSt.cur) va m = false := by
  intro va m
  have h : kvPassSt.bulkPoison = [] := rfl
  unfold State.hwPoisoned
  rw [h]
  simp

/-- Ranges that are read with no stop. -/
def readsOk (r : HRes (List (List Byte))) (n : Nat) : Bool := match r with | .ok l _ => l.length == n | .stop _ => false
def lists (p : Pass) : Pass :=
  { p with scoutList := [(0, 0), (1, 1), (2, 2), (3, 3)], kList := [(0, 3), (1, 1), (2, 2), (3, 3)], vList := [(0, 1), (1, 0), (2, 2), (3, 3)] }
def engP (p : Pass) : Pass := hSet [(1, 0), (2, 1)] (lists { p with vr := 1, upc := 8 })
def engSt : State := kept 2 (passSt engP desc0)
def eP : Pass := engP (Pass.begin desc0 2 3)

theorem met_RachisEngineResults : (engSt.rachis 0).pass = some eP ∧ eP.stops = [] ∧ eP.upc < 4095 ∧ (engSt.logic 0).engineFree = true ∧
    (engSt.part (engSt.partOf 0)).budget.refill = 0 ∧ (∀ i : Fin 4, Memory.wf (engSt.mat 0).z[i] = true) ∧
    (∀ i : Fin 2, Memory.wf (engSt.mat 0).aslot[i] = true) ∧ 0 < eP.att.nt ∧ eP.att.d ≤ 128 ∧ eP.vr ≤ 128 ∧ eP.tile < 4 ∧ eP.att.nt = 1 ∧
    eP.att.nbc ≤ 1024 ∧ 0 + 1 ≤ eP.att.nbc ∧ nextKept (vGet (engSt.vec 0).k eP.kreg) eP.cursor = [1] ∧ nextKept 0 eP.cursor = [] ∧
    eP.blocks.length ≤ 2 ∧ [0].mapM (fun lb => (resolved eP.scoutList lb).map (fun y => (lb, y))) = some [(0, 0)] ∧
    [1].mapM (fun lb => (resolved eP.kList lb).map (fun y => (lb, y))) = some [(1, 1)] := by
  refine ⟨(kept_pass _ _).trans (passSt_pass _ _ _), ?_⟩; decide +kernel
theorem met_RachisEngineResults_pool : engSt.kvPool (engSt.partOf 0) = some pool0 := by decide +kernel
theorem met_RachisEngineResults_rows : let x := eP.att
    readsOk (engSt.hReadAll ((List.range (x.vr 0)).map (fun r => ⟨0, r * x.qRow, x.q + BitVec.ofNat 64 (128 * 0 * x.qRow + r * x.qRow), x.qRow⟩))) (x.vr 0) =
      true := by decide +kernel
theorem met_RachisEngineResults_scout : let x := eP.att
    readsOk (engSt.hReadAll ((List.range x.rows).map (fun r => ⟨0, r * x.sRow, x.qs + BitVec.ofNat 64 (r * x.sRow), x.sRow⟩) ++
      kvRanges pool0 x x.sRow 0 0)) (x.rows + 64) = true := by decide +kernel
theorem met_RachisEngineResults_keys : readsOk (engSt.hReadAll (kvRanges pool0 eP.att eP.att.qRow 1 1)) 64 = true := by decide +kernel
/-- The chunk at hand holds the draft block. -/
def treeP : Pass := { engP (Pass.begin (descOf 0 0 0 0 (4 * 2 ^ 60 + 0x50000) 200 4 3) 2 3) with chunk := some ⟨[3, 4]⟩, tree := some [5, 7] }
theorem met_RachisEngineResults_tree : treeP.tree = some [5, 7] ∧
    treeP.blocks.findIdx? (fun y => decide (treeP.att.nd ≠ 0) && decide (y = treeP.att.nbc)) = some 1 ∧ treeP.att.tree ≠ 0 := by decide +kernel
/-- The output stands in the slice. -/
def drainPassSt : State := passSt engP (descOf 0 0 0 0x1000 0) (mem (st []))
def drP : Pass := engP (Pass.begin (descOf 0 0 0 0x1000 0) 2 3)
theorem drainPassSt_memOk : drainPassSt.memOk := State.modLogic_memOk _ 0 _ mem_memOk
theorem met_RachisEngineResults_drain : let x := drP.att
    (drainPassSt.rachis 0).pass = some drP ∧ drP.vr = 1 ∧ x.st = 0 ∧ drP.out = none ∧ drP.got = [] ∧ 0 < x.oRow ∧ x.oRow ≤ 4096 ∧
    drainPassSt.hostOpen 0 ∧ drainPassSt.noMigration ∧ drainPassSt.memOk ∧
    ∀ n q, (({ drainPassSt with freeCount := n } : State).modPass q).placeRange drainPassSt.cur .w (x.o + BitVec.ofNat 64 (128 * 0 * x.ostride)) x.oRow =
      (.ok [(.slice 0 0x1000, x.oRow)], ({ drainPassSt with freeCount := n } : State).modPass q) := by
  unfold State.hostOpen
  refine ⟨passSt_pass _ _ _, ?_, ?_, ?_, ?_, ?_, ?_, ?_, mem_noMigration, drainPassSt_memOk, fun _ _ => rfl⟩ <;> decide +kernel

/-! ## Husks and Thresher -/

def aRec (inst idx : Nat) (st : TillerSt := .running) : TillerRec := { inst, idx, rc := rc0, deps := 0, st, age := 0, cls := 2, u := 1 }
def tiller (t : Tile) (l : List TillerRec) (s : State) : State := s.modTile t fun x => { x with tiller := l }
def two : State := tiller 0 [aRec 1 0, aRec 2 5 .ready] (tiller 1 [aRec 1 1] s0)
def freezes (t : Tile) (f : Freezing) (s : State) : State := s.modTile t fun x => { x with freezing := some f }
def huskAt (t : Tile) : Husk := two.makeHusk t { ctl with idx := t.val }
def inSlot (t : Tile) (i : Fin 2) (h : Husk) (s : State) : State := s.modTile t fun x => { x with husks := x.husks.set i (some h) }
def atTile (t : Tile) (s : State) : State := evp (fun e => { e with t := t }) s
def restores (h : Husk) : State :=
  atTile 0 ((inSlot 0 1 h (tiller 0 [aRec 1 0 (.frozen 1)] (noTask0 two))).modTile 0 fun x => { x with shadow := some (1, 0) })
def worldSt (f : VfId) : State :=
  ((evp (fun e => { e with p := 0, f := f }) two).modPart 0 fun x => { x with world := some 2 }).modVf f fun v => { v with part := some 0 }

theorem met_HuskResults_freeze : let s := atTile 0 (freezes 0 ⟨some 1, 100, none⟩ two)
    let b := atTile 1 (freezes 1 ⟨some 0, 100, some 0⟩ (two.modC 0 fun c => { c with wait := .freeze 1 0 3 }))
    ((s.tile 0).freezing = some ⟨some 1, 100, none⟩ ∧ s.task 0 = some ctl ∧ (s.logic 0).freezes 0 = false ∧ Memory.wf (s.tile 0).slice = true ∧
      ∃ r ∈ (s.tile 0).tiller, r.inst = ctl.inst ∧ r.idx = ctl.idx) ∧
    ((b.tile 1).freezing = some ⟨some 0, 100, some 0⟩ ∧ b.task 1 = some { ctl with idx := 1 } ∧ (0 : Tile) ≠ 1 ∧ (b.c 0).wait = .freeze 1 0 3 ∧
      (b.logic 1).freezes 1 = false ∧ (b.tile 0).freezing = none) := by decide +kernel
/-- A block of the image is poisoned. -/
def poisonedSlot (s : State) : State := s.modTile 0 fun x => { x with poison := [0xFC00000 / 64] }
theorem met_HuskResults_restore : let s := restores (huskAt 0)
    s.canStart 0 = some (aRec 1 0 (.frozen 1)) ∧ s.slotHusk 0 1 = some (huskAt 0) ∧ (huskAt 0).rev = 0x1B0 ∧ (huskAt 0).part = (s.tile 0).part ∧
    (huskAt 0).poison = [] ∧ (huskAt 0).tile = 0 ∧ (huskAt 0).logic.c.wait = .none ∧ (huskAt 0).logic.flits = [] ∧
    (huskAt 0).logic.l.inflight = [] ∧ (huskAt 0).logic.s.inflight = [] := by
  and_intros <;> first | decide +kernel | rfl
theorem met_HuskResults_restoreRefused : let s := poisonedSlot (restores (huskAt 0))
    ((restores { huskAt 0 with rev := 7 }).slotHusk 0 1 = some { huskAt 0 with rev := 7 } ∧ ({ huskAt 0 with rev := 7 } : Husk).rev ≠ 0x1B0) ∧
    s.canStart 0 = some (aRec 1 0 (.frozen 1)) ∧ s.slotHusk 0 1 = some { huskAt 0 with poison := [0] } ∧ s.inst (s.tile 0).part 1 = some inst1 := by
  and_intros <;> first | decide +kernel | rfl
/-- A switch to VF 3 that began at 12000 is in this state. -/
def switching (save : Option Nat) (f : PartSt → PartSt := id) : State :=
  (worldSt 3).modPart 0 fun x => f { x with switch := some ⟨3, 50000, 12000, save⟩ }
/-- A world with one frozen task. -/
def savedW : SavedWorld := { vf := some 3, husks := [(1, huskAt 1)], bins := [], tillers := [(1, [aRec 1 1 (.frozen 0)])] }
theorem met_HuskResults_world : (((worldSt 2).part 0).world = some 2 ∧ ((worldSt 2).part 0).switch = none) ∧ (let s := worldSt 3
    (s.vf 3).part = some 0 ∧ (s.vf 3).flr = false ∧ (s.part 0).world ≠ some 3 ∧ (s.part 0).switch = none ∧ (s.part 0).sliceEnd ≤ s.dtime ∧
    (∀ v ∈ (s.part 0).tileList, (s.tile v).freezing = none) ∧ s.pf.d3hot = false ∧ s.pf.dchange = false ∧ s.inTrial 0 = false ∧
    (s.part 0).migration = none ∧ ∃ v ∈ (s.part 0).tileList, (s.task v).isSome) := by decide +kernel
theorem met_HuskResults_worldOut : let s := switching none
    let e := switching none fun x => { x with insts := [{ exchanging 181 [] 10 0 with world := some 2 }] }
    ((s.part 0).switch = some ⟨3, 50000, 12000, none⟩ ∧ s.exchanged 0 = true) ∧ e.exchanged 0 = false := by decide +kernel
theorem met_HuskResults_worldIn : let s := switching (some 300) fun x => { x with world := none }
    let y := switching (some 300) fun x => { x with world := none, saved := [savedW] }
    ((s.part 0).switch = some ⟨3, 50000, 12000, some 300⟩ ∧ ∀ w ∈ (s.part 0).saved, w.vf ≠ some 3) ∧
    ((y.part 0).saved = [savedW] ∧ savedW.vf = some 3 ∧ savedW.bins = [] ∧ savedW.tillers = [(1, [aRec 1 1 (.frozen 0)])] ∧
      savedW.husks = [(1, huskAt 1)] ∧ (huskAt 1).logic.task = some { ctl with idx := 1 } ∧ (aRec 1 1 (.frozen 0)).inst = 1) := by
  and_intros <;> first | decide +kernel | rfl

/-- The bulk space to 40 0000H is mapped, and tile 0 runs at S with these registers; its translation buffer holds the page's entry. -/
def leaf0 (va : Nat) (leaf : Word) (at_ : Nat) : TbEntry := { part := 0, host := false, va := va, size := 0x200000, leaf := leaf, at_ := at_ }
def bulk4 (s : State) : State := { s with bulk := nums s.bulk [(0x3008, 0x40007F)] }
def saveSt (slot : Fin 2) (v : Word) : State :=
  sup (inSlot 1 slot (huskAt 1) (bulk4 (two.modC 0 fun c => { c with s := regs [(1, 0x101), (2, v), (3, 5)] })))

def pages : List TbEntry := [leaf0 0x200000 0x40007F 0x3008, leaf0 0 0x20007F 0x3000]
def withPages (l : List TbEntry) (s : State) : State := { (s.modTile 0 fun x => { x with tb := l }) with dieTb := l }
def hitSt : State := withPages pages (saveSt 1 0x4000000000000000)
def hitSt1 : State := withPages pages.reverse (saveSt 1 0x4000000000000000)
/-- The addresses of a page of 2 MiB. -/
def inPage (n : Nat) : List Word := (List.range 32).map fun i => BitVec.ofNat 64 (0x4000000000000000 + 0x200000 * n + 0x10000 * i)
/-- The image of slot 1 of tile 1: nothing has written it, so it is its header alone. -/
def imageBytes : List Byte := List.replicate 256 0
def keptSt : State := hitSt.keepBody (huskAt 1) imageBytes

/-- An access that hits a buffered leaf puts that leaf in front and changes nothing else. -/
theorem place_at (s s1 : State) (t : Tile) (p : PartId) (need : Need) (c : TbEntry) (hs : s.fillTbs (some t) c = s1) (hd : c.leaf.getLsbD 6 = true)
    (hn : need.grantedBy c.leaf.toNat = true) (u : Word) (h : spaceOf u = 4) (hc : s.cachedLeaf (some t) p false (wbits u 0 48) = some c) :
    s.place t p need u = (.ok (.bulk p (wbits u 0 48) (entryAddr c.leaf.toNat + wbits u 0 48 % c.size) 0 false), s1) := by
  simp [State.place, h, State.translate, hc, show c.leaf[6] = true from hd, hn, hs]
theorem placeAll_hits (s : State) (t : Tile) (p : PartId) (need : Need) (us : List Word) (h : ∀ u ∈ us, ∃ l, s.place t p need u = (.ok l, s)) :
    ∃ ls, s.placeAll t p need us = (.ok ls, s) := by
  induction us with
  | nil => exact ⟨[], rfl⟩
  | cons u us ih =>
    obtain ⟨l, e⟩ := h u List.mem_cons_self
    obtain ⟨ls, e2⟩ := ih fun v hv => h v (List.mem_cons_of_mem _ hv)
    exact ⟨l :: ls, by simp [State.placeAll, e, e2]⟩
theorem placeAll_append (s s1 s2 : State) (t : Tile) (p : PartId) (need : Need) (us vs : List Word) (ls ms : List Loc)
    (h : s.placeAll t p need us = (.ok ls, s1)) (h2 : s1.placeAll t p need vs = (.ok ms, s2)) :
    s.placeAll t p need (us ++ vs) = (.ok (ls ++ ms), s2) := by
  induction us generalizing s ls with
  | nil => cases h; exact h2
  | cons u us ih =>
    simp only [List.cons_append, State.placeAll] at h ⊢
    split at h
    · split at h
      · rename_i e2
        cases h
        rw [ih _ _ e2]; rfl
      all_goals simp at h
    all_goals simp at h
theorem withPages_fill (l m : List TbEntry) (s : State) (c : TbEntry) (h : fillTb 32768 c l = m) (h2 : fillTb 2048 c l = m) :
    (withPages l s).fillTbs (some 0) c = withPages m s := by
  unfold withPages State.fillTbs State.modTile
  simp [h, h2, State.setTile, State.tile]
theorem hitSt_buf : hitSt.fillTbs (some 0) (leaf0 0 0x20007F 0x3000) = hitSt1 ∧ hitSt1.fillTbs (some 0) (leaf0 0 0x20007F 0x3000) = hitSt1 ∧
    hitSt1.fillTbs (some 0) (leaf0 0x200000 0x40007F 0x3008) = hitSt ∧ hitSt.fillTbs (some 0) (leaf0 0x200000 0x40007F 0x3008) = hitSt := by
  unfold hitSt hitSt1
  exact ⟨withPages_fill _ _ _ _ (by decide) (by decide), withPages_fill _ _ _ _ (by decide) (by decide), withPages_fill _ _ _ _ (by decide) (by decide),
    withPages_fill _ _ _ _ (by decide) (by decide)⟩
def hits (s : State) (c : TbEntry) (u : Word) : Bool := spaceOf u = 4 && decide (s.cachedLeaf (some 0) 0 false (wbits u 0 48) = some c)
theorem hits_ok : (inPage 0).all (hits hitSt (leaf0 0 0x20007F 0x3000)) = true ∧ (inPage 0).all (hits hitSt1 (leaf0 0 0x20007F 0x3000)) = true ∧
    (inPage 1).all (hits hitSt1 (leaf0 0x200000 0x40007F 0x3008)) = true ∧ (inPage 1).all (hits hitSt (leaf0 0x200000 0x40007F 0x3008)) = true := by
  decide +kernel
theorem page_hits (s s1 : State) (c : TbEntry) (us : List Word) (h : us.all (hits s c) = true) (hs : s.fillTbs (some 0) c = s1)
    (hd : c.leaf.getLsbD 6 = true) (hn : Need.w.grantedBy c.leaf.toNat = true) : ∀ u ∈ us, ∃ l, s.place 0 0 .w u = (.ok l, s1) := fun u hu =>
  have g : spaceOf u = 4 ∧ s.cachedLeaf (some 0) 0 false (wbits u 0 48) = some c := by simpa [hits] using List.all_eq_true.mp h u hu
  ⟨_, place_at s s1 0 0 .w c hs hd hn u g.1 g.2⟩
theorem placeAll_one (s s1 : State) (t : Tile) (p : PartId) (need : Need) (u : Word) (h : ∃ l, s.place t p need u = (.ok l, s1)) :
    ∃ ls, s.placeAll t p need [u] = (.ok ls, s1) := by
  obtain ⟨l, h⟩ := h
  exact ⟨[l], by simp [State.placeAll, h]⟩
theorem hitSt_all : ∃ ls, hitSt.placeAll 0 0 .w (((inPage 0).take 1 ++ (inPage 0).drop 1) ++ ((inPage 1).take 1 ++ (inPage 1).drop 1)) = (.ok ls, hitSt) := by
  obtain ⟨b1, b2, b3, b4⟩ := hitSt_buf
  obtain ⟨h1, h2, h3, h4⟩ := hits_ok
  have g1 := page_hits _ _ _ _ h1 b1 (by decide) (by decide)
  have g2 := page_hits _ _ _ _ h2 b2 (by decide) (by decide)
  have g3 := page_hits _ _ _ _ h3 b3 (by decide) (by decide)
  have g4 := page_hits _ _ _ _ h4 b4 (by decide) (by decide)
  obtain ⟨a, ha⟩ := placeAll_one _ _ _ _ _ _ (g1 ((inPage 0)[0]'(by decide)) (List.getElem_mem _))
  obtain ⟨b, hb⟩ := placeAll_hits _ _ _ _ _ fun u hu => g2 u (List.mem_of_mem_drop (i := 1) hu)
  obtain ⟨c, hc⟩ := placeAll_one _ _ _ _ _ _ (g3 ((inPage 1)[0]'(by decide)) (List.getElem_mem _))
  obtain ⟨d, hd⟩ := placeAll_hits _ _ _ _ _ fun u hu => g4 u (List.mem_of_mem_drop (i := 1) hu)
  exact ⟨_, placeAll_append _ _ _ _ _ _ _ _ _ _ (placeAll_append _ _ _ _ _ _ _ _ _ _ ha hb) (placeAll_append _ _ _ _ _ _ _ _ _ _ hc hd)⟩
theorem met_HuskResults_range : ∃ ls, hitSt.placeRange 0 .w 0x4000000000000000 0x400000 = (.ok ls, hitSt) := by
  obtain ⟨ls, h⟩ := hitSt_all
  have e : (cutsOf (wbits 0x4000000000000000 0 48) 0x400000).map (fun (a, _) => 0x4000000000000000 + BitVec.ofNat 64 (a - wbits 0x4000000000000000 0 48)) =
    ((inPage 0).take 1 ++ (inPage 0).drop 1) ++ ((inPage 1).take 1 ++ (inPage 1).drop 1) := by decide +kernel
  have p : hitSt.partOf 0 = 0 := by decide +kernel
  rw [← e] at h
  refine ⟨ls.zip ((cutsOf (wbits 0x4000000000000000 0 48) 0x400000).map (·.2)), ?_⟩
  unfold State.placeRange
  rw [if_neg (by decide), if_neg (by decide), p]
  simp only [h]
theorem met_HuskResults_save : let s := hitSt
    let m := saveSt 1 0x4000000000000020
    (s.atS s.cur = true ∧ s.free [1, 2, 3] ∧ s.clean [1, 2] ∧ (s.c s.cur).ops = [] ∧ (s.sr s.cur 1).toNat % 64 = 1 ∧
      (s.part 0).has (Fin.ofNat 64 (s.sr s.cur 1).toNat) = true ∧ (s.sr s.cur 1).getLsbD 8 = true ∧ (s.sr s.cur 2).toNat / 2 ^ 60 = 4 ∧
      (s.sr s.cur 2).toNat / 2 ^ 48 % 4096 = 0 ∧ (s.sr s.cur 2).toNat % 2 ^ 48 + 0x400000 ≤ 2 ^ 48 ∧ (s.sr s.cur 2).toNat % 64 = 0 ∧
      ((s.tile 1).husks[(1 : Fin 2)]).isSome) ∧
    ((m.sr m.cur 2).toNat % 64 ≠ 0 ∧ ((saveSt 0 0x4000000000000000).tile 1).husks[(1 : Fin 2)] = none ∧ two.atS two.cur = false) := by
  unfold State.free State.clean; decide +kernel
theorem met_HuskResults_saves : let s := hitSt
    s.slotHusk 1 1 = some (huskAt 1) ∧ (huskAt 1).poison = [] ∧ (∃ l0, s.placeRange s.cur .w (s.sr s.cur 2) 0x400000 = (.ok l0, s)) ∧
    Mem.read (s.tile 1).slice (0xF800000 + 0x400000 * 1) (256 + Mem.num (s.tile 1).slice (0xF800000 + 0x400000 * 1 + 32) 4) = imageBytes :=
  ⟨rfl, rfl, by exact met_HuskResults_range, by decide +kernel⟩
theorem met_HuskResults_savePlace : let r := keptSt.placeRange 0 .w 0x4000000000000000 imageBytes.length
    r.1 = .ok [(.bulk 0 0 0x200000 0 false, imageBytes.length)] ∧ r.2.memOk ∧ r.2.noMigration ∧ r.2.hostOpen 0 := by
  unfold State.memOk State.noMigration State.hostOpen; decide +kernel

theorem fieldAt_append (a b : List Byte) (o n : Nat) (h : o + n ≤ a.length) : fieldAt (a ++ b) o n = fieldAt a o n := by
  unfold fieldAt; rw [List.drop_append_of_le_length (by omega), List.take_append_of_le_length (by rw [List.length_drop]; omega)]
/-- Tile 0 runs at S; a husk's header stands at 0 of the bulk space, for tile 1. -/
def loadSt (hdr : List Byte) (f : State → State := id) : State :=
  let b := f (sup (two.modC 0 fun c => { c with s := regs [(1, 0x4000000000000000), (2, 1), (3, 5)] }))
  withPages [leaf0 0 0x20007F 0x3000] { b with bulk := Mem.write two.bulk 0x200000 hdr, bodies := [(hdr ++ [], huskAt 1)] }
/-- A header but for its digest. -/
def hdr192 (magic rev : Nat) : List Byte := leBytes 4 magic ++ leBytes 2 1 ++ leBytes 2 rev ++ leBytes 1 1 ++ leBytes 55 0 ++
  (List.range 8).flatMap fun i => leBytes 4 (i + 1) ++ leBytes 4 256 ++ leBytes 8 0
theorem load_place (hdr : List Byte) (f : State → State) (h : (loadSt hdr f).partOf 0 = 0) :
    (loadSt hdr f).placeRange 0 .r 0x4000000000000000 256 = (.ok [(.bulk 0 0 0x200000 0 false, 256)], loadSt hdr f) := by
  have e : (cutsOf (wbits 0x4000000000000000 0 48) 256).map (fun (a, _) => 0x4000000000000000 + BitVec.ofNat 64 (a - wbits 0x4000000000000000 0 48)) =
    [0x4000000000000000] := by decide
  have g := place_at (loadSt hdr f) (loadSt hdr f) 0 0 .r (leaf0 0 0x20007F 0x3000) (withPages_fill _ _ _ _ (by decide) (by decide)) (by decide) (by decide)
    0x4000000000000000 (by decide) (by
      have t : ((loadSt hdr f).tile 0).tb = [leaf0 0 0x20007F 0x3000] := by simp [loadSt, withPages, State.modTile, State.setTile, State.tile]
      simp only [State.cachedLeaf, t]; rfl)
  unfold State.placeRange
  rw [if_neg (by decide), if_neg (by decide), h]
  simp only [e, State.placeAll, g]
  rfl
theorem load_read (hdr : List Byte) (f : State → State) (hl : hdr.length = 256) (hp : (loadSt hdr f).bulkPoison = []) :
    ((loadSt hdr f).readPieces 0 true [(.bulk 0 0 0x200000 0 false, 256)]).1 = hdr.map fun x => (x, false) := by
  have e : Mem.read (loadSt hdr f).bulk 0x200000 256 = hdr := hl ▸ Mem.read_write two.bulk 0x200000 hdr (by decide +kernel)
  have c : (fun e : Byte × Nat => (e.1, false)) = (fun x => (x, false)) ∘ Prod.fst := rfl
  have m : (hdr.zipIdx.map fun e : Byte × Nat => (e.1, false)) = hdr.map fun x => (x, false) := by
    rw [c, ← List.map_map, List.zipIdx_map_fst]
  have n : ∀ l : List Nat, (l.any fun _ => false) = false := fun l => by induction l <;> simp_all
  simpa [State.readPieces, Loc.plus, State.poisonedAt, hp, e, n] using m
def noDigest (magic rev : Nat) : List Byte := hdr192 magic rev ++ leBytes 64 0
/-- A header that is not a husk's, one of another revision, one that is accepted whatever the digest of an empty body is. -/
theorem met_HuskResults_load : let s := loadSt (noDigest 5 0x1B0)
    s.atS s.cur = true ∧ s.free [1, 2, 3] ∧ s.clean [1, 2] ∧ (s.c s.cur).ops = [] ∧ (s.part 0).has (Fin.ofNat 64 (s.sr s.cur 2).toNat) = true ∧
    (s.sr s.cur 1 = 0x4000000000000000 ∧ (0x4000000000000000 : Word).toNat / 2 ^ 60 = 4 ∧ (0x4000000000000000 : Word).toNat / 2 ^ 48 % 4096 = 0) := by
  unfold State.free State.clean; decide +kernel
theorem load_parts (h : List Byte) (f : State → State) (hl : h.length = 256) (h0 : fieldAt h 32 4 = 0) (hp : (loadSt h f).partOf 0 = 0)
    (hq : (loadSt h f).bulkPoison = []) : let s := loadSt h f
    ∃ ls, s.placeRange 0 .r 0x4000000000000000 256 = (.ok ls, s) ∧ (s.readPieces 0 true ls).1 = h.map (fun x => (x, false)) ∧ min (fieldAt h 32 4) 2883328 = 0 ∧
      s.placeRange 0 .r (0x4000000000000000 + 256) 0 = (.ok [], s) ∧ (s.readPieces 0 true []).1 = ([] : List Byte).map (fun x => (x, false)) :=
  ⟨_, load_place _ _ hp, load_read _ _ hl hq, by rw [h0]; rfl, rfl, rfl⟩
theorem met_HuskResults_loadRefused : (let h := noDigest 5 0x1B0
    let s := loadSt h
    fieldAt h 0 4 ≠ 0x4B535548 ∧ ∃ ls, s.placeRange 0 .r 0x4000000000000000 256 = (.ok ls, s) ∧ (s.readPieces 0 true ls).1 = h.map (fun x => (x, false))) ∧
    (let h := noDigest 0x4B535548 7
    let s := loadSt h
    (fieldAt h 0 4 = 0x4B535548 ∧ fieldAt h 4 2 = 1 ∧ fieldAt h 6 2 ≠ 0x1B0) ∧
      ∃ ls, s.placeRange 0 .r 0x4000000000000000 256 = (.ok ls, s) ∧ (s.readPieces 0 true ls).1 = h.map (fun x => (x, false))) := by
  have a := load_parts (noDigest 5 0x1B0) id (by decide +kernel) (by decide +kernel) (by rfl) (by rfl)
  have b := load_parts (noDigest 0x4B535548 7) id (by decide +kernel) (by decide +kernel) (by rfl) (by rfl)
  obtain ⟨l, a1, a2, -⟩ := a
  obtain ⟨k, b1, b2, -⟩ := b
  exact ⟨⟨by decide +kernel, l, a1, a2⟩, by decide +kernel, k, b1, b2⟩
theorem shake256_length (n : Nat) (m : List Byte) : (shake256 n m).length = n := by unfold shake256; simp
/-- A header with the digest of an empty body, whatever it is, and one with another digest. -/
def goodHdr : List Byte := hdr192 0x4B535548 0x1B0 ++ shake256 64 []
def otherHdr : List Byte := hdr192 0x4B535548 0x1B0 ++ (shake256 64 []).map (~~~ ·)
theorem hdr192_length : (hdr192 0x4B535548 0x1B0).length = 192 := by decide +kernel
theorem hdr_field (l : List Byte) (o n : Nat) (h : o + n ≤ 192) : fieldAt (hdr192 0x4B535548 0x1B0 ++ l) o n = fieldAt (hdr192 0x4B535548 0x1B0) o n :=
  fieldAt_append _ _ _ _ (by rw [hdr192_length]; exact h)
theorem hdr_head (l : List Byte) : headCode 0 (hdr192 0x4B535548 0x1B0 ++ l) = 0 := by
  have e : (List.range 8).any (fun i => fieldAt (hdr192 0x4B535548 0x1B0 ++ l) (64 + 16 * i + 4) 4 < 256 ||
      256 + fieldAt (hdr192 0x4B535548 0x1B0 ++ l) 32 4 < fieldAt (hdr192 0x4B535548 0x1B0 ++ l) (64 + 16 * i + 4) 4 +
        fieldAt (hdr192 0x4B535548 0x1B0 ++ l) (64 + 16 * i + 8) 4) = false := by
    rw [List.any_eq_false]
    intro i hi
    have hi : i < 8 := List.mem_range.mp hi
    rw [hdr_field _ _ _ (by omega), hdr_field _ _ _ (by omega), hdr_field _ _ _ (by omega)]
    exact (by decide +kernel : ∀ i < 8, ¬ (decide (fieldAt (hdr192 0x4B535548 0x1B0) (64 + 16 * i + 4) 4 < 256) ||
      decide (256 + fieldAt (hdr192 0x4B535548 0x1B0) 32 4 < fieldAt (hdr192 0x4B535548 0x1B0) (64 + 16 * i + 4) 4 +
        fieldAt (hdr192 0x4B535548 0x1B0) (64 + 16 * i + 8) 4)) = true) i hi
  unfold headCode
  rw [hdr_field _ 0 4 (by decide), hdr_field _ 4 2 (by decide), hdr_field _ 6 2 (by decide), hdr_field _ 9 1 (by decide), e]
  decide +kernel
theorem hdr_digest (l : List Byte) (h : l.length = 64) : ((hdr192 0x4B535548 0x1B0 ++ l).drop 192).take 64 = l := by
  rw [List.drop_left' hdr192_length]
  exact List.take_of_length_le (by omega)
theorem hdr_length (l : List Byte) (h : l.length = 64) : (hdr192 0x4B535548 0x1B0 ++ l).length = 256 := by
  rw [List.length_append, hdr192_length, h]
theorem goodHdr_ok : huskCode 0 goodHdr [] = 0 := by
  unfold huskCode goodHdr
  rw [hdr_head, hdr_digest _ (shake256_length _ _)]
  simp [digest64]
theorem map_not_ne (l : List Byte) (h : l.length = 64) : l.map (~~~ ·) ≠ l := by
  cases l with
  | nil => simp at h
  | cons b l =>
    have : ∀ b : Byte, ~~~ b ≠ b := by decide
    simp [this b]
/-- A header whose digest is not its body's. -/
theorem met_HuskResults_digest : headCode 0 otherHdr = 0 ∧ (otherHdr.drop 192).take 64 ≠ shake256 64 [] ∧
    ∃ ls, (loadSt otherHdr).placeRange 0 .r 0x4000000000000000 256 = (.ok ls, loadSt otherHdr) ∧
      ((loadSt otherHdr).readPieces 0 true ls).1 = otherHdr.map (fun x => (x, false)) := by
  have l : ((shake256 64 []).map (~~~ ·)).length = 64 := by simp [shake256_length]
  have h0 : fieldAt otherHdr 32 4 = 0 := by rw [otherHdr, hdr_field _ 32 4 (by decide)]; decide +kernel
  obtain ⟨ls, a, b, -⟩ := load_parts otherHdr id (hdr_length _ l) h0 (by rfl) (by rfl)
  refine ⟨hdr_head _, ?_, ls, a, b⟩
  rw [otherHdr, hdr_digest _ l]
  exact map_not_ne _ (shake256_length _ _)
def fullSlots (s : State) : State := inSlot 1 0 (huskAt 1) (inSlot 1 1 (huskAt 1) s)
/-- The husk is for tile 0, and its C owes a load; or it stands in no tile's log. -/
def owing : Husk := { huskAt 1 with logic := { (huskAt 1).logic with c := { (huskAt 1).logic.c with ops := [ld 3] } } }
theorem met_HuskResults_loadAccepted (full : Bool) : let s := loadSt goodHdr (if full then fullSlots else id)
    (∃ ls, s.placeRange 0 .r 0x4000000000000000 256 = (.ok ls, s) ∧ (s.readPieces 0 true ls).1 = goodHdr.map (fun x => (x, false)) ∧
      min (fieldAt goodHdr 32 4) 2883328 = 0 ∧ s.placeRange 0 .r (0x4000000000000000 + 256) 0 = (.ok [], s) ∧
      (s.readPieces 0 true []).1 = ([] : List Byte).map (fun x => (x, false))) ∧
    huskCode 0 goodHdr [] = 0 ∧ s.huskOf goodHdr [] = some (huskAt 1) ∧ (huskAt 1).tile = 1 ∧ (s.tile 1).away = [] ∧
    (s.tile 1).freeSlot = (if full then none else some 0) ∧ Memory.wf (s.tile 1).slice = true ∧ goodHdr.length + 0 ≤ 0x400000 ∧
    (huskAt 1).logic.task = some { ctl with idx := 1 } := by
  have l : goodHdr.length = 256 := hdr_length _ (shake256_length _ _)
  have h0 : fieldAt goodHdr 32 4 = 0 := by rw [goodHdr, hdr_field _ 32 4 (by decide)]; decide +kernel
  have k (s : State) (h : s.bodies = [(goodHdr ++ [], huskAt 1)]) : s.huskOf goodHdr [] = some (huskAt 1) := by simp [State.huskOf, h]
  cases full
  · exact ⟨load_parts goodHdr id l h0 (by rfl) (by rfl), goodHdr_ok, k _ rfl, rfl, rfl, rfl, rfl, by omega, rfl⟩
  · exact ⟨load_parts goodHdr fullSlots l h0 (by rfl) (by rfl), goodHdr_ok, k _ rfl, rfl, rfl, rfl, rfl, by omega, rfl⟩
/-- The husk is of tile 1 and goes to tile 0, and its C owes a load. -/
theorem met_HuskResults_owed : let s : State := { (loadSt goodHdr (fun s => s.modC 0 fun c => { c with s := c.s.set 2 0 })) with bodies := [(goodHdr ++ [], owing)] }
    s.huskOf goodHdr [] = some owing ∧ owing.tile ≠ Fin.ofNat 64 (s.sr s.cur 2).toNat ∧ owing.logic.owed = true ∧
      (s.tile (Fin.ofNat 64 (s.sr s.cur 2).toNat)).freeSlot = some 0 := by
  refine ⟨by simp [State.huskOf], ?_, ?_, ?_⟩ <;> first | decide +kernel | rfl

/-! ## Granary -/

def wt (lo hi r : Nat) (key : Nat := 0) (v : Bool := true) : Warrant := ⟨BitVec.ofNat 128 (lo * 2 ^ 88 + hi * 2 ^ 48 + r * 2 ^ 40 + key * 2 ^ 24), v⟩
/-- w1, w2 … and x1, x2 … of the core hold these. -/
def coreSt (ws : List Warrant) (xs : List Word) (m : Bool := true) : State := State.reset.modCore fun c =>
  { c with w := ws.zipIdx.foldl (fun v e => v.set! (e.2 + 1) e.1) c.w, x := xs.zipIdx.foldl (fun v e => v.set! (e.2 + 1) e.1) c.x, mach := m }

theorem met_WarrantResults : let c := (coreSt [wt 0x1000 0x1FFF 0xFF, wt 1 0xFFFF 0x60] [0x10, 0xFF0]).core
    let w := c.wr 1
    let k := c.wr 2
    1 ≤ k.bits.toNat / 2 ^ 88 ∧ k.bits.toNat / 2 ^ 48 % 2 ^ 40 ≤ 0xFFFF ∧ k.bits.toNat / 2 ^ 88 ≤ k.bits.toNat / 2 ^ 48 % 2 ^ 40 ∧
    w.bits.toNat / 2 ^ 88 + (c.xr 1).toNat + (c.xr 2).toNat ≤ 2 ^ 40 ∧ 0 < (c.xr 2).toNat := by decide +kernel

theorem met_GranaryCoreResults : let c := (coreSt [wt 0x1000 0x10FF 0xFF, wt 0x3C0000 0x3C003F 0xFF, wt 0 0xFFFFFFFFFF 0xFF, wt 0x1000 0x10FF 0xFF 4,
      wt 0 0 0 0 false, wt 0x1000 0x10FF 0xFC] [0xF8, 0x30, 0x7FFFF8, 0x410000]).core
    let lo (i : Reg) : Nat := (c.wr i).bits.toNat / 2 ^ 88
    let hi (i : Reg) : Nat := (c.wr i).bits.toNat / 2 ^ 48 % 2 ^ 40
    let open_ (i : Reg) : Bool := (c.wr i).v && (c.wr i).bits.toNat / 2 ^ 24 % 2 ^ 16 == 0
    (open_ 1 = true ∧ (c.wr 1).bits.getLsbD 40 = true ∧ (c.wr 1).bits.getLsbD 41 = true ∧ lo 1 + (c.xr 1).toNat + 8 - 1 ≤ hi 1 ∧
      (lo 1 + (c.xr 1).toNat) % 8 = 0 ∧ lo 1 + (c.xr 1).toNat < 0x3C0000 ∧
      State.reset.granary.poison.contains ((lo 1 + (c.xr 1).toNat) / 64) = false ∧ [0x10F8 / 64].contains ((lo 1 + (c.xr 1).toNat) / 64) = true) ∧
    (open_ 3 = true ∧ (c.wr 3).bits.getLsbD 40 = true ∧ 0x410000 ≤ lo 3 + (c.xr 3).toNat ∧ lo 3 + (c.xr 3).toNat < 0x800000 ∧
      lo 3 + (c.xr 3).toNat + 8 - 1 ≤ hi 3 ∧ 0x410000 ≤ lo 3 + (c.xr 4).toNat) ∧
    (open_ 2 = true ∧ (lo 2 + (c.xr 2).toNat) % 16 = 0 ∧ lo 2 + (c.xr 2).toNat + 16 - 1 ≤ hi 2 ∧ 0x3C0000 ≤ lo 2 + (c.xr 2).toNat ∧
      lo 2 + (c.xr 2).toNat < 0x400000) ∧
    ((c.wr 1).v = true ∧ (c.wr 1).bits.getLsbD 44 = true ∧ ((c.wr 5).v = true → (c.wr 5).bits.getLsbD 44 = true)) ∧
    ((c.wr 5).v = false ∧ ((c.wr 4).v = true ∧ open_ 4 = false) ∧ (open_ 6 = true ∧ (c.wr 6).bits.getLsbD 40 = false ∧ (c.wr 6).bits.getLsbD 41 = false)) ∧
    c.mach = true ∧ (Memory.wf State.reset.granary.sram = true ∧ Memory.wf State.reset.granary.wstore = true) ∧
    ((wt 0x3C0000 0x3C003F 0xEF).v = true ∧ (wt 0x3C0000 0x3C003F 0xEF).bits.getLsbD 44 = false) := by
  decide +kernel

/-- An image with its header (R353), and a handover record (R356). -/
def image (c magic : Nat) : List Byte := leBytes 4 magic ++ leBytes 1 c ++ leBytes 1 0 ++ leBytes 2 9 ++ leBytes 4 77 ++ leBytes 4 100 ++ leBytes 4 8 ++
  leBytes 2 5 ++ leBytes 2 0x20 ++ leBytes 2 0x10
def record (c time : Nat) : List Byte := leBytes 4 0x4F444E48 ++ leBytes 2 0x10 ++ leBytes 1 c ++ leBytes 1 0 ++ leBytes 8 5 ++ leBytes 8 time ++
  leBytes 4 128 ++ leBytes 36 0
def banks (c : CtrlId) (x : CtrlSt) : CtrlSt :=
  { x with bankA := image c.val 0x474D4946, bankB := image c.val 0x474D4946, stA := .active, stB := .idle, run := false }
def ctrlSt (f : CtrlSt → CtrlSt) (c : CtrlId := 3) (now : Nat := 15000000) : State :=
  { evp (fun e => { e with c := c }) (s0.modCtrl c fun x => f (banks c x)) with dtime := now, pf := { s0.pf with recov := false } }
def trialSt (c : CtrlId) (t0 : Nat) (beat : Option Nat) (now : Nat) : State :=
  ctrlSt (fun x => { x with trial := some t0, beat := beat, stB := .trial, stA := .idle, run := true }) c now

theorem met_FirmwareResults : let c (s : State) : CtrlSt := s.ctrl s.ev.c
    let a := ctrlSt id
    let v := ctrlSt (fun x => { x with verifying := true, mbWaits := true, bankB := image 3 7 })
    let g := ctrlSt (fun x => { x with stB := .staged })
    let t := trialSt 4 4000000 (some 9000000) 19000000
    let l := trialSt 0 4000000 (some 103000000) 104000000
    let h := ctrlSt (fun x => { x with beat := some 4 }) 4 10000005
    ((c a).trial = none ∧ (c a).verifying = false ∧ a.ev.bytes = [] ∧ (c a).bankSt (!(c a).run) ≠ .staged) ∧
    ((c v).verifying = true ∧ v.pf.recov = false ∧ fieldAt (c v).idleBank 0 4 ≠ 0x474D4946 ∧ (c v).mbWaits = true) ∧
    ((g.ev.c ≠ 0 ∧ (c g).verifying = false ∧ g.inTrial 0 = false ∧ (c g).bankSt (!(c g).run) = .staged ∧ (c g).trial = none ∧ g.liveCurrent g.ev.c = false) ∧
      (g.modCtrl 0 fun x => { x with trial := some 5 }).inTrial 0 = true) ∧
    ((c t).trial = some 4000000 ∧ t.dtime < 4000000 + 100000000 ∧ max 4000000 ((c t).beat.getD 4000000) + 10000000 ≤ t.dtime ∧
      (trialSt 4 4000000 (some 9000000) 18999999).dtime < 9000000 + 10000000) ∧
    ((c l).trial = some 4000000 ∧ 4000000 + 100000000 ≤ l.dtime) ∧
    ((c h).trial = none ∧ (c h).beat = some 4 ∧ 4 + 10000000 < h.dtime ∧ (c h).bankSt (c h).run = .active ∧ (c h).held = false ∧
      (ctrlSt id 4 10000004).dtime ≤ 4 + 10000000) := by decide +kernel

/-- A record with no sections is current for a SWITCH whatever its digest is. -/
def handed (c : CtrlId) : State :=
  ctrlSt (fun x => { x with stB := .staged, live := record c.val 12000000 ++ shake256 64 [] }) c
/-- The fields of the record that R356 checks, but for the controller's. -/
def recordOk (r : List Byte) : Prop := r.length = 64 ∧ fieldAt r 0 4 = 0x4F444E48 ∧ fieldAt r 24 4 = 128 ∧ fieldAt r 7 1 = 0 ∧ fieldAt r 4 2 = 0x10 ∧
  fieldAt r 16 8 = 12000000
theorem handed_live (c : CtrlId) (s : State) (r d : List Byte) (hd : d.length = 64) (hs : d = shake256 64 []) (hl : (s.ctrl c).live = r ++ d)
    (ho : recordOk r) (hc : fieldAt r 6 1 = c.val) (hr : fieldAt (s.ctrl c).running 24 2 = 0x10) (h1 : fieldAt (s.ctrl c).idleBank 20 2 ≤ 0x10)
    (h2 : 0x10 ≤ fieldAt (s.ctrl c).idleBank 22 2) (hb : (s.ctrl c).base = []) (ht : 12000000 ≤ s.dtime ∧ s.dtime ≤ 22000000) :
    s.liveCurrent c = true := by
  obtain ⟨hn, e1, e2, e3, e4, e5⟩ := ho
  unfold State.liveCurrent
  simp [hl, hc, fieldAt_append, hn, e1, e2, e3, e4, e5, hd, hr, h1, h2, hb, ht, ← hs]
  all_goals exact List.take_of_length_le (by omega)
theorem met_FirmwareResults_live : (handed 3).liveCurrent 3 = true ∧ (handed 0).liveCurrent 0 = true :=
  ⟨handed_live 3 _ (record 3 12000000) _ (shake256_length _ _) rfl rfl (by unfold recordOk; decide +kernel) (by decide +kernel) (by decide +kernel) (by decide +kernel)
    (by decide +kernel) rfl (by decide +kernel),
   handed_live 0 _ (record 0 12000000) _ (shake256_length _ _) rfl rfl (by unfold recordOk; decide +kernel) (by decide +kernel) (by decide +kernel) (by decide +kernel)
    (by decide +kernel) rfl (by decide +kernel)⟩

/-! ## Thresher -/

def dirt (s : State) : State := (s.modTile 0 fun x => { x with dirty := [2, 3, 11], slice := Mem.write [] 0x20010 [1, 2, 3] }).modTile 1 fun x =>
  { x with dirty := [1, 12], slice := Mem.write [] 0x10010 [1, 2, 3] }
def eviction (deadline : Nat) (plan : Option (List Plan) := none) : Eviction :=
  { no := 4, tiles := 3, deadline, report := 0, dv := false, dtile := 0, dflag := 0, scope := 0, t0 := 0, decided := plan.isSome, plan := plan.getD [], by_ := 0
    host := none }
def plan1 (c : Choice) : List Plan := [{ inst := 1, choice := c, esc := false, settled := none }]
def evicting (e : Eviction) (s : State) : State := (evp (fun x => { x with p := 0, k := 4, j := 1 }) s).modPart 0 fun x => { x with evictions := [e] }
/-- A checkpoint area with room for these blocks. -/
def ckArea (blks : Nat) (s : State) : State := { s with bulk := Mem.write s.bulk 0x210000 (leBytes 4 0 ++ leBytes 4 blks ++ leBytes 8 64 ++ leBytes 4 0) }.modPart 0
  fun x => { x with ctx := x.ctx.set 7 0x10000 }

/-- The tasks wait in the Tiller; none runs. -/
def waiting : State := dirt (((tiller 0 [aRec 1 0 .ready] (tiller 1 [aRec 1 1 .ready] s0)).modLogic 0 fun g => { g with task := none }).modLogic 1 fun g =>
  { g with task := none })

theorem met_ThresherResults : let c := evicting (eviction 100000) (dirt two)
    c.ev.p = 0 ∧ (c.part 0).evictions = [eviction 100000] ∧ (eviction 100000).no = c.ev.k ∧ (eviction 100000).decided = false ∧
    (eviction 100000).plan = [] ∧
    c.workQueues 0 (eviction 100000) = [inst1] ∧ c.inst 0 inst1.no = some inst1 ∧
    24 * c.dtime + c.finCk 0 inst1 * ckTime c.pf.eff + 24 * 5000 ≤ 24 * 100000 := by decide +kernel
theorem met_ThresherResults_discard : let d := evicting (eviction 12346) waiting
    d.workQueues 0 (eviction 12346) = [inst1] ∧ d.chooseFor 0 (eviction 12346) [] inst1 = .discard := by decide +kernel
theorem met_ThresherResults_checkpoint : let k := evicting (eviction 16000) (ckArea 64 waiting)
    k.workQueues 0 (eviction 16000) = [inst1] ∧ k.chooseFor 0 (eviction 16000) [] inst1 = .checkpoint ∧ inst1.st = .running ∧
      ∀ u, k.mover 0 inst1.no u = none := by decide +kernel
/-- A checkpoint whose tasks are still owed an access. -/
def owedPark (s : State) : State := s.modPart 0 fun x => { x with parked := x.parked.map fun k => { k with husks := [(1, owing)] } }
theorem met_ThresherResults_done : let done := evicting (eviction 16000 (some (plan1 .checkpoint))) ((ckArea 64 (dirt two)).park 0 1)
    (done.part 0).parked.map (fun k => (k.inst, k.written, k.quiet)) = [(1, false, true)] ∧
    (((owedPark done).part 0).parked.map fun k => (k.inst, k.written, k.quiet)) = [(1, false, false)] ∧ done.ev.j = 1 ∧
    (done.inst 0 done.ev.j).isSome ∧ (eviction 16000 (some (plan1 .checkpoint))).decided = true ∧ (eviction 16000).report = 0 ∧
    (eviction 16000 (some (plan1 .checkpoint))).plan = plan1 .checkpoint ∧ (eviction 16000 (some [])).plan = [] := by
  decide +kernel
theorem met_ThresherResults_escalation : let e (t : Nat) : Eviction := eviction t (some (plan1 .complete))
    let s := evicting (e 22345) (dirt two)
    (s.part 0).evictions = [e 22345] ∧ (e 22345).no = s.ev.k ∧ (e 22345).decided = true ∧ s.inst 0 1 = some inst1 ∧ 22345 ≤ s.dtime + 10000 ∧
    s.dtime + 10000 < (e 22346).deadline := by decide +kernel

/-! ## The host -/

def putB (pa : Nat) (b : List Byte) (s : State) : State := { s with bulk := Mem.write s.bulk pa b }
def queue0 : Queue :=
  { Queue.reset with head := 0xFFFE, tail := 0xFFFF, rd := 0xFFFF, base := 0x4000000000010000, cbase := 0x4000000000011000, en := true, log2n := 2 }
def pendRec (b : List Byte) (st : RecSt := .read) : PendRec := { idx := 0xFFFE, bytes := b, st }
/-- 64 bytes of a record: operation, flags, TAG, the rest. -/
def rec64 (op flags : Nat) (rest : List Byte := []) : List Byte := leBytes 1 op ++ leBytes 1 flags ++ leBytes 2 0 ++ leBytes 4 0x11223344 ++ (rest ++ List.replicate 56 0).take 56
/-- Queue 5 of VF 3, which partition 0 is bound to. -/
def hostSt (y : Queue := queue0) (ev : EvArgs → EvArgs := id) (s : State := two) : State :=
  ((evp (fun e => ev { e with f := 3, q := 5, p := 0 }) { s with dtime := 123456, ck := 500 }).modVf 3 fun v => { v with part := some 0 }).modQueue 3 5 fun _ => y
def posted (b : List Byte) (s : State := two) : State := hostSt { queue0 with pend := [pendRec b] } id s

def fits (y : Queue) (tail : BitVec 16) : Bool := y.en && (tail - y.head).toNat ≤ 2 ^ y.log2n.toNat && (y.rd - y.head).toNat ≤ (tail - y.head).toNat
def someAs {α β} (x : Option α × β) : Bool := x.1.isSome
theorem met_QueueResults_notify : let s := hostSt queue0 (fun e => { e with v := 0 })
    ((s.vf 3).part = some 0 ∧ (s.vf 3).flr = false ∧ fits queue0 3 = false ∧ fits queue0 0 = true ∧ (0 : BitVec 16) = queue0.rd + 1 ∧ s.inTrial 0 = false) ∧
    (((s.modQueue 3 5 fun y => { y with tail := 0, blocked := false }).ptrRead 0 (queue0.base + BitVec.ofNat 64 (64 * (queue0.rd.toNat % 4))) 64).1 =
      some (List.replicate 64 0)) ∧
    (s.modCtrl 0 fun x => { x with trial := some 4 }).inTrial 0 = true ∧ s.hostUp = true ∧ s.pf.selfRefresh = 0 ∧
    (s.modCtrl 9 fun x => { x with held := true }).hostUp = false := by
  and_intros <;> decide +kernel
theorem met_QueueResults_enable : ({ queue0 with en := false, disabling := false } : Queue).en = false ∧ queue0.en = true ∧
    (2 ≤ (0x4000000000000004 : Word).toNat % 16 ∧ (0x4000000000000004 : Word).toNat % 16 ≤ 12 ∧
      ∀ b ∈ [queue0.base, queue0.cbase], (b.toNat / 2 ^ 60 = 4 ∨ b.toNat / 2 ^ 60 = 7) ∧ b.toNat % 64 = 0) ∧
    ¬ 2 ≤ (1 : Word).toNat % 16 ∧ (({ queue0 with disabling := true } : Queue).disabling = true ∧ queue0.pend = []) ∧
    [pendRec (rec64 2 3)] ≠ [] := by
  refine ⟨rfl, rfl, ⟨by decide, by decide, ?_⟩, by decide, ⟨rfl, rfl⟩, by simp⟩
  intro b hb
  simp only [List.mem_cons, List.not_mem_nil, or_false] at hb
  rcases hb with rfl | rfl <;> decide
def endedSt (flags : Nat) : State := hostSt { queue0 with pend := [pendRec (rec64 2 flags) (.ended 17 0x123456789)] } fun e => { e with k := 0xFFFE }
theorem met_QueueResults_complete : let s := endedSt 3
    ((s.vf 3).part = some 0 ∧ (s.vf 3).flr = false ∧ (s.queue 3 5).pend = [pendRec (rec64 2 3) (.ended 17 0x123456789)] ∧ (rec64 2 3).length = 64 ∧
      (pendRec (rec64 2 3)).idx.toNat = s.ev.k) ∧ fieldAt (rec64 2 2) 1 1 % 2 = 0 ∧ fieldAt (rec64 2 3) 1 1 % 2 = 1 ∧ s.memOk ∧ s.noMigration ∧
    s.hostPtr 0 (queue0.cbase + 32) 16 = true ∧ (s.placeAll (s.part 0).home 0 .w [queue0.cbase + 32]).1 = .ok [.bulk 0 0x11020 0x211020 0x3000 false] ∧
    (s.placeAll (s.part 0).home 0 .w [queue0.cbase + 32]).2.memOk ∧ s.hostUp = true ∧ s.pf.selfRefresh = 0 := by
  unfold State.memOk State.noMigration; decide +kernel
theorem met_QueueResults_bar2 : let s := hostSt queue0 (fun e => { e with v := 0xFFF8, k := 8, bytes := [1, 2, 3] })
    (s.vf 3).part = some 0 ∧ (s.vf 3).flr = false ∧ 0 < s.ev.k ∧ s.ev.v.toNat % 65536 + s.ev.k ≤ 65536 ∧ s.ev.v.toNat + s.ev.k ≤ 2 ^ 36 ∧
    (s.translate none 0 false s.ev.v.toNat .r).1 = .ok 0x20FFF8 0x3000 ∧ 0 < s.ev.bytes.length ∧ s.ev.v.toNat % 65536 + s.ev.bytes.length ≤ 65536 ∧
    s.noMigration ∧ (s.translate none 0 false s.ev.v.toNat .w).1 = .ok 0x20FFF8 0x3000 ∧
    (s.translate none 0 false s.ev.v.toNat .w).2.memOk ∧ ((s.modVf 3 fun v => { v with flr := true }).vf 3).flr = true ∧
    2 < 4 ∧ (4 : Nat) = (3 : VfId).val + 1 ∧ s.hostUp = true ∧ s.pf.selfRefresh = 0 ∧ s.pf.d3hot = false ∧ s.pf.cold = false ∧
    (s.modPf fun x => { x with selfRefresh := 1 }).pf.selfRefresh ≠ 0 := by
  unfold State.memOk State.noMigration; decide +kernel
theorem met_QueueResults_reads : let s := hostSt
    s.hostUp = true ∧ (s.vf 3).part.isSome ∧ (s.vf 3).flr = false ∧ (s.vf 4).part = none ∧ (s.vf 4).flr = false ∧
    ((s.modVf 3 fun v => { v with flr := true }).vf 3).flr = true ∧ s.pf.d3hot = false ∧ s.pf.cold = false ∧
    (s.modPf fun x => { x with d3hot := true }).pf.d3hot = true := by decide +kernel

def streamDesc (period : Nat := 2000) (nanch : Nat := 0) : List Byte :=
  leBytes 8 period ++ leBytes 8 1500 ++ leBytes 8 0x4000000000020000 ++ leBytes 4 4 ++ leBytes 4 4096 ++ leBytes 1 2 ++ leBytes 1 1 ++ leBytes 1 2 ++ leBytes 1 0 ++
    leBytes 4 nanch ++ leBytes 8 0x4000000000000000 ++ leBytes 8 77 ++ leBytes 8 88 ++
    (List.range 8).flatMap fun i => leBytes 8 (0x4000000000000000 + 0x1000 * i) ++ leBytes 4 9 ++ leBytes 4 0
def evictDesc (tiles deadline : Nat) : List Byte := leBytes 8 tiles ++ leBytes 8 deadline ++ leBytes 48 0
def descs (d : List Byte) : State := putB 0x220000 (leBytes 8 7 ++ leBytes 8 5) (putB 0x210000 d two)
def aStream : Stream := two.streamFrom 0 streamDesc 3
def streams0 (l : List (Nat × Stream)) (s : State) : State := s.modPart 0 fun x => { x with streams := l, q0 := 5, q1 := 100 }
def ptr0 : List Byte := leBytes 8 0x4000000000010000
def memMap (mode va len : Nat) (tgt : Nat := 0) (rights : Nat := 5) : List Byte :=
  rec64 4 3 (leBytes 8 va ++ leBytes 8 len ++ leBytes 8 tgt ++ leBytes 1 mode ++ leBytes 1 rights)
/-- Tables of 64 KiB leaves for 40 0000H. -/
def leafs (s : State) : State := { s with bulk := nums s.bulk [(0x3010, 0x4001), (0x4000, 0x90000F), (0x4008, 0x91000F), (0x13010, 0x14001), (0x14000, 0x1009000F)] }
def recOk (s : State) (b : List Byte) : Prop := s.recordAt 0 (pendRec b)

theorem met_RecordResults_unknown : recOk (posted (rec64 0 3)) (rec64 0 3) ∧ recOk (posted (rec64 7 3)) (rec64 7 3) ∧ fieldAt (rec64 0 3) 0 1 = 0 ∧
    6 < fieldAt (rec64 7 3) 0 1 := by unfold recOk State.recordAt; decide +kernel
def create (n : Nat) : List Byte := rec64 1 3 (leBytes 4 n ++ leBytes 4 0 ++ ptr0)
def createSt (d : List Byte) (l : List (Nat × Stream) := []) : State := posted (create 6) (streams0 l (descs d))
def readDesc (s : State) : Option (List Byte) × State := (s.startRecord 3 5 0xFFFE).ptrRead 0 0x4000000000010000 192
theorem met_RecordResults_create : let s := createSt streamDesc [(7, aStream)]
    let s2 := (readDesc s).2
    let b := create 6
    recOk s b ∧ fieldAt b 0 1 = 1 ∧ fieldAt b 8 4 < 1024 ∧ 1024 ≤ fieldAt (create 1024) 8 4 ∧ zeroAt b 12 4 = true ∧ zeroAt b 24 40 = true ∧
    fieldAt b 16 8 / 2 ^ 60 = 4 ∧ fieldAt b 16 8 / 2 ^ 48 % 4096 = 0 ∧ fieldAt b 16 8 % 2 ^ 48 + 192 ≤ 2 ^ 48 ∧ (readDesc s).1 = some streamDesc ∧
    s2.streamOk 0 streamDesc = true ∧ (s2.part 0).stream 6 = none ∧ (s2.hwPieces 0 0x20000 64).isSome ∧ s2.hwPoisoned 0 0x20000 64 = false ∧ fieldAt streamDesc 36 4 = 0 ∧
    (s2.part 0).pins.length ≤ (s2.part 0).q0 := by
  unfold recOk State.recordAt; decide +kernel
theorem met_RecordResults_createRefused : let s := createSt streamDesc [(6, aStream)]
    let z := createSt (streamDesc 999)
    (recOk s (create 6) ∧ (readDesc s).1 = some streamDesc ∧ (readDesc s).2.streamOk 0 streamDesc = true ∧ (((readDesc s).2.part 0).stream 6).isSome) ∧
    (recOk z (create 6) ∧ (readDesc z).1 = some (streamDesc 999) ∧ (readDesc z).2.streamOk 0 (streamDesc 999) = false) ∧
    recOk (posted (create 1024)) (create 1024) := by
  unfold recOk State.recordAt; decide +kernel
def destroy (n : Nat) : List Byte := rec64 2 3 (leBytes 4 n)
theorem met_RecordResults_destroy : let s (n : Nat) := posted (destroy n) (streams0 [(6, aStream), (0, aStream)] two)
    (recOk (s 5) (destroy 5) ∧ fieldAt (destroy 5) 0 1 = 2 ∧ fieldAt (destroy 5) 8 4 = 5 ∧ zeroAt (destroy 5) 12 52 = true ∧ ((s 5).part 0).stream 5 = none) ∧
    (recOk (s 6) (destroy 6) ∧ ((s 6).part 0).stream 6 = some aStream ∧ aStream.destroying = none ∧
      ((s 6).part 0).insts.all (fun i => i.src != .stream 6) = true) ∧
    (recOk (s 0) (destroy 0) ∧ ((s 0).part 0).insts.any (fun i => i.src == .stream 0) = true) := by
  unfold recOk State.recordAt; decide +kernel
def launch (cls : Nat) : List Byte := rec64 3 3 (ptr0 ++ leBytes 8 99 ++ leBytes 8 1000000 ++ leBytes 1 cls)
theorem met_RecordResults_launch : let s := posted (launch 3)
    let full := posted (launch 3) (two.modPart 0 fun x => { x with insts := (List.range 256).map fun i => { inst1 with no := i, st := .queued } })
    recOk s (launch 3) ∧ fieldAt (launch 3) 0 1 = 3 ∧ fieldAt (launch 3) 32 1 ≤ 3 ∧ zeroAt (launch 3) 33 31 = true ∧ fieldAt (launch 3) 8 8 / 2 ^ 60 = 4 ∧
    fieldAt (launch 3) 8 8 / 2 ^ 48 % 4096 = 0 ∧ fieldAt (launch 3) 8 8 % 2 ^ 48 + 64 ≤ 2 ^ 48 ∧ (s.part 0).queueLen < 256 ∧
    (recOk full (launch 3) ∧ 256 ≤ (full.part 0).queueLen) ∧ (recOk (posted (launch 4)) (launch 4) ∧ 3 < fieldAt (launch 4) 32 1) := by
  unfold recOk State.recordAt; decide +kernel
/-- The record's operation has started. -/
def started (s : State) : State := s.startRecord 3 5 0xFFFE
def quota (n : Nat) (s : State) : State := s.modPart 0 fun x => { x with q1 := n }
def modeOk (b : List Byte) (k : Nat) : Bool := fieldAt b 0 1 = 4 && fieldAt b 32 1 = k && fieldAt b 33 1 ≤ 7 && zeroAt b 34 30 && fieldAt b 8 8 % 65536 = 0 &&
  fieldAt b 16 8 % 65536 = 0 && fieldAt b 8 8 + fieldAt b 16 8 ≤ 2 ^ 48
theorem met_RecordResults_map : let b := memMap 0 0x600000 0x20000
    let s (n : Nat) := posted b (quota n { two with bulk := [] })
    let need (s : State) : Nat := grainsOf s.bulk 3 (s.tableRoot 0 false) - s.mappedIn 0 false 0x600000 2 + 2
    recOk (s 100) b ∧ modeOk b 0 = true ∧ (s 100).holdsStructure 0 0x600000 0x20000 = false ∧ need (s 100) ≤ ((s 100).part 0).q1 ∧
    ((started (s 100)).allocRange 0 5 0x600000 2).tier1Full = false ∧ (recOk (s 1) b ∧ ((s 1).part 0).q1 < need (s 1)) := by
  unfold recOk State.recordAt; decide +kernel
/-- The space of bulk physical addresses is used up. -/
theorem met_RecordResults_mapFull : let b := memMap 0 0x600000 0x20000
    let s : State := { posted b (quota 100 { two with bulk := [] }) with heap := 2 ^ 52 }
    recOk s b ∧ s.holdsStructure 0 0x600000 0x20000 = false ∧ ((started s).allocRange 0 5 0x600000 2).tier1Full = true ∧
    s.tier1Used < ((started s).allocRange 0 5 0x600000 2).tier1Used := by
  unfold recOk State.recordAt; decide +kernel
theorem met_RecordResults_unmap : let b := memMap 1 0x400000 0x10000
    let s := posted b (leafs two)
    let c := memMap 1 0x20000 0x10000
    let u := posted c (streams0 [(6, aStream)] two)
    (recOk s b ∧ modeOk b 1 = true ∧ s.holdsStructure 0 0x400000 0x10000 = false ∧ walkFrom s.bulk 0x400000 3 (s.tableRoot 0 false) = .leaf 0x90000F 0x4000 0 ∧
      ((started s).unmapRange 0 false 0x400000 1).tier1Full = false ∧ s.memOk) ∧
    (recOk u c ∧ modeOk c 1 = true ∧ u.holdsStructure 0 0x20000 0x10000 = true) := by
  unfold recOk State.recordAt State.memOk; decide +kernel
theorem met_RecordResults_window : let b := memMap 2 0x600000 0x20000 0x70000
    let c := memMap 2 0x600000 0x20000 0x70010
    (recOk (posted b) b ∧ modeOk b 2 = true ∧ fieldAt b 24 8 % 65536 = 0 ∧ fieldAt b 24 8 + fieldAt b 16 8 ≤ 2 ^ 52 ∧
      (((started (posted b)).unmapRange 0 true 0x600000 2).mapRange 0 true 5 2 0x600000 0x70000 2).tier1Full = false) ∧
    (recOk (posted c) c ∧ modeOk c 2 = true ∧ fieldAt c 24 8 % 65536 ≠ 0) := by
  unfold recOk State.recordAt; decide +kernel
theorem met_RecordResults_hunmap : let d := memMap 3 0x400000 0x10000
    let s := posted d (leafs two)
    recOk s d ∧ modeOk d 3 = true ∧ walkFrom s.bulk 0x400000 3 (s.tableRoot 0 true) = .leaf 0x1009000F 0x14000 0 ∧ s.memOk ∧
    ((started s).unmapRange 0 true 0x400000 1).tier1Full = false := by
  unfold recOk State.recordAt State.memOk; decide +kernel
theorem met_RecordResults_protect : let e := memMap 4 0x400000 0x10000 0 2
    let u := posted e (leafs two)
    recOk u e ∧ modeOk e 4 = true ∧ walkFrom u.bulk 0x400000 3 (u.tableRoot 0 false) = .leaf 0x90000F 0x4000 0 ∧ u.memOk ∧
    ((started u).editPages 0 false 0x400000 1 (fun e => e / 32 * 32 + e % 4 + 4 * 2)).tier1Full = false := by
  unfold recOk State.recordAt State.memOk; decide +kernel
def evictRec : List Byte := rec64 5 3 ptr0
def evictSt (tiles deadline : Nat) : State := posted evictRec (descs (evictDesc tiles deadline))
def evictOf (s : State) : Option (List Byte) × State := (s.startRecord 3 5 0xFFFE).ptrRead 0 0x4000000000010000 64
theorem met_RecordResults_evict : let s := evictSt 3 183456
    let l := evictSt 3 183455
    let w := evictSt 4 200000
    (recOk s evictRec ∧ fieldAt evictRec 0 1 = 5 ∧ zeroAt evictRec 16 48 = true ∧ (evictOf s).1 = some (evictDesc 3 183456) ∧
      (evictOf s).2.evictOk 0 (evictDesc 3 183456) true = true ∧ (evictOf s).2.dtime + 60000 ≤ fieldAt (evictDesc 3 183456) 8 8) ∧
    ((evictOf l).1 = some (evictDesc 3 183455) ∧ (evictOf l).2.evictOk 0 (evictDesc 3 183455) true = true ∧
      fieldAt (evictDesc 3 183455) 8 8 < (evictOf l).2.dtime + 60000) ∧
    ((evictOf w).1 = some (evictDesc 4 200000) ∧ (evictOf w).2.evictOk 0 (evictDesc 4 200000) true = false) := by
  unfold recOk State.recordAt; decide +kernel

def migrateRec (phase : Nat) (rest : List Byte := []) : List Byte := rec64 6 3 (leBytes 1 phase ++ leBytes 7 0 ++ rest)
/-- BITMAP, SPAN, the device and the partition. -/
def startRec : List Byte := migrateRec 0 (leBytes 8 0x4000000000010000 ++ leBytes 8 0x600000 ++ (leBytes 10 1 ++ leBytes 6 0))
def migration0 : Migration := { vf := 3, bmap := 0x4000000000010000, span := 0x600000, dev := 1, part := 0, stopped := false, round := none }
def migrating (m : Migration) (s : State) : State := s.modPart 0 fun x => { x with migration := some m }
def inWorld (f : VfId) (s : State) : State := s.modPart 0 fun x => { x with world := some f }
def phaseOk (b : List Byte) (k : Nat) : Bool := fieldAt b 0 1 = 6 && fieldAt b 8 1 = k && zeroAt b 9 7
theorem met_MigrationResults_start : let s := posted startRec
    let m := posted startRec (migrating migration0 two)
    let map := (List.range 16).map (s.mappedByte 0 0x600000) ++ List.replicate 1024 0
    recOk s startRec ∧ phaseOk startRec 0 = true ∧ zeroAt startRec 48 16 = true ∧ fieldAt startRec 24 8 = 0x600000 ∧ fieldAt startRec 32 10 = 1 ∧
    fieldAt startRec 42 6 = 0 ∧ s.hostPtr 0 0x4000000000010000 1040 = true ∧ (s.part 0).tileList.length = 2 ∧ (s.part 0).migration = none ∧
    (s.domEntry 0 1).any (fun g => g.rpart = 0 && grants g.rights .w) = true ∧ ((started s).ptrWrites 0 0x4000000000010000 map (cutsOf 0x10000 1040)).1 = true ∧
    (recOk m startRec ∧ (m.part 0).migration = some migration0) := by
  unfold recOk State.recordAt; decide +kernel
theorem met_MigrationResults_round : let b := migrateRec 1
    let s := posted b (migrating migration0 two)
    recOk s b ∧ phaseOk b 1 = true ∧ zeroAt b 16 48 = true ∧ (s.part 0).migration = some migration0 ∧ migration0.vf = s.ev.f ∧ migration0.round = none ∧
    (recOk (posted b) b ∧ ((posted b).part 0).migration = none) := by
  unfold recOk State.recordAt; decide +kernel
theorem met_MigrationResults_stop : let b := migrateRec 2
    let s := posted b (inWorld 3 (migrating migration0 waiting))
    let w := posted b (inWorld 3 (freezes 0 ⟨some 0, 100, none⟩ two))
    let z := posted b (inWorld 4 two)
    (recOk s b ∧ phaseOk b 2 = true ∧ zeroAt b 16 48 = true ∧ (s.part 0).migration = some migration0 ∧ (s.part 0).world = some s.ev.f ∧ s.switchable 0 = true) ∧
    (recOk w b ∧ (w.part 0).world = some w.ev.f ∧ w.switchable 0 = false) ∧
    (recOk z b ∧ (z.part 0).world ≠ some z.ev.f ∧ (z.part 0).migration = none) := by
  unfold recOk State.recordAt; decide +kernel
theorem met_MigrationResults_stopped : let b := migrateRec 2
    let m := { migration0 with stopped := true }
    let s := posted b (inWorld 4 (migrating m two))
    recOk s b ∧ (s.part 0).migration = some m ∧ m.vf = s.ev.f ∧ m.stopped = true ∧ m.round = none ∧ (s.part 0).world ≠ some s.ev.f := by
  unfold recOk State.recordAt; decide +kernel
/-- A round of queue 5's record stands at this word, with these bits to copy, of which this block is next. -/
def roundAt (word : Nat) (todo : List Nat) (blk : Nat) (stop : Bool := false) : Round := ⟨5, 0xFFFE, word, todo, blk, 0, stop⟩
def rounding (r : Round) (ptr : Word := 0x4000000000010000) : State :=
  posted (migrateRec 1) (migrating { migration0 with bmap := ptr, round := some r } two)
theorem met_MigrationResults_rounds : let a := rounding (roundAt 129 [] 0)
    let n := rounding (roundAt 0 [] 0) 0x4000000000900000
    let c := rounding (roundAt 1 [2, 5] 1023)
    let e := rounding (roundAt 130 [] 0)
    (((a.vf a.ev.f).part = some 0 ∧ (a.part 0).migration = some { migration0 with round := some (roundAt 129 [] 0) } ∧ migration0.vf = a.ev.f ∧
        (roundAt 129 [] 0).q = a.ev.q ∧ (pendRec []).idx = (roundAt 129 [] 0).idx) ∧
      ¬ (migration0.pageWords + 64 * (a.part 0).tileList.length ≤ 129) ∧ (a.ptrRead 0 0x4000000000010408 8).1.isSome ∧
      ((a.ptrRead 0 0x4000000000010408 8).2.ptrWrite 0 0x4000000000010408 (List.replicate 8 0)).1 = true) ∧
    (n.ptrRead 0 0x4000000000900000 8).1 = none ∧
    (2 < 64 * migration0.pageWords ∧ migration0.dev ≠ c.fabric.own ∧ ((c.domEntry 0 migration0.dev).map c.livePlanes).getD [] ≠ [] ∧
      c.memOk ∧ (c.hwRead 0 (65536 * 2 + 64 * 1023) 64).isSome) ∧
    (migration0.pageWords + 64 * (e.part 0).tileList.length ≤ 130 ∧ (roundAt 130 [] 0).stop = false ∧ (roundAt 130 [] 0 true).stop = true) := by
  unfold State.memOk; decide +kernel
theorem met_MigrationResults_resume : let b := migrateRec 3 (leBytes 16 0 ++ leBytes 10 1)
    let s := posted b (ckArea 1 two)
    (recOk s b ∧ phaseOk b 3 = true ∧ zeroAt b 16 16 = true ∧ fieldAt b 32 10 ≤ 1023 ∧ zeroAt b 42 22 = true ∧ s.ckptVa 0 ≠ 0 ∧
      (s.hwRead 0 (s.ckptVa 0) (65536 * s.hwNum 0 (s.ckptVa 0 + 4) 4)).isSome) ∧
    (recOk (posted b) b ∧ (posted b).ckptVa 0 = 0) := by
  unfold recOk State.recordAt; decide +kernel
theorem met_MigrationResults_cancel : let b := migrateRec 4
    let s := posted b (migrating migration0 two)
    let c := migrateRec 5
    (recOk s b ∧ phaseOk b 4 = true ∧ zeroAt b 16 48 = true ∧ (s.part 0).migration = some migration0 ∧ migration0.vf = s.ev.f ∧ migration0.stopped = false ∧ migration0.round = none) ∧
    (recOk (posted b) b ∧ ((posted b).part 0).migration = none) ∧ (recOk (posted c) c ∧ fieldAt c 0 1 = 6 ∧ 4 < fieldAt c 8 1) := by
  unfold recOk State.recordAt; decide +kernel
theorem met_MigrationResults_back : let b := migrateRec 4
    let m := { migration0 with stopped := true }
    let s := posted b (migrating m two)
    recOk s b ∧ (s.part 0).migration = some m ∧ m.round = none ∧ m.stopped = true ∧ (s.part 0).world = none ∧ (s.part 0).saved = [] := by
  unfold recOk State.recordAt; decide +kernel
theorem met_MigrationResults_flr : let s := hostSt
    let z := (hostSt).modVf 3 fun v => { v with flr := true }
    ((s.vf s.ev.f).flr = false ∧ (s.vf s.ev.f).part = some 0 ∧ s.inTrial 0 = false) ∧ ((z.vf z.ev.f).flr = true ∧ (z.vf z.ev.f).part = some 0) ∧
    (s.modCtrl 0 fun x => { x with trial := some 4 }).inTrial 0 = true := by decide +kernel

def mbox (code : Nat) (args : List Nat) (s : State := two) : State := (hostSt queue0 id s).modPf fun x =>
  { x with busy := true, mbcmd := BitVec.ofNat 8 code, mbResult := none, ready := true, recov := false
           mbargs := args.zipIdx.foldl (fun v e => v.set! e.2 (BitVec.ofNat 64 e.1)) x.mbargs }
def due (s : State) (code : Nat) : Prop := s.pf.busy = true ∧ s.pf.mbcmd.toNat = code ∧ s.pf.mbResult = none ∧ s.pf.ready = true ∧ s.pf.recov = false ∧
  s.inTrial 0 = false ∧ (s.granary.ctrls.toList.all fun c => !c.mbWaits) = true
def arg (s : State) (k : Fin 4) : Nat := (s.pf.mbargs[k]).toNat
def hostAt (s : State) (k : Fin 4) (n a : Nat) : Prop := arg s k = 7 * 2 ^ 60 + a ∧ a + n ≤ 2 ^ 48 ∧ a < 2 ^ 48
def hp (a : Nat) : Nat := 7 * 2 ^ 60 + a
def hostMem (a : Nat) (b : List Byte) (s : State) : State := { s with host := Mem.write s.host a b }
/-- A partition block without slots: TILES, SLIM, HOME, Q0, Q1, REFILL, WINDOW. -/
def partHdr (mask slim home : Nat) : List Byte :=
  leBytes 8 mask ++ leBytes 2 slim ++ leBytes 1 home ++ leBytes 1 0 ++ leBytes 4 11 ++ leBytes 4 12 ++ leBytes 3 0 ++ leBytes 2 0 ++ leBytes 39 0
def partBlk (mask slim home : Nat) : List Byte := partHdr mask slim home ++ List.replicate 2048 0
def partSt (b : List Byte) (s : State) : State := mbox 5 [hp 0x410000, 0] (hostMem 0x410000 b s)
def emptied : State := (tiller 0 [] (tiller 1 [] waiting)).modPart 0 fun x => { x with insts := [] }

theorem met_MailboxResults_registers : let s := (hostSt queue0 (fun e => { e with v := 0x105 })).modPf fun x => { x with busy := false, d3hot := false, cold := false }
    let y : Queue := { queue0 with en := false, disabling := false }
    s.pf.d3hot = false ∧ s.pf.cold = false ∧ s.pf.busy = false ∧ (mbox 0 []).pf.busy = true ∧ (mbox 0 []).pf.d3hot = false ∧ (mbox 0 []).pf.cold = false ∧
    ((s.vf 3).part.isSome ∧ (s.vf 3).flr = false ∧ (s.queue 3 5).en = true) ∧ ((hostSt y).queue 3 5).en = false ∧ ((hostSt y).queue 3 5).disabling = false ∧
    (((mbox 5 []).modPf fun x => { x with mbResult := some 0x133 }).pf.busy = true) := by decide +kernel
theorem met_MailboxResults_image : let s := mbox 1 [3, hp 0x1000, 300, hp 0x2000] (two.modCtrl 3 (banks 3))
    due s 1 ∧ arg s 0 ≤ 26 ∧ arg s 2 ≤ 0x80000 ∧ hostAt s 1 (arg s 2) 0x1000 ∧ hostAt s 3 57 0x2000 ∧ (s.ctrl 3).bankSt (!(s.ctrl 3).run) ≠ .active ∧
    (s.ctrl 3).trial = none ∧ (s.ctrl 3).verifying = false ∧ (due (mbox 1 [27]) 1 ∧ 26 < arg (mbox 1 [27]) 0) ∧ (due (mbox 0 []) 0 ∧ due (mbox 9 []) 9) := by
  unfold due hostAt; decide +kernel
theorem met_MailboxResults_switch : let a := mbox 2 [3] (two.modCtrl 3 (banks 3))
    let b := mbox 3 [3] (two.modCtrl 3 fun x => { banks 3 x with stB := .staged })
    (due a 2 ∧ arg a 0 ≤ 26 ∧ a.ev.bytes = [] ∧ (a.ctrl 3).bankSt (!(a.ctrl 3).run) ≠ .staged) ∧
    (due b 3 ∧ arg b 0 ≤ 26 ∧ (b.ctrl 3).verifying = false ∧ (b.ctrl 3).bankSt (!(b.ctrl 3).run) = .staged) ∧ (due (mbox 3 [27]) 3 ∧ 26 < arg (mbox 3 [27]) 0) := by
  unfold due; decide +kernel
def mboxSwitch : State := { mbox 2 [3] (handed 3) with dtime := 15000000 }
theorem met_MailboxResults_switched : due mboxSwitch 2 ∧ arg mboxSwitch 0 ≤ 26 ∧ mboxSwitch.ev.bytes = [] ∧
    (mboxSwitch.ctrl 3).bankSt (!(mboxSwitch.ctrl 3).run) = .staged ∧ ((mboxSwitch.ctrl 3).trial = none ∧ (mboxSwitch.ctrl 3).verifying = false) ∧ mboxSwitch.liveCurrent 3 = true := by
  refine ⟨?_, by decide +kernel, rfl, by decide +kernel, by decide +kernel, ?_⟩
  · unfold due; decide +kernel
  · exact handed_live 3 _ (record 3 12000000) _ (shake256_length _ _) rfl rfl (by unfold recordOk; decide +kernel) (by decide +kernel) (by decide +kernel)
      (by decide +kernel) (by decide +kernel) rfl (by decide +kernel)
theorem met_MailboxResults_attest : let s := mbox 4 [hp 0x410000, hp 0x420000, hp 0x430000, 0] (hostMem 0x410000 (leBytes 64 0x123456) two)
    due s 4 ∧ hostAt s 0 64 0x410000 ∧ hostAt s 1 2450 0x420000 ∧ arg s 2 = 7 * 2 ^ 60 + 0x430000 ∧ s.memOk := by
  unfold due hostAt State.memOk; decide +kernel
theorem partSt_block (b : List Byte) (s : State) (h : Memory.wf s.host = true) (hl : b.length = 2112) :
    Mem.read (partSt b s).host 0x410000 2112 = b := hl ▸ Mem.read_write s.host 0x410000 b h
theorem leNat_zeros (n : Nat) : leNat (List.replicate n 0) = 0 := by
  induction n with
  | zero => rfl
  | succ n ih => rw [List.replicate_succ, leNat, ih]; rfl
theorem partBlk_slots (mask slim home : Nat) : blockSlots (partBlk mask slim home) = List.replicate 256 0 := by
  unfold blockSlots
  rw [List.eq_replicate_iff]
  refine ⟨by simp, fun w hw => ?_⟩
  obtain ⟨i, -, rfl⟩ := List.mem_map.mp hw
  have l : (partHdr mask slim home).length = 64 := by simp [partHdr]
  rw [wordAt, fieldAt, partBlk, List.drop_append, List.drop_eq_nil_of_le (by omega), List.nil_append, List.drop_replicate, List.take_replicate, leNat_zeros]
  rfl
theorem zeros_getD (n i : Nat) : (List.replicate n (0 : Word)).getD i 0 = 0 := by
  rw [List.getD_eq_getElem?_getD, List.getElem?_replicate]; split <;> rfl
theorem met_MailboxResults_part : let s := partSt (partBlk 1 20 0) emptied
    due s 5 ∧ hostAt s 0 2112 0x410000 ∧ arg s 1 ≤ 39 ∧ Mem.read s.host 0x410000 2112 = partBlk 1 20 0 ∧ (s.part 0).insts = [] ∧
    (s.part 0).tileList.all (fun u => !(s.tile u).held) = true := by
  refine ⟨?_, ?_, ?_, partSt_block _ _ (by decide +kernel) (by decide +kernel), ?_⟩ <;> (try unfold due) <;> (try unfold hostAt) <;> decide +kernel
theorem met_MailboxResults_partBlock : (partSt (partBlk 1 20 0) emptied).blockOk 0 (partBlk 1 20 0) = true := by
  unfold State.blockOk
  simp only [partBlk_slots, zeros_getD]
  decide +kernel
theorem met_MailboxResults_partInUse : let s := partSt (partBlk 1 20 0) two
    due s 5 ∧ s.blockOk 0 (partBlk 1 20 0) = true ∧ (s.part 0).insts ≠ [] := by
  refine ⟨?_, ?_, by decide +kernel⟩
  · unfold due; decide +kernel
  · unfold State.blockOk
    simp only [partBlk_slots, zeros_getD]
    decide +kernel
theorem met_MailboxResults_partRefused : (partSt (partBlk 1 20 2) emptied).blockOk 0 (partBlk 1 20 2) = false := by decide +kernel
theorem met_MailboxResults_bind : let s (code f : Nat) := mbox code [f, 1]
    (arg (s 6 4) 0 = (3 : VfId).val + 1 ∧ arg (s 6 4) 1 ≤ 39 ∧ due (s 6 4) 6 ∧ ((s 6 4).vf 3).part.isSome) ∧ (due (s 6 5) 6 ∧ arg (s 6 5) 0 = (4 : VfId).val + 1 ∧
      ((s 6 5).vf 4).part = none) ∧ (due (s 7 5) 7 ∧ ((s 7 5).vf 4).part = none) ∧ (due (s 7 4) 7 ∧ ((s 7 4).vf 3).part = some 0) ∧
    ((s 7 4).part 0).switch = none ∧ (s 7 4).hostUp = true ∧ ((s 7 4).modCtrl 9 fun x => { x with held := true }).hostUp = false ∧
    (due (s 6 0) 6 ∧ arg (s 6 0) 0 = 0 ∧ 256 < arg (s 6 257) 0) ∧ (due (mbox 8 [hp 0x1000, 3]) 8 ∧ hostAt (mbox 8 [hp 0x1000, 3]) 0 0 0x1000) := by
  unfold due hostAt; decide +kernel

def power (f : PfSt → PfSt) (ev : EvArgs → EvArgs := id) (s : State := two) : State := { evp ev s with pf := f { s.pf with d3hot := false, cold := false } }
def onTile (t : Tile) (f : TileSt → TileSt) (s : State) : State := s.modTile t f
def bankState (c : CtrlId) (s : State) : State := s.modCtrl c fun x => { x with stA := .active, stB := .idle, run := false }
theorem met_PowerResults_reset : let s := bankState 3 two
    ((s.ctrl 3).stA ≠ .trial ∧ (s.ctrl 3).stB ≠ .trial) ∧ (let a := power fun x => { x with tj := 105, trip := false }
    105 ≤ a.pf.tj.toNat ∧ a.pf.trip = false ∧ a.pf.cold = false) ∧ (power fun x => { x with tj := 104 }).pf.tj.toNat < 105 ∧
    (let b := power fun x => { x with tj := 94, trip := true }
    b.pf.tj.toNat < 95 ∧ b.pf.d3hot = false ∧ b.pf.cold = false ∧ b.pf.trip = true) ∧ 95 ≤ (power fun x => { x with tj := 95 }).pf.tj.toNat := by decide +kernel
theorem met_PowerResults_level : let s (v : Word) := power (fun x => { x with trip := false }) fun e => { e with v }
    (s 0xFF1).pf.d3hot = false ∧ (s 0xFF1).pf.cold = false ∧ (s 0xFF1).ev.v.toNat % 4 ≠ 3 ∧ (s 0xFF3).ev.v.toNat % 4 = 3 ∧ (s 2).pf.trip = false := by
  decide +kernel
def codeOf (w : Word) (a : Tile) : Nat := w.toNat / 2 ^ (2 * (a.val % 32)) % 4
/-- A tile that holds a task leaves ON; a tile of a partition is switched off; tiles 6, 7 and 8 change as they may. -/
theorem met_PowerResults_tilepwr : let s (v : Word) (f : State → State := id) := f (power (fun x => { x with tilepwr := x.tilepwr.set 0 0 }) fun e => { e with k := 0, v })
    (∃ a : Tile, a.val / 32 = 0 ∧ codeOf 0 a = 0 ∧ codeOf 1 a ≠ 0 ∧ ((s 1).tile a).held = true) ∧
    (let z := s 0x30 fun t => t.modPart 0 fun x => { x with tiles := 5 }
     (∀ a : Tile, a.val / 32 = 0 → codeOf 0 a = 0 → codeOf 0x30 a ≠ 0 → (z.tile a).held = false) ∧
     ∃ a : Tile, ∃ p : PartId, a.val / 32 = 0 ∧ codeOf 0 a ≠ 3 ∧ codeOf 0x30 a = 3 ∧ (z.part p).has a = true) ∧
    (s 0x3900).pwrRefusal 0 0x3900 = 0 := by
  exact ⟨⟨0, by decide +kernel⟩, ⟨by decide +kernel, 2, 0, by decide +kernel⟩, by decide +kernel⟩
theorem met_PowerResults_wake : let s (p : TilePwr) := onTile 2 (fun x => { x with waking := true, pwr := p, slice := [(5, 5)], empty := [1] }) (power id fun e => { e with t := 2 })
    (((s .off).tile 2).waking = true ∧ ((s .off).tile 2).heldOver = none ∧ ((s .off).tile 2).pwr = .off) ∧
    (((s .retain).tile 2).waking = true ∧ ((s .retain).tile 2).heldOver = none ∧ ((s .retain).tile 2).pwr ≠ .off) ∧
    ((power id fun e => { e with t := 2 }).tile 2).waking = false := by decide +kernel
theorem met_PowerResults_d3 : let s := power id
    ((List.finRange 64).all (fun a => !(s.tile a).waking) = true ∧ (List.finRange 40).all (fun p => !(s.part p).inUse || s.switchable p) = true ∧
      s.task 0 = some ctl ∧ (s.tile 0).freeSlot = some 0) ∧ ({ two with pf := { two.pf with d3hot := true } } : State).pf.d3hot = true := by decide +kernel
theorem met_PowerResults_held : (two.ctrl 26).held = false ∧ ((two.modCtrl 26 fun x => { x with held := true }).ctrl 26).held = true := by
  decide +kernel
def scrubbed (found : ScrubOutcome) (w : ScrubTarget) (s : State := two) : State := evp (fun e => { e with found, scrub := w }) s
theorem met_PowerResults_scrub : ((scrubbed .corrected (.slice 2 5)).ev.found = .corrected ∧ (scrubbed .corrected (.slice 2 5)).ev.scrub = .slice 2 5) ∧
    (scrubbed .corrected (.hbm 5)).ev.scrub = .hbm 5 ∧ ((scrubbed .uncorrectable (.hbm 5)).ev.found = .uncorrectable ∧
    (scrubbed .uncorrectable (.slice 2 0x3FFFFF)).ev.scrub = .slice 2 0x3FFFFF ∧ 0x3FFFFF < 0x400000) ∧
    ((scrubbed .uncorrectable (.logic 0)).ev.scrub = .logic 0 ∧ (scrubbed .uncorrectable (.logic 0)).task 0 = some ctl ∧
      (scrubbed .uncorrectable (.logic 0)).inst ctl.part ctl.inst = some inst1) ∧ (scrubbed .clean (.logic 1)).ev.found = .clean := by decide +kernel
theorem met_PowerResults_counters : ∀ k ∈ [0, 1, 2], (power id fun e => { e with k }).ev.k = k ∧ (power id).pf.d3hot = false ∧ (power id).pf.cold = false := by
  decide +kernel

def fabReq (off : Nat) (op : FabricOp) (f : FabricSt → FabricSt := id) : State :=
  ({ evp (fun e => { e with fabric := some { source := 4, tag := 9, part := 0, offset := off, op } }) two with dtime := 2000000000 } : State).modFab f
def keptAmo : Kept := { source := 4, tag := 9, value := 0x1122334455667788, poison := false, at_ := 1998000000 }
def isKept (s : State) : Bool := s.fabric.kept.any fun k => k.source = 4 && k.tag = 9
def okAt (r : XRes) (pa leaf : Nat) : Bool := match r with
  | .ok a l => a = pa && l = leaf
  | _ => false
theorem met_FabricResults_serve : let s := fabReq 0x10 (.load 8)
    let w := fabReq 0x200010 (.store [1, 2, 3] true)
    let a := fabReq 0x10 (.amo .cas 5 1)
    let k := fabReq 0x10 (.amo .add 5 0) fun f => { f with kept := [{ keptAmo with tag := 8 }, keptAmo] }
    (s.ev.fabric.isSome ∧ okAt (s.translate none 0 false 0x10 .r).1 0x200010 0x3000 = true) ∧
    (okAt (w.translate none 0 false 0x10 .w).1 0x200010 0x3000 = true ∧ w.noMigration ∧ (w.translate none 0 false 0x10 .w).2.memOk) ∧
    (isKept a = false ∧ okAt (a.translate none 0 false 0x10 .rw).1 0x200010 0x3000 = true ∧ a.noMigration ∧ (a.translate none 0 false 0x10 .rw).2.memOk) ∧
    k.fabric.kept.find? (fun k => decide (k.source = 4) && decide (k.tag = 9)) = some keptAmo := by
  unfold State.noMigration State.memOk; decide +kernel
theorem met_FabricResults_flag : let s := fabReq 0 (.flag .tas 1 4095)
    let n := fabReq 0 (.flag .tas 5 7)
    let e : State := { fabReq 0x10 (.load 8) with bulkPoison := [0x3000 / 64] }
    (s.ev.fabric.map (·.op) = some (.flag .tas 1 4095) ∧ s.pf.selfRefresh = 0 ∧ isKept s = false ∧ (s.part 0).has 1 = true ∧ s.memOk) ∧
    (isKept n = false ∧ (n.part 0).has 5 = false) ∧ (e.translate none 0 false 0x10 .r).1 = .ecc ∧
    (s.modPf fun x => { x with selfRefresh := 1 }).pf.selfRefresh ≠ 0 := by
  unfold State.memOk; decide +kernel
theorem met_FabricResults_refused : let z := fabReq 0x400010 (.load 64)
    let p : State := { z with bulk := nums z.bulk [(0x3010, 0x800003)] }
    ((fabReq 0x600000 (.load 8)).translate none 0 false 0x600000 .r).1 = .np 1 ∧ (p.translate none 0 false 0x400010 .r).1 = .perm 1 false := by decide +kernel
def fabTime (ev : EvArgs → EvArgs) (f : FabricSt → FabricSt := id) (s : State := two) : State := ({ evp ev s with dtime := 2000000 } : State).modFab f
def fabReq1 : FabReq := { tag := 1, plane := 0, sent := 1980000, tile := 0, dev := 1, off := 5 }
def lone (b : Nat) (f : FabricSt) : FabricSt := { f with ports := BitVec.ofNat 16 b }
theorem met_FabricResults_reissue : let s (b t : Nat) := fabTime (fun e => { e with k := 0 }) fun f => { lone b f with reqs := [{ fabReq1 with sent := t }] }
    (((s 3 1980000).fabric.reqs[(s 3 1980000).ev.k]?) = some fabReq1 ∧ ((s 3 1980000).planesFor 0 1).filter (fun q => q ≠ 0) = [1] ∧
      1980000 + 20000 ≤ (s 3 1980000).dtime) ∧
    ((s 3 1980001).dtime < 1980001 + 20000 ∧ (s 3 1980001).fabric.ports.getLsbD 0 = true ∧ ((s 3 1980001).planesFor 0 1).filter (fun q => q ≠ 0) = [1]) := by
  decide +kernel
theorem met_FabricResults_ports : let s := fabTime fun e => { e with k := 15 }
    let w (u : Sq) (b since : Nat) := (fabTime (fun e => { e with u }) (lone b) (two.modC 0 fun c => { c with wait := .noPlane 0x6001000000000000 true since })).modSeq 0 u
      fun c => { c with wait := .noPlane 0x6001000000000000 true since }
    (s.ev.k < 16 ∧ s.fabric.ports.getLsbD s.ev.k = true) ∧ ((w .c 0 1000000).tile 0).runs = true ∧ ((w .c 0 1000000).c 0).wait = .noPlane 0x6001000000000000 true 1000000 ∧
    (1000000 + 1000000 ≤ (w .c 0 1000000).dtime ∧ (w .c 0 1000000).planesFor 0 1 = []) ∧ ((w .c 1 1000000).planesFor 0 1 ≠ []) ∧
    (let z : Cmd := { cmd0 with noPlane := some (0x6001000000000000, true, 1000000), st := .running }
     let y := fabTime (fun e => { e with u := .m, k := cmd0.seq }) (lone 0) (cmdSt z)
     (y.tile y.cur).runs = true ∧ y.ev.u = .m ∧ (y.copy y.cur).q.find? (fun c => decide (c.seq = y.ev.k)) = some z ∧ z.st = .running) ∧
    (∀ u ∈ [Sq.l, Sq.s], (w u 0 1000000).ev.u = u ∧ ((w u 0 1000000).seq 0 u).wait = .noPlane 0x6001000000000000 true 1000000) ∧
    (let z := fabTime (fun e => { e with k := 1 }) fun f => { f with kept := [keptAmo, { keptAmo with at_ := 0 }] }
     z.fabric.kept[z.ev.k]? = some { keptAmo with at_ := 0 } ∧ 0 + 2000000 ≤ z.dtime ∧ z.dtime < 1 + 2000000) := by decide +kernel

/-! ## Steps, encodings, invariants -/

def head (s : State) : Pick := s.schedule.headD (.clock 0 0)
def cWord (pc : Word) (w : Nat := 0x04611000) : State := (State.reset.withFetchWord 32 w).modC 0 fun c => { c with pc }
def fetched (s : State) : Fetched (W32 × Option W32) := (({ s with schedule := s.schedule.tail, cur := 0, curSq := .c } : State).fetchC 0).1
def okOf {α} : Fetched α → Option α
  | .ok x => some x
  | _ => none
def fetchOf (s : State) : Option (W32 × Option W32) := okOf (fetched s)
def fails {α} : Fetched α → Bool
  | .fail _ => true
  | _ => false
def fetchWaits {α} : Fetched α → Bool
  | .wait => true
  | _ => false
theorem met_StepRunsDecoded_c : let s := State.reset.withFetchWord 32 0x04611000
    (s.schedule = .seq 0 .c :: s.schedule.tail ∧ (s.tile 0).runs = true ∧ (s.c 0).canIssue = true ∧ fetchOf s = some (0x04611000, some 0)) ∧
    (decode .c 0x04611000 (some 0)).toOption = some (.add 3 1 2) ∧
    ((fetchOf (State.reset.withFetchWord 32 0xFC000000)).isSome ∧ (decode .c 0xFC000000 (some 0)).toOption = none) ∧
    (let z := s.modC 0 fun c => { c with spaceBad := true }
     fails (fetched z) = true ∧ z.schedule = .seq 0 .c :: z.schedule.tail ∧ (z.tile 0).runs = true ∧ (z.c 0).canIssue = true) ∧
    s.binStall 0 = false ∧ ((s.modC 0 fun c => { c with ops := [parkedLd] }).modTile 0 fun x => { x with empty := [2] }).binStall 0 = true ∧
    (let f := s.modC 0 fun c => { c with ops := [{ sto 5 with fenced := true }] }
     fetchWaits (fetched f) = true ∧ f.binStall 0 = false) := by
  decide +kernel
theorem met_StepRunsDecoded_fetch : ∀ pc ∈ [(0 : Word), 60, 0x1FFFC], let s := cWord pc
    (s.c 0).spaceBad = false ∧ (s.c 0).fetched = [] ∧ (s.c 0).pc.toNat % 4 = 0 ∧ (s.c 0).pc.toNat / 64 * 64 + 64 ≤ (s.tile 0).slim * 65536 ∧
    (s.tile 0).slim ≤ 4096 ∧ s.poisonedAt (.slice 0 ((s.c 0).pc.toNat / 64 * 64)) 64 = false ∧ (s.c 0).ops = [] := by
  intro pc h
  simp only [List.mem_cons, List.not_mem_nil, or_false] at h
  rcases h with rfl | rfl | rfl <;> decide +kernel
def stepFetch (u : Sq) (s : State) : Option (Fetched (W32 × Option W32)) :=
  (s.seq 0 u).run.map fun x => (({ s with schedule := s.schedule.tail, cur := 0, curSq := u } : State).fetchStep 0 u x).1
/-- The word stands at the start of the slice as the first step of a run. -/
def seqWord (u : Sq) (w : Nat) : State :=
  { (State.reset.withTask.placeSlice (BitVec.ofNat 32 w) 0).modSeq 0 u (fun x => { x with run := some ⟨0, 2, 1, 0, 0, 0, [], none⟩, started := none, wait := .none, stop := none })
    with schedule := [.seq 0 u] }
def rachisWord (w : Nat) : State :=
  { State.reset.withTask.modRachis 0 (fun r => { r with store := Mem.write r.store 0 (leBytes 4 w), pass := some Pass.start }) with schedule := [.rachis 0] }
def coreWord (w : Nat) : State :=
  { State.reset.modGran (fun g => { g with cores := g.cores.set 0 { (g.cores[0]) with pc := 0, running := true }, sram := Mem.write g.sram 0 (leBytes 4 w) })
    with schedule := [.granary 0] }
def seqReady (u : Sq) (s : State) : Bool := (s.tile 0).runs && (s.seq 0 u).stop.isNone && (s.seq 0 u).wait != .push && (s.seq 0 u).run.any (fun x => x.issued == 0)
theorem met_StepRunsDecoded_seq : ∀ e ∈ [(Sq.l, 0x04129408), (Sq.m, 0x0911845C), (Sq.s, 0x3407600F)],
    head (seqWord e.1 e.2) = .seq 0 e.1 ∧ seqReady e.1 (seqWord e.1 e.2) = true ∧
    (stepFetch e.1 (seqWord e.1 e.2)).bind okOf = some (BitVec.ofNat 32 e.2, none) := by
  intro e h
  simp only [List.mem_cons, List.not_mem_nil, or_false] at h
  rcases h with rfl | rfl | rfl <;> decide +kernel
def isTruncated (r : Except DecodeErr Instr) : Bool := match r with
  | .error .truncated => true
  | _ => false
/-- A word of one, and the first word of an ASET, each read from the slice; a poisoned block stops the fetch. -/
theorem met_StepRunsDecoded_direct : let s := seqWord .l 0x04129408
    let a := seqWord .l 0x44035007
    let p := s.modTile 0 fun x => { x with poison := [0] }
    ((s.seq 0 .l).started = none ∧ (s.seq 0 .l).run = some ⟨0, 2, 1, 0, 0, 0, [], none⟩ ∧ 8 ≤ (s.tile 0).slim * 65536 ∧ (s.tile 0).slim ≤ 4096 ∧
      s.poisonedAt (.slice 0 0) 8 = false ∧ (s.c 0).ops = [] ∧ (decode .l 0x04129408 none).toOption = some (.vld 0 1 5 2 1 8)) ∧
    (isTruncated (decode .l 0x44035007 none) = true ∧ (stepFetch .l a).bind okOf = some (0x44035007, some 0)) ∧ (stepFetch .l p).any fails = true := by
  decide +kernel
theorem met_StepRunsDecoded_rachis : let s := rachisWord 0x44000000
    head s = .rachis 0 ∧ (s.tile 0).runs = true ∧ (s.rachis 0).pass.any (fun p =>
      (0x44000000 : W32).toNat == leNat (Mem.read (s.rachis 0).store (4 * (p.upc % 4096)) 4)) = true ∧ (decode .h 0x44000000 none).toOption = some .hdrain := by
  decide +kernel
def wordOf (s : State) : Option W32 := match ({ s with schedule := s.schedule.tail, curCore := 0 } : State).gFetch with
  | .word w => some w
  | _ => none
theorem met_StepRunsDecoded_granary : let s := coreWord 0x58A0928B
    head s = .granary 0 ∧ (s.granary.cores[(0 : CoreId)]).running = true ∧ wordOf s = some 0x58A0928B ∧
    (decode .g 0x58A0928B none).toOption = some (.csetb 11 10 1 5) := by decide +kernel
theorem met_StepRunsDecoded_event : let s : State := { State.reset with schedule := [.event .flr EvArgs.none] }
    let c : State := { State.reset with schedule := [.clock 5 0], pf := { State.reset.pf with cold := false } }
    s.schedule = [.event .flr EvArgs.none] ∧ (Instr.flr).wfIn .e = true ∧ c.schedule = [.clock 5 0] ∧ c.pf.cold = false ∧
    (∀ p, (c.part p).insts = []) := by decide +kernel

theorem met_EncodingRoundTrip : (∀ b j, Instr.add 3 1 2 ≠ .rv64 b j) ∧ (Instr.add 3 1 2).wfIn .c = true ∧ encodeWords (.add 3 1 2) = [0x04611000] ∧
    (∀ b j, Instr.liw 9 7 ≠ .rv64 b j) ∧ (Instr.liw 9 7).wfIn .c = true ∧ encodeWords (.liw 9 7) = [0x2D200000, 7] ∧
    (decode .c 0x04611000 none).toOption = some (.add 3 1 2) :=
  ⟨fun _ _ => by simp, by decide, by decide, fun _ _ => by simp, by decide, by decide, by decide⟩
def storing : State := { State.reset.withFetchWord 32 0x04611000 with freeCount := 4 }
theorem met_MemoryCanonical : storing.memOk ∧ ∃ t, step storing = .next t := by
  refine ⟨by unfold State.memOk; decide +kernel, ?_⟩
  exact ⟨_, rfl⟩

end Sys2Proof.Tests
end

section
/-! SUPPORT. YRD, YWR and YTLBINV: what an access of a Y register answers by the level of the register, what its write leaves, and
what the removal of translations leaves in the buffers (O18). -/

namespace Sys2Proof.Machine

/-! ## What YRD and YWR answer, by the level of the register (R301–R303, R336) -/

theorem exec_yrd_level {s : State} {d a b : Reg} {n : Nat} {r w : Option Nat} (hn : a.toNat * 32 + b.toNat = n)
    (hl : yLevels n = some (r, w)) (hr : yRefuse r (s.atS s.cur) = none) (hf : s.free [d]) :
    exec (.yrd d a b) s = .next ((s.cDone d (s.yValue n) false).afterYrd n) := by
  have h : execYrd d a b s = s.cIssue [d] (fun s => (s.cDone d (s.yValue n) false).afterYrd n) := by
    unfold execYrd yNumber; simp only [hn, hl, hr]
  exact h.trans (State.cIssue_free s _ _ hf)

theorem exec_yrd_refused {s : State} {d a b : Reg} {n : Nat} {r w : Option Nat} {st : Word} (hn : a.toNat * 32 + b.toNat = n)
    (hl : yLevels n = some (r, w)) (hr : yRefuse r (s.atS s.cur) = some st) :
    exec (.yrd d a b) s = .next (s.trapC .bound st none) := by
  change execYrd d a b s = _
  unfold execYrd yNumber; simp only [hn, hl, hr]

theorem exec_yrd_outside {s : State} {d a b : Reg} {n : Nat} (hn : a.toNat * 32 + b.toNat = n) (hl : yLevels n = none) :
    exec (.yrd d a b) s = .next (s.trapC .bound 0 none) := by
  change execYrd d a b s = _
  unfold execYrd yNumber; simp only [hn, hl]

theorem exec_ywr_level {s : State} {d a b : Reg} {n : Nat} {r w : Option Nat} (hn : a.toNat * 32 + b.toNat = n)
    (hl : yLevels n = some (r, w)) (hw : yRefuse w (s.atS s.cur) = none) (hf : s.free [d]) (hc : s.clean [d]) :
    exec (.ywr d a b) s = .next (s.yWrite n (s.sr s.cur d)) := by
  have h : execYwr d a b s = s.cIssueCtl [d] [] (fun s => s.yWrite n (s.rs d)) := by
    unfold execYwr yNumber; simp only [hn, hl, hw]
  exact h.trans (State.cIssueCtl_clean s _ _ _ hf hc)

theorem exec_ywr_refused {s : State} {d a b : Reg} {n : Nat} {r w : Option Nat} {st : Word} (hn : a.toNat * 32 + b.toNat = n)
    (hl : yLevels n = some (r, w)) (hw : yRefuse w (s.atS s.cur) = some st) :
    exec (.ywr d a b) s = .next (s.trapC .bound st none) := by
  change execYwr d a b s = _
  unfold execYwr yNumber; simp only [hn, hl, hw]

theorem exec_ywr_outside {s : State} {d a b : Reg} {n : Nat} (hn : a.toNat * 32 + b.toNat = n) (hl : yLevels n = none) :
    exec (.ywr d a b) s = .next (s.trapC .bound 0 none) := by
  change execYwr d a b s = _
  unfold execYwr yNumber; simp only [hn, hl]

/-! ## The table of the Y registers (R303–R310) -/

theorem yLevels_context {k : Nat} (h : k < 8) : yLevels (0x020 + k) = some (some 1, none) := by
  match k, h with
  | 0, _ | 1, _ | 2, _ | 3, _ | 4, _ | 5, _ | 6, _ | 7, _ => rfl

theorem yValue_context (s : State) {k : Nat} (h : k < 8) : s.yValue (0x020 + k) = vGet (s.part (s.partOf s.cur)).ctx k := by
  match k, h with
  | 0, _ | 1, _ | 2, _ | 3, _ | 4, _ | 5, _ | 6, _ | 7, _ => rfl

theorem yLevels_outside {n : Nat} (h : (0x007 ≤ n ∧ n < 0x010) ∨ (0x016 ≤ n ∧ n < 0x020) ∨ 0x028 ≤ n) : yLevels n = none := by
  have hc : ¬ (decide (0x020 ≤ n) && decide (n ≤ 0x027)) = true := by
    simp only [Bool.and_eq_true, decide_eq_true_eq]; omega
  unfold yLevels
  split
  case h_14 => exact if_neg hc
  all_goals omega

theorem yLevels_readOnly {n : Nat}
    (h : n = 0x000 ∨ n = 0x001 ∨ n = 0x002 ∨ n = 0x005 ∨ n = 0x006 ∨ n = 0x010 ∨ (0x012 ≤ n ∧ n < 0x015) ∨
      (0x020 ≤ n ∧ n < 0x028)) :
    ∃ r, yLevels n = some (r, none) := by
  rcases h with rfl | rfl | rfl | rfl | rfl | rfl | ⟨hlo, hhi⟩ | ⟨hlo, hhi⟩
  · exact ⟨_, rfl⟩
  · exact ⟨_, rfl⟩
  · exact ⟨_, rfl⟩
  · exact ⟨_, rfl⟩
  · exact ⟨_, rfl⟩
  · exact ⟨_, rfl⟩
  · have hn : n = 0x012 ∨ n = 0x013 ∨ n = 0x014 := by omega
    rcases hn with rfl | rfl | rfl <;> exact ⟨_, rfl⟩
  · obtain ⟨k, rfl⟩ := Nat.exists_eq_add_of_le hlo
    exact ⟨_, yLevels_context (Nat.lt_of_add_lt_add_left hhi)⟩

/-- A read of any register but YTQSTAT at a level that may read it. -/
theorem exec_yrd_returns {s : State} {d a b : Reg} {n : Nat} {r w : Option Nat} (hn : a.toNat * 32 + b.toNat = n)
    (hl : yLevels n = some (r, w)) (hr : yRefuse r (s.atS s.cur) = none) (hq : n ≠ 0x011) (hf : s.free [d]) :
    ∃ t, exec (.yrd d a b) s = .next t ∧ returns s t d (s.yValue n) := by
  refine ⟨_, exec_yrd_level hn hl hr hf, ?_⟩
  unfold State.afterYrd; rw [if_neg hq]
  exact State.cDone_returns s d _ false

/-- A register that level S reads: S reads it, and below S the read raises BOUND with PRIV. -/
theorem exec_yrd_super {s : State} {d a b : Reg} {n : Nat} {w : Option Nat} {q : Prop} (hn : a.toNat * 32 + b.toNat = n)
    (hl : yLevels n = some (some 1, w)) (h : yRefuse (some 1) (s.atS s.cur) = none → q) :
    (s.atS s.cur = true → q) ∧ (s.atS s.cur = false → exec (.yrd d a b) s = .next (s.trapC .bound 0x8000 none)) := by
  refine ⟨fun hs => h (by rw [hs]; rfl), fun hs => exec_yrd_refused hn hl (by rw [hs]; rfl)⟩

/-- A register that no level writes, or no register at all. -/
theorem exec_ywr_readOnly {s : State} {d a b : Reg} {n : Nat} (hn : a.toNat * 32 + b.toNat = n)
    (h : n = 0x000 ∨ n = 0x001 ∨ n = 0x002 ∨ n = 0x005 ∨ n = 0x006 ∨ n = 0x010 ∨ (0x012 ≤ n ∧ n < 0x015) ∨ 0x020 ≤ n) :
    exec (.ywr d a b) s = .next (s.trapC .bound 0 none) := by
  by_cases ho : 0x028 ≤ n
  · exact exec_ywr_outside hn (yLevels_outside (.inr (.inr ho)))
  · obtain ⟨r, hl⟩ := yLevels_readOnly (n := n) (by omega)
    exact exec_ywr_refused hn hl rfl

/-! ## What the writes leave -/

theorem State.modPart_self {s : State} {p : PartId} {f : PartSt → PartSt} (h : f (s.part p) = s.part p) : s.modPart p f = s := by
  unfold State.modPart State.setPart; rw [h]; unfold State.part; rw [vector_set_self]

theorem State.modTile_c {s : State} {t u : Tile} {f : TileSt → TileSt} (h : ∀ x, (f x).logic.c = x.logic.c) :
    (s.modTile t f).c u = s.c u := by
  unfold State.c State.logic; rw [State.modTile_tile]; split
  · exact h _
  · rfl

theorem State.modC_partOf (s : State) (t u : Tile) (f : CSt → CSt) : (s.modC t f).partOf u = s.partOf u := by
  unfold State.partOf State.task State.modC
  rw [State.modLogic_logic, State.modLogic_tile]
  by_cases e : t = u <;> simp only [e, if_true, if_false]

theorem State.cDone_partOf (s : State) (d : Reg) (v : Word) (b : Bool) (u : Tile) : (s.cDone d v b).partOf u = s.partOf u := by
  unfold State.cDone; rw [State.cNext_eq, State.modC_partOf, State.modC_partOf]

theorem State.cNext_sameBytes (s : State) : sameBytes s s.cNext := State.modC_sameBytes s s.cur _

theorem State.cDone_sameBytes (s : State) (d : Reg) (v : Word) (b : Bool) : sameBytes s (s.cDone d v b) :=
  (State.modC_sameBytes s s.cur _).trans (State.cNext_sameBytes _)

/-- C goes on after a change that leaves C alone. -/
theorem State.cNext_goesTo_of_c {s s' : State} (hcur : s'.cur = s.cur) (h : s'.c s.cur = s.c s.cur) :
    goesTo s' s'.cNext 0 0 ((s.c s.cur).pc + 4) := by
  have := State.cNext_goesTo s'
  rwa [hcur, h] at this

/-! ## The removal of translations (R309) -/

theorem vecOf_get {α : Type} {n : Nat} (f : Nat → α) (i : Fin n) : (vecOf n f)[i] = f i.val := by simp [vecOf]

theorem vGet_val {α : Type} {n : Nat} [NeZero n] (v : Vector α n) (i : Fin n) : vGet v i.val = v[i] := by simp [vGet]

theorem State.invalidate_tile (s : State) (p : PartId) (host all : Bool) (page : Nat) (u : Tile) :
    (s.invalidate p host all page).tile u =
      { s.tile u with tb := (s.tile u).tb.filter (fun e => !e.hit p host all page),
                      lines := if (s.tile u).part = p then [] else (s.tile u).lines } := by
  unfold State.invalidate State.tile
  rw [vecOf_get]; dsimp only; rw [vGet_val]

theorem State.invalidate_sameBytes (s : State) (p : PartId) (host all : Bool) (page : Nat) :
    sameBytes s (s.invalidate p host all page) := by
  intro x
  cases x with
  | slice u a => simp only [State.byteAt, State.invalidate_tile]
  | sync u a => simp only [State.byteAt, State.invalidate_tile]
  | bulk a => rfl
  | host a => rfl
  | remote a => rfl

theorem State.invalidate_c (s : State) (p : PartId) (host all : Bool) (page : Nat) (u : Tile) :
    (s.invalidate p host all page).c u = s.c u := by
  unfold State.c State.logic; rw [State.invalidate_tile]

theorem State.invalidate_goesTo (s : State) (p : PartId) (host all : Bool) (page : Nat) :
    goesTo (s.invalidate p host all page) (s.invalidate p host all page).cNext 0 0 ((s.c s.cur).pc + 4) :=
  State.cNext_goesTo_of_c rfl (State.invalidate_c s p host all page s.cur)

/-- No buffer keeps an entry that the removal names. -/
theorem State.invalidate_misses {s : State} {p : PartId} {host all : Bool} {page : Nat} {e : TbEntry}
    (h : e ∈ (s.invalidate p host all page).dieTb ∨ ∃ u, e ∈ ((s.invalidate p host all page).tile u).tb) :
    e.hit p host all page = false := by
  rcases h with h | ⟨u, h⟩
  · simpa using (List.mem_filter.mp h).2
  · rw [State.invalidate_tile] at h
    simpa using (List.mem_filter.mp h).2

theorem TbEntry.hit_iff (e : TbEntry) (p : PartId) (host all : Bool) (page : Nat) :
    e.hit p host all page = true ↔ e.part = p ∧ e.host = host ∧ (all = true ∨ (e.va ≤ page ∧ page < e.va + e.size)) := by
  simp [TbEntry.hit]

theorem State.cNext_tb (s : State) (u : Tile) : (s.cNext.tile u).tb = (s.tile u).tb := by
  rw [State.cNext_eq]; unfold State.modC; rw [State.modLogic_tile]; split <;> rfl

theorem exec_ytlbinv {s : State} {w : Word} (hw : (s.c s.cur).wait = .tlbInv w) (hr : (s.tile s.cur).runs = true) :
    exec .ytlbinv s =
      .next (s.invalidate (s.partOf s.cur) (w.getLsbD 62) (w.getLsbD 63) (w.toNat / 65536 % 2 ^ 32 * 65536)).cNext := by
  change execYtlbinv s = _
  unfold execYtlbinv; simp only [hw, hr, if_true]; rfl

/-! ## YTQSTAT and the budget (R4, R307) -/

theorem State.cDone_cur (s : State) (d : Reg) (v : Word) (b : Bool) : (s.cDone d v b).cur = s.cur := rfl

theorem State.afterYrd_trapQueueStatus (s : State) :
    s.afterYrd 0x011 = s.modPart (s.partOf s.cur) (fun x => { x with lost := 0 }) := if_pos rfl

/-- A read of YTQSTAT answers the counts of the trap queue and clears LOST. -/
theorem exec_yrd_trapQueueStatus {s : State} {d a b : Reg} (hn : a.toNat * 32 + b.toNat = 0x011)
    (hr : yRefuse (some 1) (s.atS s.cur) = none) (hf : s.free [d]) (hlost : (s.part (s.partOf s.cur)).lost < 65536) :
    ∃ t, exec (.yrd d a b) s = .next t ∧ (t.part (s.partOf s.cur)).lost = 0 ∧
      t.sr s.cur d = (if d = 0 then 0 else BitVec.ofNat 64 ((s.part (s.partOf s.cur)).lost * 2 ^ 48 +
        (s.part (s.partOf s.cur)).tail.toNat * 2 ^ 16 + (s.part (s.partOf s.cur)).head.toNat)) ∧
      (t.c s.cur).pc = (s.c s.cur).pc + 4 ∧ sameBytes s t := by
  have hv : s.yValue 0x011 = BitVec.ofNat 64 ((s.part (s.partOf s.cur)).lost * 2 ^ 48 +
      (s.part (s.partOf s.cur)).tail.toNat * 2 ^ 16 + (s.part (s.partOf s.cur)).head.toNat) := by
    simp only [State.yValue, Nat.mod_eq_of_lt hlost]
  obtain ⟨-, hsr, hpc, -⟩ := State.cDone_returns s d (s.yValue 0x011) false
  refine ⟨_, exec_yrd_level hn rfl hr hf, ?_, ?_, hpc, ?_⟩
  · rw [State.afterYrd_trapQueueStatus, State.modPart_part, State.cDone_cur, State.cDone_partOf, if_pos rfl]
  · refine (hsr d).trans ?_
    by_cases hd : d = 0
    · rw [if_neg (fun h => h.1 hd), if_pos hd, hd, State.sr_zero]
    · rw [if_pos ⟨hd, rfl⟩, if_neg hd, hv]
  · exact (State.cDone_sameBytes s d _ false).trans (by rw [State.afterYrd_trapQueueStatus]; exact State.modPart_sameBytes _ _ _)

/-- The fields of YBUDGET (R308). -/
theorem budget_fields (count : BitVec 24) (window refill : Nat) :
    (BitVec.ofNat 64 (count.toNat * 2 ^ 40 + window % 65536 * 2 ^ 24 + refill % 2 ^ 23)).extractLsb' 40 24 = count ∧
    (BitVec.ofNat 64 (count.toNat * 2 ^ 40 + window % 65536 * 2 ^ 24 + refill % 2 ^ 23)).toNat / 2 ^ 24 % 2 ^ 16 = window % 2 ^ 16 ∧
    (BitVec.ofNat 64 (count.toNat * 2 ^ 40 + window % 65536 * 2 ^ 24 + refill % 2 ^ 23)).toNat % 2 ^ 24 = refill % 2 ^ 23 := by
  have hc := count.isLt
  refine ⟨BitVec.eq_of_toNat_eq ?_, ?_, ?_⟩
  · rw [BitVec.extractLsb'_toNat, BitVec.toNat_ofNat, Nat.shiftRight_eq_div_pow]; omega
  · rw [BitVec.toNat_ofNat]; omega
  · rw [BitVec.toNat_ofNat]; omega

/-! ## The writes (R4, R27, R87, R307, R309) -/

/-- A write that completes at once leaves what it changes, and C goes on. -/
theorem exec_ywr_goesTo {s s' : State} {d a b : Reg} {n : Nat} {r w : Option Nat} (hn : a.toNat * 32 + b.toNat = n)
    (hl : yLevels n = some (r, w)) (hw : yRefuse w (s.atS s.cur) = none) (hf : s.free [d]) (hc : s.clean [d])
    (he : s.yWrite n (s.sr s.cur d) = s'.cNext) (hcur : s'.cur = s.cur) (hs : s'.c s.cur = s.c s.cur) :
    ∃ t, exec (.ywr d a b) s = .next t ∧ goesTo s' t 0 0 ((s.c s.cur).pc + 4) :=
  ⟨_, (exec_ywr_level hn hl hw hf hc).trans (by rw [he]), State.cNext_goesTo_of_c hcur hs⟩

/-- YTQSTAT's bit 32 orders a rescan; without it the write changes nothing. -/
theorem yWrite_rescan (s : State) (v : Word) :
    s.yWrite 0x011 v = (s.modPart (s.partOf s.cur) (fun y => { y with rescan := y.rescan || v.getLsbD 32 })).cNext := by
  change State.cNext (if _ then _ else _) = _
  congr 1
  cases h : v.getLsbD 32
  · exact (State.modPart_self (by simp)).symm
  · simp

/-- Settles O18: each register by its level, then by its value; YTLBINV by what the removal leaves in the buffers. -/
theorem specialRegisterResults : Obligations.SpecialRegisterResults := by
  unfold Obligations.SpecialRegisterResults
  refine ⟨fun s d a b hf => ?_, fun s d a b => ?_⟩
  · intro p x n reads atS
    refine ⟨fun hn => exec_yrd_returns hn rfl rfl (by decide) hf, fun hn hslim => ?_,
      fun hn => exec_yrd_returns hn rfl rfl (by decide) hf, fun hn => exec_yrd_returns hn rfl rfl (by decide) hf,
      fun hn => exec_yrd_returns hn rfl rfl (by decide) hf, fun hn => exec_yrd_returns hn rfl rfl (by decide) hf,
      fun hn => exec_yrd_returns hn rfl rfl (by decide) hf,
      fun hn => exec_yrd_super hn rfl fun hr => exec_yrd_returns hn rfl hr (by decide) hf,
      fun hn hlost => exec_yrd_super hn rfl fun hr => exec_yrd_trapQueueStatus hn hr hf hlost,
      fun hn => exec_yrd_super hn rfl fun hr => exec_yrd_returns hn rfl hr (by decide) hf,
      fun hn => ?_,
      fun hn => exec_yrd_super hn rfl fun hr => exec_yrd_returns hn rfl hr (by decide) hf,
      fun k hk hn => exec_yrd_super hn (yLevels_context hk) fun hr => ?_, fun hn => ?_⟩
    · have hv : s.yValue 0x001 = BitVec.ofNat 64 ((s.tile s.cur).slim * 2 ^ 32 + x.home.val * 2 ^ 16 + p.val * 2 ^ 8 + s.cur.val) := by
        simp only [State.yValue, Nat.mod_eq_of_lt hslim]; rfl
      exact hv ▸ exec_yrd_returns hn rfl rfl (by decide) hf
    · obtain ⟨t, he, ht⟩ := exec_yrd_returns (n := 0x013) hn rfl rfl (by decide) hf
      exact ⟨t, _, he, ht, budget_fields _ _ _⟩
    · exact yValue_context s hk ▸ exec_yrd_returns hn (yLevels_context hk) hr (by omega) hf
    · rcases hn with hn | hn
      · exact exec_yrd_refused hn rfl rfl
      · exact exec_yrd_outside rfl (yLevels_outside hn)
  · intro p n v pc
    refine ⟨fun hf hc => ⟨fun hn => ?_, fun hS hn => ?_, fun hS hn => ?_, fun hS hn => ?_⟩, fun hS hn => ?_,
      fun hn => exec_ywr_readOnly rfl hn, fun w hw hr => ?_⟩
    · exact exec_ywr_goesTo hn rfl rfl hf hc rfl rfl (State.modTile_c fun _ => rfl)
    · exact exec_ywr_goesTo hn rfl (by rw [hS]; rfl) hf hc rfl rfl (State.modTile_c fun _ => rfl)
    · exact exec_ywr_goesTo hn rfl (by rw [hS]; rfl) hf hc (yWrite_rescan s _) rfl rfl
    · refine ⟨_, exec_ywr_level hn rfl (by rw [hS]; rfl) hf hc, ?_, ?_, State.modC_back s s.cur _⟩
      · change ((s.modC s.cur _).c s.cur).wait = _; rw [State.modC_c, if_pos rfl]
      · change ((s.modC s.cur _).c s.cur).pc = _; rw [State.modC_c, if_pos rfl]
    · rcases hn with hn | hn | hn <;> exact exec_ywr_refused hn rfl (by rw [hS]; rfl)
    · obtain ⟨-, -, hpc, -, -, hwait, -⟩ := State.invalidate_goesTo s (s.partOf s.cur) (w.getLsbD 62) (w.getLsbD 63)
        (w.toNat / 65536 % 2 ^ 32 * 65536)
      refine ⟨_, exec_ytlbinv hw hr, hpc, hwait, ?_, fun e he hhit => ?_⟩
      · exact (State.invalidate_sameBytes s _ _ _ _).trans (State.cNext_sameBytes _)
      · simp only [State.cNext_tb] at he
        have hmiss := State.invalidate_misses he
        rw [(TbEntry.hit_iff e _ _ _ _).mpr hhit] at hmiss
        exact Bool.noConfusion hmiss

end Sys2Proof.Machine
end

section
/-! SUPPORT. What the scheduler's writes, the end of an `Inst` and the return of a world leave alone: the bindings of VFs, the worlds in
force, and the lists of what is launched, which only shrink. -/

namespace Sys2Proof.Machine

/-- Every `Inst` of a partition was there before, in the same world. -/
def State.noNewInst (s t : State) (p : PartId) : Prop :=
  ∀ i ∈ (t.part p).insts, ∃ j ∈ (s.part p).insts, j.no = i.no ∧ j.world = i.world

theorem State.noNewInst.trans {s t u : State} {p : PartId} (h : s.noNewInst t p) (k : t.noNewInst u p) : s.noNewInst u p := by
  intro i hi
  obtain ⟨j, hj, hno, hw⟩ := k i hi
  obtain ⟨l, hl, hno', hw'⟩ := h j hj
  exact ⟨l, hl, hno'.trans hno, hw'.trans hw⟩

/-- `t` comes from `s` with the same bindings of VFs and the same worlds in force, and with no new `Inst`. -/
structure State.Keeps (s t : State) : Prop where
  bound : ∀ f, (t.vf f).part = (s.vf f).part
  world : ∀ p, (t.part p).world = (s.part p).world
  insts : ∀ p, s.noNewInst t p

theorem State.Keeps.of_eq {s t : State} (hv : t.vfs = s.vfs) (hp : t.parts = s.parts) : s.Keeps t := by
  have hpart : ∀ p, t.part p = s.part p := fun p => by unfold State.part; rw [hp]
  refine ⟨fun f => ?_, fun p => by rw [hpart], fun p i hi => ⟨i, by rwa [hpart] at hi, rfl, rfl⟩⟩
  unfold State.vf; rw [hv]

theorem State.Keeps.refl (s : State) : s.Keeps s := .of_eq rfl rfl

theorem State.Keeps.trans {s t u : State} (h : s.Keeps t) (k : t.Keeps u) : s.Keeps u where
  bound f := (k.bound f).trans (h.bound f)
  world p := (k.world p).trans (h.world p)
  insts p := (h.insts p).trans (k.insts p)

theorem State.Keeps.foldl {α : Type} {f : State → α → State} (h : ∀ (s : State) a, s.Keeps (f s a)) (l : List α) (s : State) :
    s.Keeps (l.foldl f s) := by
  induction l generalizing s with
  | nil => exact .refl s
  | cons a l ih => exact (h s a).trans (ih _)

/-- The fold over bytes that a write at several places goes through. -/
theorem State.Keeps.foldl_fst {α β : Type} {f : State × β → α → State × β} (h : ∀ (x : State × β) a, x.1.Keeps (f x a).1)
    (l : List α) (x : State × β) : x.1.Keeps (l.foldl f x).1 := by
  induction l generalizing x with
  | nil => exact .refl x.1
  | cons a l ih => exact (h x a).trans (ih _)

theorem State.Keeps.ite {s t u : State} {c : Prop} [Decidable c] (h : s.Keeps t) (k : s.Keeps u) : s.Keeps (if c then t else u) := by
  split
  · exact h
  · exact k

theorem State.Keeps.ite_snd {α : Type} {s : State} {x y : α × State} {c : Prop} [Decidable c] (h : s.Keeps x.2) (k : s.Keeps y.2) :
    s.Keeps (if c then x else y).2 := by
  split
  · exact h
  · exact k

/-! ## Updates of the state -/

theorem State.modTile_keeps (s : State) (t : Tile) (f : TileSt → TileSt) : s.Keeps (s.modTile t f) := .of_eq rfl rfl

/-- A change of a partition that keeps its world, and adds no `Inst`. -/
theorem State.modPart_keeps_of {s : State} {p : PartId} {f : PartSt → PartSt} (hw : (f (s.part p)).world = (s.part p).world)
    (hi : ∀ i ∈ (f (s.part p)).insts, ∃ j ∈ (s.part p).insts, j.no = i.no ∧ j.world = i.world) : s.Keeps (s.modPart p f) where
  bound _ := rfl
  world q := by rw [State.modPart_part]; split <;> simp_all
  insts q i h := by
    rw [State.modPart_part] at h
    by_cases e : p = q
    · subst e; rw [if_pos rfl] at h; exact hi i h
    · rw [if_neg e] at h; exact ⟨i, h, rfl, rfl⟩

theorem State.modPart_keeps (s : State) (p : PartId) (f : PartSt → PartSt) (hw : ∀ x, (f x).world = x.world)
    (hi : ∀ x, (f x).insts = x.insts) : s.Keeps (s.modPart p f) :=
  State.modPart_keeps_of (hw _) fun i h => ⟨i, by rwa [hi] at h, rfl, rfl⟩

theorem State.modVf_keeps (s : State) (f : VfId) (g : VfSt → VfSt) (hg : ∀ x, (g x).part = x.part) : s.Keeps (s.modVf f g) where
  bound q := by
    rw [State.modVf_vf]; split
    · exact hg _
    · rfl
  world _ := rfl
  insts _ i h := ⟨i, h, rfl, rfl⟩

/-! The same at the end of a chain of updates. -/

theorem State.Keeps.same {s t u : State} (h : s.Keeps t) (hv : u.vfs = t.vfs) (hp : u.parts = t.parts) : s.Keeps u :=
  h.trans (.of_eq hv hp)

theorem State.Keeps.modTile {s t : State} (h : s.Keeps t) {u : Tile} {f : TileSt → TileSt} : s.Keeps (t.modTile u f) :=
  h.same rfl rfl

theorem State.Keeps.modPart {s t : State} (h : s.Keeps t) {p : PartId} {f : PartSt → PartSt} (hw : ∀ x, (f x).world = x.world)
    (hi : ∀ x, (f x).insts = x.insts) : s.Keeps (t.modPart p f) := h.trans (t.modPart_keeps p f hw hi)

theorem State.modInst_keeps (s : State) (p : PartId) (n : Nat) (f : Inst → Inst) (hn : ∀ i, (f i).no = i.no)
    (hw : ∀ i, (f i).world = i.world) : s.Keeps (s.modInst p n f) := by
  refine State.modPart_keeps_of rfl fun i h => ?_
  obtain ⟨j, hj, rfl⟩ := List.mem_map.mp h
  refine ⟨j, hj, ?_, ?_⟩
  · split
    · exact (hn j).symm
    · rfl
  · split
    · exact (hw j).symm
    · rfl

/-! ## Translation and hardware's own accesses -/

theorem State.setEntryBit_keeps (s : State) (a bit : Nat) : s.Keeps (s.setEntryBit a bit) := by
  unfold State.setEntryBit; dsimp only; exact .ite (.of_eq rfl rfl) (.refl s)

theorem State.fillTbs_keeps (s : State) (t : Option Tile) (e : TbEntry) : s.Keeps (s.fillTbs t e) := by
  unfold State.fillTbs; cases t <;> exact .of_eq rfl rfl

theorem State.translate_keeps (s : State) (t : Option Tile) (p : PartId) (host : Bool) (va : Nat) (need : Need) :
    s.Keeps (s.translate t p host va need).2 := by
  have hfill (a : Nat) (e : TbEntry) : s.Keeps ((s.setEntryBit a 5).fillTbs t e) :=
    (s.setEntryBit_keeps a 5).trans (State.fillTbs_keeps _ t e)
  delta State.translate
  extract_lets fresh
  have hfresh : s.Keeps fresh.2 := by
    dsimp only [fresh]
    split
    · exact .refl s
    · split
      · exact .refl s
      · exact .refl s
      · split
        · exact hfill _ _
        · exact .refl s
  split
  · exact .ite_snd hfresh (.ite_snd (s.fillTbs_keeps t _) (.refl s))
  · exact hfresh

theorem State.hwPut_keeps (s : State) (p : PartId) (va : Nat) (bs : List Byte) : s.Keeps (s.hwPut p va bs) := by
  unfold State.hwPut; dsimp only
  split
  · exact (State.Keeps.foldl (fun s a => (s.setEntryBit_keeps a 5).trans (State.setEntryBit_keeps _ a 6)) _ s).trans (.of_eq rfl rfl)
  · exact .refl s

theorem State.setBitmapBit_keeps (s : State) (p : PartId) (bmap : Word) (i : Nat) : s.Keeps (s.setBitmapBit p bmap i) := by
  unfold State.setBitmapBit; dsimp only
  split
  · have h := s.translate_keeps none p true (wbits bmap 0 48 + i / 8) .any
    split
    · rename_i e; rw [e] at h; exact h.trans (.of_eq rfl rfl)
    · rename_i e; rw [e] at h; exact h
  · exact s.hwPut_keeps p _ _

theorem State.logPage_keeps (s : State) (p : PartId) (va n : Nat) : s.Keeps (s.logPage p va n) := by
  unfold State.logPage
  split
  · exact .foldl (fun s k => .ite (s.setBitmapBit_keeps p _ k) (.refl s)) _ s
  · exact .refl s

theorem State.hwWrite_keeps (s : State) (p : PartId) (va : Nat) (bs : List Byte) : s.Keeps (s.hwWrite p va bs) :=
  (s.hwPut_keeps p va bs).trans (State.logPage_keeps _ p va _)

theorem State.logBin_keeps (s : State) (t : Tile) (off n : Nat) : s.Keeps (s.logBin t off n) := by
  unfold State.logBin; dsimp only
  split
  · exact .ite (.foldl (fun s b => .ite (s.setBitmapBit_keeps _ _ _) (.refl s)) _ s) (.refl s)
  · exact .refl s

/-! ## Writes at a home -/

theorem State.writeSlice_keeps (s : State) (t : Tile) (off : Nat) (bs : List Byte) (poison : Bool) :
    s.Keeps (s.writeSlice t off bs poison) := by
  unfold State.writeSlice; dsimp only
  refine .ite (.refl s) ?_
  refine State.Keeps.trans ?_ (State.logBin_keeps _ t off _)
  exact .of_eq rfl rfl

theorem State.writeSync_keeps (s : State) (t : Tile) (off : Nat) (bs : List Byte) : s.Keeps (s.writeSync t off bs) := .of_eq rfl rfl

theorem State.writeBulk_keeps (s : State) (by_ : Option Tile) (p : PartId) (va pa leaf : Nat) (bs : List Byte) (poison : Bool) :
    s.Keeps (s.writeBulk by_ p va pa leaf bs poison) := by
  unfold State.writeBulk; dsimp only
  refine .ite (.refl s) ?_
  refine State.Keeps.trans ?_ (State.logPage_keeps _ p va _)
  have hbytes : s.Keeps { s with bulk := Mem.write s.bulk pa bs, bulkPoison := poisonAfter s.bulkPoison pa bs.length poison } :=
    .of_eq rfl rfl
  have hleaf := hbytes.trans (.ite (c := leaf = 0) (.refl _) (State.setEntryBit_keeps _ leaf 6))
  cases by_ with
  | none => exact hleaf
  | some t =>
    dsimp only
    split
    · exact hleaf.trans ((State.modTile_keeps _ t _).trans (State.modInst_keeps _ _ _ _ (fun _ => rfl) (fun _ => rfl)))
    · exact hleaf.trans (State.modTile_keeps _ t _)

theorem State.homeWrite_keeps (s : State) (by_ : Option Tile) (l : Loc) (bs : List Byte) (poison : Bool) :
    s.Keeps (s.homeWrite by_ l bs poison) := by
  cases l with
  | slice t o => exact s.writeSlice_keeps t o bs poison
  | sync t o => exact s.writeSync_keeps t o bs
  | bulk p va pa e st => exact s.writeBulk_keeps by_ p va pa e bs poison
  | host p b e =>
    have hbytes : s.Keeps { s with host := Mem.write s.host b bs } := .of_eq rfl rfl
    exact .ite (.refl s) (hbytes.trans (.ite (.refl _) (State.setEntryBit_keeps _ e 6)))
  | fabric p d o => exact .of_eq rfl rfl

theorem State.setFlag_keeps (s : State) (home : Tile) (f : Nat) (v : Bool) : s.Keeps (s.setFlag home f v) := .of_eq rfl rfl

/-! ## Writes of the scheduler -/

theorem State.hostServes_keeps (s : State) (need : Need) : s.Keeps (s.hostServes need).2 := by
  cases need <;> exact .of_eq rfl rfl

theorem State.place_keeps (s : State) (t : Tile) (p : PartId) (need : Need) (ptr : Word) : s.Keeps (s.place t p need ptr).2 := by
  have htr (u : Option Tile) (q : PartId) (host : Bool) (va : Nat) {r : XRes} {s' : State}
      (e : s.translate u q host va need = (r, s')) : s.Keeps s' := by
    have h := s.translate_keeps u q host va need; rwa [e] at h
  unfold State.place; dsimp only
  split
  · exact .refl s
  · exact .refl s
  · exact .refl s
  · split
    · exact .refl s
    · refine .ite_snd (.refl s) (.ite_snd ?_ ?_)
      · split <;> exact htr _ _ _ _ ‹_›
      · split
        · exact .refl s
        · split <;> exact .of_eq rfl rfl
  · split
    · have hs := htr _ _ _ _ ‹_›
      split
      all_goals
        rename_i e
        exact hs.trans (congrArg Prod.snd e ▸ State.hostServes_keeps _ need)
    all_goals exact htr _ _ _ _ ‹_›
  · split <;> exact htr _ _ _ _ ‹_›

theorem State.placeAll_keeps (s : State) (t : Tile) (p : PartId) (need : Need) (us : List Word) :
    s.Keeps (s.placeAll t p need us).2 := by
  induction us generalizing s with
  | nil => exact .refl s
  | cons u us ih =>
    have hp := s.place_keeps t p need u
    unfold State.placeAll
    split
    · rename_i l s' e
      rw [e] at hp
      have hall := ih s'
      split <;> (rename_i e'; rw [e'] at hall; exact hp.trans hall)
    all_goals (rename_i e; rw [e] at hp; exact hp)

theorem State.schedWrite_keeps (s : State) (home : Tile) (p : PartId) (ptr : Word) (bs : List Byte) :
    s.Keeps (s.schedWrite home p ptr bs) := by
  unfold State.schedWrite
  split
  · exact s.writeSlice_keeps home _ bs false
  · dsimp only
    split
    all_goals
      rename_i e
      have h := congrArg Prod.snd e ▸ State.placeAll_keeps s home p .w _
    · exact h.trans (State.Keeps.foldl_fst (fun x (e : Loc × Nat × Nat) => State.homeWrite_keeps x.1 none e.1 _ false) _ (_, bs))
    · exact h

/-! ## Records, streams and evictions -/

theorem State.endRecord_keeps (s : State) (f : VfId) (q : QueueId) (idx status : Nat) (value : Word) :
    s.Keeps (s.endRecord f q idx status value) := State.modVf_keeps s f _ fun _ => rfl

theorem State.modStream_keeps (s : State) (p : PartId) (k : Nat) (f : Stream → Stream) : s.Keeps (s.modStream p k f) :=
  State.modPart_keeps s p _ (fun _ => rfl) (fun _ => rfl)

theorem State.rollback_keeps (s : State) (p : PartId) (k : Nat) : s.Keeps (s.rollback p k) := by
  unfold State.rollback
  split
  · exact (s.hwWrite_keeps p _ _).trans (State.modStream_keeps _ p k _)
  · exact .refl s

theorem State.freeStream_keeps (s : State) (p : PartId) (k : Nat) : s.Keeps (s.freeStream p k) := by
  delta State.freeStream
  split
  · extract_lets s1
    have h1 : s.Keeps s1 := s.modPart_keeps p _ (fun _ => rfl) (fun _ => rfl)
    split
    · exact h1.trans (s1.endRecord_keeps _ _ _ _ _)
    · exact h1
  · exact .refl s

theorem State.reportEviction_keeps (s : State) (p : PartId) (e : Eviction) : s.Keeps (s.reportEviction p e) := by
  unfold State.reportEviction
  extract_lets bytes s1 s2 s3
  have h1 : s.Keeps s1 := .ite (.refl s) (s.schedWrite_keeps _ p _ bytes)
  have h2 : s.Keeps s2 := .ite (h1.trans (s1.setFlag_keeps _ _ true)) h1
  have h3 : s.Keeps s3 := by
    dsimp only [s3]
    split
    · exact h2.trans (s2.endRecord_keeps _ _ _ _ _)
    · exact h2
  exact h3.modPart (fun _ => rfl) (fun _ => rfl)

theorem State.reportDone_keeps (s : State) (p : PartId) : s.Keeps (s.reportDone p) :=
  .foldl (fun s e => s.reportEviction_keeps p e) _ s

theorem State.settle_keeps (s : State) (p : PartId) (n : Nat) : s.Keeps (s.settle p n) := by
  unfold State.settle
  refine State.Keeps.trans ?_ (State.reportDone_keeps _ p)
  exact s.modPart_keeps p _ (fun _ => rfl) (fun _ => rfl)

theorem State.sendMsix_keeps (s : State) (fn : Nat) (vec : Fin 4) : s.Keeps (s.sendMsix fn vec) := by
  unfold State.sendMsix
  refine .ite (.refl s) (.ite (.ite (.of_eq rfl rfl) (.of_eq rfl rfl)) ?_)
  extract_lets f m s1
  have h1 : s.Keeps s1 := s.modVf_keeps f _ fun _ => rfl
  exact .ite (.refl s) (.ite h1 (h1.same rfl rfl))

/-! ## The end of a task and of an `Inst` (R312) -/

theorem State.forgetCommands_keeps (s : State) (p : PartId) (ids : List Nat) : s.Keeps (s.forgetCommands p ids) := by
  unfold State.forgetCommands
  extract_lets s1
  have h1 : s.Keeps s1 := .of_eq rfl rfl
  exact h1.modPart (fun _ => rfl) (fun _ => rfl)

theorem State.mapHusks_keeps (s : State) (p : PartId) (f : Husk → Husk) : s.Keeps (s.mapHusks p f) := by
  unfold State.mapHusks
  extract_lets s1 s2
  have h1 : s.Keeps s1 := .foldl (fun s t => s.modTile_keeps t _) _ s
  have h2 : s.Keeps s2 := h1.modPart (fun _ => rfl) (fun _ => rfl)
  exact h2.same rfl rfl

theorem State.endWaits_keeps (s : State) (p : PartId) (sel : Logic → Bool) (v : Word) : s.Keeps (s.endWaits p sel v) := by
  unfold State.endWaits
  extract_lets go s1
  have h1 : s.Keeps s1 := .foldl (fun s t => s.modTile_keeps t _) _ s
  exact h1.trans (s1.mapHusks_keeps p _)

theorem State.endFreeze_keeps (s : State) (t : Tile) : s.Keeps (s.endFreeze t) :=
  .ite (s.endWaits_keeps _ _ _) (.refl s)

theorem State.dropKvWait_keeps (s : State) (t : Tile) (p : PartId) (g : Logic) : s.Keeps (s.dropKvWait t p g) := by
  unfold State.dropKvWait
  split
  · exact State.modPart_keeps s p _ (fun _ => rfl) (fun _ => rfl)
  · exact .refl s

theorem State.dropTask_keeps (s : State) (t : Tile) : s.Keeps (s.dropTask t) := by
  unfold State.dropTask
  extract_lets p s1 s2 s3
  have h1 : s.Keeps s1 := s.forgetCommands_keeps p _
  have h2 : s.Keeps s2 := (h1.trans (s1.endFreeze_keeps t)).same rfl rfl
  have h3 : s.Keeps s3 := h2.trans (s2.dropKvWait_keeps t p _)
  exact h3.modTile

theorem State.clearTile_keeps (s : State) (p : PartId) (n : Nat) (t : Tile) : s.Keeps (s.clearTile p n t) := by
  delta State.clearTile
  extract_lets s1 s2
  have h1 : s.Keeps s1 := by
    dsimp only [s1]
    split
    · exact .ite (s.dropTask_keeps t) (.refl s)
    · exact .refl s
  have h2 : s.Keeps s2 := by
    refine h1.trans (.foldl (fun s i => ?_) _ s1)
    split
    · exact .ite (s.forgetCommands_keeps p _) (.refl s)
    · exact .refl s
  exact h2.modTile

theorem State.signalEnd_keeps (s : State) (p : PartId) (i : Inst) (status : Nat) : s.Keeps (s.signalEnd p i status) := by
  have hstatus (c : Bool) (home : Tile) (stptr : Word) :
      s.Keeps (if c = true then s else s.schedWrite home p stptr (leBytes 8 status)) :=
    .ite (.refl s) (s.schedWrite_keeps home p stptr _)
  have hstream (k : Nat) (f : Stream → Stream) : s.Keeps ((if status ≥ 3 then s.rollback p k else s).modStream p k f) :=
    .trans (.ite (s.rollback_keeps p k) (.refl s)) (State.modStream_keeps _ p k f)
  delta State.signalEnd
  extract_lets s1
  have h1 : s.Keeps s1 := by
    dsimp only [s1]
    split
    · exact .ite ((hstatus _ _ _).trans (State.setFlag_keeps _ _ _ true)) (hstatus _ _ _)
    · exact s.endRecord_keeps _ _ _ _ _
    · split
      · exact .ite ((hstream _ _).trans (State.freeStream_keeps _ p _)) (hstream _ _)
      · exact hstream _ _
  split
  · exact .ite (h1.trans (s1.sendMsix_keeps _ 2)) h1
  · exact h1

theorem State.dropRecord_keeps (s : State) (p : PartId) : s.Keeps (s.dropRecord p) := by
  unfold State.dropRecord
  extract_lets a n s1
  have h1 : s.Keeps s1 := s.hwWrite_keeps p _ _
  exact .ite (h1.trans (s1.hwWrite_keeps p _ _)) h1

/-- The last part of the end of an `Inst`: it leaves the partition's list, and its end is signalled. -/
theorem State.signalled_keeps {s s1 : State} (h : s.Keeps s1) {p : PartId} {n : Nat} {f : PartSt → PartSt} (i : Inst) (status : Nat)
    (hw : ∀ x, (f x).world = x.world) (hi : ∀ x, (f x).insts = x.insts.filter (fun y => y.no != n)) :
    s.Keeps (((s1.modPart p f).signalEnd p i status).settle p n) ∧
      ∀ y ∈ ((((s1.modPart p f).signalEnd p i status).settle p n).part p).insts, y.no ≠ n := by
  have hgone : s1.Keeps (s1.modPart p f) :=
    State.modPart_keeps_of (hw _) fun y hy => ⟨y, (List.mem_filter.mp (hi _ ▸ hy)).1, rfl, rfl⟩
  have hend := ((s1.modPart p f).signalEnd_keeps p i status).trans (State.settle_keeps _ p n)
  refine ⟨(h.trans hgone).trans hend, fun y hy => ?_⟩
  obtain ⟨z, hz, hno, -⟩ := hend.insts p y hy
  rw [State.modPart_part, if_pos rfl, hi] at hz
  rw [← hno]
  simpa using (List.mem_filter.mp hz).2

/-- The end of an `Inst`: nothing but what `Keeps` allows changes, and its number is gone. -/
theorem State.endInstance_keeps (s : State) (p : PartId) (n status : Nat) :
    s.Keeps (s.endInstance p n status) ∧ ∀ i ∈ ((s.endInstance p n status).part p).insts, i.no ≠ n := by
  unfold State.endInstance
  cases hi : s.inst p n with
  | none => exact ⟨.refl s, fun i h hn => by simpa [hn] using List.find?_eq_none.mp hi i h⟩
  | some i =>
    have h1 : s.Keeps (if (s.part p).parked.any (fun k => k.inst = n && k.written) then s.dropRecord p else s) :=
      .ite (s.dropRecord_keeps p) (.refl s)
    have h2 := h1.trans (.foldl (fun s t => s.clearTile_keeps p n t) allTiles _)
    exact State.signalled_keeps h2 i status (fun _ => rfl) (fun _ => rfl)

theorem State.endTaskOf_keeps (s : State) (t : Tile) (status : Nat) : s.Keeps (s.endTaskOf t status) := by
  unfold State.endTaskOf
  split
  · exact (s.endInstance_keeps _ _ status).1
  · exact .refl s

/-! ## A world that comes back, and the world of an FLR that goes -/

theorem State.wakeWord_keeps (s : State) (t : Tile) : s.Keeps (s.wakeWord t) := by
  unfold State.wakeWord
  split
  · exact .of_eq rfl rfl
  · exact .refl s

theorem State.restore_keeps (s : State) (t : Tile) (h : Husk) : s.Keeps (s.restore t h) := by
  unfold State.restore
  extract_lets g home s1 f f' owner s2
  have h1 : s.Keeps s1 := s.forgetCommands_keeps h.part _
  have h2 : s.Keeps s2 := h1.modTile.trans (State.wakeWord_keeps _ t)
  exact .ite (h2.trans (s2.endTaskOf_keeps t 4)) h2

theorem State.huskBack_keeps (s : State) (t : Tile) (h : Husk) : s.Keeps (s.huskBack t h) := by
  have hor : s.Keeps (s.restoreOr t h) := by
    unfold State.restoreOr
    refine .ite (s.restore_keeps t h) ?_
    split
    · exact (s.endInstance_keeps _ _ 4).1
    · exact .refl s
  unfold State.huskBack
  split
  · split
    · exact s.modTile_keeps t _
    · exact hor
  · exact .refl s

/-- A world that comes back is in force, and what its husks end on the way changes no binding, no world, and adds no
`Inst`. -/
theorem State.worldIn_keeps (s : State) (p : PartId) (v : Option VfId) :
    (s.modPart p (fun x => { x with world := v })).Keeps (s.worldIn p v) := by
  delta State.worldIn
  extract_lets s1
  split
  · rename_i w _
    have hbins := State.Keeps.foldl (fun s e => (s.modTile_keeps _ _ : s.Keeps (s.loadBin e false))) w.bins s1
    have htillers := hbins.trans (.foldl (fun (s : State) (e : Tile × List TillerRec) =>
      s.modTile_keeps e.1 (fun x => { x with tiller := e.2 })) w.tillers _)
    have hhusks := htillers.trans (.foldl (fun (s : State) (e : Tile × Husk) => s.huskBack_keeps e.1 e.2) w.husks _)
    exact hhusks.modPart (fun _ => rfl) (fun _ => rfl)
  · exact .refl s1

/-- The end of one `Inst` after another. -/
def State.endAll (s : State) (p : PartId) (status : Nat) (l : List Inst) : State :=
  l.foldl (fun (s : State) i => s.endInstance p i.no status) s

theorem State.endAll_insts (p : PartId) (status : Nat) (l : List Inst) (s : State) :
    s.noNewInst (s.endAll p status l) p ∧ ∀ i ∈ l, ∀ y ∈ ((s.endAll p status l).part p).insts, y.no ≠ i.no := by
  induction l generalizing s with
  | nil => exact ⟨(State.Keeps.refl s).insts p, fun i h => absurd h (by simp)⟩
  | cons a l ih =>
    obtain ⟨hkeeps, hgone⟩ := s.endInstance_keeps p a.no status
    obtain ⟨hsub, hrest⟩ := ih (s.endInstance p a.no status)
    refine ⟨State.noNewInst.trans (hkeeps.insts p) hsub, fun i hi y hy => ?_⟩
    rcases List.mem_cons.mp hi with rfl | hi
    · obtain ⟨z, hz, hno, -⟩ := hsub y hy
      rw [← hno]; exact hgone z hz
    · exact hrest i hi y hy

/-- Ending all of a world leaves nothing of that world. -/
theorem State.endWorld_discards (s : State) (p : PartId) (f : VfId) (status : Nat) :
    ∀ i ∈ ((s.endAll p status ((s.part p).insts.filter (fun i => i.world = some f))).part p).insts, i.world ≠ some f := by
  intro i hi hw
  obtain ⟨hsub, hgone⟩ := State.endAll_insts p status ((s.part p).insts.filter (fun i => i.world = some f)) s
  obtain ⟨j, hj, hno, hjw⟩ := hsub i hi
  exact hgone j (List.mem_filter.mpr ⟨hj, by simp [hjw, hw]⟩) i hi hno.symm

/-- The latch of an FLR leaves nothing of the VF's world in the VF's partition. -/
theorem State.latchFlr_discards {s : State} {f : VfId} {p : PartId} (h : (s.vf f).part = some p) :
    ∀ i ∈ ((s.latchFlr f).part p).insts, i.world ≠ some f := by
  delta State.latchFlr
  extract_lets s1
  have hp : (s1.vf f).part = some p := by
    dsimp only [s1]; rw [State.modVf_vf, if_pos rfl]; exact h
  rw [hp]
  exact State.endWorld_discards _ p f 4

theorem State.endFlr_noNewInst (s : State) (f : VfId) (p : PartId) : s.noNewInst (s.endFlr f) p := by
  unfold State.endFlr
  split
  · exact (State.Keeps.foldl (fun (s : State) (e : Nat × Stream) => s.freeStream_keeps _ e.1) _ s).insts p
  · exact (State.Keeps.refl s).insts p

end Sys2Proof.Machine
end

section
/-! SUPPORT. The controllers of the update scheme and the mailbox: when a command is carried out, its reads of host memory, and IMAGE,
SWITCH and ABORT. -/

namespace Sys2Proof.Machine

/-! ## The controllers -/

theorem State.modCtrl_ctrl (s : State) (c d : CtrlId) (f : CtrlSt → CtrlSt) :
    (s.modCtrl c f).ctrl d = if c = d then f (s.ctrl d) else s.ctrl d := by
  have h := vector_set_get s.granary.ctrls c d (f s.granary.ctrls[c])
  refine h.trans ?_
  split
  · rename_i e; subst e; rfl
  · rfl

theorem State.modCtrl_ctrl_same (s : State) (c : CtrlId) (f : CtrlSt → CtrlSt) : (s.modCtrl c f).ctrl c = f (s.ctrl c) := by
  rw [State.modCtrl_ctrl, if_pos rfl]

theorem State.mbResult_ctrl (s : State) (r : Nat) (c : CtrlId) : (s.mbResult r).ctrl c = s.ctrl c := rfl

theorem State.modCtrl_sameBytes (s : State) (c : CtrlId) (f : CtrlSt → CtrlSt) : sameBytes s (s.modCtrl c f) := by
  intro x; cases x <;> rfl

theorem State.modPf_sameBytes (s : State) (f : PfSt → PfSt) : sameBytes s (s.modPf f) := by
  intro x; cases x <;> rfl

theorem State.drawn_sameBytes (s : State) : sameBytes s s.drawn := by
  intro x; cases x <;> rfl

theorem State.bootCtrl_ctrl (s : State) (c d : CtrlId) : (s.bootCtrl c).ctrl d = s.ctrl d := by
  unfold State.bootCtrl; split <;> rfl

theorem State.bootCtrl_sameBytes (s : State) (c : CtrlId) : sameBytes s (s.bootCtrl c) := by
  unfold State.bootCtrl
  split
  · intro x; cases x <;> rfl
  · exact .refl s

theorem CtrlSt.bankSt_idle (x : CtrlSt) : x.bankSt (!x.run) = x.idleSt := by
  unfold CtrlSt.bankSt CtrlSt.idleSt; cases x.run <;> rfl

/-! ## The pending command (R377) -/

/-- The command `code` is pending and nothing holds it back. -/
def State.mailboxDue (s : State) (code : Nat) : Prop :=
  s.pf.busy = true ∧ s.pf.mbcmd.toNat = code ∧ s.pf.mbResult = none ∧ s.pf.ready = true ∧ s.pf.recov = false ∧
    s.inTrial 0 = false ∧ ∀ c ∈ s.granary.ctrls.toList, c.mbWaits = false

theorem State.mailboxDue.notInTrial {s : State} {code : Nat} (h : s.mailboxDue code) : s.inTrial 0 = false := by
  obtain ⟨-, -, -, -, -, htrial, -⟩ := h
  exact htrial

theorem State.mbox_due {s : State} {code : Nat} (h : s.mailboxDue code) (body : State → State) : s.mbox code body = .next (body s) := by
  obtain ⟨hbusy, hcmd, hres, hready, hrecov, htrial, hwaits⟩ := h
  have hall : s.granary.ctrls.toList.all (fun c => !c.mbWaits) = true := by
    simpa only [List.all_eq_true, Bool.not_eq_true'] using hwaits
  unfold State.mbox
  simp [hbusy, hcmd, hres, hready, hrecov, htrial, hall]

theorem rawHost_of {ptr : Word} {a : Nat} (h : ptr.toNat = 7 * 2 ^ 60 + a) (ha : a < 2 ^ 48) (n : Nat) :
    rawHost ptr n = if a + n ≤ 2 ^ 48 then some a else none := by
  have h7 : wbits ptr 60 4 = 7 := by unfold wbits bitsOf; omega
  have h0 : wbits ptr 48 12 = 0 := by unfold wbits bitsOf; omega
  have hl : wbits ptr 0 48 = a := by unfold wbits bitsOf; omega
  unfold rawHost
  simp [h7, h0, hl]

/-- The host serves Granary's read through a good pointer, or answers with an error (R384). -/
theorem State.rawRead_cases {s : State} {ptr : Word} {a n : Nat} (h : rawHost ptr n = some a) :
    (s.rawRead ptr n = (.ok (Mem.read s.host a n), s.drawn) ∧ s.hostUp = true) ∨ s.rawRead ptr n = (.error 3, s.drawn) := by
  unfold State.rawRead State.rawServes
  simp only [h]
  cases hs : (s.hostUp && decide (s.freeBelow 2 = 0))
  · exact .inr rfl
  · exact .inl ⟨rfl, ((Bool.and_eq_true _ _).mp hs).1⟩

theorem State.rawRead_down {s : State} {ptr : Word} {a n : Nat} (h : rawHost ptr n = some a) (hd : s.hostUp = false) :
    s.rawRead ptr n = (.error 3, s.drawn) := by
  rcases State.rawRead_cases (s := s) h with ⟨-, hu⟩ | h
  · rw [hd] at hu; exact Bool.noConfusion hu
  · exact h

/-! ## Register writes and MAILBOX_DONE -/

theorem State.pfReachable_of {s : State} (hd : s.pf.d3hot = false) (hc : s.pf.cold = false) (hu : s.hostUp = true) :
    s.pfReachable = true := by
  unfold State.pfReachable; rw [hd, hc, hu]; rfl

/-- What a PF vector changes: its table entry, and the messages sent. -/
theorem State.sendMsix_pf (s : State) (vec : Fin 4) : ∃ m, s.sendMsix 0 vec =
    { s.modPf (fun x => { x with msix := m }) with
      sent := if s.hostUp = false ∨ s.pf.msix[vec].masked = true then s.sent else s.sent ++ [MsixSent.mk 0 vec] } := by
  unfold State.sendMsix
  dsimp only
  cases hu : s.hostUp
  · rw [if_pos (Or.inl rfl : false = false ∨ _)]
    exact ⟨s.pf.msix, rfl⟩
  · rw [if_neg (by decide : ¬ (!true) = true), if_pos rfl]
    refine ⟨s.pf.msix.set vec s.pf.msix[vec].fire, ?_⟩
    cases hm : s.pf.msix[vec].masked
    · rw [if_neg (by decide), if_neg (by decide)]; rfl
    · rw [if_pos rfl, if_pos (.inr rfl)]; rfl

theorem exec_mailboxDone_reports {s : State} {r : Nat} (hb : s.pf.busy = true) (hr : s.pf.mbResult = some r) :
    ∃ t, exec .mailboxDone s = .next t ∧ t.pf.busy = false ∧ t.pf.last = s.pf.mbcmd ∧
      t.pf.result.toNat = r % 256 ∧ t.pf.mbResult = none ∧ sameBytes s t ∧
      t.sent = if s.hostUp = false ∨ s.pf.msix[(3 : Fin 4)].masked = true then s.sent else s.sent ++ [MsixSent.mk 0 3] := by
  have he : exec .mailboxDone s = .next ((s.modPf (fun x =>
      { x with busy := false, last := x.mbcmd, result := BitVec.ofNat 8 r, mbResult := none })).sendMsix 0 3) := by
    change execMailboxDone s = _
    unfold execMailboxDone; simp only [hb, hr]
  obtain ⟨m, hm⟩ := State.sendMsix_pf (s.modPf (fun x =>
      { x with busy := false, last := x.mbcmd, result := BitVec.ofNat 8 r, mbResult := none })) 3
  refine ⟨_, he.trans (congrArg _ hm), rfl, rfl, BitVec.toNat_ofNat r 8, rfl, ?_, rfl⟩
  intro x; cases x <;> rfl

/-! ## IMAGE (R378) -/

theorem bankBytes_of {n : Nat} (h : n ≤ 26) : bankBytes (Fin.ofNat 27 n) = if n = 0 then 0x100000 else 0x80000 := by
  unfold bankBytes
  rw [show (Fin.ofNat 27 n).val = n from Nat.mod_eq_of_lt (by omega)]

/-- A controller whose idle bank has taken an image, which is being verified. -/
def CtrlSt.imageLoaded (x : CtrlSt) (img key : List Byte) : CtrlSt :=
  { (x.loadIdle img key).setIdleSt .invalid with verifying := true, mbWaits := true }

theorem CtrlSt.imageLoaded_fields (x : CtrlSt) (img key : List Byte) :
    (x.imageLoaded img key).idleBank = img ∧ (x.imageLoaded img key).idleKey = key ∧
      (x.imageLoaded img key).running = x.running ∧ (x.imageLoaded img key).bankSt (!x.run) = .invalid ∧
      (x.imageLoaded img key).run = x.run ∧ (x.imageLoaded img key).verifying = true := by
  cases h : x.run <;> simp [CtrlSt.imageLoaded, CtrlSt.loadIdle, CtrlSt.setIdleSt, CtrlSt.idleBank, CtrlSt.idleKey,
    CtrlSt.running, CtrlSt.bankSt, h]

theorem exec_image_unread {s s1 : State} (hd : s.mailboxDue 1) (hc : (s.mbarg 0).toNat ≤ 26)
    (hn : (s.mbarg 2).toNat ≤ bankBytes (Fin.ofNat 27 (s.mbarg 0).toNat))
    (h1 : s.rawRead (s.mbarg 1) (s.mbarg 2).toNat = (.error 3, s1)) : exec .image s = .next (s1.mbResult 3) := by
  change execImage s = _
  unfold execImage
  rw [State.mbox_due hd]
  simp only [if_neg (Nat.not_lt.mpr hc), if_neg (Nat.not_lt.mpr hn), h1]

theorem exec_image_keyUnread {s s1 s2 : State} {img : List Byte} (hd : s.mailboxDue 1) (hc : (s.mbarg 0).toNat ≤ 26)
    (hn : (s.mbarg 2).toNat ≤ bankBytes (Fin.ofNat 27 (s.mbarg 0).toNat))
    (h1 : s.rawRead (s.mbarg 1) (s.mbarg 2).toNat = (.ok img, s1)) (h2 : s1.rawRead (s1.mbarg 3) 57 = (.error 3, s2)) :
    exec .image s = .next (s2.mbResult 3) := by
  change execImage s = _
  unfold execImage
  rw [State.mbox_due hd]
  simp only [if_neg (Nat.not_lt.mpr hc), if_neg (Nat.not_lt.mpr hn), h1, h2]

theorem exec_image_loads {s s1 s2 : State} {img key : List Byte} (hd : s.mailboxDue 1) (hc : (s.mbarg 0).toNat ≤ 26)
    (hn : (s.mbarg 2).toNat ≤ bankBytes (Fin.ofNat 27 (s.mbarg 0).toNat))
    (h1 : s.rawRead (s.mbarg 1) (s.mbarg 2).toNat = (.ok img, s1)) (h2 : s1.rawRead (s1.mbarg 3) 57 = (.ok key, s2))
    (ha : (s2.ctrl (Fin.ofNat 27 (s.mbarg 0).toNat)).idleSt ≠ .active) (ht : (s2.ctrl (Fin.ofNat 27 (s.mbarg 0).toNat)).trial = none)
    (hv : (s2.ctrl (Fin.ofNat 27 (s.mbarg 0).toNat)).verifying = false) :
    exec .image s = .next (s2.modCtrl (Fin.ofNat 27 (s.mbarg 0).toNat) (fun x => x.imageLoaded img key)) := by
  change execImage s = _
  unfold execImage
  rw [State.mbox_due hd]
  simp only [if_neg (Nat.not_lt.mpr hc), if_neg (Nat.not_lt.mpr hn), h1, h2, if_neg ha, ht, hv, Option.isSome_none, Bool.or_false,
    Bool.false_eq_true, if_false]
  rfl

/-- IMAGE within its bounds: result 3 where the host fails a read, else the idle bank takes the image. -/
theorem exec_image_serves {s : State} {a b : Nat} (hd : s.mailboxDue 1) (hc : (s.mbarg 0).toNat ≤ 26)
    (hn : (s.mbarg 2).toNat ≤ bankBytes (Fin.ofNat 27 (s.mbarg 0).toNat))
    (h1 : rawHost (s.mbarg 1) (s.mbarg 2).toNat = some a) (h3 : rawHost (s.mbarg 3) 57 = some b)
    (ha : (s.ctrl (Fin.ofNat 27 (s.mbarg 0).toNat)).idleSt ≠ .active) (ht : (s.ctrl (Fin.ofNat 27 (s.mbarg 0).toNat)).trial = none)
    (hv : (s.ctrl (Fin.ofNat 27 (s.mbarg 0).toNat)).verifying = false) :
    ∃ t, exec .image s = .next t ∧ (t.pf = { s.pf with mbResult := some 3 } ∧ sameBytes s t ∨
      t.ctrl (Fin.ofNat 27 (s.mbarg 0).toNat) =
        (s.ctrl (Fin.ofNat 27 (s.mbarg 0).toNat)).imageLoaded (Mem.read s.host a (s.mbarg 2).toNat) (Mem.read s.host b 57) ∧
      t.pf = s.pf ∧ sameBytes s t) := by
  rcases State.rawRead_cases (s := s) h1 with ⟨r1, -⟩ | r1
  · rcases State.rawRead_cases (s := s.drawn) h3 with ⟨r3, -⟩ | r3
    · refine ⟨_, exec_image_loads hd hc hn r1 r3 ha ht hv, .inr ⟨State.modCtrl_ctrl_same _ _ _, rfl, ?_⟩⟩
      exact (State.drawn_sameBytes s).trans ((State.drawn_sameBytes _).trans (State.modCtrl_sameBytes _ _ _))
    · refine ⟨_, exec_image_keyUnread hd hc hn r1 r3, .inl ⟨rfl, ?_⟩⟩
      exact (State.drawn_sameBytes s).trans ((State.drawn_sameBytes _).trans (State.modPf_sameBytes _ _))
  · exact ⟨_, exec_image_unread hd hc hn r1, .inl ⟨rfl, (State.drawn_sameBytes s).trans (State.modPf_sameBytes _ _)⟩⟩

/-! ## SWITCH and ABORT (R356) -/

/-- A command on a controller that is carried out keeps the controller's ERR. -/
theorem State.ctrlCommand_done {s t : State} {c : CtrlId} {op : State → State}
    (ht : op (s.modCtrl c (fun x => { x with err := 0 })) = t) (he : (t.ctrl c).err = 0) :
    s.ctrlCommand c op = (t.modCtrl c (fun x => { x with err := (s.ctrl c).err })).mbResult 0 := by
  unfold State.ctrlCommand
  simp only [ht, he, if_true]

/-- One that is refused leaves the code in ERR and answers it. -/
theorem State.ctrlCommand_refused {s t : State} {c : CtrlId} {op : State → State} {e : Nat}
    (ht : op (s.modCtrl c (fun x => { x with err := 0 })) = t) (he : (t.ctrl c).err = e) (h0 : e ≠ 0) :
    s.ctrlCommand c op = (t.modCtrl c (fun x => { x with err := e })).mbResult (16 + e) := by
  unfold State.ctrlCommand
  simp only [ht, he, if_neg h0]

theorem State.clearErr_inTrial (s : State) (c : CtrlId) :
    (s.modCtrl c (fun x => { x with err := 0 })).inTrial 0 = s.inTrial 0 := by
  unfold State.inTrial; rw [State.modCtrl_ctrl]; split <;> rfl

theorem State.clearErr_liveCurrent (s : State) (c : CtrlId) :
    (s.modCtrl c (fun x => { x with err := 0 })).liveCurrent c = s.liveCurrent c := by
  unfold State.liveCurrent; rw [State.modCtrl_ctrl_same]; rfl

/-- A controller whose staged bank runs in trial from `now`. -/
def CtrlSt.switched (x : CtrlSt) (now : Nat) : CtrlSt :=
  let x := (x.setIdleSt .trial).setRunSt .idle
  { x with run := !x.run, base := x.live, trial := some now, beat := none }

theorem CtrlSt.switched_fields (x : CtrlSt) (now : Nat) :
    (x.switched now).run = (!x.run) ∧ (x.switched now).bankSt (!x.run) = .trial ∧ (x.switched now).bankSt x.run = .idle ∧
      (x.switched now).trial = some now ∧ (x.switched now).err = x.err := by
  cases h : x.run <;> simp [CtrlSt.switched, CtrlSt.setIdleSt, CtrlSt.setRunSt, CtrlSt.bankSt, h]

theorem State.ucmdSwitch_misfit {s : State} {c : CtrlId} (h0 : s.inTrial 0 = false) (h : (s.ctrl c).idleSt ≠ .staged) :
    s.ucmdSwitch c = s.modCtrl c CtrlSt.misfit := by
  unfold State.ucmdSwitch
  simp [h0, h]

theorem State.ucmdSwitch_starts {s : State} {c : CtrlId} (h0 : s.inTrial 0 = false) (hst : (s.ctrl c).idleSt = .staged)
    (ht : (s.ctrl c).trial = none) (hv : (s.ctrl c).verifying = false) (hl : s.liveCurrent c = true) :
    s.ucmdSwitch c = (s.modCtrl c (fun x => x.switched s.dtime)).bootCtrl c := by
  unfold State.ucmdSwitch
  simp [h0, hst, ht, hv, hl]
  rfl

theorem exec_switch_commands {s : State} {c : CtrlId} (hd : s.mailboxDue 2) (hc : (s.mbarg 0).toNat ≤ 26)
    (hcc : Fin.ofNat 27 (s.mbarg 0).toNat = c) (hb : s.ev.bytes = []) :
    exec .switch s = .next (s.ctrlCommand c (fun s' => s'.ucmdSwitch c)) := by
  subst hcc
  change execSwitch s = _
  unfold execSwitch
  rw [State.mbox_due hd]
  simp only [if_neg (Nat.not_lt.mpr hc), hb, if_true]

theorem exec_abort_commands {s : State} {c : CtrlId} (hd : s.mailboxDue 3) (hc : (s.mbarg 0).toNat ≤ 26)
    (hcc : Fin.ofNat 27 (s.mbarg 0).toNat = c) : exec .abort s = .next (s.ctrlCommand c (fun s' => s'.ucmdAbort c)) := by
  subst hcc
  change execAbort s = _
  unfold execAbort
  rw [State.mbox_due hd]
  simp only [if_neg (Nat.not_lt.mpr hc)]

/-- SWITCH on a controller with no staged bank does not fit: code 12. -/
theorem State.switchCommand_misfit {s : State} {c : CtrlId} (h0 : s.inTrial 0 = false) (h : (s.ctrl c).idleSt ≠ .staged) :
    (s.ctrlCommand c (fun s' => s'.ucmdSwitch c)).pf.mbResult = some 28 ∧
      (s.ctrlCommand c (fun s' => s'.ucmdSwitch c)).ctrl c = { s.ctrl c with err := 12 } ∧
      sameBytes s (s.ctrlCommand c (fun s' => s'.ucmdSwitch c)) := by
  have hs : (s.modCtrl c (fun x => { x with err := 0 })).ucmdSwitch c = _ :=
    State.ucmdSwitch_misfit ((s.clearErr_inTrial c).trans h0) (by rw [State.modCtrl_ctrl_same]; exact h)
  rw [State.ctrlCommand_refused (e := 12) hs (by rw [State.modCtrl_ctrl_same]; rfl) (by decide)]
  refine ⟨rfl, ?_, ?_⟩
  · simp only [State.mbResult_ctrl, State.modCtrl_ctrl_same]; rfl
  · exact (State.modCtrl_sameBytes _ _ _).trans ((State.modCtrl_sameBytes _ _ _).trans
      ((State.modCtrl_sameBytes _ _ _).trans (State.modPf_sameBytes _ _)))

/-- SWITCH on a controller whose idle bank is staged starts the trial. -/
theorem State.switchCommand_starts {s : State} {c : CtrlId} (h0 : s.inTrial 0 = false) (hst : (s.ctrl c).idleSt = .staged)
    (ht : (s.ctrl c).trial = none) (hv : (s.ctrl c).verifying = false) (hl : s.liveCurrent c = true) :
    (s.ctrlCommand c (fun s' => s'.ucmdSwitch c)).pf.mbResult = some 0 ∧
      (s.ctrlCommand c (fun s' => s'.ucmdSwitch c)).ctrl c = (s.ctrl c).switched s.dtime ∧
      sameBytes s (s.ctrlCommand c (fun s' => s'.ucmdSwitch c)) := by
  have hc0 : (s.modCtrl c (fun x => { x with err := 0 })).ctrl c = { s.ctrl c with err := 0 } := State.modCtrl_ctrl_same _ _ _
  have hs : (s.modCtrl c (fun x => { x with err := 0 })).ucmdSwitch c = _ :=
    State.ucmdSwitch_starts ((s.clearErr_inTrial c).trans h0) (by rw [hc0]; exact hst) (by rw [hc0]; exact ht)
      (by rw [hc0]; exact hv) ((s.clearErr_liveCurrent c).trans hl)
  rw [State.ctrlCommand_done hs (by
    rw [State.bootCtrl_ctrl, State.modCtrl_ctrl_same, hc0]; exact (CtrlSt.switched_fields _ _).2.2.2.2)]
  refine ⟨rfl, ?_, ?_⟩
  · rw [State.mbResult_ctrl, State.modCtrl_ctrl_same, State.bootCtrl_ctrl, State.modCtrl_ctrl_same, hc0]
    unfold CtrlSt.switched CtrlSt.setIdleSt CtrlSt.setRunSt
    cases (s.ctrl c).run <;> rfl
  · exact (State.modCtrl_sameBytes _ _ _).trans ((State.modCtrl_sameBytes _ _ _).trans ((State.bootCtrl_sameBytes _ _).trans
      ((State.modCtrl_sameBytes _ _ _).trans (State.modPf_sameBytes _ _))))

theorem CtrlSt.setIdleSt_fields (x : CtrlSt) (b : BankSt) :
    (x.setIdleSt b).bankSt (!x.run) = b ∧ (x.setIdleSt b).bankSt x.run = x.bankSt x.run ∧ (x.setIdleSt b).err = x.err := by
  cases h : x.run <;> simp [CtrlSt.setIdleSt, CtrlSt.bankSt, h]

theorem State.ucmdAbort_drops {s : State} {c : CtrlId} (hst : (s.ctrl c).idleSt = .staged) (hv : (s.ctrl c).verifying = false) :
    (s.ucmdAbort c).ctrl c = (s.ctrl c).setIdleSt .invalid := by
  unfold State.ucmdAbort
  rw [State.modCtrl_ctrl_same]
  exact if_pos (by rw [hst, hv]; rfl)

/-- ABORT drops a staged image. -/
theorem State.abortCommand_drops {s : State} {c : CtrlId} (hst : (s.ctrl c).idleSt = .staged) (hv : (s.ctrl c).verifying = false) :
    (s.ctrlCommand c (fun s' => s'.ucmdAbort c)).pf.mbResult = some 0 ∧
      (s.ctrlCommand c (fun s' => s'.ucmdAbort c)).ctrl c = (s.ctrl c).setIdleSt .invalid ∧
      sameBytes s (s.ctrlCommand c (fun s' => s'.ucmdAbort c)) := by
  have hc0 : (s.modCtrl c (fun x => { x with err := 0 })).ctrl c = { s.ctrl c with err := 0 } := State.modCtrl_ctrl_same _ _ _
  have hs := State.ucmdAbort_drops (by rw [hc0]; exact hst) (by rw [hc0]; exact hv)
  rw [hc0] at hs
  rw [State.ctrlCommand_done rfl (by rw [hs]; exact (CtrlSt.setIdleSt_fields _ _).2.2)]
  refine ⟨rfl, ?_, ?_⟩
  · rw [State.mbResult_ctrl, State.modCtrl_ctrl_same, hs]
    unfold CtrlSt.setIdleSt
    cases (s.ctrl c).run <;> rfl
  · exact (State.modCtrl_sameBytes _ _ _).trans ((State.modCtrl_sameBytes _ _ _).trans
      ((State.modCtrl_sameBytes _ _ _).trans (State.modPf_sameBytes _ _)))

end Sys2Proof.Machine
end

section
/-! SUPPORT. ATTEST, PART, BIND, UNBIND and DOMAIN: what each does in each of its cases, and what the report and a configuration hold. -/

namespace Sys2Proof.Machine

/-! ## The report (R362) -/

theorem shake256_length (n : Nat) (m : List Byte) : (shake256 n m).length = n := by
  unfold shake256; rw [List.length_map, List.length_range]

theorem CtrlSt.report_length (x : CtrlSt) (c : CtrlId) : (x.report c).length = 80 := by
  simp [CtrlSt.report, imageDigest, shake256_length]

theorem aliasSign_length (digests : List (List Byte)) (m : List Byte) : (aliasSign digests m).length = 114 := by
  unfold aliasSign EdKey.sign EdPoint.encode
  dsimp only
  rw [List.length_append, leBytes_length, leBytes_length]

theorem State.attestation_length (s : State) {nonce : List Byte} (h : nonce.length = 64) : (s.attestation nonce).length = 2450 := by
  have hctrls : ((List.finRange 27).flatMap (fun c => (s.ctrl c).report c)).length = 2160 := by
    simp only [List.length_flatMap, CtrlSt.report_length]; rfl
  unfold State.attestation
  simp only [List.length_append, leBytes_length, aliasSign_length, hctrls, h, List.length_replicate]

/-- The report begins with its magic, its version, YREV, the time and the nonce. -/
theorem State.attestation_begins (s : State) (nonce : List Byte) : ∃ rest, s.attestation nonce =
    (leBytes 4 0x54534C41 ++ (leBytes 2 1 ++ (leBytes 2 yrev ++ leBytes 8 s.dtime))) ++ (nonce ++ rest) := by
  unfold State.attestation
  simp only [List.append_assoc]
  exact ⟨_, rfl⟩

theorem fieldAt_leBytes_head (n v : Nat) (r : List Byte) : fieldAt (leBytes n v ++ r) 0 n = v % 256 ^ n := by
  unfold fieldAt
  rw [List.drop_zero, List.take_left' (leBytes_length n v), leNat_leBytes]

theorem fieldAt_append_right {a : List Byte} {o n k : Nat} (b : List Byte) (h : a.length = k) :
    fieldAt (a ++ b) (k + o) n = fieldAt b o n := by
  unfold fieldAt; rw [← h, List.drop_length_add_append]

theorem State.attestation_fields (s : State) {nonce : List Byte} (h : nonce.length = 64) :
    fieldAt (s.attestation nonce) 0 4 = 0x54534C41 ∧ fieldAt (s.attestation nonce) 4 2 = 1 ∧
      fieldAt (s.attestation nonce) 8 8 = s.dtime % 2 ^ 64 ∧ ((s.attestation nonce).drop 16).take 64 = nonce := by
  obtain ⟨rest, hr⟩ := s.attestation_begins nonce
  have hnonce : ((s.attestation nonce).drop 16).take 64 = nonce := by
    rw [hr, List.drop_left' (by simp only [List.length_append, leBytes_length]), List.take_left' h]
  simp only [List.append_assoc] at hr
  refine ⟨?_, ?_, ?_, hnonce⟩
  · rw [hr]
    exact (fieldAt_leBytes_head _ _ _).trans rfl
  · rw [hr, fieldAt_append_right (k := 4) (o := 0) _ (leBytes_length 4 _)]
    exact (fieldAt_leBytes_head _ _ _).trans rfl
  · rw [hr, fieldAt_append_right (k := 4) (o := 4) _ (leBytes_length 4 _), fieldAt_append_right (k := 2) (o := 2) _ (leBytes_length 2 _),
      fieldAt_append_right (k := 2) (o := 0) _ (leBytes_length 2 _)]
    exact (fieldAt_leBytes_head _ _ _).trans rfl

theorem Mem.read_write_apart {m : Mem} {a b n : Nat} {bs : List Byte} (h : Memory.wf m = true) (hd : a + n ≤ b ∨ b + bs.length ≤ a) :
    Mem.read (Mem.write m b bs) a n = Mem.read m a n := by
  refine List.map_congr_left fun i hi => ?_
  have := List.mem_range.mp hi
  exact Mem.byte_write_outside m b bs (a + i) h (by omega)

/-! ## ATTEST (R361, R378) -/

theorem exec_attest_unplaced {s : State} {a r : Nat} (hd : s.mailboxDue 4) (h0 : rawHost (s.mbarg 0) 64 = some a)
    (h1 : rawHost (s.mbarg 1) 2450 = some r)
    (h2 : rawHost (s.mbarg 2) (certChain s.digests).length = none) : exec .attest s = .next (s.drawn.mbResult 1) := by
  change execAttest s = _
  unfold execAttest
  rw [State.mbox_due hd]
  rcases State.rawRead_cases (s := s) h0 with ⟨r0, -⟩ | r0 <;> simp only [r0, h1, h2]

theorem exec_attest_unread {s : State} {r b : Nat} (hd : s.mailboxDue 4) (r0 : s.rawRead (s.mbarg 0) 64 = (.error 3, s.drawn))
    (h1 : rawHost (s.mbarg 1) 2450 = some r) (h2 : rawHost (s.mbarg 2) (certChain s.digests).length = some b) :
    exec .attest s = .next (s.drawn.mbResult 3) := by
  change execAttest s = _
  unfold execAttest
  rw [State.mbox_due hd]
  simp only [r0, h1, h2]

theorem exec_attest_short {s : State} {r b : Nat} {nonce : List Byte} (hd : s.mailboxDue 4)
    (r0 : s.rawRead (s.mbarg 0) 64 = (.ok nonce, s.drawn)) (h1 : rawHost (s.mbarg 1) 2450 = some r)
    (h2 : rawHost (s.mbarg 2) (certChain s.digests).length = some b) (h3 : (s.mbarg 3).toNat < (certChain s.digests).length) :
    exec .attest s = .next (s.drawn.mbResult 1) := by
  change execAttest s = _
  unfold execAttest
  rw [State.mbox_due hd]
  simp only [r0, h1, h2]
  exact congrArg _ (if_pos h3)

/-- The report and the chain are written, or the host fails the write. -/
theorem exec_attest_placed {s : State} {r b : Nat} {nonce : List Byte} (hd : s.mailboxDue 4)
    (r0 : s.rawRead (s.mbarg 0) 64 = (.ok nonce, s.drawn)) (h1 : rawHost (s.mbarg 1) 2450 = some r)
    (h2 : rawHost (s.mbarg 2) (certChain s.digests).length = some b) (h3 : (certChain s.digests).length ≤ (s.mbarg 3).toNat) :
    exec .attest s = .next (s.drawn.drawn.mbResult 3) ∨
    exec .attest s = .next (State.mbResult { s.drawn.drawn with
      host := Mem.write (Mem.write s.host r (s.attestation nonce)) b (certChain s.digests) } 0) := by
  change execAttest s = _ ∨ execAttest s = _
  unfold execAttest
  rw [State.mbox_due hd]
  simp only [r0, h1, h2]
  rw [if_neg (show ¬ (s.drawn.mbarg 3).toNat < _ from Nat.not_lt.mpr h3)]
  unfold State.rawServes
  cases s.drawn.hostUp && decide (s.drawn.freeBelow 2 = 0)
  · exact .inl rfl
  · exact .inr rfl

/-! ## PART (R324, R379) -/

theorem exec_part_unread {s s1 : State} (hd : s.mailboxDue 5) (hp : (s.mbarg 1).toNat ≤ 39)
    (r0 : s.rawRead (s.mbarg 0) 2112 = (.error 3, s1)) : exec .part s = .next (s1.mbResult 3) := by
  change execPart s = _
  unfold execPart
  rw [State.mbox_due hd]
  simp only [if_neg (Nat.not_lt.mpr hp), r0]

theorem exec_part_refused {s s1 : State} {b : List Byte} (hd : s.mailboxDue 5) (hp : (s.mbarg 1).toNat ≤ 39)
    (r0 : s.rawRead (s.mbarg 0) 2112 = (.ok b, s1)) (hb : s1.blockOk (Fin.ofNat 40 (s.mbarg 1).toNat) b = false) :
    exec .part s = .next (s1.mbResult 1) := by
  change execPart s = _
  unfold execPart
  rw [State.mbox_due hd]
  simp only [if_neg (Nat.not_lt.mpr hp), r0, hb, Bool.not_false, if_true]

theorem exec_part_inUse {s s1 : State} {b : List Byte} (hd : s.mailboxDue 5) (hp : (s.mbarg 1).toNat ≤ 39)
    (r0 : s.rawRead (s.mbarg 0) 2112 = (.ok b, s1)) (hb : s1.blockOk (Fin.ofNat 40 (s.mbarg 1).toNat) b = true)
    (hi : (s1.part (Fin.ofNat 40 (s.mbarg 1).toNat)).insts ≠ []) : exec .part s = .next (s1.mbResult 2) := by
  change execPart s = _
  unfold execPart
  rw [State.mbox_due hd]
  simp only [if_neg (Nat.not_lt.mpr hp), r0, hb, Bool.not_true, Bool.false_eq_true, if_false]
  rw [if_pos ((Bool.or_eq_true _ _).mpr (.inl (decide_eq_true hi)))]

theorem exec_part_configures {s s1 : State} {b : List Byte} (hd : s.mailboxDue 5) (hp : (s.mbarg 1).toNat ≤ 39)
    (r0 : s.rawRead (s.mbarg 0) 2112 = (.ok b, s1)) (hb : s1.blockOk (Fin.ofNat 40 (s.mbarg 1).toNat) b = true)
    (hi : (s1.part (Fin.ofNat 40 (s.mbarg 1).toNat)).insts = [])
    (hh : ∀ u ∈ (s1.part (Fin.ofNat 40 (s.mbarg 1).toNat)).tileList, (s1.tile u).held = false) :
    exec .part s = .next ((s1.configure (Fin.ofNat 40 (s.mbarg 1).toNat) b).mbResult 0) := by
  have hnone : (s1.part (Fin.ofNat 40 (s.mbarg 1).toNat)).tileList.any (fun t => (s1.tile t).held) = false := by
    simpa only [List.any_eq_false, Bool.not_eq_true] using hh
  change execPart s = _
  unfold execPart
  rw [State.mbox_due hd]
  simp only [if_neg (Nat.not_lt.mpr hp), r0, hb, Bool.not_true, Bool.false_eq_true, if_false, hi, hnone]
  simp

/-- A block that is accepted names a tile as its home. -/
theorem State.blockOk_home {s : State} {p : PartId} {b : List Byte} (h : s.blockOk p b = true) : fieldAt b 10 1 < 64 := by
  unfold State.blockOk at h
  simp only [Bool.and_eq_true] at h
  obtain ⟨-, -, -, hhome, -⟩ := h
  exact of_decide_eq_true hhome

/-- A partition with the fields of a block (R379). -/
def PartSt.configured (x : PartSt) (b : List Byte) (now : Nat) : PartSt :=
  { x with
    inUse := wordAt b 0 8 ≠ 0, tiles := wordAt b 0 8, slim := fieldAt b 8 2, home := Fin.ofNat 64 (fieldAt b 10 1),
    q0 := fieldAt b 12 4, q1 := fieldAt b 16 4, slots := blockSlots b, exovr := 0,
    budget := { count := fieldAt b 20 3, window := fieldAt b 23 2, refill := fieldAt b 20 3, began := now } }

theorem State.configure_part (s : State) (p q : PartId) (b : List Byte) :
    (s.configure p b).part q = if p = q then (s.part q).configured b s.dtime else s.part q :=
  State.modPart_part s p q fun x => x.configured b s.dtime

/-- A tile after a configuration: one of the partition's, one that it has given up, or another. -/
theorem State.configure_tile (s : State) (p : PartId) (b : List Byte) (u : Tile) :
    (s.configure p b).tile u =
      if (wordAt b 0 8).getLsbD u.val = true then
        { s.tile u with part := p, slim := fieldAt b 8 2, dirty := (s.tile u).dirty.filter (fun k => fieldAt b 8 2 ≤ k),
                        tb := [], lines := [] }
      else if (s.part p).tiles.getLsbD u.val = true then { s.tile u with part := 0, slim := 0, tb := [], lines := [] }
      else s.tile u := by
  unfold State.configure State.tile
  rw [vecOf_get]
  dsimp only
  rw [vGet_val]
  rfl

theorem State.configure_memory (s : State) (p : PartId) (b : List Byte) (u : Tile) :
    ((s.configure p b).tile u).slice = (s.tile u).slice ∧ ((s.configure p b).tile u).sync = (s.tile u).sync := by
  rw [State.configure_tile]
  split
  · exact ⟨rfl, rfl⟩
  · split
    · exact ⟨rfl, rfl⟩
    · exact ⟨rfl, rfl⟩

theorem State.configure_sameBytes (s : State) (p : PartId) (b : List Byte) : sameBytes s (s.configure p b) := by
  intro x
  cases x with
  | slice u a => exact congrArg (Mem.byte · a) (s.configure_memory p b u).1
  | sync u a => exact congrArg (Mem.byte · a) (s.configure_memory p b u).2
  | bulk a => rfl
  | host a => rfl
  | remote a => rfl

/-! ## BIND and UNBIND -/

theorem State.mbVf_of {s : State} {f : VfId} (h : (s.mbarg 0).toNat = f.val + 1) : s.mbVf = some f := by
  have hrange : (decide (1 ≤ f.val + 1) && decide (f.val + 1 ≤ 256)) = true := by
    have hf := f.isLt
    simp only [Bool.and_eq_true, decide_eq_true_eq]; omega
  unfold State.mbVf
  simp only [h]
  rw [if_pos hrange]
  exact congrArg some (Fin.ext (Nat.mod_eq_of_lt f.isLt))

theorem State.mbVf_none {s : State} (h : (s.mbarg 0).toNat = 0 ∨ 256 < (s.mbarg 0).toNat) : s.mbVf = none := by
  unfold State.mbVf
  exact if_neg (by simp; omega)

theorem exec_bind_number {s : State} (hd : s.mailboxDue 6) (h : s.mbVf = none) : exec .bind s = .next (s.mbResult 1) := by
  change execBind s = _
  unfold execBind
  rw [State.mbox_due hd]
  simp only [h]

theorem exec_bind_bound {s : State} {f : VfId} (hd : s.mailboxDue 6) (h : s.mbVf = some f) (hp : (s.mbarg 1).toNat ≤ 39)
    (hb : (s.vf f).part.isSome = true) : exec .bind s = .next (s.mbResult 2) := by
  change execBind s = _
  unfold execBind
  rw [State.mbox_due hd]
  simp only [h, if_neg (Nat.not_lt.mpr hp), hb, if_true]

/-- The VF bound to a partition. -/
def State.withBound (s : State) (f : VfId) (p : PartId) : State := s.modVf f (fun x => { x with part := some p })

theorem exec_bind_binds {s : State} {f : VfId} (hd : s.mailboxDue 6) (h : s.mbVf = some f) (hp : (s.mbarg 1).toNat ≤ 39)
    (hb : (s.vf f).part = none) :
    exec .bind s = .next ((if (s.part (Fin.ofNat 40 (s.mbarg 1).toNat)).world.isNone then
      (s.withBound f (Fin.ofNat 40 (s.mbarg 1).toNat)).worldIn (Fin.ofNat 40 (s.mbarg 1).toNat) (some f)
      else s.withBound f (Fin.ofNat 40 (s.mbarg 1).toNat)).mbResult 0) := by
  change execBind s = _
  unfold execBind
  rw [State.mbox_due hd]
  simp only [h, if_neg (Nat.not_lt.mpr hp), hb, Option.isSome_none, Bool.false_eq_true, if_false]
  rfl

theorem State.withBound_part (s : State) (f : VfId) (p : PartId) : ((s.withBound f p).vf f).part = some p := by
  unfold State.withBound; rw [State.modVf_vf, if_pos rfl]

theorem exec_unbind_unbound {s : State} {f : VfId} (hd : s.mailboxDue 7) (h : s.mbVf = some f) (hb : (s.vf f).part = none) :
    exec .unbind s = .next (s.mbResult 2) := by
  change execUnbind s = _
  unfold execUnbind
  rw [State.mbox_due hd]
  simp only [h, hb]

/-- The partition forgets the VF's world. -/
def PartSt.forgetWorld (x : PartSt) (f : VfId) : PartSt :=
  { x with world := if x.world = some f then none else x.world, costs := x.costs.filter (fun e => e.1 != f),
           saved := x.saved.filter (fun w => w.vf != some f), floored := x.floored.filter (fun g => g != f) }

theorem exec_unbind_unbinds {s : State} {f : VfId} {q : PartId} (hd : s.mailboxDue 7) (h : s.mbVf = some f) (hb : (s.vf f).part = some q)
    (hs : (s.part q).switch = none) :
    exec .unbind s = .next (((((s.latchFlr f).endFlr f).modPart q (fun x => x.forgetWorld f)).modVf f
      (fun x => { x with part := none })).mbResult 0) := by
  change execUnbind s = _
  unfold execUnbind
  rw [State.mbox_due hd]
  simp only [h, hb, hs, Option.any_none, Bool.false_eq_true, if_false]
  rfl

theorem State.endFlr_vf (s : State) (f : VfId) :
    ((s.endFlr f).vf f).queues = VfSt.reset.queues ∧ ((s.endFlr f).vf f).msix = VfSt.reset.msix := by
  unfold State.endFlr
  dsimp only
  rw [State.modVf_vf, if_pos rfl]
  exact ⟨rfl, rfl⟩

/-! ## DOMAIN (R381) -/

theorem exec_domain_cases {s : State} {a : Nat} (hd : s.mailboxDue 8) (h : rawHost (s.mbarg 0) 0 = some a) :
    exec .domain s = .next (s.drawn.mbResult 3) ∨ s.hostUp = true ∧
      exec .domain s = .next ((s.drawn.modFab (fun f => { f with
        domain := (Config.domainMap s.host a (s.mbarg 1).toNat).take (s.mbarg 1).toNat })).mbResult 0) := by
  change execDomain s = _ ∨ _ ∧ execDomain s = _
  unfold execDomain
  rw [State.mbox_due hd]
  simp only [h]
  unfold State.rawServes
  cases hs : (s.hostUp && decide (s.freeBelow 2 = 0))
  · exact .inl rfl
  · exact .inr ⟨((Bool.and_eq_true _ _).mp hs).1, rfl⟩

end Sys2Proof.Machine
end

section
/-! SUPPORT. The clauses on PF register writes and mailbox commands, each from the rules of its command (O53). -/

namespace Sys2Proof.Machine

/-! ## Register writes (R366, R377) -/

/-- A pointer of a command over a range of host memory is placed where it points. -/
theorem rawHost_placed {ptr : Word} {a n : Nat} (h : ptr.toNat = 7 * 2 ^ 60 + a ∧ a + n ≤ 2 ^ 48 ∧ a < 2 ^ 48) :
    rawHost ptr n = some a := by
  obtain ⟨hp, hn, ha⟩ := h
  rw [rawHost_of hp ha, if_pos hn]

theorem State.pageWrite_enabled {s : State} {f : VfId} {q : QueueId} {g : Queue → Queue} (h : (s.queue f q).en = true) :
    s.pageWrite f q g = s := by
  unfold State.pageWrite; simp [h]

theorem State.pageWrite_live {s : State} {f : VfId} {q : QueueId} {g : Queue → Queue} (hp : (s.vf f).part.isSome = true)
    (hf : (s.vf f).flr = false) (hu : s.hostUp = true) (h : (s.queue f q).en = false) : s.pageWrite f q g = s.modQueue f q g := by
  unfold State.pageWrite State.vfLive; simp [h, hp, hf, hu]

theorem exec_registerWrite_mbarg {s : State} {k : Fin 4} (hr : s.pfReachable = true) (h : s.ev.reg = .mbarg k) :
    exec .registerWrite s = .next (s.modPf (fun x => { x with mbargs := x.mbargs.set k s.ev.v })) := by
  change execRegisterWrite s = _
  unfold execRegisterWrite; simp only [h, hr, if_true]

theorem exec_registerWrite_mbcmd {s : State} (hr : s.pfReachable = true) (h : s.ev.reg = .mbcmd) (hb : s.pf.busy = false) :
    exec .registerWrite s = .next (s.modPf (fun x => { x with mbcmd := s.ev.v.extractLsb' 0 8, busy := true, mbResult := none })) := by
  change execRegisterWrite s = _
  unfold execRegisterWrite; simp only [h, hr, hb, Bool.not_false, Bool.and_self, if_true]

theorem exec_registerWrite_mbcmd_busy {s : State} (h : s.ev.reg = .mbcmd) (hb : s.pf.busy = true) :
    exec .registerWrite s = .next s := by
  change execRegisterWrite s = _
  unfold execRegisterWrite; simp only [h, hb, Bool.not_true, Bool.and_false, Bool.false_eq_true, if_false]

theorem exec_registerWrite_qbase {s : State} {f : VfId} {q : QueueId} (h : s.ev.reg = .qbase f q) :
    exec .registerWrite s = .next (s.pageWrite f q (fun y => { y with base := s.ev.v })) := by
  change execRegisterWrite s = _
  unfold execRegisterWrite; simp only [h]

theorem exec_registerWrite_readOnly {s : State} (h : s.ev.reg = .readOnly) : exec .registerWrite s = .next s := by
  change execRegisterWrite s = _
  unfold execRegisterWrite; simp only [h]

/-! ## Commands (R378) -/

theorem exec_unknownCmd_due {s : State} {k : Nat} (hd : s.mailboxDue k) (hk : k = 0 ∨ 8 < k) :
    exec .unknownCmd s = .next (s.mbResult 1) := by
  have hm := State.mbox_due hd (fun s => s.mbResult 1)
  obtain ⟨-, hcmd, -, -, hrecov, -⟩ := hd
  change execUnknownCmd s = _
  unfold execUnknownCmd
  rw [hcmd, hrecov]
  simp only [hm, Bool.false_eq_true, if_false]
  exact if_pos (by simpa using hk)

theorem exec_image_number {s : State} (hd : s.mailboxDue 1) (hc : 26 < (s.mbarg 0).toNat) : exec .image s = .next (s.mbResult 1) := by
  change execImage s = _
  unfold execImage
  rw [State.mbox_due hd]
  simp only [if_pos hc]

theorem exec_abort_number {s : State} (hd : s.mailboxDue 3) (hc : 26 < (s.mbarg 0).toNat) : exec .abort s = .next (s.mbResult 1) := by
  change execAbort s = _
  unfold execAbort
  rw [State.mbox_due hd]
  simp only [if_pos hc]

/-- What BIND leaves of the VF's binding and of the partition's world. -/
theorem exec_bind_result {s : State} {f : VfId} {p : PartId} (hd : s.mailboxDue 6) (h : s.mbVf = some f) (hp : (s.mbarg 1).toNat ≤ 39)
    (hpp : p = Fin.ofNat 40 (s.mbarg 1).toNat) (hb : (s.vf f).part = none) :
    ∃ t, exec .bind s = .next t ∧ t.pf.mbResult = some 0 ∧ (t.vf f).part = some p ∧
      (∀ v, (s.part p).world = some v → t.part p = s.part p) ∧ ((s.part p).world = none → (t.part p).world = some f) := by
  have he := exec_bind_binds hd h hp hb
  rw [← hpp] at he
  refine ⟨_, he, rfl, ?_, fun v hv => ?_, fun hw => ?_⟩
  · split
    · exact (((s.withBound f p).worldIn_keeps p (some f)).bound f).trans (s.withBound_part f p)
    · exact s.withBound_part f p
  · rw [hv]; rfl
  · rw [hw]
    refine (((s.withBound f p).worldIn_keeps p (some f)).world p).trans ?_
    rw [State.modPart_part, if_pos rfl]

theorem PartSt.forgetWorld_world (x : PartSt) (f : VfId) : (x.forgetWorld f).world ≠ some f := by
  unfold PartSt.forgetWorld
  dsimp only
  split
  · exact (Option.some_ne_none f).symm
  · assumption

/-- A VF unbound from a partition, which forgets its world. -/
def State.unbound (s : State) (f : VfId) (q : PartId) : State :=
  (s.modPart q (fun x => x.forgetWorld f)).modVf f (fun x => { x with part := none })

theorem State.unbound_vf (s : State) (f : VfId) (q : PartId) : (s.unbound f q).vf f = { s.vf f with part := none } := by
  unfold State.unbound; rw [State.modVf_vf, if_pos rfl]; rfl

theorem State.unbound_part (s : State) (f : VfId) (q : PartId) : (s.unbound f q).part q = (s.part q).forgetWorld f := by
  unfold State.unbound
  exact (State.modPart_part s q q fun x => x.forgetWorld f).trans (if_pos rfl)

/-- What UNBIND leaves of the VF, and of its partition's world and list. -/
theorem exec_unbind_result {s : State} {f : VfId} {q : PartId} (hd : s.mailboxDue 7) (h : s.mbVf = some f)
    (hb : (s.vf f).part = some q) (hs : (s.part q).switch = none) :
    ∃ t, exec .unbind s = .next t ∧ t.pf.mbResult = some 0 ∧ (t.vf f).part = none ∧ (t.vf f).queues = VfSt.reset.queues ∧
      (t.vf f).msix = VfSt.reset.msix ∧ (t.part q).world ≠ some f ∧ ∀ i ∈ (t.part q).insts, i.world ≠ some f := by
  obtain ⟨hqueues, hmsix⟩ := (s.latchFlr f).endFlr_vf f
  have hdiscards := State.latchFlr_discards hb
  have hsub := (s.latchFlr f).endFlr_noNewInst f q
  have he : exec .unbind s = .next ((((s.latchFlr f).endFlr f).unbound f q).mbResult 0) := exec_unbind_unbinds hd h hb hs
  generalize (s.latchFlr f).endFlr f = u at hqueues hmsix hsub he
  have hvf : (((u.unbound f q).mbResult 0).vf f) = { u.vf f with part := none } := u.unbound_vf f q
  have hpart : (((u.unbound f q).mbResult 0).part q) = (u.part q).forgetWorld f := u.unbound_part f q
  refine ⟨_, he, rfl, by rw [hvf], by rw [hvf]; exact hqueues, by rw [hvf]; exact hmsix, ?_, fun i hi hw => ?_⟩
  · rw [hpart]; exact (u.part q).forgetWorld_world f
  · rw [hpart] at hi
    obtain ⟨j, hj, -, hjw⟩ := hsub i hi
    exact hdiscards j hj (hjw.trans hw)

/-- The bytes of host memory once a report and the chain stand beside each other. -/
theorem Mem.report_written {m : Mem} {r b : Nat} {rep chain : List Byte} (h : Memory.wf m = true) (hr : rep.length = 2450)
    (hd : r + 2450 ≤ b ∨ b + chain.length ≤ r) :
    Mem.read (Mem.write (Mem.write m r rep) b chain) r 2450 = rep ∧
      Mem.read (Mem.write (Mem.write m r rep) b chain) b chain.length = chain ∧
      ∀ z, z < r ∨ r + 2450 ≤ z → z < b ∨ b + chain.length ≤ z → Mem.byte (Mem.write (Mem.write m r rep) b chain) z = Mem.byte m z := by
  have hw := Mem.write_wf m r rep h
  refine ⟨?_, Mem.read_write _ b chain hw, fun z hz hz' => ?_⟩
  · rw [Mem.read_write_apart hw hd, ← hr]
    exact Mem.read_write m r rep h
  · rw [Mem.byte_write_outside _ b chain z hw hz', Mem.byte_write_outside m r rep z h (by rwa [hr])]

/-- ATTEST by its arguments: the chain's buffer too small or not in host memory, the host that fails, or the report. -/
theorem exec_attest_result {s : State} {a b r : Nat} (hd : s.mailboxDue 4) (h0 : rawHost (s.mbarg 0) 64 = some a)
    (h1 : rawHost (s.mbarg 1) 2450 = some r) (h2 : (s.mbarg 2).toNat = 7 * 2 ^ 60 + b) (hb : b < 2 ^ 48) (hm : s.memOk) :
    ∃ t, exec .attest s = .next t ∧
      ((s.mbarg 3).toNat < (certChain s.digests).length ∨ 2 ^ 48 < b + (certChain s.digests).length → s.hostUp = true →
        t.pf = { s.pf with mbResult := some 1 } ∨ t.pf = { s.pf with mbResult := some 3 }) ∧
      (s.hostUp = false → (certChain s.digests).length ≤ (s.mbarg 3).toNat → b + (certChain s.digests).length ≤ 2 ^ 48 →
        exec .attest s = .next (s.drawn.mbResult 3)) ∧
      ((certChain s.digests).length ≤ (s.mbarg 3).toNat → b + (certChain s.digests).length ≤ 2 ^ 48 →
        r + 2450 ≤ b ∨ b + (certChain s.digests).length ≤ r →
        t.pf.mbResult = some 3 ∧ sameBytes s t ∨ ∃ rep, t.pf.mbResult = some 0 ∧ Mem.read t.host r 2450 = rep ∧
          fieldAt rep 0 4 = 0x54534C41 ∧ fieldAt rep 4 2 = 1 ∧ fieldAt rep 8 8 = s.dtime % 2 ^ 64 ∧
          (rep.drop 16).take 64 = Mem.read s.host a 64 ∧ Mem.read t.host b (certChain s.digests).length = certChain s.digests ∧
          ∀ z, z < r ∨ r + 2450 ≤ z → z < b ∨ b + (certChain s.digests).length ≤ z → Mem.byte t.host z = Mem.byte s.host z) := by
  have hplace := rawHost_of h2 hb (certChain s.digests).length
  by_cases hfit : b + (certChain s.digests).length ≤ 2 ^ 48
  case neg =>
    rw [if_neg hfit] at hplace
    exact ⟨_, exec_attest_unplaced hd h0 h1 hplace, fun _ _ => .inl rfl, fun _ _ h => absurd h hfit, fun _ h => absurd h hfit⟩
  rw [if_pos hfit] at hplace
  rcases State.rawRead_cases (s := s) h0 with ⟨r0, hup⟩ | r0
  case inr =>
    have he := exec_attest_unread hd r0 h1 hplace
    exact ⟨_, he, fun _ _ => .inr rfl, fun _ _ _ => he,
      fun _ _ _ => .inl ⟨rfl, (State.drawn_sameBytes s).trans (State.modPf_sameBytes _ _)⟩⟩
  have hnotDown : s.hostUp ≠ false := by rw [hup]; decide
  by_cases hroom : (certChain s.digests).length ≤ (s.mbarg 3).toNat
  case neg =>
    exact ⟨_, exec_attest_short hd r0 h1 hplace (Nat.not_le.mp hroom), fun _ _ => .inl rfl, fun h => absurd h hnotDown,
      fun h => absurd h hroom⟩
  have hnone : ¬ ((s.mbarg 3).toNat < (certChain s.digests).length ∨ 2 ^ 48 < b + (certChain s.digests).length) := by omega
  rcases exec_attest_placed hd r0 h1 hplace hroom with he | he
  · exact ⟨_, he, fun h => absurd h hnone, fun h => absurd h hnotDown, fun _ _ _ => .inl ⟨rfl,
      (State.drawn_sameBytes s).trans ((State.drawn_sameBytes _).trans (State.modPf_sameBytes _ _))⟩⟩
  · refine ⟨_, he, fun h => absurd h hnone, fun h => absurd h hnotDown, fun _ _ hapart => .inr ?_⟩
    have hlen := Mem.read_length s.host a 64
    obtain ⟨hmagic, hver, htime, hnonce⟩ := s.attestation_fields hlen
    obtain ⟨hrep, hchain, hrest⟩ := Mem.report_written hm.2.1 (s.attestation_length hlen) hapart
    exact ⟨s.attestation (Mem.read s.host a 64), rfl, hrep, hmagic, hver, htime, hnonce, hchain, hrest⟩

/-- PART with a block that is accepted on an idle partition. -/
theorem State.configure_result {s : State} {p : PartId} {b : List Byte} (hb : s.blockOk p b = true) :
    ((s.configure p b).part p).tiles = wordAt b 0 8 ∧ ((s.configure p b).part p).inUse = decide (wordAt b 0 8 ≠ 0) ∧
      ((s.configure p b).part p).home.val = fieldAt b 10 1 ∧ ((s.configure p b).part p).slim = fieldAt b 8 2 ∧
      ((s.configure p b).part p).q0 = fieldAt b 12 4 ∧ ((s.configure p b).part p).q1 = fieldAt b 16 4 ∧
      ((s.configure p b).part p).budget.refill = fieldAt b 20 3 ∧ ((s.configure p b).part p).budget.window = fieldAt b 23 2 ∧
      (∀ u : Tile, (wordAt b 0 8).getLsbD u.val = true →
        ((s.configure p b).tile u).part = p ∧ ((s.configure p b).tile u).slim = fieldAt b 8 2 ∧ ((s.configure p b).tile u).tb = []) ∧
      (∀ u : Tile, (wordAt b 0 8).getLsbD u.val = false → (s.part p).tiles.getLsbD u.val = false →
        (s.configure p b).tile u = s.tile u) ∧
      (∀ q, q ≠ p → (s.configure p b).part q = s.part q) ∧ sameBytes s (s.configure p b) := by
  have hp : (s.configure p b).part p = (s.part p).configured b s.dtime := (s.configure_part p p b).trans (if_pos rfl)
  rw [hp]
  refine ⟨rfl, rfl, Nat.mod_eq_of_lt (State.blockOk_home hb), rfl, rfl, rfl, rfl, rfl, fun u hu => ?_, fun u hu ho => ?_, fun q hq => ?_,
    s.configure_sameBytes p b⟩
  · rw [State.configure_tile, if_pos hu]; exact ⟨rfl, rfl, rfl⟩
  · rw [State.configure_tile, if_neg (by rw [hu]; decide), if_neg (by rw [ho]; decide)]
  · rw [State.configure_part, if_neg (Ne.symm hq)]

/-- Settles O53: each clause is a case of its command's own rule; for BIND and UNBIND, what comes back or ends on the way changes no
binding and adds nothing launched. -/
theorem mailboxResults : Obligations.MailboxResults := by
  unfold Obligations.MailboxResults
  intro s x arg up fault due gives host c w
  refine ⟨?_, ?_, exec_registerWrite_readOnly, fun r hb hr => exec_mailboxDone_reports hb hr, fun k hd hk => exec_unknownCmd_due hd hk,
    fun hd hc => exec_image_number hd hc, ?_, ?_, ?_, ?_, ?_, fun hd hc => exec_abort_number hd hc, ?_, ?_, ?_, ?_, ?_⟩
  · rintro ⟨hd3, hcold, hup⟩
    have hreach := State.pfReachable_of hd3 hcold hup
    exact ⟨fun k h => exec_registerWrite_mbarg hreach h, fun h hb => exec_registerWrite_mbcmd hreach h hb,
      fun h hb => exec_registerWrite_mbcmd_busy h hb⟩
  · intro f q hreg
    have he := exec_registerWrite_qbase hreg
    exact ⟨fun hp hf hu hen => he.trans (by rw [State.pageWrite_live hp hf hu hen]),
      fun hen => he.trans (by rw [State.pageWrite_enabled hen])⟩
  · intro a b hd hc hn h1 h3 hact htrial hver
    obtain ⟨t, he, ht | ⟨hctrl, hpf, hbytes⟩⟩ := exec_image_serves hd hc (Nat.le_trans hn (Nat.le_of_eq (bankBytes_of hc).symm)) (rawHost_placed h1)
      (rawHost_placed h3)
      (by rw [← CtrlSt.bankSt_idle]; exact hact) htrial hver
    · exact ⟨t, he, .inl ht⟩
    · obtain ⟨hbank, hkey, hrunning, hinvalid, hrun, hverifying⟩ :=
        w.imageLoaded_fields (Mem.read s.host a (arg 2)) (Mem.read s.host b 57)
      have hctrl' : t.ctrl c = w.imageLoaded (Mem.read s.host a (arg 2)) (Mem.read s.host b 57) := hctrl
      exact ⟨t, he, .inr (by rw [hctrl']; exact ⟨hbank, hkey, hrunning, hinvalid, hrun, hverifying, hpf, hbytes⟩)⟩
  · intro a hd hc hn h1 hdown
    exact exec_image_unread hd hc (Nat.le_trans hn (Nat.le_of_eq (bankBytes_of hc).symm)) (State.rawRead_down (rawHost_placed h1) hdown)
  · intro hd hc hb hst
    have h0 : s.inTrial 0 = false := State.mailboxDue.notInTrial hd
    exact ⟨_, exec_switch_commands (c := c) hd hc rfl hb, State.switchCommand_misfit h0 (by rw [← CtrlSt.bankSt_idle]; exact hst)⟩
  · intro hd hc hb hst htrial hver hlive
    have h0 : s.inTrial 0 = false := State.mailboxDue.notInTrial hd
    have hstaged : w.idleSt = .staged := w.bankSt_idle.symm.trans hst
    obtain ⟨hres, hctrl, hbytes⟩ := State.switchCommand_starts (c := c) h0 hstaged htrial hver hlive
    obtain ⟨hrun, hnew, hold, hsince, herr⟩ := w.switched_fields s.dtime
    refine ⟨_, exec_switch_commands (c := c) hd hc rfl hb, hres, ?_⟩
    rw [hctrl]
    exact ⟨hrun, hnew, hold, hsince, herr, hbytes⟩
  · intro hd hc hst hver
    obtain ⟨hres, hctrl, hbytes⟩ := State.abortCommand_drops (c := c) ((CtrlSt.bankSt_idle w).symm.trans hst) hver
    obtain ⟨hnew, hold, herr⟩ := w.setIdleSt_fields .invalid
    refine ⟨_, exec_abort_commands (c := c) hd hc rfl, hres, ?_⟩
    rw [hctrl]
    exact ⟨hnew, hold, herr, hbytes⟩
  · intro a r b hd h0 h1 h2 hb hm
    exact exec_attest_result hd (rawHost_placed h0) (rawHost_placed h1) h2 hb hm
  · intro a hd h0 hp p b mask gives
    rcases State.rawRead_cases (s := s) (rawHost_placed h0) with ⟨r0, hup⟩ | r0
    case inr =>
      have he : fault (exec .part s) := exec_part_unread hd hp r0
      exact ⟨fun _ => he, fun _ => .inl he, fun _ _ => .inl he, fun _ _ _ => .inl he⟩
    refine ⟨fun h => absurd h (by rw [hup]; decide), fun hb => .inr (exec_part_refused hd hp r0 hb),
      fun hb hi => .inr (exec_part_inUse hd hp r0 hb hi), fun hb hi hh => .inr ?_⟩
    exact ⟨_, exec_part_configures hd hp r0 hb hi hh, rfl, State.configure_result (s := s.drawn) hb⟩
  · intro f hf hp p
    have hvf := State.mbVf_of hf
    exact ⟨fun hd hb => exec_bind_bound hd hvf hp hb, fun hd hb => exec_bind_result hd hvf hp rfl hb,
      fun hd hb => exec_unbind_unbound hd hvf hb, fun q hd hb hs => exec_unbind_result hd hvf hb hs⟩
  · exact fun hd h => exec_bind_number hd (State.mbVf_none h)
  · intro a hd h0
    rcases exec_domain_cases hd (rawHost_placed h0) with he | ⟨hup, he⟩
    · exact ⟨fun _ => he, .inl he⟩
    · exact ⟨fun h => absurd h (by rw [hup]; decide), .inr he⟩

end Sys2Proof.Machine
end

section
/-! SUPPORT. The atomics of C: what a read or a write at a home looks at, what a write at a home leaves of C, and what a performed
atomic returns and writes (O13). -/

namespace Sys2Proof.Machine

/-! ## What an access at a home looks at -/

/-- Two states agree on what a read or a write at a home, made for the task of tile `u`, looks at: the bytes of memory, the partitions,
the VFs, the controllers, and the task itself. -/
structure State.SameHomes (s t : State) (u : Tile) : Prop where
  slice : ∀ v, (t.tile v).slice = (s.tile v).slice
  sync : ∀ v, (t.tile v).sync = (s.tile v).sync
  bulk : t.bulk = s.bulk
  host : t.host = s.host
  remote : t.fabric.remote = s.fabric.remote
  parts : t.parts = s.parts
  vfs : t.vfs = s.vfs
  granary : t.granary = s.granary
  task : t.task u = s.task u

namespace State.SameHomes

theorem refl (s : State) (u : Tile) : s.SameHomes s u :=
  ⟨fun _ => rfl, fun _ => rfl, rfl, rfl, rfl, rfl, rfl, rfl, rfl⟩

theorem trans {s t w : State} {u : Tile} (h : s.SameHomes t u) (k : t.SameHomes w u) : s.SameHomes w u where
  slice v := (k.slice v).trans (h.slice v)
  sync v := (k.sync v).trans (h.sync v)
  bulk := k.bulk.trans h.bulk
  host := k.host.trans h.host
  remote := k.remote.trans h.remote
  parts := k.parts.trans h.parts
  vfs := k.vfs.trans h.vfs
  granary := k.granary.trans h.granary
  task := k.task.trans h.task

theorem part {s t : State} {u : Tile} (h : s.SameHomes t u) (p : PartId) : t.part p = s.part p := by
  unfold State.part; rw [h.parts]

theorem homeBytes {s t : State} {u : Tile} (h : s.SameHomes t u) (l : Loc) (n : Nat) : t.homeBytes l n = s.homeBytes l n := by
  cases l with
  | slice v o => exact congrArg (Mem.read · o n) (h.slice v)
  | sync v o => exact congrArg (Mem.read · o n) (h.sync v)
  | bulk p va pa e st => exact congrArg (Mem.read · pa n) h.bulk
  | host p b e => exact congrArg (Mem.read · b n) h.host
  | fabric p d o => simp only [State.homeBytes, FabricSt.remoteRead, h.remote]

theorem sameBytes {s t : State} {u : Tile} (h : s.SameHomes t u) : sameBytes s t := by
  intro x
  cases x with
  | slice v a => exact congrArg (Mem.byte · a) (h.slice v)
  | sync v a => exact congrArg (Mem.byte · a) (h.sync v)
  | bulk a => exact congrArg (Mem.byte · a) h.bulk
  | host a => exact congrArg (Mem.byte · a) h.host
  | remote a => simp only [State.byteAt, h.remote]

theorem noMigration {s t : State} {u : Tile} (h : s.SameHomes t u) (hn : s.noMigration) : t.noMigration := by
  intro p; rw [h.part]; exact hn p

theorem memOk {s t : State} {u : Tile} (h : s.SameHomes t u) (hm : s.memOk) : t.memOk := by
  unfold State.memOk
  simp only [h.slice, h.sync, h.bulk, h.host, h.remote, h.part, h.granary]
  exact hm

theorem hostOpen {s t : State} {u : Tile} (h : s.SameHomes t u) (ho : s.hostOpen u) : t.hostOpen u := by
  unfold State.hostOpen State.hostUp State.hostBlocked State.worldOfTask State.inst State.vf
  simp only [h.part, h.vfs, h.granary, h.task]
  exact ho

end State.SameHomes

theorem State.modTile_sameHomes (s : State) (v u : Tile) (f : TileSt → TileSt) (hs : ∀ x, (f x).slice = x.slice := by intro; rfl)
    (hy : ∀ x, (f x).sync = x.sync := by intro; rfl) (ht : ∀ x, (f x).logic.task = x.logic.task := by intro; rfl) :
    s.SameHomes (s.modTile v f) u where
  slice w := by rw [State.modTile_tile]; split <;> simp only [hs]
  sync w := by rw [State.modTile_tile]; split <;> simp only [hy]
  bulk := rfl
  host := rfl
  remote := rfl
  parts := rfl
  vfs := rfl
  granary := rfl
  task := by unfold State.task State.logic; rw [State.modTile_tile]; split <;> simp only [ht]

theorem State.modLogic_sameHomes (s : State) (v u : Tile) (f : Logic → Logic) (ht : ∀ g, (f g).task = g.task := by intro; rfl) :
    s.SameHomes (s.modLogic v f) u :=
  State.modTile_sameHomes s v u _ (ht := fun x => ht x.logic)

theorem State.modC_sameHomes (s : State) (v u : Tile) (f : CSt → CSt) : s.SameHomes (s.modC v f) u :=
  State.modLogic_sameHomes s v u _

theorem State.dropLines_sameHomes (s : State) (v u : Tile) (p : PartId) (va n : Nat) : s.SameHomes (s.dropLines v p va n) u :=
  State.modTile_sameHomes s v u _

theorem State.modLs_sameHomes (s : State) (v u : Tile) (isS : Bool) (f : LsSt → LsSt) : s.SameHomes (s.modLs v isS f) u :=
  State.modLogic_sameHomes s v u _ (fun _ => by cases isS <;> rfl)

theorem State.ownWrite_sameHomes (s : State) (v u : Tile) (l : Loc) (n : Nat) : s.SameHomes (s.ownWrite v l n) u :=
  State.modLs_sameHomes s v u false _

theorem State.amoLines_sameHomes (s : State) (v u : Tile) (l : Loc) : s.SameHomes (s.amoLines v l) u := by
  cases l with
  | bulk p va pa e st => exact State.dropLines_sameHomes s v u p va 8
  | slice w o => exact .refl s u
  | sync w o => exact .refl s u
  | host p b e => exact .refl s u
  | fabric p d o => exact .refl s u

theorem State.fabricDone_sameHomes (s : State) (v u : Tile) (l : Loc) : s.SameHomes (s.fabricDone v l) u := by
  cases l with
  | fabric p d o => exact ⟨fun _ => rfl, fun _ => rfl, rfl, rfl, rfl, rfl, rfl, rfl, rfl⟩
  | slice w o => exact .refl s u
  | sync w o => exact .refl s u
  | bulk p va pa e st => exact .refl s u
  | host p b e => exact .refl s u

/-! ## What a write at a home leaves of C -/

/-- C of tile `u` has the same registers and the same outstanding accesses, and its task is being frozen in both states or in neither. -/
structure State.SameOps (s t : State) (u : Tile) : Prop where
  regs : (t.c u).s = (s.c u).s
  ops : (t.c u).ops = (s.c u).ops
  freezing : (t.tile u).freezing = (s.tile u).freezing

theorem State.SameOps.trans {s t w : State} {u : Tile} (h : s.SameOps t u) (k : t.SameOps w u) : s.SameOps w u :=
  ⟨k.regs.trans h.regs, k.ops.trans h.ops, k.freezing.trans h.freezing⟩

theorem State.SameOps.of_tiles {s t : State} {u : Tile} (h : t.tiles = s.tiles := by rfl) : s.SameOps t u := by
  constructor <;> simp only [State.c, State.logic, State.tile, h]

theorem State.SameOps.refl (s : State) (u : Tile) : s.SameOps s u := .of_tiles

theorem State.modTile_sameOps (s : State) (v u : Tile) (f : TileSt → TileSt) (hr : ∀ x, (f x).logic.c.s = x.logic.c.s := by intro; rfl)
    (ho : ∀ x, (f x).logic.c.ops = x.logic.c.ops := by intro; rfl) (hf : ∀ x, (f x).freezing = x.freezing := by intro; rfl) :
    s.SameOps (s.modTile v f) u := by
  constructor <;> simp only [State.c, State.logic, State.modTile_tile] <;> split <;> simp only [hr, ho, hf]

theorem State.modLogic_sameOps (s : State) (v u : Tile) (f : Logic → Logic) (hr : ∀ g, (f g).c.s = g.c.s := by intro; rfl)
    (ho : ∀ g, (f g).c.ops = g.c.ops := by intro; rfl) : s.SameOps (s.modLogic v f) u :=
  State.modTile_sameOps s v u _ (hr := fun x => hr x.logic) (ho := fun x => ho x.logic)

theorem State.dropLines_sameOps (s : State) (v u : Tile) (p : PartId) (va n : Nat) : s.SameOps (s.dropLines v p va n) u :=
  State.modTile_sameOps s v u _

theorem State.emptyLines_sameOps (s : State) (v u : Tile) : s.SameOps (s.emptyLines v) u := State.modTile_sameOps s v u _

theorem State.modC_sameOps (s : State) (v u : Tile) (f : CSt → CSt) (hr : ∀ c, (f c).s = c.s := by intro; rfl)
    (ho : ∀ c, (f c).ops = c.ops := by intro; rfl) : s.SameOps (s.modC v f) u :=
  State.modLogic_sameOps s v u _ (fun g => hr g.c) (fun g => ho g.c)

theorem State.modLs_sameOps (s : State) (v u : Tile) (isS : Bool) (f : LsSt → LsSt) : s.SameOps (s.modLs v isS f) u :=
  State.modLogic_sameOps s v u _ (fun _ => by cases isS <;> rfl) (fun _ => by cases isS <;> rfl)

theorem State.noteSync_sameOps (s : State) (v u : Tile) : s.SameOps (s.noteSync v) u := State.modC_sameOps s v u _

theorem State.ownWrite_sameOps (s : State) (v u : Tile) (l : Loc) (n : Nat) : s.SameOps (s.ownWrite v l n) u :=
  State.modLs_sameOps s v u false _

theorem State.wakeBlock_sameOps (s : State) (u : Tile) (l : Loc) (n : Nat) : s.SameOps (s.wakeBlock l n) u := .of_tiles

theorem Logic.logArrival_c (g : Logic) (off n : Nat) : (g.logArrival off n).c = g.c := by
  unfold Logic.logArrival; split <;> rfl

theorem TileSt.markArrivals_c (x : TileSt) (off n : Nat) : (x.markArrivals off n).logic.c = x.logic.c := by
  simp only [TileSt.markArrivals]
  split
  · exact Logic.logArrival_c _ off n
  · rfl

theorem State.writeSlice_sameOps {s : State} (hn : s.noMigration) (t u : Tile) (off : Nat) (bs : List Byte) (b : Bool) :
    s.SameOps (s.writeSlice t off bs b) u := by
  unfold State.writeSlice
  split
  · exact .refl s u
  · dsimp only
    rw [State.logBin_none _ _ _ _ (by intro p; exact hn p)]
    refine State.SameOps.trans ?_ (State.wakeBlock_sameOps _ u _ _)
    exact State.modTile_sameOps s t u _ (fun x => congrArg CSt.s (TileSt.markArrivals_c _ off _))
      (fun x => congrArg CSt.ops (TileSt.markArrivals_c _ off _))

theorem State.writeSync_sameOps (s : State) (t u : Tile) (off : Nat) (bs : List Byte) : s.SameOps (s.writeSync t off bs) u := by
  have hbytes := State.modTile_sameOps s t u (fun x => { x with sync := Mem.write x.sync off bs })
  exact (hbytes.trans (State.wakeBlock_sameOps _ u (.sync t off) bs.length)).trans (State.noteSync_sameOps _ t u)

theorem State.setEntryBit_tiles (s : State) (e bit : Nat) : (s.setEntryBit e bit).tiles = s.tiles := by
  unfold State.setEntryBit; dsimp only; split <;> rfl

theorem State.setEntryBit_noMigration {s : State} (hn : s.noMigration) (e bit : Nat) : (s.setEntryBit e bit).noMigration := by
  intro p; rw [State.setEntryBit_part]; exact hn p

theorem State.modInst_noMigration {s : State} (hn : s.noMigration) (p : PartId) (n : Nat) (f : Inst → Inst) :
    (s.modInst p n f).noMigration := State.modPart_noMigration hn p _ (fun _ => rfl)

theorem State.writeBulk_sameOps {s : State} (hn : s.noMigration) (t u : Tile) (p : PartId) (va pa e : Nat) (bs : List Byte) (b : Bool) :
    s.SameOps (s.writeBulk (some t) p va pa e bs b) u := by
  unfold State.writeBulk
  split
  · exact .refl s u
  · dsimp only
    generalize h1 : ({ s with bulk := Mem.write s.bulk pa bs, bulkPoison := poisonAfter s.bulkPoison pa bs.length b } : State) = s1
    have n1 : s1.noMigration := by rw [← h1]; exact hn
    generalize h2 : (if e = 0 then s1 else s1.setEntryBit e 6) = s2
    have n2 : (s2.dropLines t p va bs.length).noMigration := by
      rw [← h2]; split
      · exact n1
      · exact State.setEntryBit_noMigration n1 e 6
    have t2 : s2.tiles = s.tiles := by
      rw [← h2, ← h1]; split
      · rfl
      · exact State.setEntryBit_tiles _ e 6
    have k2 : s.SameOps (s2.dropLines t p va bs.length) u :=
      (State.SameOps.of_tiles t2).trans (State.dropLines_sameOps s2 t u p va _)
    split
    · rw [State.logPage_none _ _ _ _ (State.modInst_noMigration n2 _ _ _)]
      exact k2.trans .of_tiles
    · rw [State.logPage_none _ _ _ _ n2]
      exact k2

theorem State.homeWrite_sameOps {s : State} (hn : s.noMigration) (t u : Tile) (l : Loc) (bs : List Byte) (b : Bool) :
    s.SameOps (s.homeWrite (some t) l bs b) u := by
  cases l with
  | slice v o => exact State.writeSlice_sameOps hn v u o bs b
  | sync v o => exact State.writeSync_sameOps s v u o bs
  | bulk p va pa e st => exact State.writeBulk_sameOps hn t u p va pa e bs b
  | fabric p d o => exact .of_tiles
  | host p o e =>
    refine .of_tiles ?_
    unfold State.homeWrite; dsimp only
    split
    · rfl
    · split
      · rfl
      · exact State.setEntryBit_tiles _ e 6

theorem State.amoLines_sameOps (s : State) (t u : Tile) (l : Loc) : s.SameOps (s.amoLines t l) u := by
  cases l with
  | bulk p va pa e st => exact State.dropLines_sameOps s t u p va 8
  | slice v o => exact .refl s u
  | sync v o => exact .refl s u
  | host p b e => exact .refl s u
  | fabric p d o => exact .refl s u

/-! ## What an atomic writes (R120) -/

/-- The value that an atomic which performs a write leaves at its home: of the old word `m` and the operand `b`. -/
def amoValue (op : AmoOp) (m b : Word) : Word :=
  match op with
  | .add => m + b
  | .swp => b
  | .cas => b
  | .max => BitVec.ofInt 64 (max m.toInt b.toInt)
  | .min => BitVec.ofInt 64 (min m.toInt b.toInt)
  | .or => m ||| b
  | .and => m &&& b

theorem ofInt_max_toInt (m b : Word) : BitVec.ofInt 64 (max m.toInt b.toInt) = if m.toInt ≤ b.toInt then b else m := by
  rw [Int.max_def]; split <;> exact BitVec.ofInt_toInt

theorem ofInt_min_toInt (m b : Word) : BitVec.ofInt 64 (min m.toInt b.toInt) = if m.toInt ≤ b.toInt then m else b := by
  rw [Int.min_def]; split <;> exact BitVec.ofInt_toInt

theorem amoNew_miss {op : AmoOp} {m e : Word} (h : op = .cas ∧ m ≠ e) (b : Word) : amoNew op m b e = none := by
  obtain ⟨rfl, hm⟩ := h
  exact if_neg hm

theorem amoNew_writes {op : AmoOp} {m e : Word} (h : ¬ (op = .cas ∧ m ≠ e)) (b : Word) :
    amoNew op m b e = some (amoValue op m b) := by
  cases op with
  | cas => exact if_pos (Decidable.not_not.1 fun hm => h ⟨rfl, hm⟩)
  | max => exact congrArg some (ofInt_max_toInt m b).symm
  | min => exact congrArg some (ofInt_min_toInt m b).symm
  | add => rfl
  | swp => rfl
  | or => rfl
  | and => rfl

theorem State.homeBytes_length (s : State) (l : Loc) (n : Nat) : (s.homeBytes l n).length = n := by
  cases l <;> simp [State.homeBytes, FabricSt.remoteRead]

theorem State.wordAt_homeBytes (s : State) (l : Loc) : wordAt (s.homeBytes l 8) 0 8 = BitVec.ofNat 64 (leNat (s.homeBytes l 8)) := by
  unfold wordAt fieldAt
  rw [List.drop_zero, List.take_of_length_le (Nat.le_of_eq (State.homeBytes_length s l 8))]

theorem State.amoAt_old (s : State) (t : Tile) (l : Loc) (op : AmoOp) (b e : Word) (p : Bool) :
    (s.amoAt t l op b e p).1 = BitVec.ofNat 64 (leNat (s.homeBytes l 8)) := by
  rw [← State.wordAt_homeBytes]
  unfold State.amoAt; dsimp only; split <;> rfl

theorem State.amoAt_miss {s : State} {l : Loc} {op : AmoOp} {e : Word}
    (h : op = .cas ∧ BitVec.ofNat 64 (leNat (s.homeBytes l 8)) ≠ e) (t : Tile) (b : Word) (p : Bool) :
    (s.amoAt t l op b e p).2 = s.amoLines t l := by
  unfold State.amoAt; dsimp only
  rw [State.wordAt_homeBytes, amoNew_miss h]

theorem State.amoAt_writes {s : State} {l : Loc} {op : AmoOp} {e : Word}
    (h : ¬ (op = .cas ∧ BitVec.ofNat 64 (leNat (s.homeBytes l 8)) ≠ e)) (t : Tile) (b : Word) (p : Bool) :
    (s.amoAt t l op b e p).2 =
      (s.amoLines t l).homeWrite (some t) l (leBytes 8 (amoValue op (BitVec.ofNat 64 (leNat (s.homeBytes l 8))) b).toNat) p := by
  unfold State.amoAt; dsimp only
  rw [State.wordAt_homeBytes, amoNew_writes h]

theorem State.amoAt_sameOps {s : State} (hn : s.noMigration) (t u : Tile) (l : Loc) (op : AmoOp) (b e : Word) (p : Bool) :
    s.SameOps (s.amoAt t l op b e p).2 u := by
  have hlines := State.amoLines_sameOps s t u l
  by_cases h : op = .cas ∧ BitVec.ofNat 64 (leNat (s.homeBytes l 8)) ≠ e
  · rw [State.amoAt_miss h]; exact hlines
  · rw [State.amoAt_writes h]
    exact hlines.trans (State.homeWrite_sameOps ((State.amoLines_sameHomes s t u l).noMigration hn) t u l _ p)

/-! ## `wrote` and states with the same bytes -/

theorem wrote.after {s s' t : State} {l : Loc} {bs : List Byte} (h : wrote s' t l bs) (k : sameBytes s s') : wrote s t l bs :=
  ⟨h.1, fun x hx hl => (h.2 x hx hl).trans (k x)⟩

theorem wrote.before {s t t' : State} {l : Loc} {bs : List Byte} (h : wrote s t l bs) (k : sameBytes t t') : wrote s t' l bs :=
  ⟨fun i x hi hx hl => (k x).trans (h.1 i x hi hx hl), fun x hx hl => (k x).trans (h.2 x hx hl)⟩

/-- The bytes that an atomic leaves. -/
theorem State.amoAt_bytes {s : State} {t : Tile} (hn : s.noMigration) (hm : s.memOk) (ho : s.hostOpen t) (l : Loc) (op : AmoOp)
    (b e : Word) (p : Bool) :
    let m := BitVec.ofNat 64 (leNat (s.homeBytes l 8))
    if op = .cas ∧ m ≠ e then sameBytes s (s.amoAt t l op b e p).2
    else wrote s (s.amoAt t l op b e p).2 l (leBytes 8 (amoValue op m b).toNat) := by
  intro m
  have hlines := State.amoLines_sameHomes s t t l
  obtain ⟨hup, hblocked⟩ := hlines.hostOpen ho
  split
  case isTrue h => rw [State.amoAt_miss h]; exact hlines.sameBytes
  case isFalse h =>
    rw [State.amoAt_writes h]
    refine (State.homeWrite_wrote _ (some t) l _ p (hlines.noMigration hn) (hlines.memOk hm) hup ?_).after hlines.sameBytes
    rintro _ ⟨⟩
    exact hblocked

/-! ## What a returning access leaves -/

theorem State.lift_sameOps (s : State) (t u : Tile) (sc : BitVec 3) : s.SameOps (s.lift t sc) u := by
  unfold State.lift; dsimp only
  split <;> split
  · exact (State.modLogic_sameOps s t u _).trans (State.emptyLines_sameOps _ t u)
  · exact State.emptyLines_sameOps s t u
  · exact State.modLogic_sameOps s t u _
  · exact .refl s u

theorem State.lift_sameBytes (s : State) (t : Tile) (sc : BitVec 3) : sameBytes s (s.lift t sc) := by
  unfold State.lift; dsimp only
  split <;> split
  · exact (State.modLogic_sameBytes s t _).trans (State.emptyLines_sameBytes _ t)
  · exact State.emptyLines_sameBytes s t
  · exact State.modLogic_sameBytes s t _
  · exact .refl s

theorem State.acquireIf_sameOps (s : State) (t u : Tile) (o : BitVec 2) (sc : BitVec 3) : s.SameOps (s.acquireIf t o sc) u := by
  unfold State.acquireIf
  split
  · exact (State.modLogic_sameOps s t u Logic.forget).trans (State.lift_sameOps _ t u sc)
  · exact .refl s u

theorem State.acquireIf_sameBytes (s : State) (t : Tile) (o : BitVec 2) (sc : BitVec 3) : sameBytes s (s.acquireIf t o sc) := by
  unfold State.acquireIf
  split
  · exact (State.modLogic_sameBytes s t _).trans (State.lift_sameBytes _ t sc)
  · exact .refl s

theorem State.acquireFlag_sameOps (s : State) (t u : Tile) (o : BitVec 2) (sc : BitVec 3) (weak : Bool) :
    s.SameOps (s.acquireFlag t o sc weak) u := by
  unfold State.acquireFlag
  split
  · exact State.lift_sameOps s t u sc
  · exact State.acquireIf_sameOps s t u o sc

theorem State.acquireFlag_sameBytes (s : State) (t : Tile) (o : BitVec 2) (sc : BitVec 3) (weak : Bool) :
    sameBytes s (s.acquireFlag t o sc weak) := by
  unfold State.acquireFlag
  split
  · exact State.lift_sameBytes s t sc
  · exact State.acquireIf_sameBytes s t o sc

theorem State.cReturn_sameBytes (s : State) (t : Tile) (o : COp) (v : Word) (p w : Bool) : sameBytes s (s.cReturn t o v p w) := by
  unfold State.cReturn
  split
  · exact State.modLogic_sameBytes s t _
  · exact (State.modC_sameBytes s t _).trans (State.acquireFlag_sameBytes _ t _ _ w)

/-- The value that a running task's access returns stands in its register, and C's accesses are as before. -/
theorem State.cReturn_returns {s : State} {t : Tile} (hf : (s.tile t).freezing = none) (o : COp) (v : Word) (p w : Bool) :
    ((s.cReturn t o v p w).c t).ops = (s.c t).ops ∧
      ∀ r, (s.cReturn t o v p w).sr t r = if r ≠ 0 ∧ r = o.dst then v else s.sr t r := by
  have hret : s.cReturn t o v p w = (s.modC t (fun c => c.putP o.dst v p)).acquireFlag t o.ord o.scope w := by
    unfold State.cReturn; rw [hf]; rfl
  have hacq := State.acquireFlag_sameOps (s.modC t (fun c => c.putP o.dst v p)) t t o.ord o.scope w
  have hput : (s.modC t (fun c => c.putP o.dst v p)).c t = (s.c t).putP o.dst v p := by rw [State.modC_c, if_pos rfl]
  rw [hret]
  refine ⟨?_, fun r => State.sr_putP s _ t o.dst v p ?_ r⟩
  · rw [hacq.ops, hput, CSt.putP_ops]
  · rw [hacq.regs, hput]

/-! ## The atomic performed (R121) -/

/-- Access `k` has left C: it is outstanding no longer, and no value read ahead of it is taken from then on (R129). -/
def State.cTaken (s : State) (t : Tile) (k : Nat) (o : COp) : State :=
  (s.fabricDone t o.loc).modC t (fun c => { c with ops := c.ops.eraseIdx k, early := earlyBut c.early o.loc o.width })

theorem State.fabricDone_tiles (s : State) (t : Tile) (l : Loc) : (s.fabricDone t l).tiles = s.tiles := by cases l <;> rfl

theorem State.cTaken_sameHomes (s : State) (t u : Tile) (k : Nat) (o : COp) : s.SameHomes (s.cTaken t k o) u :=
  (State.fabricDone_sameHomes s t u o.loc).trans (State.modC_sameHomes _ t u _)

theorem State.cTaken_c (s : State) (t : Tile) (k : Nat) (o : COp) :
    (s.cTaken t k o).c t = { s.c t with ops := (s.c t).ops.eraseIdx k, early := earlyBut (s.c t).early o.loc o.width } := by
  have hc : (s.fabricDone t o.loc).c t = s.c t := by
    simp only [State.c, State.logic, State.tile, State.fabricDone_tiles]
  unfold State.cTaken; rw [State.modC_c, if_pos rfl, hc]

theorem State.cTaken_freezing (s : State) (t : Tile) (k : Nat) (o : COp) :
    ((s.cTaken t k o).tile t).freezing = (s.tile t).freezing := by
  unfold State.cTaken State.modC
  rw [State.modLogic_tile, if_pos rfl]
  simp only [State.tile, State.fabricDone_tiles]

theorem State.cPerform_amo {o : COp} {op : AmoOp} {b e : Word} (ho : o.kind = .amo op b e) (s : State) (t : Tile) (k : Nat)
    (ahead : Bool) : s.cPerform t k o ahead =
      (((s.cTaken t k o).ownWrite t o.loc o.width).amoAt t o.loc op b e o.poison).2.cReturn t o
        (((s.cTaken t k o).ownWrite t o.loc o.width).amoAt t o.loc op b e o.poison).1
        ((s.cTaken t k o).poisonedAt o.loc o.width) := by
  unfold State.cPerform; rw [ho]; rfl

/-- LOAD_RESPONSE performs an access of C that returns a value, waits for no bin and is held back by nothing. -/
theorem exec_loadResponse_performs {s : State} {k : Nat} {o : COp} (hsq : s.curSq = .c) (hk : s.ev.k = k) (hv : s.ev.v = 0)
    (hop : (s.c s.cur).ops[k]? = some o) (hret : o.returns = true) (hready : s.cReady s.cur k o = true)
    (hturn : s.fabricTurn s.cur o.loc = true) (hfull : s.cFull o = true) :
    exec .loadResponse s = .next (s.cPerform s.cur k o false) := by
  have htry : s.cTry s.cur k true false = s.cPerform s.cur k o false := by
    unfold State.cTry; rw [hop]; simp only [hret, hready, hturn, hfull]; rfl
  change execLoadResponse s = _
  unfold execLoadResponse
  rw [hsq, hk, hv, ← htry]; rfl

/-- What a performed atomic leaves: the old word in its register, one access fewer, and the new word at its home. -/
theorem State.cPerform_amo_results {s : State} {t : Tile} {k : Nat} {o : COp} {op : AmoOp} {b e : Word} (hkind : o.kind = .amo op b e)
    (hn : s.noMigration) (hm : s.memOk) (ho : s.hostOpen t) (hf : (s.tile t).freezing = none) :
    let m := BitVec.ofNat 64 (leNat (s.homeBytes o.loc 8))
    let u := s.cPerform t k o false
    (u.c t).ops = (s.c t).ops.eraseIdx k ∧ (∀ r, u.sr t r = if r ≠ 0 ∧ r = o.dst then m else s.sr t r) ∧
      if op = .cas ∧ m ≠ e then sameBytes s u else wrote s u o.loc (leBytes 8 (amoValue op m b).toNat) := by
  intro m u
  let s1 := s.cTaken t k o
  let s2 := s1.ownWrite t o.loc o.width
  let s3 := (s2.amoAt t o.loc op b e o.poison).2
  have h2 : s.SameHomes s2 t := (State.cTaken_sameHomes s t t k o).trans (State.ownWrite_sameHomes s1 t t o.loc o.width)
  have k3 : s1.SameOps s3 t :=
    (State.ownWrite_sameOps s1 t t o.loc o.width).trans (State.amoAt_sameOps (h2.noMigration hn) t t o.loc op b e o.poison)
  have hu : u = s3.cReturn t o m (s1.poisonedAt o.loc o.width) := by
    have hold : (s2.amoAt t o.loc op b e o.poison).1 = m := by rw [State.amoAt_old, h2.homeBytes]
    rw [← hold]; exact State.cPerform_amo hkind s t k false
  have hf3 : (s3.tile t).freezing = none := by rw [k3.freezing, State.cTaken_freezing, hf]
  obtain ⟨hops, hregs⟩ := State.cReturn_returns hf3 o m (s1.poisonedAt o.loc o.width) false
  have hsr : ∀ r, s3.sr t r = s.sr t r := fun r => by unfold State.sr; rw [k3.regs, State.cTaken_c]
  have hlast : sameBytes s3 u := by rw [hu]; exact State.cReturn_sameBytes s3 t o m _ false
  have hbytes := State.amoAt_bytes (h2.noMigration hn) (h2.memOk hm) (h2.hostOpen ho) o.loc op b e o.poison
  rw [h2.homeBytes] at hbytes
  refine ⟨?_, fun r => ?_, ?_⟩
  · rw [hu, hops, k3.ops, State.cTaken_c]
  · rw [hu, hregs, hsr]
  · split
    case isTrue h => rw [if_pos h] at hbytes; exact (h2.sameBytes.trans hbytes).trans hlast
    case isFalse h => rw [if_neg h] at hbytes; exact (hbytes.after h2.sameBytes).before hlast

/-- Settles O13: the atomic is performed by `State.cPerform`, whose register, accesses and bytes `State.cPerform_amo_results` gives. -/
theorem atomicResults : Obligations.AtomicResults := by
  intro s k o op b e hsq hk hop hm hn ho hkind _ hv hf hready hturn m
  have hret : o.returns = true := by unfold COp.returns; rw [hkind]
  have hfull : s.cFull o = true := by unfold State.cFull; rw [hkind]
  exact ⟨_, exec_loadResponse_performs hsq hk hv hop hret hready hturn hfull, State.cPerform_amo_results hkind hn hm ho hf⟩

end Sys2Proof.Machine
end
